-- ==== Sys2Proof/Word.lean ====
section
/-! DEFINITION. The word types of the device and the shape of a sparse store.
Registers, addresses being computed, record bytes and pin levels that the manual adds, masks or
numbers bit by bit are bit vectors; everything else is an ordinary Lean type. -/

namespace Sys2Proof

/-- A 32-bit register or record word (R13, R48). -/
abbrev W32 := BitVec 32
/-- A 64-bit word, such as a seed, a pattern or an axis value (R366, R436). -/
abbrev W64 := BitVec 64
/-- One byte of memory (R12). -/
abbrev Byte := BitVec 8
/-- A sparse store: the listed keys rise strictly and no listed value equals what an unlisted key
reads as, so that equal contents are equal data. -/
abbrev SMap (α : Type) := List (Nat × α)

/-! ### What a command carries -/

/-- What a host write carries: 32 bits, and for a write of 64 bits the byte enables and the data of its upper half (R49). -/
structure HostData where
  low : W32
  upper : Option (BitVec 4 × W32)
  deriving DecidableEq, Repr

/-- What a host read reaches: BAR0, BAR2 or BAR4, an offset in it, and whether it is of 64 bits (R49). -/
structure HostRead where
  bar : Fin 3
  off : BitVec 24
  wide : Bool
  deriving DecidableEq, Repr

/-- What an access on the register path is: a write or a read, by the TAP or by the host (R75, R681). -/
structure AccessKind where
  write : Bool
  tap : Bool
  deriving DecidableEq, Repr

/-- A gPTP event message that passes a MAC (R403), with what it tells or what its Follow_Up tells, in nanoseconds: a Sync that
arrives, with its precise origin time, corrections included; a delay request that departs; its answer that arrives, with the
times the peer received the request and answered it. -/
inductive GptpEvent where
  | sync (origin : W64)
  | delayRequest
  | delayAnswer (received answered : W64)
  deriving DecidableEq, Repr

end Sys2Proof
end

