-- ==== Sys2Proof/Syntax.lean ====
section
/-! DEFINITION. The commands of the block: one constructor for each row of spec/opcode_table.json, in
the table's order. Operands name the instance (core, context, axis, MAC, chain, region, window, pin)
and carry what reaches the device from outside: written data, pin levels, measured values. -/

namespace Sys2Proof

/-- The operations and events of the device. -/
inductive Instr where
  -- registers
  | registerWrite (off : BitVec 24) (be : BitVec 4) (data : HostData)
  | bitAliasWrite (off : BitVec 20) (be : BitVec 4) (data : HostData)
  | sqClearWrite (off : BitVec 24) (be : BitVec 4) (data : HostData)
  | glbTickLoRead
  | ttbAxPosLoRead (at_ : HostRead)
  | ethPtpLoRead (at_ : HostRead)
  | pwrRtcLoRead
  | regTimeout (off : BitVec 24) (kind : AccessKind)
  | glbSnap
  | snapshotCopy
  | cfgCapture
  | cfgCrcPassEnd
  | berthCommit
  | berthConfirm
  | berthReturnPrev
  | startWatchdogExpiry
  | xspiReadWord
  | xspiProgramWord
  | xspiErase
  | xspiOpDone (ok : Bool)
  | resInjectArm (c : Fin 4)
  -- rings and jobs
  | tailDoorbell (k : Fin 8) (be : BitVec 4) (data : W32)
  | headDoorbell (k : Fin 8) (be : BitVec 4) (data : W32)
  | descriptorFetch (k : Fin 8)
  | jobNop (k : Fin 8) (sub : W32)
  | jobRun (k : Fin 8) (sub : W32)
  | jobCopy (k : Fin 8) (sub : W32)
  | jobFill (k : Fin 8) (sub : W32)
  | jobFence (k : Fin 8) (sub : W32)
  | jobWaitSeq (k : Fin 8) (sub : W32)
  | jobWaitPos (k : Fin 8) (sub : W32)
  | jobWaitLanding (k : Fin 8) (sub : W32)
  | jobWaitGen (k : Fin 8) (sub : W32)
  | jobWaitTimeout (k : Fin 8) (sub : W32)
  | jobWorld (k : Fin 8) (sub : W32)
  | planTree (k : Fin 8) (sub : W32)
  | planRoadmapGrow (k : Fin 8) (sub : W32)
  | planRoadmapQuery (k : Fin 8) (sub : W32)
  | planRepair (k : Fin 8) (sub : W32)
  | planLoadChain (k : Fin 8) (sub : W32)
  | testPoolMbist (k : Fin 8) (sub : W32) (failure : BitVec 8) (off : W32)
  | testBasinMbist (k : Fin 8) (sub : W32) (failure : BitVec 8) (off : W32)
  | testStoreMbist (k : Fin 8) (sub : W32) (failure : BitVec 8) (off : W32)
  | testArrayBist (k : Fin 8) (sub : W32) (failure : BitVec 8) (off : W32)
  | testGeyserBist (k : Fin 8) (sub : W32) (failure : BitVec 8) (off : W32)
  | testCollisionBist (k : Fin 8) (sub : W32) (failure : BitVec 8) (off : W32)
  | testReadCheck (k : Fin 8) (sub : W32) (failure : BitVec 8) (off : W32)
  | jobMoor (k : Fin 8) (sub : W32)
  | completionWrite (k : Fin 8)
  | irqCoalesceTimeout (k : Fin 8)
  | completionMirrorDrop (k : Fin 8)
  | hifCtxFlush (k : Fin 8)
  | hifCtxEnable (k : Fin 8)
  | hifCtxDisable (k : Fin 8)
  -- sequencer steps
  | stepLoadTile (c : Fin 4)
  | stepSwap (c : Fin 4)
  | stepStream (c : Fin 4)
  | stepStreamTranspose (c : Fin 4)
  | stepDrain (c : Fin 4)
  | vecAdd (c : Fin 4)
  | vecSub (c : Fin 4)
  | vecMul (c : Fin 4)
  | vecFma (c : Fin 4)
  | vecMin (c : Fin 4)
  | vecMax (c : Fin 4)
  | vecAbs (c : Fin 4)
  | vecNeg (c : Fin 4)
  | vecCmp (c : Fin 4)
  | vecSel (c : Fin 4)
  | vecScale2 (c : Fin 4)
  | vecCvt (c : Fin 4)
  | vecRowadd (c : Fin 4)
  | vecRowread (c : Fin 4)
  | stepGey (c : Fin 4)
  | geyRreduce (c g : Fin 4) (dst sa : Fin 16) (imm : BitVec 12)
  | geyLookup (c g : Fin 4) (dst sa : Fin 16) (imm : BitVec 12)
  | geyHorner (c g : Fin 4) (dst sa : Fin 16) (imm : BitVec 12)
  | geyMul (c g : Fin 4) (dst sa sb : Fin 16)
  | geyAdd (c g : Fin 4) (dst sa sb : Fin 16)
  | geySelect (c g : Fin 4) (dst sa sb : Fin 16)
  | geyClamp (c g : Fin 4) (dst sa : Fin 16) (imm : BitVec 12)
  | geyExpadj (c g : Fin 4) (dst sa sb : Fin 16)
  | geyEnd (c g : Fin 4)
  | stepQuant (c : Fin 4)
  | stepStoreLinear (c : Fin 4)
  | stepStoreUnskew (c : Fin 4)
  | stepDmaLinear (c : Fin 4)
  | stepDmaSkew (c : Fin 4)
  | stepDmaSkewT (c : Fin 4)
  | stepDmaUnskew (c : Fin 4)
  | stepMoorPoint (c : Fin 4)
  | stepWait (c : Fin 4)
  | stepWaitTimeout (c : Fin 4)
  | stepSignal (c : Fin 4)
  | stepSurveyCaldera (c : Fin 4)
  | stepSurveyPool (c : Fin 4)
  | stepFence (c : Fin 4)
  | jumpAlways (c : Fin 4)
  | jumpDecNz (c : Fin 4)
  | jumpSet (c : Fin 4)
  | stepEnd (c : Fin 4)
  -- translation and mooring
  | faultRecordWrite (k : Fin 8)
  | mmuInvalidate
  | mmuRootWrite (k : Fin 8) (high : Bool) (data : W32)
  | castRetry (k : Fin 8)
  | castAbort (k : Fin 8)
  | castOffAuto (k : Fin 8) (sub : W32)
  | quantumExpiry (c : Fin 4)
  -- errors
  | errorRecordWrite
  | errMirrorDrop
  | errInject
  | errInjectAct
  | ferryDelivery (src dst : Fin 9) (launchPs : Nat) (parityOk : Bool)
  | regionReinitDone (r : Fin 9)
  | hostAccessTimeout (k : Fin 8) (sub : W32)
  | pcieCe (status : W32)
  | pcieLinkDown
  | pcieLinkUp (speed : Fin 5) (width : Fin 4)
  | pcieConfigRequest (word : BitVec 10)
  | scrubPatrolRead (addr : BitVec 40)
  | hbmRefresh (delayed : Bool)
  | hbmHot (st : Fin 2) (temp : BitVec 16)
  -- timetable
  | encoderSample (n : Fin 8) (a b : Bool)
  | encZEdge (n : Fin 8)
  | axisSet (a : Fin 4)
  | ssiRead (a : Fin 4)
  | ssiReadDone (a : Fin 4) (raw : BitVec 48)
  | mainsEdge (n : Fin 2)
  | gptpEventMessage (m : Fin 2) (event : GptpEvent)
  | actionDoorbell
  | actionCapture
  | fsyncEnd (n : Fin 4)
  | actionEmitOne
  | actionEmitRun
  | actionEmitStop
  | actionOutput
  | actionSteps
  | actionCheck
  | actionWindowOpen
  | actionWindowClose
  | deferredEntryAct
  | windowTimeout (w : Fin 8)
  | ttbEntryWrite
  | ttbEntryRead
  | emissionInstant (c : Fin 4)
  | frameTransmit (m : Fin 2)
  | qbvEntryWrite (m : Fin 2)
  | qbvSwap (m : Fin 2)
  | qbvCycleStart (m : Fin 2)
  | templateWordWrite (data : W32)
  | chainResume (c : Fin 4)
  | chainFlush (c : Fin 4)
  | feederCommit (c : Fin 4)
  | frameLanding (n : Fin 4) (bytes : List Byte) (bad : Bool)
  | holdNAssert
  | holdNRelease
  -- clocks
  | freqChangeGo (r : Fin 5)
  | freqChangeStart (r : Fin 5)
  | glideStep (r : Fin 5)
  | shortStopEnd (r : Fin 5)
  | droopTrip (r : Fin 8)
  | droopClear (r : Fin 8)
  | canaryFail (r : Fin 8)
  | thermHi (r : Fin 8) (temp : BitVec 16)
  | thermTrip (r : Fin 8) (temp : BitVec 16)
  | generatorUnlock (r : Fin 8)
  | adaptiveStep (r : Fin 5)
  -- power
  | pmbEnable (addr : BitVec 7) (voutMode : BitVec 8)
  | voutPoll (readMv : BitVec 10)
  | pmbRetry
  | rtcLoad
  | pwrCtlWarm (key : BitVec 16)
  | porstNRise
  | brownout
  | wrstNRise (lowNs : Nat)
  | coldStart (stepFail : BitVec 4) (us : W32)
  | warmStart (us : W32)
  -- life cycle and keys
  | lcTransition (key : BitVec 16) (target : Fin 8)
  | keyProgram (key : BitVec 16) (slot : Fin 4)
  | keyRead (key : BitVec 16) (slot : Fin 4)
  | keyRevoke (key : BitVec 16) (slot : Fin 4)
  | fuseOpDone (ok : Bool)
  | tokenCheck
  | tokenCheckDone
  -- JTAG
  | jtagExtest
  | jtagIdcode
  | jtagSamplePreload
  | jtagClamp
  | jtagHighz
  | jtagBypass (code : BitVec 8)
  | jtagRegacc (dr : BitVec 64)
  | jtagScandump
  -- power, supplies and links, continued in the table's order
  | porstNFall
  | backupSupplyDrop (mv : BitVec 12)
  | xtalStop
  | xtalStart
  | refclkReturn
  | mainsLoopUnlock (n : Fin 2)
  | gptpLockLoss (m : Fin 2)
  | stepPulse (n : Fin 8)
  | csiFrameStart (n : Fin 4) (vc : Fin 4) (dataType : BitVec 6)
  | tapReset
  | msixTableWrite (off : BitVec 16) (be : BitVec 4) (data : W32)
  deriving DecidableEq, Repr

end Sys2Proof
end

