-- ==== Sys2Proof/Decode.lean ====
section
/-! DEFINITION. The command a word of the table spells. No row of spec/opcode_table.json gives bits, so no word
spells one. -/

namespace Sys2Proof

/-- The command that the `nbits` low bits of `w` spell by the table's bits: none. -/
def decodeTableWord (_nbits _w : Nat) : Option Instr := none

end Sys2Proof
end

