-- ==== Sys2Proof/Config.lean ====
section
/-! DEFINITION. What one implementation fixes and the manual leaves open. Each is a constant with no
body: nothing in Lean can evaluate it, so a claim that holds, holds whatever it is. -/

namespace Sys2Proof.Config

/-- PLAN trigonometric unit (R334): sine (0) or cosine (1) of an FP32 word. -/
opaque planTrig : Nat → W32 → W32
/-- What a Geyser ROM function's microprogram ends with, before the final rounding (R250, R251): identifier, internal
format is FP32, argument word; the sign, the significand and the exponent of its last place. -/
opaque geyserRom : Nat → Bool → Nat → Bool × BitVec 32 × Int
/-- What a result beyond the Geyser's working format becomes (R250): 0 an infinity, 1 a NaN, 2 the
largest magnitude, of its sign. -/
opaque geyserOver : Fin 3
/-- Whether a result below the Geyser's working format becomes zero, or its smallest magnitude (R250). -/
opaque geyserUnder : Bool
/-- The integer a working register holds when its value is not one (R256): numerator and denominator
less one, or the code of an infinity or NaN. -/
opaque geyserInt : Int → Nat → Int
/-- FP32 word of working register Gi when a program starts, for i from 1 (R256). -/
opaque geyserInit : Nat → Nat
/-- Capsule query (R302, R303): the present bricks' leaves by brick number, the value of unknown
space, the origin and leaf size, and the capsule's end points and radius in world millimetres; an
FP32 clearance. -/
opaque clearance : List (Nat × List Nat) → List W32 → List W32 → W32
/-- Reach of a revolute joint (R321): chain description bytes and joint. -/
opaque reach : List Byte → Nat → W32
/-- Bricks a capsule query reaches (R316), from the same arguments as `clearance`. -/
opaque queryBricks : List (Nat × List Nat) → List W32 → List W32 → List Nat
/-- The shaper (R353, R354): path nodes, the splice state as numerator and denominator of the position, velocity and
acceleration of each joint, chain description, setpoint period code and the blend length at each node; the stretches of
constant jerk in order: numerator and denominator of the duration in seconds, those of each joint's jerk, and the place
(2e on edge e, 2n − 1 in the blend at node n). -/
opaque shape : List (List W32) → List ((Int × Nat) × (Int × Nat) × (Int × Nat)) → List Byte → Nat → List W32 →
  List ((Nat × Nat) × List (Int × Nat) × Nat)
/-- What the world unit does while a configuration of a check is evaluated, where a WORLD job may merge: nothing (0), its
merge begins (1), or begins and commits (2); by the tick, the checking job and the capsule queries it has spent. -/
opaque meanwhile : Nat → Nat → W32 → Nat → Fin 3
/-- Where PLAN keeps what it holds in the planner store, as a granule: the kind of thing and its number. -/
opaque storeCell : Nat → Nat → Nat
/-- Where a brick's home lies in HBM, as a burst, by brick and burst of the home. -/
opaque brickHome : Nat → Nat → Nat
/-- Whether the device takes a request record that lies in neither the basin nor the planner store (R335). -/
opaque planAnywhere : Bool
/-- RESULT of a ROADMAP_GROW that adds its samples (R344): R336 names no code for it. -/
opaque growResult : Byte
/-- The slave servo (R403): gPTP time in nanoseconds, the measured offset from the master, and the time the
servo holds after it. -/
opaque servo : Nat → Int → Nat
/-- Valid mains cycles, less one, after which the mains loop locks (R370: within 20). -/
opaque mainsLock : Fin 20
/-- Latency in picoseconds, at most 48 ns, of a crossing that touches a stretched region (R614): sender,
receiver and launch time. -/
opaque stretchedFerry : Nat → Nat → Nat → Fin 48001
/-- HBM training values (R654), by byte of the TRAINING field. -/
opaque trainingByte : Nat → Byte
/-- The device-defined bytes 64 to 65,535 of a save area (R525): context, SUBSEQ, byte. -/
opaque saveByte : Nat → W32 → Nat → Byte
/-- The header CRC of a berth passes (R84, R86): the listed bytes of its span. -/
opaque berthHeaderOk : List (Nat × Byte) → Bool
/-- A berth's required signature (R479): its public key's SHA-256, and whether its signature verifies;
none for an unsigned berth. -/
opaque berthSignature : List (Nat × Byte) → Option (List Byte × Bool)
/-- A berth's version (R84). -/
opaque berthVersion : List (Nat × Byte) → W32
/-- The resources a berth's images declare together (R470): PLAN_BYTES and TT_ENTRIES. -/
opaque berthNeeds : List (Nat × Byte) → Nat × Nat
/-- A berth's configuration script (R645 step 7): BAR0 offsets and data, in order. -/
opaque berthScript : List (Nat × Byte) → List (BitVec 24 × W32)
/-- The bytes of a berth's content that the loader copies into the load area (R646), by the listed bytes. -/
opaque berthLength : List (Nat × Byte) → Fin 62914561
/-- Millivolts over 1,750 below which the witness reads LOST (R656: 1.80 V ± 50 mV). -/
opaque witnessMv : Fin 101
/-- A byte of the retention SRAM, and the RTC, after their supply fell below 1.40 V (R656, R661). -/
opaque lostByte : Nat → Byte
opaque lostRtc : BitVec 48
/-- The reference ticks an update of the retention SRAM takes (R655). -/
opaque updateTicks : Nat
/-- What a failed self-test leaves in the memories it tests, by the tick (R648). -/
opaque testLeft : Nat → List (Nat × Byte)
/-- Of the fuses a fuse operation had to blow and could not all, those that read blown all the same, by the tick (R665). -/
opaque partBlown : Nat → BitVec 256
/-- How many bits SCANDUMP shifts out (R682). -/
opaque scanLength : Nat
/-- The flash's SFDP tables declare the 8D-8D-8D read (R714). -/
opaque sfdpOk : Bool
/-- The syndrome of a corrected SRAM error (R548), by granule address. -/
opaque syndrome : Nat → Byte
/-- A confirmation record's bytes (R90). -/
opaque confirmByte : Nat → Byte
/-- A PCIe configuration word beyond the identity of R419, by its number. -/
opaque configWord : Nat → W32
/-- The bits SCANDUMP shifts out (R682): their order is not defined. -/
opaque scanBit : Nat → Bool
/-- The WRST_N recognition time of this device in nanoseconds over 900 (R640: 900 to 1,100 ns). -/
opaque wrstNs : Fin 201
/-- How far a configuration CRC pass has read (R79): the pass's first tick and the ticks since; every
register whose key, 256 × slot + index, is smaller has been read. -/
opaque passPosition : Nat → Nat → Nat
/-- Ticks over 900 from a PWR_CTL write to its warm start (R643: 10 µs ± 1 µs). -/
opaque softWarm : Fin 201
/-- How the host answers an access to its memory (R548): the tick, the host bus address, and whether it is a
write; none for success, else the AER uncorrectable status of the error. -/
opaque hostError : Nat → Nat → Bool → Option W32
/-- The bit upsets of the memories, by tick: a device-physical address, and whether one bit of its granule is flipped or
two (R271, R272, R277). -/
opaque upset : Nat → Option (Nat × Fin 2)
/-- The cycles of a tick in which a unit waits for another that the model does not time against it, by tick and the
register that counts them. -/
opaque waitCycles : Nat → Nat → Fin 14
/-- What a regulator answers to VOUT_MODE (R636), by its PMBus address. -/
opaque voutMode : Nat → BitVec 8

end Sys2Proof.Config
end

