-- ==== Sys2Proof/Machine/Maps.lean ====
section
/-! DEFINITION. Reading and writing a sparse store (`SMap`) in its one canonical form, and the small
list helpers the rest of the model shares. -/

namespace Sys2Proof.Machine

/-- What key `k` of a sparse store reads as; `d` is what an unlisted key reads as. -/
def smGet {α : Type} (d : α) : SMap α → Nat → α
  | [], _ => d
  | (k', v) :: m, k => if k' = k then v else smGet d m k

/-- The store without key `k`. -/
def smErase {α : Type} : SMap α → Nat → SMap α
  | [], _ => []
  | (k', v) :: m, k => if k' = k then smErase m k else (k', v) :: smErase m k

/-- The store with `(k, v)` put in front of the first larger key. -/
def smInsert {α : Type} : SMap α → Nat → α → SMap α
  | [], k, v => [(k, v)]
  | (k', v') :: m, k, v => if k < k' then (k, v) :: (k', v') :: m else (k', v') :: smInsert m k v

/-- Write `v` at key `k`; a value equal to the default is not listed. -/
def smPut {α : Type} [DecidableEq α] (d : α) (m : SMap α) (k : Nat) (v : α) : SMap α :=
  if v = d then smErase m k else smInsert (smErase m k) k v

/-- The canonical form: keys strictly rising, no value equal to the default. -/
def smWf {α : Type} [DecidableEq α] (d : α) : SMap α → Bool
  | [] => true
  | [(_, v)] => decide (v ≠ d)
  | (k, v) :: (k', v') :: m => decide (v ≠ d) && decide (k < k') && smWf d ((k', v') :: m)

/-- The keys a sparse store lists, rising. -/
def smKeys {α : Type} (m : SMap α) : List Nat := m.map Prod.fst

/-- The part of a sparse store from key `a` up to `n` keys. -/
def smSlice {α : Type} (m : SMap α) (a n : Nat) : SMap α := m.filter (fun p => decide (a ≤ p.1) && decide (p.1 < a + n))

/-- `n` values of a sparse store from key `a`. -/
def smRead {α : Type} (d : α) (m : SMap α) (a n : Nat) : List α :=
  let sub := smSlice m a n
  (List.range n).map (fun i => smGet d sub (a + i))

/-- The keys of a run of values, from key `a`, without those that equal the default. -/
def smRun {α : Type} [DecidableEq α] (d : α) : Nat → List α → SMap α
  | _, [] => []
  | a, v :: vs => if v = d then smRun d (a + 1) vs else (a, v) :: smRun d (a + 1) vs

/-- Write a run of values from key `a`. -/
def smWrite {α : Type} [DecidableEq α] (d : α) (m : SMap α) (a : Nat) (l : List α) : SMap α :=
  m.filter (fun p => decide (p.1 < a)) ++ smRun d a l ++ m.filter (fun p => decide (a + l.length ≤ p.1))

/-- Insert a number into a rising list without repeats. -/
def natInsert (k : Nat) : List Nat → List Nat
  | [] => [k]
  | x :: xs => if k < x then k :: x :: xs else if k = x then x :: xs else x :: natInsert k xs

/-- Remove a number from a list. -/
def natErase (k : Nat) (l : List Nat) : List Nat := l.filter (fun x => decide (x ≠ k))

/-- The first element a test accepts, with its place in the list. -/
def findIdxFrom {α : Type} (p : α → Bool) : List α → Nat → Option (Nat × α)
  | [], _ => none
  | x :: xs, n => if p x then some (n, x) else findIdxFrom p xs (n + 1)

/-- The list with place `n` replaced (unchanged when there is no such place). -/
def setAt {α : Type} : List α → Nat → α → List α
  | [], _, _ => []
  | _ :: xs, 0, v => v :: xs
  | x :: xs, n + 1, v => x :: setAt xs n v

/-- `n` copies of running `f`, threading the state. -/
def iter {α : Type} (f : α → α) : Nat → α → α
  | 0, x => x
  | n + 1, x => iter f n (f x)

end Sys2Proof.Machine
end

