-- ==== Sys2Proof/Machine/Bits.lean ====
section
/-! DEFINITION. Bit fields of a word and little-endian bytes (R9, R12). -/

namespace Sys2Proof.Machine

/-- Bits [hi:lo] of a number. -/
def bitsOf (x hi lo : Nat) : Nat := (x / 2 ^ lo) % 2 ^ (hi - lo + 1)

/-- Bit `b` of a number, as a truth value. -/
def bitOf (x b : Nat) : Bool := decide ((x / 2 ^ b) % 2 = 1)

/-- The number with bits [hi:lo] replaced by the low bits of `v`. -/
def setBitsOf (x hi lo v : Nat) : Nat :=
  (x - bitsOf x hi lo * 2 ^ lo) + (v % 2 ^ (hi - lo + 1)) * 2 ^ lo

/-- Field [hi:lo] of a 32-bit word. -/
def fieldOf (w : W32) (hi lo : Nat) : Nat := bitsOf w.toNat hi lo

/-- The word with field [hi:lo] replaced. -/
def withField (w : W32) (hi lo v : Nat) : W32 := BitVec.ofNat 32 (setBitsOf w.toNat hi lo v)

/-- A mask of bits [hi:lo]. -/
def maskOf (hi lo : Nat) : W32 := BitVec.ofNat 32 ((2 ^ (hi - lo + 1) - 1) * 2 ^ lo)

/-- The number a little-endian byte string spells (R12). -/
def leNat : List Byte → Nat
  | [] => 0
  | b :: bs => b.toNat + 256 * leNat bs

/-- `n` little-endian bytes of a number (R12). -/
def natLE : Nat → Nat → List Byte
  | 0, _ => []
  | n + 1, x => BitVec.ofNat 8 x :: natLE n (x / 256)

/-- Bytes [lo .. lo+n-1] of a record as a little-endian number; bytes beyond the record read 0. -/
def recNat (r : List Byte) (lo n : Nat) : Nat := leNat ((r.drop lo).take n)

/-- A two's-complement reading of an `n`-bit number. -/
def toSigned (n x : Nat) : Int := if x % 2 ^ n ≥ 2 ^ (n - 1) then (x % 2 ^ n : Nat) - (2 ^ n : Nat) else (x % 2 ^ n : Nat)

/-- The `n`-bit two's-complement code of an integer. -/
def ofSigned (n : Nat) (x : Int) : Nat := (x % ((2 ^ n : Nat) : Int)).toNat

/-- The truth value as 0 or 1. -/
def b2n (b : Bool) : Nat := if b then 1 else 0

/-- `n` zero bytes. -/
def zeros (n : Nat) : List Byte := List.replicate n 0

/-- All bytes of the list are zero. -/
def allZero (l : List Byte) : Bool := l.all (fun b => decide (b = 0))

/-- Round `x` up to a multiple of `m`. -/
def alignUp (x m : Nat) : Nat := ((x + m - 1) / m) * m

/-- Ceiling of `x ÷ y`. -/
def ceilDiv (x y : Nat) : Nat := (x + y - 1) / y

end Sys2Proof.Machine
end

