-- ==== Sys2Proof/Machine/Exact.lean ====
section
/-! DEFINITION. Exact rational arithmetic: the value every rounding starts from (chapter "Number
formats, rounding and flags": arithmetic is exact until a result has to be stored). -/

namespace Sys2Proof.Machine

/-- An exact rational number `num ÷ (den + 1)`; the denominator is kept less one so that it is never
zero. Values are compared by `qLt` and its like, not by `=`. -/
structure Q where
  num : Int
  denPred : Nat
  deriving DecidableEq, Repr

/-- The denominator. -/
def Q.den (q : Q) : Nat := q.denPred + 1

/-- `n ÷ d`; a zero `d` is taken as 1 and is never asked for. -/
def qFrac (n : Int) (d : Nat) : Q := ⟨n, d - 1⟩

/-- An integer. -/
def qInt (n : Int) : Q := ⟨n, 0⟩

/-- Zero. -/
def qZero : Q := qInt 0

/-- `m × 2^e`. -/
def qDyadic (m : Int) (e : Int) : Q :=
  if e ≥ 0 then qInt (m * ((2 ^ e.toNat : Nat) : Int)) else qFrac m (2 ^ (-e).toNat)

/-- Sum. -/
def qAdd (a b : Q) : Q :=
  if a.den = b.den then qFrac (a.num + b.num) a.den
  else qFrac (a.num * b.den + b.num * a.den) (a.den * b.den)

/-- Negation. -/
def qNeg (a : Q) : Q := ⟨-a.num, a.denPred⟩

/-- Difference. -/
def qSub (a b : Q) : Q := qAdd a (qNeg b)

/-- Product. -/
def qMul (a b : Q) : Q := qFrac (a.num * b.num) (a.den * b.den)

/-- Quotient; the quotient by zero is zero and is never asked for. -/
def qDiv (a b : Q) : Q :=
  if b.num = 0 then qZero
  else if b.num > 0 then qFrac (a.num * b.den) (a.den * b.num.natAbs)
  else qFrac (-(a.num * b.den)) (a.den * b.num.natAbs)

/-- Magnitude. -/
def qAbs (a : Q) : Q := ⟨a.num.natAbs, a.denPred⟩

/-- `a < b`. -/
def qLt (a b : Q) : Bool := decide (a.num * b.den < b.num * a.den)

/-- `a ≤ b`. -/
def qLe (a b : Q) : Bool := decide (a.num * b.den ≤ b.num * a.den)

/-- `a = b` as numbers. -/
def qEq (a b : Q) : Bool := decide (a.num * b.den = b.num * a.den)

/-- The smaller of two. -/
def qMin (a b : Q) : Q := if qLt b a then b else a

/-- The larger of two. -/
def qMax (a b : Q) : Q := if qLt a b then b else a

/-- Largest integer not above `a`. -/
def qFloor (a : Q) : Int := a.num.fdiv a.den

/-- Nearest integer, ties to the even one. -/
def qRne (a : Q) : Int :=
  let f := qFloor a
  let r2 := 2 * (a.num - f * a.den)
  if r2 < a.den then f
  else if r2 > a.den then f + 1
  else if f % 2 = 0 then f else f + 1

/-- `floor(log2 a)` of a positive `a`. -/
def qLog2 (a : Q) : Int :=
  let n := a.num.natAbs
  let p : Int := (Nat.log2 n : Int) - (Nat.log2 a.den : Int)
  if qLe (qDyadic 1 p) a then p else p - 1

/-- `a × 2^e`. -/
def qScale2 (a : Q) (e : Int) : Q :=
  if e ≥ 0 then ⟨a.num * ((2 ^ e.toNat : Nat) : Int), a.denPred⟩
  else qFrac a.num (a.den * 2 ^ (-e).toNat)

/-- The sum of a list. -/
def qSum (l : List Q) : Q := l.foldl qAdd qZero

end Sys2Proof.Machine
end

