-- ==== Sys2Proof/Machine/Formats.lean ====
section
/-! DEFINITION. Number formats: how a word decodes, how an exact value rounds into each format, and
which flags the rounding raises (R93 to R130). -/

namespace Sys2Proof.Machine

/-- The formats, in the order of the FORMAT codes of R196. -/
inductive Fmt where
  | tp16 | bf16 | fp16 | tp8 | int8 | int4 | bell4 | tab4 | tp32 | fp32
  deriving DecidableEq, Repr

/-- FORMAT code (R196); codes 10 to 255 are reserved. -/
def fmtOfCode (c : Nat) : Option Fmt :=
  [Fmt.tp16, .bf16, .fp16, .tp8, .int8, .int4, .bell4, .tab4, .tp32, .fp32][c]?

/-- Width of an element in bits. -/
def Fmt.bits : Fmt → Nat
  | .tp16 | .bf16 | .fp16 => 16
  | .tp8 | .int8 => 8
  | .int4 | .bell4 | .tab4 => 4
  | .tp32 | .fp32 => 32

/-- Width of an element in bytes; 4-bit elements pack two to a byte (R101). -/
def Fmt.bytes (f : Fmt) : Nat := f.bits / 8

/-- A tapered format (R94). -/
def Fmt.isTp : Fmt → Bool
  | .tp8 | .tp16 | .tp32 => true
  | _ => false

/-- An IEEE format (R96). -/
def Fmt.isIeee : Fmt → Bool
  | .bf16 | .fp16 | .fp32 => true
  | _ => false

/-- A code format a rounding can produce (R100). -/
def Fmt.isCode : Fmt → Bool
  | .int8 | .int4 | .bell4 => true
  | _ => false

/-- A 4-bit format (R101, R721). -/
def Fmt.is4 (f : Fmt) : Bool := decide (f.bits = 4)

/-- What a word decodes to: not a number (a NaR, or a NaN that may be signalling), an infinity, a
signed zero, or a non-zero exact value. -/
inductive Val where
  | nan (signalling : Bool)
  | inf (neg : Bool)
  | zero (neg : Bool)
  | fin (q : Q)
  deriving DecidableEq, Repr

/-- The exact value as a `Val`; an exact zero carries no sign (R119). -/
def valOf (q : Q) : Val := if q.num = 0 then .zero false else .fin q

/-- The exact value of a finite `Val`. -/
def Val.q : Val → Q
  | .fin q => q
  | _ => qZero

/-- Neither an infinity nor a NaN. -/
def Val.isFinite : Val → Bool
  | .zero _ | .fin _ => true
  | _ => false

/-- A NaR or a NaN. -/
def Val.isNan : Val → Bool
  | .nan _ => true
  | _ => false

/-- The sign a value shows: negative values, −0 and −inf. -/
def Val.isNeg : Val → Bool
  | .inf n | .zero n => n
  | .fin q => decide (q.num < 0)
  | .nan _ => false

/-- The negated value. -/
def Val.neg : Val → Val
  | .nan s => .nan s
  | .inf n => .inf (!n)
  | .zero n => .zero (!n)
  | .fin q => .fin (qNeg q)

/-- The flags of a rounding step (R133): bit 0 OVF, 1 UNF, 2 INX, 3 INV, 4 NF. -/
abbrev Flags := BitVec 5
/-- OVF. -/
def fOVF : Flags := 1
/-- UNF. -/
def fUNF : Flags := 2
/-- INX. -/
def fINX : Flags := 4
/-- INV. -/
def fINV : Flags := 8
/-- NF. -/
def fNF : Flags := 16

/-- A word with the flags its rounding raised. -/
abbrev Rounded := Nat × Flags

/-! ### Tapered formats -/

/-- Length of the run of bits equal to `r` in the low `n` bits of `b`, from the top (R93). -/
def runLen (b : Nat) (r : Bool) : Nat → Nat
  | 0 => 0
  | n + 1 => if bitOf b n = r then runLen b r n + 1 else 0

/-- R93: decode an n-bit tapered word. -/
def decodeTp (n w : Nat) : Val :=
  if w = 0 then .zero false
  else if w = 2 ^ (n - 1) then .nan false
  else
    let neg := bitOf w (n - 1)
    let m := if neg then 2 ^ n - w else w
    let r := bitOf m (n - 2)
    let run := runLen m r (n - 1)
    let k : Int := if r then (run : Int) - 1 else -(run : Int)
    let restLen := (n - 1) - run - 1
    let rest := m % 2 ^ restLen
    let eBits := if restLen ≥ 2 then rest / 2 ^ (restLen - 2) else rest * 2 ^ (2 - restLen)
    let fLen := restLen - 2
    let f := rest % 2 ^ fLen
    let mag := qDyadic ((2 ^ fLen + f : Nat) : Int) (4 * k + (eBits : Int) - (fLen : Int))
    .fin (if neg then qNeg mag else mag)

/-- R104: round a non-zero exact value into an n-bit tapered word. -/
def encodeTp (n : Nat) (x : Q) : Rounded :=
  let a := qAbs x
  let lim : Int := 4 * ((n : Int) - 2)
  let sgn (w : Nat) : Nat := if x.num < 0 then (2 ^ n - w) % 2 ^ n else w
  if qLt (qDyadic 1 lim) a then (sgn (2 ^ (n - 1) - 1), fOVF ||| fINX)
  else if qLt a (qDyadic 1 (-lim)) then (sgn 1, fUNF ||| fINX)
  else
    let p := qLog2 a
    let k := p.fdiv 4
    let e := (p - 4 * k).toNat
    let regLen := if k ≥ 0 then k.toNat + 2 else (-k).toNat + 1
    let reg := if k ≥ 0 then 2 ^ (k.toNat + 2) - 2 else 1
    let fr := qSub (qScale2 a (n - p)) (qInt (2 ^ n : Nat))
    let fi := (qFloor fr).toNat
    let sticky := !(qEq fr (qInt fi))
    let str := (reg * 4 + e) * 2 ^ n + fi
    let len := regLen + 2 + n
    let keep := str / 2 ^ (len - (n - 1))
    let g := bitOf str (len - n)
    let t := decide (str % 2 ^ (len - n) ≠ 0) || sticky
    let keep' := if g && (t || bitOf keep 0) then keep + 1 else keep
    (sgn keep', if g || t then fINX else 0)

/-! ### IEEE formats -/

/-- Fraction bits and exponent bits of an IEEE format (R96). -/
def Fmt.ieeeFields : Fmt → Nat × Nat
  | .bf16 => (7, 8)
  | .fp16 => (10, 5)
  | _ => (23, 8)

/-- Exponent bias. -/
def Fmt.bias (f : Fmt) : Nat := 2 ^ (f.ieeeFields.2 - 1) - 1

/-- Subnormals of the format are flushed: always for FP32, under FTZ otherwise (R110, R115). -/
def Fmt.flushes (f : Fmt) (ftz : Bool) : Bool := decide (f = .fp32) || ftz

/-- The canonical NaN (R96, R98). -/
def Fmt.canonNan (f : Fmt) : Nat :=
  let (fb, eb) := f.ieeeFields
  (2 ^ eb - 1) * 2 ^ fb + 2 ^ (fb - 1)

/-- The infinity of a sign. -/
def Fmt.infWord (f : Fmt) (neg : Bool) : Nat :=
  let (fb, eb) := f.ieeeFields
  b2n neg * 2 ^ (fb + eb) + (2 ^ eb - 1) * 2 ^ fb

/-- The zero of a sign. -/
def Fmt.zeroWord (f : Fmt) (neg : Bool) : Nat :=
  let (fb, eb) := f.ieeeFields
  b2n neg * 2 ^ (fb + eb)

/-- Decode an IEEE word (R96, R97, R114, R115). -/
def decodeIeee (f : Fmt) (ftz : Bool) (w : Nat) : Val :=
  let (fb, eb) := f.ieeeFields
  let frac := w % 2 ^ fb
  let ex := (w / 2 ^ fb) % 2 ^ eb
  let neg := bitOf w (fb + eb)
  if ex = 2 ^ eb - 1 then
    if frac = 0 then .inf neg else .nan (!(bitOf frac (fb - 1)))
  else if ex = 0 then
    if frac = 0 || f.flushes ftz then .zero neg
    else
      let m := qDyadic (frac : Int) (1 - (f.bias : Int) - (fb : Int))
      .fin (if neg then qNeg m else m)
  else
    let m := qDyadic ((2 ^ fb + frac : Nat) : Int) ((ex : Int) - f.bias - fb)
    .fin (if neg then qNeg m else m)

/-- R106 to R110: round a non-zero exact value into an IEEE format. -/
def encodeIeee (f : Fmt) (ftz : Bool) (x : Q) : Rounded :=
  let (fb, eb) := f.ieeeFields
  let neg := decide (x.num < 0)
  let a := qAbs x
  let p := qLog2 a
  let emin : Int := 1 - f.bias
  let s := f.zeroWord neg
  if p < emin then
    if f.flushes ftz then (s, fUNF ||| fINX)
    else
      let scaled := qScale2 a ((fb : Int) - emin)
      let m := qRne scaled
      (s + m.toNat, if qEq scaled (qInt m) then 0 else fUNF ||| fINX)
  else
    let scaled := qScale2 a ((fb : Int) - p)
    let m := qRne scaled
    let mag := (p + f.bias).toNat * 2 ^ fb + (m - (2 ^ fb : Nat)).toNat
    if mag ≥ (2 ^ eb - 1) * 2 ^ fb then (f.infWord neg, fOVF ||| fINX)
    else (s + mag, if qEq scaled (qInt m) then 0 else fINX)

/-! ### Code formats -/

/-- The values of the BELL4 codes times 128 (R100, R103). -/
def bell4Times128 : List Int := [-128, -92, -64, -44, -28, -16, -7, 0, 6, 14, 24, 36, 52, 72, 96, 128]

/-- The exact value of a BELL4 code (R100). -/
def bell4Value (c : Nat) : Q := qFrac (bell4Times128.getD c 0) 128

/-- The code's range (R100): lowest and highest value of an integer code format. -/
def Fmt.intRange : Fmt → Int × Int
  | .int4 => (-8, 7)
  | _ => (-128, 127)

/-- R111: round into INT8 or INT4; the word is the two's-complement code. -/
def encodeInt (f : Fmt) (x : Q) : Rounded :=
  let (lo, hi) := f.intRange
  if qLt (qInt hi) x then (ofSigned f.bits hi, fOVF ||| fINX)
  else if qLt x (qInt lo) then (ofSigned f.bits lo, fOVF ||| fINX)
  else
    let m := qRne x
    (ofSigned f.bits m, if qEq x (qInt m) then 0 else fINX)

/-- The largest BELL4 code whose value is not above `w`, for a `w` of at least −1. -/
def bell4Floor (w : Q) : Nat :=
  ((List.range 16).filter (fun c => qLe (bell4Value c) w)).foldl Nat.max 0

/-- R112: round into BELL4. -/
def encodeBell4 (x : Q) : Rounded :=
  if qLt (bell4Value 15) x then (15, fOVF ||| fINX)
  else if qLt x (bell4Value 0) then (0, fOVF ||| fINX)
  else
    let lo := bell4Floor x
    if qEq (bell4Value lo) x then (lo, 0)
    else
      let dl := qSub x (bell4Value lo)
      let dh := qSub (bell4Value (lo + 1)) x
      if qLt dl dh then (lo, fINX)
      else if qLt dh dl then (lo + 1, fINX)
      else (if lo % 2 = 0 then lo else lo + 1, fINX)

/-! ### All formats -/

/-- Decode a word of any format; TAB4 has no value of its own and reads as its code. -/
def decode (f : Fmt) (ftz : Bool) (w : Nat) : Val :=
  match f with
  | .tp8 => decodeTp 8 w
  | .tp16 => decodeTp 16 w
  | .tp32 => decodeTp 32 w
  | .bf16 | .fp16 | .fp32 => decodeIeee f ftz w
  | .int8 => valOf (qInt (toSigned 8 w))
  | .int4 => valOf (qInt (toSigned 4 w))
  | .bell4 => valOf (bell4Value w)
  | .tab4 => valOf (qInt (w : Int))

/-- Round an exact non-zero value into any format (R104 to R112). -/
def roundQ (f : Fmt) (ftz : Bool) (x : Q) : Rounded :=
  match f with
  | .tp8 => encodeTp 8 x
  | .tp16 => encodeTp 16 x
  | .tp32 => encodeTp 32 x
  | .bf16 | .fp16 | .fp32 => encodeIeee f ftz x
  | .int8 | .int4 => encodeInt f x
  | .bell4 => encodeBell4 x
  | .tab4 => encodeInt .int4 x

/-- The NaR or canonical NaN of a format; the code that stands for it in a code format (R128, R213). -/
def nanWord : Fmt → Nat
  | .tp8 => 0x80
  | .tp16 => 0x8000
  | .tp32 => 0x80000000
  | .bf16 => Fmt.canonNan .bf16
  | .fp16 => Fmt.canonNan .fp16
  | .fp32 => Fmt.canonNan .fp32
  | .bell4 => 7
  | _ => 0

/-- The code an infinity converts into (R128, R213). -/
def infCode (f : Fmt) (neg : Bool) : Nat :=
  match f, neg with
  | .int8, false => 127
  | .int8, true => 0x80
  | .int4, false => 7
  | .int4, true => 8
  | .bell4, false => 15
  | _, _ => 0

/-- R128: write a value into a format with the flags of the conversion. A finite value rounds. -/
def convert (f : Fmt) (ftz : Bool) (v : Val) : Rounded :=
  match v with
  | .nan sig => (nanWord f, if sig || f.isCode then fINV else 0)
  | .inf neg =>
    if f.isTp then (nanWord f, fINV)
    else if f.isIeee then (f.infWord neg, 0)
    else (infCode f neg, fINV)
  | .zero neg => (if f.isIeee then f.zeroWord neg else if f = .bell4 then 7 else 0, 0)
  | .fin q => roundQ f ftz q

/-- R93, R96: the word holds a NaR, a NaN or an infinity (R133, NF). -/
def isNonFinite (f : Fmt) (w : Nat) : Bool := (f.isTp || f.isIeee) && !((decode f false w).isFinite)

/-- The sign and magnitude of an exact value as an unpacked operand (R147): value is
(−1)^s × m × 2^(e−11), m from 2,048 to 4,095. -/
structure Unpacked where
  s : Bool
  e : Int
  m : Nat
  deriving DecidableEq, Repr

/-- R147: unpack a finite operand; zero unpacks to zeros. -/
def unpack (q : Q) : Unpacked :=
  if q.num = 0 then ⟨false, 0, 0⟩
  else
    let a := qAbs q
    let e := qLog2 a
    ⟨decide (q.num < 0), e, (qFloor (qScale2 a (11 - e))).toNat⟩

/-- R174: the hi, mid and lo pieces of a TP32 or FP32 operand. -/
def splitPieces (q : Q) : List Q :=
  if q.num = 0 then [qZero, qZero, qZero]
  else
    let a := qAbs q
    let e := qLog2 a
    let s := (qFloor (qScale2 a (35 - e))).toNat
    let sg (x : Q) : Q := if q.num < 0 then qNeg x else x
    [sg (qDyadic (bitsOf s 35 24 : Nat) (e - 11)), sg (qDyadic (bitsOf s 23 12 : Nat) (e - 23)),
     sg (qDyadic (bitsOf s 11 0 : Nat) (e - 35))]

/-! ### FP32 helpers for units that compute in FP32 (R332 to R333, R395) -/

/-- The value of an FP32 word. -/
def f32 (w : W32) : Val := decodeIeee .fp32 false w.toNat

/-- Addition of two values with the IEEE special cases; the flags are those of the operation itself. -/
def vAdd (a b : Val) : Val × Flags :=
  let sig := (a = .nan true) || (b = .nan true)
  match a, b with
  | .nan _, _ | _, .nan _ => (.nan false, if sig then fINV else 0)
  | .inf n, .inf m => if n = m then (.inf n, 0) else (.nan false, fINV)
  | .inf n, _ => (.inf n, 0)
  | _, .inf m => (.inf m, 0)
  | .zero n, .zero m => (.zero (n && m), 0)
  | .zero _, .fin q => (.fin q, 0)
  | .fin q, .zero _ => (.fin q, 0)
  | .fin p, .fin q => (valOf (qAdd p q), 0)

/-- Multiplication of two values with the IEEE special cases. -/
def vMul (a b : Val) : Val × Flags :=
  let sig := (a = .nan true) || (b = .nan true)
  let sg := xor a.isNeg b.isNeg
  match a, b with
  | .nan _, _ | _, .nan _ => (.nan false, if sig then fINV else 0)
  | .inf _, .zero _ | .zero _, .inf _ => (.nan false, fINV)
  | .inf _, _ | _, .inf _ => (.inf sg, 0)
  | .zero _, _ | _, .zero _ => (.zero sg, 0)
  | .fin p, .fin q => (.fin (qMul p q), 0)

/-- The FP32 word of a value, rounded once. -/
def toF32 (v : Val) : W32 := BitVec.ofNat 32 (convert .fp32 false v).1

/-- FP32 sum, rounded once. -/
def fAdd (a b : W32) : W32 := toF32 (vAdd (f32 a) (f32 b)).1
/-- FP32 difference, rounded once. -/
def fSub (a b : W32) : W32 := toF32 (vAdd (f32 a) (f32 b).neg).1
/-- FP32 product, rounded once. -/
def fMul (a b : W32) : W32 := toF32 (vMul (f32 a) (f32 b)).1

/-- FP32 quotient, rounded once. -/
def fDiv (a b : W32) : W32 :=
  let x := f32 a
  let y := f32 b
  let sg := xor x.isNeg y.isNeg
  toF32 (match x, y with
    | .nan _, _ | _, .nan _ => .nan false
    | .inf _, .inf _ => .nan false
    | .zero _, .zero _ => .nan false
    | .inf _, _ => .inf sg
    | _, .inf _ => .zero sg
    | _, .zero _ => .inf sg
    | .zero _, _ => .zero sg
    | .fin p, .fin q => .fin (qDiv p q))

/-- FP32 magnitude. -/
def fAbs (a : W32) : W32 := a &&& 0x7FFFFFFF

/-- FP32 `a < b`; unordered compares are false (R123). -/
def fLt (a b : W32) : Bool :=
  match f32 a, f32 b with
  | .nan _, _ | _, .nan _ => false
  | .inf n, .inf m => n && !m
  | .inf n, _ => n
  | _, .inf m => !m
  | x, y => qLt x.q y.q

/-- FP32 `a = b`, with +0 equal to −0 (R123). -/
def fEq (a b : W32) : Bool :=
  match f32 a, f32 b with
  | .nan _, _ | _, .nan _ => false
  | .inf n, .inf m => n == m
  | .inf _, _ | _, .inf _ => false
  | x, y => qEq x.q y.q

/-- FP32 `a ≤ b`. -/
def fLe (a b : W32) : Bool := fLt a b || fEq a b

/-- An FP32 NaN. -/
def fIsNan (a : W32) : Bool := (f32 a).isNan

/-- FP32 square root of a non-negative value, rounded once to nearest even. The integer root of a
52-bit scaling is exact to more than 24 bits, and its remainder only breaks ties. -/
def fSqrt (a : W32) : W32 :=
  match f32 a with
  | .fin q =>
    if q.num < 0 then BitVec.ofNat 32 (nanWord .fp32)
    else
      let p := qLog2 q
      let sh : Int := 60 - (if p % 2 = 0 then p else p + 1)
      let n := (qFloor (qScale2 q sh)).toNat
      let r := Nat.sqrt n
      let exact := decide (r * r = n) && qEq (qScale2 q sh) (qInt n)
      let v := qDyadic ((2 * r + b2n (!exact) : Nat) : Int) (-(sh / 2) - 1)
      toF32 (valOf v)
  | .inf false => a
  | .zero _ => a
  | _ => BitVec.ofNat 32 (nanWord .fp32)

/-- The FP32 word of a natural number. -/
def fNat (n : Nat) : W32 := toF32 (valOf (qInt n))

/-- The FP32 word of an exact value. -/
def fOfQ (q : Q) : W32 := toF32 (valOf q)

end Sys2Proof.Machine
end

