-- ==== Sys2Proof/Machine/Approx.lean ====
section
/-! DEFINITION. Enclosures of the functions the manual bounds in ulp (R251 to R253, R334): intervals with exact ends,
rounded outwards, the constants and series they rest on, and when a word lies within a bound of the exact value. The
device's own result is a free value wherever the bound leaves a choice; the enclosures say which words the bound admits. -/

namespace Sys2Proof.Machine

/-! ### Intervals -/

/-- A closed interval of exact ends that holds a real number. -/
structure Iv where
  lo : Q
  hi : Q
  deriving DecidableEq, Repr

/-- Significant bits an end keeps. -/
def ivBits : Int := 320

/-- An end rounded down to `ivBits` significant bits. -/
def qDown (x : Q) : Q :=
  if x.num = 0 then qZero
  else let e := qLog2 (qAbs x); qDyadic (qFloor (qScale2 x (ivBits - e))) (e - ivBits)

/-- An end rounded up. -/
def qUp (x : Q) : Q := qNeg (qDown (qNeg x))

/-- The interval of two ends, rounded outwards. -/
def ivOf (lo hi : Q) : Iv := ⟨qDown lo, qUp hi⟩

/-- One exact number. -/
def ivExact (x : Q) : Iv := ⟨x, x⟩

/-- Sum. -/
def ivAdd (a b : Iv) : Iv := ivOf (qAdd a.lo b.lo) (qAdd a.hi b.hi)
/-- Negation. -/
def ivNeg (a : Iv) : Iv := ⟨qNeg a.hi, qNeg a.lo⟩
/-- Difference. -/
def ivSub (a b : Iv) : Iv := ivAdd a (ivNeg b)

/-- Product. -/
def ivMul (a b : Iv) : Iv :=
  let p := qMul a.lo b.lo
  let q := qMul a.lo b.hi
  let r := qMul a.hi b.lo
  let s := qMul a.hi b.hi
  ivOf (qMin (qMin p q) (qMin r s)) (qMax (qMax p q) (qMax r s))

/-- Reciprocal of an interval that does not hold zero. -/
def ivInv (a : Iv) : Iv := ivOf (qDiv (qInt 1) a.hi) (qDiv (qInt 1) a.lo)
/-- Quotient by an interval that does not hold zero. -/
def ivDiv (a b : Iv) : Iv := ivMul a (ivInv b)
/-- Times a power of two. -/
def ivScale2 (a : Iv) (e : Int) : Iv := ⟨qScale2 a.lo e, qScale2 a.hi e⟩
/-- Divided by a positive integer. -/
def ivDivNat (a : Iv) (n : Nat) : Iv := ivOf (qDiv a.lo (qInt n)) (qDiv a.hi (qInt n))
/-- The largest magnitude in an interval. -/
def ivMag (a : Iv) : Q := qMax (qAbs a.lo) (qAbs a.hi)
/-- Widened by `r` on both sides. -/
def ivWiden (a : Iv) (r : Q) : Iv := ivOf (qSub a.lo r) (qAdd a.hi r)

/-- The sum of `n` terms from `t`, each `next` of the one before and its number, and the term that would follow. -/
def ivSeries (next : Nat → Iv → Iv) : Nat → Nat → Iv → Iv → Iv × Iv
  | 0, _, t, acc => (acc, t)
  | n + 1, k, t, acc => ivSeries next n (k + 1) (next k t) (ivAdd acc t)

/-- A series whose terms at least halve, from the one after the sum on. -/
def ivSum (next : Nat → Iv → Iv) (n : Nat) (t : Iv) : Iv :=
  let (s, r) := ivSeries next n 0 t (ivExact qZero)
  ivWiden s (qScale2 (ivMag r) 1)

/-- The integer square root of a number below 4^b. -/
def natRoot : Nat → Nat → Nat → Nat
  | 0, _, r => r
  | b + 1, n, r => let t := r + 2 ^ b; natRoot b n (if t * t ≤ n then t else r)

/-- A lower end of the square root of a positive number, exact to 320 bits. -/
def qRootDown (x : Q) : Q :=
  let e := qLog2 x
  let sh := 640 - (e - e % 2)
  qDyadic (natRoot 322 (qFloor (qScale2 x sh)).toNat 0) (-(sh / 2))

/-- Square root of a positive interval. -/
def ivSqrt (a : Iv) : Iv :=
  let r := qRootDown a.hi
  ivOf (qRootDown a.lo) (qAdd r (qDyadic 1 ((qLog2 a.hi - qLog2 a.hi % 2) / 2 - 320)))

/-! ### Series and constants -/

/-- atanh of an interval within 0 to 1/3: sum of z^(2k+1) / (2k+1). -/
def ivAtanh (z : Iv) : Iv :=
  let z2 := ivMul z z
  let powers := (List.range 108).foldl (fun (p : Iv × Iv) k => (ivMul p.1 z2, ivAdd p.2 (ivDivNat p.1 (2 * k + 1)))) (z, ivExact qZero)
  ivWiden powers.2 (qScale2 (ivMag powers.1) 1)

/-- Natural logarithm of 2. -/
def ivLn2 : Iv := ivScale2 (ivAtanh (ivExact (qFrac 1 3))) 1

/-- arctan(1/n): an alternating series. -/
def ivArctanInv (n : Nat) : Iv :=
  let powers := (List.range 80).foldl (fun (p : Iv × Iv) k =>
    (ivDivNat (ivNeg p.1) (n * n), ivAdd p.2 (ivDivNat p.1 (2 * k + 1)))) (ivDivNat (ivExact (qInt 1)) n, ivExact qZero)
  ivWiden powers.2 (ivMag powers.1)

/-- π, by Machin's formula. -/
def ivPi : Iv := ivSub (ivScale2 (ivArctanInv 5) 4) (ivScale2 (ivArctanInv 239) 2)

/-- e^r − 1 over r, for r of magnitude at most 1: sum of r^k / (k+1)!. -/
def ivExpm1Over (r : Iv) : Iv := ivSum (fun k t => ivDivNat (ivMul t r) (k + 2)) 80 (ivExact (qInt 1))

/-- e^y for y of magnitude at most 4,096, by y = n ln 2 + r. -/
def ivExp (y : Iv) : Iv :=
  let n := qRne (qDiv y.lo ivLn2.lo)
  let r := ivSub y (ivMul (ivExact (qInt n)) ivLn2)
  ivScale2 (ivAdd (ivExact (qInt 1)) (ivMul r (ivExpm1Over r))) n

/-- x limited to ±c: beyond it the function has left every format's range, or is constant to more than any format holds. -/
def qLimit (x : Q) (c : Int) : Q := qMax (qMin x (qInt c)) (qInt (-c))

/-- 2^x. -/
def ivExp2 (x : Q) : Iv :=
  let x := qLimit x 2048
  let n := qFloor x
  let r := ivMul (ivExact (qSub x (qInt n))) ivLn2
  ivScale2 (ivAdd (ivExact (qInt 1)) (ivMul r (ivExpm1Over r))) n

/-- log2 of a positive number. -/
def ivLog2 (x : Q) : Iv :=
  let e := qLog2 x
  let m := qScale2 x (-e)
  let z := qDiv (qSub m (qInt 1)) (qAdd m (qInt 1))
  if z.num = 0 then ivExact (qInt e)
  else ivAdd (ivExact (qInt e)) (ivDiv (ivScale2 (ivAtanh (ivExact z)) 1) ivLn2)

/-- 1 / √x of a positive number. -/
def ivRsqrt (x : Q) : Iv := ivInv (ivSqrt (ivExact x))

/-- tanh(y) = (e^2y − 1) / (e^2y + 1). -/
def ivTanh (y : Q) : Iv :=
  let y := qLimit y 512
  if qLe (qAbs y) (qFrac 1 2) then
    let r := ivExact (qScale2 y 1)
    let m := ivMul r (ivExpm1Over r)
    ivDiv m (ivAdd m (ivExact (qInt 2)))
  else
    let e := ivExp (ivExact (qScale2 y 1))
    ivDiv (ivSub e (ivExact (qInt 1))) (ivAdd e (ivExact (qInt 1)))

/-- σ(y) = 1 / (1 + e^−y). -/
def ivSigmoid (y : Iv) : Iv :=
  let one := ivExact (qInt 1)
  let low := ivInv (ivAdd one (ivExp (ivExact (qNeg (qLimit y.lo 2048)))))
  let high := ivInv (ivAdd one (ivExp (ivExact (qNeg (qLimit y.hi 2048)))))
  ⟨low.lo, high.hi⟩

/-- erf of a non-negative number: 2/√π e^(−t²) times the sum of 2^k t^(2k+1) / (1·3·…·(2k+1)); from 12 on it is 1
to within 2^−200. -/
def ivErfPos (t : Iv) : Iv :=
  if qLe (qInt 12) t.hi then ⟨qSub (qInt 1) (qDyadic 1 (-200)), qInt 1⟩
  else
    let t2 := ivMul t t
    let s := ivSum (fun k u => ivDivNat (ivScale2 (ivMul u t2) 1) (2 * k + 3)) 700 t
    ivDiv (ivMul (ivScale2 s 1) (ivExp (ivNeg t2))) (ivSqrt ivPi)

/-- erf. -/
def ivErf (t : Iv) : Iv := if t.lo.num < 0 then ivNeg (ivErfPos (ivNeg t)) else ivErfPos t

/-- The lowest and the highest of two enclosures. -/
def ivJoin (a b : Iv) : Iv := ⟨qMin a.lo b.lo, qMax a.hi b.hi⟩

/-- Sine of r, of magnitude at most 1: an alternating series. -/
def ivSinSmall (r : Iv) : Iv :=
  let r2 := ivMul r r
  ivMul r (ivSum (fun k t => ivDivNat (ivNeg (ivMul t r2)) ((2 * k + 2) * (2 * k + 3))) 60 (ivExact (qInt 1)))

/-- Cosine of r, of magnitude at most 1. -/
def ivCosSmall (r : Iv) : Iv :=
  let r2 := ivMul r r
  ivSum (fun k t => ivDivNat (ivNeg (ivMul t r2)) ((2 * k + 1) * (2 * k + 2))) 60 (ivExact (qInt 1))

/-- sin(x + q π/2). -/
def ivTrig (x : Q) (q : Nat) : Iv :=
  let half := ivScale2 ivPi (-1)
  let n := qRne (qDiv x half.lo)
  let r := ivSub (ivExact x) (ivMul (ivExact (qInt n)) half)
  match ((n + q) % 4).toNat with
  | 0 => ivSinSmall r
  | 1 => ivCosSmall r
  | 2 => ivNeg (ivSinSmall r)
  | _ => ivNeg (ivCosSmall r)

/-! ### Bounds in ulp (R252) -/

/-- The value of a positive word; none above the largest finite one. -/
def codeAt (f : Fmt) (w : Nat) : Option Q :=
  match decode f false w with
  | .fin q => some q
  | .zero _ => some qZero
  | _ => none

/-- R252: an ulp of `f` at a value of magnitude `a`. -/
def ulpAt (f : Fmt) (a : Q) : Q :=
  let a := qAbs a
  let w := if a.num = 0 then 0 else (roundQ f false a).1
  let c := (codeAt f w).getD a
  let up := match codeAt f (w + 1) with
    | some u => if qLt c u then qSub u c else qSub ((codeAt f (w + 2 ^ 23)).getD u) c
    | none => qZero
  let down := if w = 0 then qZero else qSub c ((codeAt f (w - 1)).getD c)
  if qEq c a then qMax up down else if qLt c a then (if up.num = 0 then down else up) else down

/-- The value `r` lies within `b` ulp of whatever number the enclosure holds. -/
def withinUlp (f : Fmt) (b : Nat) (iv : Iv) (r : Q) : Bool :=
  let u := qMul (qInt b) (qMin (ulpAt f iv.lo) (ulpAt f iv.hi))
  qLe (qAbs (qSub r iv.lo)) u && qLe (qAbs (qSub r iv.hi)) u

/-- The value `r` lies within `d` of whatever number the enclosure holds. -/
def withinAbs (d : Q) (iv : Iv) (r : Q) : Bool := qLe (qAbs (qSub r iv.lo)) d && qLe (qAbs (qSub r iv.hi)) d

/-- The smallest and the largest finite magnitude of a lane format. -/
def laneRange (f : Fmt) : Q × Q :=
  if f = .fp32 then (qDyadic 1 (-126), qDyadic (2 ^ 24 - 1) 104) else (qDyadic 1 (-120), qDyadic 1 120)

/-- The exact value, to the enclosure's width, lies beyond the format's range (R254). -/
def beyondRange (f : Fmt) (iv : Iv) : Bool :=
  let small (x : Q) := qLt (qAbs x) (laneRange f).1
  let large (x : Q) := qLt (laneRange f).2 (qAbs x)
  (small iv.lo && small iv.hi && !(decide (iv.lo.num = 0) && decide (iv.hi.num = 0))) || (large iv.lo && large iv.hi)

end Sys2Proof.Machine
end

