-- ==== Sys2Proof/Machine/Hash.lean ====
section
/-! DEFINITION. CRC-32C, SHA-256 and SHA-512, which the manual names without restating them. Their
definitions are the public standards' (PRESUMED: Castagnoli's polynomial in its reflected form with
all-ones start and final inversion; FIPS 180-4). -/

namespace Sys2Proof.Machine

/-! ### CRC-32C (R79, R468) -/

/-- One bit of a reflected CRC-32C. -/
def crcBit (c : W32) : W32 := if c.getLsbD 0 then (c >>> 1) ^^^ 0x82F63B78 else c >>> 1

/-- One byte. -/
def crcByte (c : W32) (b : Byte) : W32 := iter crcBit 8 (c ^^^ b.zeroExtend 32)

/-- CRC-32C of a byte string. -/
def crc32c (l : List Byte) : W32 := ~~~(l.foldl crcByte 0xFFFFFFFF)

/-- CRC-32C over zero bytes continued from a running value. -/
def crcZeros (n : Nat) (c : W32) : W32 := iter (fun c => crcByte c 0) n c

/-! ### SHA-256 and SHA-512

One algorithm at two word sizes (PRESUMED: FIPS 180-4, which the manual names and does not give). Its constants are computed
from their definition: the first bits of the fractional parts of square and cube roots of primes, of which SHA-256 takes the
upper halves. -/

/-- The 80 primes below 410: no number from 2 to 20 but itself divides one. -/
def shaPrimes : List Nat :=
  (List.range 410).filter (fun p => decide (2 ≤ p) && (List.range 19).all (fun i => decide (p % (i + 2) ≠ 0) || decide (p = i + 2)))

/-- The first 64 bits of the fractional part of the `k`-th root of `p`: the root in units of 2^-64, found bit by bit. -/
def rootFraction (k p : Nat) : Nat :=
  (List.range 67).foldl (fun r i => let r' := r + 2 ^ (66 - i); if r' ^ k ≤ p * 2 ^ (64 * k) then r' else r) 0 % 2 ^ 64

/-- What sets SHA-256 and SHA-512 apart: the word's bytes, the rounds, the rotations of the two sums of a round, and those of
the two sums of the schedule, whose last is a shift. -/
structure ShaKind where
  bytes : Nat
  rounds : Nat
  upper : List Nat
  lower : List Nat
  early : List Nat
  late : List Nat
  deriving DecidableEq, Repr

/-- SHA-256. -/
def ShaKind.sha256 : ShaKind := ⟨4, 64, [2, 13, 22], [6, 11, 25], [7, 18, 3], [17, 19, 10]⟩
/-- SHA-512. -/
def ShaKind.sha512 : ShaKind := ⟨8, 80, [28, 34, 39], [14, 18, 41], [1, 8, 7], [19, 61, 6]⟩

/-- Bits of a word. -/
def ShaKind.bits (h : ShaKind) : Nat := 8 * h.bytes

/-- A constant from the `k`-th root of each of the first `n` primes. -/
def ShaKind.constants (h : ShaKind) (k n : Nat) : List Nat := (shaPrimes.take n).map (fun p => rootFraction k p / 2 ^ (64 - h.bits))

/-- A word rotated to the right. -/
def ShaKind.rot (h : ShaKind) (x n : Nat) : Nat := x / 2 ^ n + x % 2 ^ n * 2 ^ (h.bits - n)

/-- The exclusive or of a word rotated by three amounts. -/
def ShaKind.sum (h : ShaKind) (l : List Nat) (x : Nat) : Nat := (l.map (h.rot x)).foldl Nat.xor 0

/-- The exclusive or of a word rotated by two amounts and shifted by a third. -/
def ShaKind.mix (h : ShaKind) (l : List Nat) (x : Nat) : Nat := ((l.take 2).map (h.rot x)).foldl Nat.xor (x / 2 ^ l.getD 2 0)

/-- One more word of the schedule, which stands newest first. -/
def ShaKind.extend (h : ShaKind) (w : List Nat) : List Nat :=
  (h.mix h.late (w.getD 1 0) + w.getD 6 0 + h.mix h.early (w.getD 14 0) + w.getD 15 0) % 2 ^ h.bits :: w

/-- The eight working words, in the order in which each takes the place of the next. -/
structure ShaWork where
  a : Nat
  b : Nat
  c : Nat
  d : Nat
  e : Nat
  f : Nat
  g : Nat
  h : Nat
  deriving DecidableEq, Repr

/-- One round with the sum of its constant and its word of the schedule. -/
def ShaKind.round (h : ShaKind) (v : ShaWork) (kw : Nat) : ShaWork :=
  let choice := Nat.xor v.g (Nat.land v.e (Nat.xor v.f v.g))
  let majority := Nat.lor (Nat.land v.a v.b) (Nat.land v.c (Nat.lor v.a v.b))
  let t := v.h + h.sum h.lower v.e + choice + kw
  ⟨(t + h.sum h.upper v.a + majority) % 2 ^ h.bits, v.a, v.b, v.c, (v.d + t) % 2 ^ h.bits, v.e, v.f, v.g⟩

/-- Big-endian number of a byte string. -/
def beNat (l : List Byte) : Nat := l.foldl (fun a b => 256 * a + b.toNat) 0

/-- `n` big-endian bytes of a number. -/
def natBE (n x : Nat) : List Byte := (natLE n x).reverse

/-- Split a list into groups of `n`; at most `fuel` groups. -/
def groupsOf {α : Type} (n : Nat) : Nat → List α → List (List α)
  | 0, _ => []
  | _ + 1, [] => []
  | f + 1, l => l.take n :: groupsOf n f (l.drop n)

/-- The padded message in blocks of 16 words: a 1 bit, zeros, and the bit length in two words. -/
def ShaKind.blocks (h : ShaKind) (m : List Byte) : List (List Byte) :=
  let size := 16 * h.bytes
  let gap := (2 * size - 1 - 2 * h.bytes - m.length % size) % size
  let p := m ++ 0x80 :: zeros gap ++ natBE (2 * h.bytes) (8 * m.length)
  groupsOf size (p.length / size) p

/-- One block: the words of the state, each with the working word it ended as added. -/
def ShaKind.block (h : ShaKind) (ks : List Nat) (st : List Nat) (blk : List Byte) : List Nat :=
  let w := (iter h.extend (h.rounds - 16) ((groupsOf h.bytes 16 blk).map beNat).reverse).reverse
  let v := (List.zipWith (· + ·) ks w).foldl h.round
    ⟨st.getD 0 0, st.getD 1 0, st.getD 2 0, st.getD 3 0, st.getD 4 0, st.getD 5 0, st.getD 6 0, st.getD 7 0⟩
  List.zipWith (fun x y => (x + y) % 2 ^ h.bits) st [v.a, v.b, v.c, v.d, v.e, v.f, v.g, v.h]

/-- The hash of a byte string. -/
def ShaKind.hash (h : ShaKind) (m : List Byte) : List Byte :=
  let ks := h.constants 3 h.rounds
  ((h.blocks m).foldl (h.block ks) (h.constants 2 8)).flatMap (natBE h.bytes)

/-- SHA-256 of a byte string, 32 bytes. -/
def sha256 (m : List Byte) : List Byte := ShaKind.sha256.hash m

/-- SHA-512 of a byte string, 64 bytes. -/
def sha512 (m : List Byte) : List Byte := ShaKind.sha512.hash m

end Sys2Proof.Machine
end

