-- ==== Sys2Proof/Machine/RegTable.lean ====
section
/-! DEFINITION. The register tables of the manual, one row for each row of a chapter's register
table, and a named place for every field (R13, R14, R17, R18, R43, R44). -/

namespace Sys2Proof.Machine

/-- Register field types (R17). -/
inductive RegType where
  | rw | ro | wo | sq | hs | ac
  deriving DecidableEq, Repr

/-- Busy classes (R18). -/
inductive Busy where
  | live | drop
  deriving DecidableEq, Repr

/-- One row of a register table: its name, the indices it stands at (`count` of them from `base`,
`stride` apart), its bits [hi:lo], type, reset value and busy class; `crc` says whether it is a
configuration field (R78), `quiet` whether it touches no job (R65). -/
structure RegRow where
  name : String
  base : Nat
  count : Nat
  stride : Nat
  hi : Nat
  lo : Nat
  ty : RegType
  reset : Nat
  busy : Busy
  crc : Bool
  quiet : Bool
  deriving DecidableEq, Repr

/-- Register table of block GLB, one row for each row of the spec's table. -/
def rowsGlb : List RegRow := [
  ⟨"GLB_ID.ID", 0, 1, 1, 31, 0, .ro, 0xa164e3f, .live, false, false⟩,
  ⟨"GLB_EDITION.SILICON", 1, 1, 1, 7, 0, .ro, 0xb1, .live, false, false⟩,
  ⟨"GLB_EDITION.MANUAL", 1, 1, 1, 15, 8, .ro, 0x3, .live, false, false⟩,
  ⟨"GLB_CTL.RUN", 2, 1, 1, 0, 0, .rw, 0x0, .drop, true, false⟩,
  ⟨"GLB_EVENT.CFG_DRIFT", 3, 1, 1, 0, 0, .sq, 0x0, .live, false, false⟩,
  ⟨"GLB_EVENT.REG_TIMEOUT", 3, 1, 1, 1, 1, .sq, 0x0, .live, false, false⟩,
  ⟨"GLB_EVENT.BAD_ACCESS", 3, 1, 1, 2, 2, .sq, 0x0, .live, false, false⟩,
  ⟨"GLB_EVENT.SNAP_DONE", 3, 1, 1, 3, 3, .sq, 0x0, .live, false, false⟩,
  ⟨"GLB_EVENT.BERTH_DONE", 3, 1, 1, 4, 4, .sq, 0x0, .live, false, false⟩,
  ⟨"GLB_EVENT.SEQ", 3, 1, 1, 31, 24, .sq, 0x0, .live, false, false⟩,
  ⟨"GLB_SCRATCH.DATA", 4, 1, 1, 31, 0, .rw, 0x0, .live, false, true⟩,
  ⟨"GLB_SNAP.SNAP", 8, 1, 1, 0, 0, .ac, 0x0, .live, false, false⟩,
  ⟨"GLB_SNAP.BUSY", 8, 1, 1, 1, 1, .ro, 0x0, .live, false, false⟩,
  ⟨"GLB_SNAP_TICK_LO.TICK", 9, 1, 1, 31, 0, .hs, 0x0, .live, false, false⟩,
  ⟨"GLB_SNAP_TICK_HI.TICK", 10, 1, 1, 31, 0, .hs, 0x0, .live, false, false⟩,
  ⟨"GLB_SNAP_COUNT.COUNT", 11, 1, 1, 31, 0, .ro, 0x0, .live, false, false⟩,
  ⟨"GLB_TICK_LO.TICK", 12, 1, 1, 31, 0, .ro, 0x0, .live, false, false⟩,
  ⟨"GLB_TICK_HI.TICK", 13, 1, 1, 31, 0, .ro, 0x0, .live, false, false⟩,
  ⟨"GLB_CFG_CTL.CHECK", 16, 1, 1, 0, 0, .rw, 0x0, .live, false, true⟩,
  ⟨"GLB_CFG_CTL.CAPTURE", 16, 1, 1, 1, 1, .ac, 0x0, .live, false, false⟩,
  ⟨"GLB_CFG_CTL.HOLD", 16, 1, 1, 2, 2, .ro, 0x0, .live, false, false⟩,
  ⟨"GLB_CFG_REF.REF", 17, 1, 1, 31, 0, .rw, 0x0, .live, false, true⟩,
  ⟨"GLB_CFG_CRC.CRC", 18, 1, 1, 31, 0, .ro, 0x0, .live, false, false⟩,
  ⟨"GLB_CNT_TIMEOUT.COUNT", 20, 1, 1, 31, 0, .ro, 0x0, .live, false, false⟩,
  ⟨"GLB_CNT_BADACC.COUNT", 21, 1, 1, 31, 0, .ro, 0x0, .live, false, false⟩,
  ⟨"GLB_CNT_DRIFT.COUNT", 22, 1, 1, 31, 0, .ro, 0x0, .live, false, false⟩,
  ⟨"GLB_HLD_TIMEOUT,GLB_HLD_BADACC,GLB_HLD_DRIFT.COUNT", 24, 3, 1, 31, 0, .hs, 0x0, .live, false, false⟩,
  ⟨"GLB_TIMEOUT_ADDR.OFFSET", 28, 1, 1, 23, 0, .ro, 0x0, .live, false, false⟩,
  ⟨"GLB_TIMEOUT_ADDR.WRITE", 28, 1, 1, 31, 31, .ro, 0x0, .live, false, false⟩,
  ⟨"GLB_BERTH_CTL.COMMIT", 32, 1, 1, 0, 0, .ac, 0x0, .live, false, false⟩,
  ⟨"GLB_BERTH_CTL.CONFIRM", 32, 1, 1, 1, 1, .ac, 0x0, .live, false, false⟩,
  ⟨"GLB_BERTH_CTL.RETURN_PREV", 32, 1, 1, 2, 2, .ac, 0x0, .live, false, false⟩,
  ⟨"GLB_BERTH_STAT.ACTIVE", 33, 1, 1, 1, 0, .ro, 0x0, .live, false, false⟩,
  ⟨"GLB_BERTH_STAT.PREVIOUS", 33, 1, 1, 3, 2, .ro, 0x0, .live, false, false⟩,
  ⟨"GLB_BERTH_STAT.TRIAL", 33, 1, 1, 4, 4, .ro, 0x0, .live, false, false⟩,
  ⟨"GLB_BERTH_STAT.WDOG_RUN", 33, 1, 1, 5, 5, .ro, 0x0, .live, false, false⟩,
  ⟨"GLB_BERTH_STAT.RESULT", 33, 1, 1, 11, 8, .ro, 0x0, .live, false, false⟩,
  ⟨"GLB_BERTH_VER_A.VERSION", 34, 1, 1, 31, 0, .ro, 0x0, .live, false, false⟩,
  ⟨"GLB_BERTH_VER_B.VERSION", 35, 1, 1, 31, 0, .ro, 0x0, .live, false, false⟩,
  ⟨"GLB_WDOG_LEFT.CYCLES", 36, 1, 1, 31, 0, .ro, 0x0, .live, false, false⟩,
  ⟨"GLB_XSPI_ADDR.ADDR", 40, 1, 1, 26, 0, .rw, 0x0, .live, false, true⟩,
  ⟨"GLB_XSPI_DATA.DATA", 41, 1, 1, 31, 0, .rw, 0x0, .live, false, true⟩,
  ⟨"GLB_XSPI_CMD.GO", 42, 1, 1, 0, 0, .ac, 0x0, .live, false, false⟩,
  ⟨"GLB_XSPI_CMD.OP", 42, 1, 1, 3, 1, .rw, 0x0, .live, false, true⟩,
  ⟨"GLB_XSPI_STAT.BUSY", 43, 1, 1, 0, 0, .ro, 0x0, .live, false, false⟩,
  ⟨"GLB_XSPI_STAT.ERROR", 43, 1, 1, 1, 1, .ro, 0x0, .live, false, false⟩]

/-- Register table of block HIF, one row for each row of the spec's table. -/
def rowsHif : List RegRow := [
  ⟨"HIF_CTL.EN", 0, 1, 1, 0, 0, .rw, 0x0, .drop, true, false⟩,
  ⟨"HIF_STAT.CTX_BUSY", 1, 1, 1, 7, 0, .ro, 0x0, .live, false, false⟩,
  ⟨"HIF_STAT.IN_FLIGHT", 1, 1, 1, 16, 8, .ro, 0x0, .live, false, false⟩,
  ⟨"HIF_STAT.LINK_UP", 1, 1, 1, 17, 17, .ro, 0x0, .live, false, false⟩,
  ⟨"HIF_STAT.SPEED", 1, 1, 1, 20, 18, .ro, 0x0, .live, false, false⟩,
  ⟨"HIF_STAT.WIDTH", 1, 1, 1, 24, 21, .ro, 0x0, .live, false, false⟩,
  ⟨"HIF_EVENT.DB_BAD", 2, 1, 1, 0, 0, .sq, 0x0, .live, false, false⟩,
  ⟨"HIF_EVENT.CYC_OVERRUN", 2, 1, 1, 1, 1, .sq, 0x0, .live, false, false⟩,
  ⟨"HIF_EVENT.DB_FLUSHED", 2, 1, 1, 2, 2, .sq, 0x0, .live, false, false⟩,
  ⟨"HIF_EVENT.MIRROR_DROP", 2, 1, 1, 3, 3, .sq, 0x0, .live, false, false⟩,
  ⟨"HIF_EVENT.SEQ", 2, 1, 1, 31, 24, .sq, 0x0, .live, false, false⟩,
  ⟨"HIF_CTXk_CTL.EN", 32, 8, 16, 0, 0, .rw, 0x0, .drop, true, false⟩,
  ⟨"HIF_CTXk_CTL.FLUSH", 32, 8, 16, 1, 1, .ac, 0x0, .live, false, false⟩,
  ⟨"HIF_CTXk_CTL.CYCLIC", 32, 8, 16, 2, 2, .rw, 0x0, .drop, true, false⟩,
  ⟨"HIF_CTXk_CTL.CQ_OVERWRITE", 32, 8, 16, 3, 3, .rw, 0x0, .live, true, false⟩,
  ⟨"HIF_CTXk_CTL.CRIT_OK", 32, 8, 16, 4, 4, .rw, 0x0, .live, true, false⟩,
  ⟨"HIF_CTXk_CTL.MIRROR", 32, 8, 16, 5, 5, .rw, 0x0, .live, true, false⟩,
  ⟨"HIF_CTXk_CTL.ADMIT", 32, 8, 16, 6, 6, .rw, 0x0, .drop, true, false⟩,
  ⟨"HIF_CTXk_SQ_BASE_LO.ADDR", 33, 8, 16, 31, 12, .rw, 0x0, .drop, true, false⟩,
  ⟨"HIF_CTXk_SQ_BASE_HI.ADDR", 34, 8, 16, 15, 0, .rw, 0x0, .drop, true, false⟩,
  ⟨"HIF_CTXk_CQ_BASE_LO.ADDR", 35, 8, 16, 31, 12, .rw, 0x0, .drop, true, false⟩,
  ⟨"HIF_CTXk_CQ_BASE_HI.ADDR", 36, 8, 16, 15, 0, .rw, 0x0, .drop, true, false⟩,
  ⟨"HIF_CTXk_SIZE.SQ_LOG2", 37, 8, 16, 3, 0, .rw, 0x6, .drop, true, false⟩,
  ⟨"HIF_CTXk_SIZE.CQ_LOG2", 37, 8, 16, 7, 4, .rw, 0x6, .drop, true, false⟩,
  ⟨"HIF_CTXk_SPTR.HEAD", 38, 8, 16, 11, 0, .ro, 0x0, .live, false, false⟩,
  ⟨"HIF_CTXk_SPTR.TAIL", 38, 8, 16, 27, 16, .ro, 0x0, .live, false, false⟩,
  ⟨"HIF_CTXk_CPTR.TAIL", 39, 8, 16, 11, 0, .ro, 0x0, .live, false, false⟩,
  ⟨"HIF_CTXk_CPTR.HEAD", 39, 8, 16, 27, 16, .ro, 0x0, .live, false, false⟩,
  ⟨"HIF_CTXk_CPTR.PHASE", 39, 8, 16, 31, 31, .ro, 0x1, .live, false, false⟩,
  ⟨"HIF_CTXk_CYC.START", 40, 8, 16, 11, 0, .rw, 0x0, .live, true, false⟩,
  ⟨"HIF_CTXk_IRQ.COUNT", 41, 8, 16, 7, 0, .rw, 0x0, .live, true, true⟩,
  ⟨"HIF_CTXk_IRQ.US", 41, 8, 16, 23, 8, .rw, 0x0, .live, true, true⟩,
  ⟨"HIF_CTXk_QUANTUM.US", 42, 8, 16, 19, 0, .rw, 0x3e8, .live, true, false⟩,
  ⟨"HIF_CTXk_MIRROR_LO.ADDR", 43, 8, 16, 31, 12, .rw, 0x0, .live, true, false⟩,
  ⟨"HIF_CTXk_MIRROR_HI.ADDR", 44, 8, 16, 15, 0, .rw, 0x0, .live, true, false⟩,
  ⟨"HIF_CTXk_STAT.IN_FLIGHT", 45, 8, 16, 6, 0, .ro, 0x0, .live, false, false⟩,
  ⟨"HIF_CTXk_STAT.HELD", 45, 8, 16, 11, 7, .ro, 0x0, .live, false, false⟩,
  ⟨"HIF_CTXk_STAT.FLUSHING", 45, 8, 16, 12, 12, .ro, 0x0, .live, false, false⟩,
  ⟨"HIF_CTXk_STAT.FETCH_STOP", 45, 8, 16, 13, 13, .ro, 0x0, .live, false, false⟩,
  ⟨"HIF_CTXk_SUBSEQ.NEXT", 46, 8, 16, 31, 0, .ro, 0x0, .live, false, false⟩,
  ⟨"HIF_CTXk_OVERRUN.COUNT", 47, 8, 16, 31, 0, .ro, 0x0, .live, false, false⟩,
  ⟨"HIF_DB_WRITES,HIF_DB_BAD,HIF_FETCHED,HIF_COMPLETED,HIF_PCIE_WAIT,HIF_MIRROR_DROP.COUNT", 160, 6, 1, 31, 0, .ro, 0x0, .live, false, false⟩,
  ⟨"HIF_HLD_DB_WRITEStoHIF_HLD_MIRROR_DROP.COUNT", 168, 6, 1, 31, 0, .hs, 0x0, .live, false, false⟩]

/-- Register table of block MMU, one row for each row of the spec's table. -/
def rowsMmu : List RegRow := [
  ⟨"MMU_CTL.MMU_EN", 0, 1, 1, 0, 0, .rw, 0x0, .drop, true, false⟩,
  ⟨"MMU_CTL.TEST_DEFER", 0, 1, 1, 15, 8, .rw, 0xff, .live, true, true⟩,
  ⟨"MMU_EVENT.FAULT", 1, 1, 1, 0, 0, .sq, 0x0, .live, false, false⟩,
  ⟨"MMU_EVENT.DOUBLE", 1, 1, 1, 1, 1, .sq, 0x0, .live, false, false⟩,
  ⟨"MMU_EVENT.CAST_BAD", 1, 1, 1, 2, 2, .sq, 0x0, .live, false, false⟩,
  ⟨"MMU_EVENT.SIZE_BAD", 1, 1, 1, 3, 3, .sq, 0x0, .live, false, false⟩,
  ⟨"MMU_EVENT.SEQ", 1, 1, 1, 31, 24, .sq, 0x0, .live, false, false⟩,
  ⟨"MMU_INV_CTL.CONTEXT", 2, 1, 1, 2, 0, .rw, 0x0, .live, false, true⟩,
  ⟨"MMU_INV_CTL.SIZE", 2, 1, 1, 4, 3, .rw, 0x0, .live, false, true⟩,
  ⟨"MMU_INV_CTL.GO", 2, 1, 1, 8, 8, .ac, 0x0, .live, false, false⟩,
  ⟨"MMU_INV_CTL.BUSY", 2, 1, 1, 9, 9, .ro, 0x0, .live, false, false⟩,
  ⟨"MMU_INV_VA_LO.VA", 3, 1, 1, 31, 12, .rw, 0x0, .live, false, true⟩,
  ⟨"MMU_INV_VA_HI.VA", 4, 1, 1, 15, 0, .rw, 0x0, .live, false, true⟩,
  ⟨"MMU_CAST_SUBSEQ.SUBSEQ", 5, 1, 1, 31, 0, .rw, 0x0, .live, false, true⟩,
  ⟨"MMU_CAST_CMD.CONTEXT", 6, 1, 1, 2, 0, .rw, 0x0, .live, false, true⟩,
  ⟨"MMU_CAST_CMD.RETRY", 6, 1, 1, 4, 4, .ac, 0x0, .live, false, false⟩,
  ⟨"MMU_CAST_CMD.ABORT", 6, 1, 1, 5, 5, .ac, 0x0, .live, false, false⟩,
  ⟨"MMU_WALKS,MMU_FAULTS,MMU_WET.COUNT", 8, 3, 1, 31, 0, .ro, 0x0, .live, false, false⟩,
  ⟨"MMU_HLD_WALKStoMMU_HLD_WET.COUNT", 12, 3, 1, 31, 0, .hs, 0x0, .live, false, false⟩,
  ⟨"MMU_CTXk_ROOT_LO.HOST", 16, 8, 6, 0, 0, .rw, 0x0, .drop, true, false⟩,
  ⟨"MMU_CTXk_ROOT_LO.ADDR", 16, 8, 6, 31, 12, .rw, 0x0, .drop, true, false⟩,
  ⟨"MMU_CTXk_ROOT_HI.ADDR", 17, 8, 6, 31, 0, .rw, 0x0, .drop, true, false⟩,
  ⟨"MMU_CTXk_SAVE_LO.SAVE_LOG2", 18, 8, 6, 4, 0, .rw, 0x15, .drop, true, false⟩,
  ⟨"MMU_CTXk_SAVE_LO.ADDR", 18, 8, 6, 31, 16, .rw, 0x0, .drop, true, false⟩,
  ⟨"MMU_CTXk_FR_LO.ADDR", 19, 8, 6, 31, 12, .rw, 0x0, .drop, true, false⟩,
  ⟨"MMU_CTXk_HI.SAVE", 20, 8, 6, 15, 0, .rw, 0x0, .drop, true, false⟩,
  ⟨"MMU_CTXk_HI.FR", 20, 8, 6, 31, 16, .rw, 0x0, .drop, true, false⟩,
  ⟨"MMU_CTXk_STAT.FR_HEAD", 21, 8, 6, 5, 0, .rw, 0x0, .live, false, true⟩,
  ⟨"MMU_CTXk_STAT.FR_TAIL", 21, 8, 6, 13, 8, .ro, 0x0, .live, false, false⟩,
  ⟨"MMU_CTXk_STAT.HALTED", 21, 8, 6, 16, 16, .ro, 0x0, .live, false, false⟩,
  ⟨"MMU_CTXk_STAT.PENDING", 21, 8, 6, 17, 17, .ro, 0x0, .live, false, false⟩,
  ⟨"MMU_CTXk_STAT.MOORED", 21, 8, 6, 24, 18, .ro, 0x0, .live, false, false⟩]

/-- Register table of block CLK, one row for each row of the spec's table. -/
def rowsClk : List RegRow := [
  ⟨"CLK_CTL.MODE", 0, 1, 1, 0, 0, .rw, 0x0, .live, true, true⟩,
  ⟨"CLK_CTL.DEFER", 0, 1, 1, 15, 8, .rw, 0xff, .live, true, true⟩,
  ⟨"CLK_STAT.LOCKED", 1, 1, 1, 8, 0, .ro, 0x0, .live, false, true⟩,
  ⟨"CLK_STAT.AON_XTAL", 1, 1, 1, 9, 9, .ro, 0x0, .live, false, true⟩,
  ⟨"CLK_EVENT.CHANGE_DONE_etc", 2, 1, 1, 6, 0, .sq, 0x0, .live, false, true⟩,
  ⟨"CLK_EVENT.SEQ", 2, 1, 1, 31, 24, .sq, 0x0, .live, false, true⟩,
  ⟨"CLK_rgn_CFG.OP", 8, 4, 4, 3, 0, .rw, 0xd, .live, true, true⟩,
  ⟨"CLK_rgn_CFG.OP", 24, 1, 4, 3, 0, .rw, 0xc, .live, true, true⟩,
  ⟨"CLK_rgn_CFG.MIN_OP", 8, 5, 4, 7, 4, .rw, 0x0, .live, true, true⟩,
  ⟨"CLK_rgn_CFG.METHOD", 8, 5, 4, 8, 8, .rw, 0x1, .live, true, true⟩,
  ⟨"CLK_rgn_CFG.WIN", 8, 5, 4, 11, 9, .rw, 0x0, .live, true, true⟩,
  ⟨"CLK_rgn_CMD.GO", 9, 5, 4, 0, 0, .ac, 0x0, .live, false, true⟩,
  ⟨"CLK_rgn_STAT.CUR", 10, 4, 4, 6, 0, .ro, 0x58, .live, false, true⟩,
  ⟨"CLK_rgn_STAT.CUR", 26, 1, 4, 6, 0, .ro, 0x50, .live, false, true⟩,
  ⟨"CLK_rgn_STAT.ARMED", 10, 5, 4, 8, 8, .ro, 0x0, .live, false, true⟩,
  ⟨"CLK_rgn_STAT.CHANGING", 10, 5, 4, 9, 9, .ro, 0x0, .live, false, true⟩,
  ⟨"CLK_rgn_STAT.STOPPED", 10, 5, 4, 10, 10, .ro, 0x0, .live, false, true⟩,
  ⟨"CLK_TEMP0toCLK_TEMP7.TEMP", 32, 8, 1, 15, 0, .ro, 0x0, .live, false, true⟩,
  ⟨"CLK_THERM_CFG.THERM_HI", 40, 1, 1, 7, 0, .rw, 0x5f, .live, true, true⟩,
  ⟨"CLK_THERM_CFG.THERM_TRIP", 40, 1, 1, 15, 8, .rw, 0x6e, .live, true, true⟩,
  ⟨"CLK_CNT_CHANGES,CLK_CNT_STRETCH,CLK_CNT_CANARY,CLK_CNT_DROOP.COUNT", 48, 4, 1, 31, 0, .ro, 0x0, .live, false, true⟩,
  ⟨"CLK_HLD_CHANGEStoCLK_HLD_DROOP.COUNT", 52, 4, 1, 31, 0, .hs, 0x0, .live, false, true⟩]

/-- Register table of block PWR, one row for each row of the spec's table. -/
def rowsPwr : List RegRow := [
  ⟨"PWR_CTL.WARM", 0, 1, 1, 0, 0, .wo, 0x0, .live, false, true⟩,
  ⟨"PWR_CTL.KEY", 0, 1, 1, 31, 16, .wo, 0x0, .live, false, true⟩,
  ⟨"PWR_STAT.BACKUP", 1, 1, 1, 0, 0, .ro, 0x0, .live, false, true⟩,
  ⟨"PWR_STAT.WARM", 1, 1, 1, 1, 1, .ro, 0x0, .live, false, true⟩,
  ⟨"PWR_STAT.VOK", 1, 1, 1, 2, 2, .ro, 0x0, .live, false, true⟩,
  ⟨"PWR_STAT.XTAL_OK", 1, 1, 1, 3, 3, .ro, 0x0, .live, false, true⟩,
  ⟨"PWR_STAT.RTC_VALID", 1, 1, 1, 4, 4, .ro, 0x0, .live, false, true⟩,
  ⟨"PWR_STAT.STEP_FAIL", 1, 1, 1, 11, 8, .ro, 0x0, .live, false, true⟩,
  ⟨"PWR_EVENT.PMB_FAIL", 2, 1, 1, 0, 0, .sq, 0x0, .live, false, true⟩,
  ⟨"PWR_EVENT.SEQ", 2, 1, 1, 31, 24, .sq, 0x0, .live, false, true⟩,
  ⟨"PWR_RESET_CAUSE.PORST_etc", 3, 1, 1, 7, 0, .ro, 0x0, .live, false, true⟩,
  ⟨"PWR_VCORE.TARGET", 4, 1, 1, 9, 0, .ro, 0x2ee, .live, false, true⟩,
  ⟨"PWR_VCORE.READ", 4, 1, 1, 25, 16, .ro, 0x0, .live, false, true⟩,
  ⟨"PWR_VCORE_CTL.AUTO", 5, 1, 1, 0, 0, .rw, 0x1, .live, true, true⟩,
  ⟨"PWR_VCORE_CTL.FIXED", 5, 1, 1, 13, 8, .rw, 0x14, .live, true, true⟩,
  ⟨"PWR_PMB_CFG.EN", 6, 1, 1, 0, 0, .rw, 0x0, .live, true, true⟩,
  ⟨"PWR_PMB_CFG.ADDR", 6, 1, 1, 14, 8, .rw, 0x40, .live, true, true⟩,
  ⟨"PWR_START_TIME.US", 7, 1, 1, 31, 0, .ro, 0x0, .live, false, true⟩,
  ⟨"PWR_PREV_SUMMARY.SUMMARY", 8, 1, 1, 15, 0, .ro, 0x0, .live, false, true⟩,
  ⟨"PWR_BKP_EDITION.EDITION", 9, 1, 1, 31, 0, .ro, 0x0, .live, false, true⟩,
  ⟨"PWR_RTC_LO.COUNT", 10, 1, 1, 31, 0, .ro, 0x0, .live, false, true⟩,
  ⟨"PWR_RTC_HI.COUNT", 11, 1, 1, 15, 0, .ro, 0x0, .live, false, true⟩,
  ⟨"PWR_RTC_LOAD_LO.COUNT", 12, 1, 1, 31, 0, .rw, 0x0, .live, false, true⟩,
  ⟨"PWR_RTC_LOAD_HI.COUNT", 13, 1, 1, 15, 0, .rw, 0x0, .live, false, true⟩,
  ⟨"PWR_RTC_CMD.LOAD", 14, 1, 1, 0, 0, .ac, 0x0, .live, false, true⟩,
  ⟨"PWR_CNT_VREQ.COUNT", 16, 1, 1, 31, 0, .ro, 0x0, .live, false, true⟩,
  ⟨"PWR_CNT_PMB_RETRY.COUNT", 17, 1, 1, 31, 0, .ro, 0x0, .live, false, true⟩,
  ⟨"PWR_HLD_VREQ.COUNT", 20, 1, 1, 31, 0, .hs, 0x0, .live, false, true⟩,
  ⟨"PWR_HLD_PMB_RETRY.COUNT", 21, 1, 1, 31, 0, .hs, 0x0, .live, false, true⟩]

/-- Register table of block TTB, one row for each row of the spec's table. -/
def rowsTtb : List RegRow := [
  ⟨"TTB_CTL.TT_EN", 0, 1, 1, 0, 0, .rw, 0x0, .live, true, true⟩,
  ⟨"TTB_STAT.WIN_OPEN", 1, 1, 1, 7, 0, .ro, 0x0, .live, false, true⟩,
  ⟨"TTB_STAT.HELD", 1, 1, 1, 11, 8, .ro, 0x0, .live, false, true⟩,
  ⟨"TTB_STAT.RUNNING", 1, 1, 1, 15, 12, .ro, 0x0, .live, false, true⟩,
  ⟨"TTB_EVENT.LATE_etc", 2, 1, 1, 7, 0, .sq, 0x0, .live, false, true⟩,
  ⟨"TTB_EVENT.SEQ", 2, 1, 1, 31, 24, .sq, 0x0, .live, false, true⟩,
  ⟨"TTB_ENT_SEL.INDEX", 3, 1, 1, 9, 0, .rw, 0x0, .live, false, true⟩,
  ⟨"TTB_ENT_DATA0toTTB_ENT_DATA7.DATA", 4, 8, 1, 31, 0, .rw, 0x0, .live, false, true⟩,
  ⟨"TTB_ENT_CMD.WRITE", 12, 1, 1, 0, 0, .ac, 0x0, .live, false, true⟩,
  ⟨"TTB_ENT_CMD.READ", 12, 1, 1, 1, 1, .ac, 0x0, .live, false, true⟩,
  ⟨"TTB_WIN_MAX.CYCLES", 13, 1, 1, 31, 0, .rw, 0x0, .live, true, true⟩,
  ⟨"TTB_AXa_CFG.SOURCE", 16, 4, 8, 2, 0, .rw, 0x0, .live, true, true⟩,
  ⟨"TTB_AXa_CFG.SET", 16, 4, 8, 3, 3, .ac, 0x0, .live, false, true⟩,
  ⟨"TTB_AXa_CFG.CHANNEL", 16, 4, 8, 6, 4, .rw, 0x0, .live, true, true⟩,
  ⟨"TTB_AXa_CFG.INVERT", 16, 4, 8, 7, 7, .rw, 0x0, .live, true, true⟩,
  ⟨"TTB_AXa_CFG.Z_LOAD", 16, 4, 8, 8, 8, .rw, 0x0, .live, true, true⟩,
  ⟨"TTB_AXa_CFG.GRAY", 16, 4, 8, 9, 9, .rw, 0x0, .live, true, true⟩,
  ⟨"TTB_AXa_CFG.SSI_BITS", 16, 4, 8, 15, 10, .rw, 0x18, .live, true, true⟩,
  ⟨"TTB_AXa_CFG.SSI_DIV", 16, 4, 8, 23, 16, .rw, 0x18, .live, true, true⟩,
  ⟨"TTB_AXa_CFG.SSI_PERIOD", 16, 4, 8, 31, 24, .rw, 0x1, .live, true, true⟩,
  ⟨"TTB_AXa_INCR.INCR", 17, 4, 8, 31, 0, .rw, 0x10000, .live, true, true⟩,
  ⟨"TTB_AXa_WRAP_LO.WRAP", 18, 4, 8, 31, 0, .rw, 0x0, .live, true, true⟩,
  ⟨"TTB_AXa_WRAP_HI.WRAP", 19, 4, 8, 15, 0, .rw, 0x0, .live, true, true⟩,
  ⟨"TTB_AXa_LOAD_LO.VALUE", 20, 4, 8, 31, 0, .rw, 0x0, .live, true, true⟩,
  ⟨"TTB_AXa_LOAD_HI.VALUE", 21, 4, 8, 31, 0, .rw, 0x0, .live, true, true⟩,
  ⟨"TTB_AXa_POS_LO.VALUE", 22, 4, 8, 31, 0, .ro, 0x0, .live, false, true⟩,
  ⟨"TTB_AXa_POS_HI.VALUE", 23, 4, 8, 31, 0, .ro, 0x0, .live, false, true⟩,
  ⟨"TTB_CHc_CTL.LATE", 48, 4, 1, 1, 0, .rw, 0x0, .live, true, true⟩,
  ⟨"TTB_CHc_CTL.HOLD_PROFILE", 48, 4, 1, 2, 2, .rw, 0x0, .live, true, true⟩,
  ⟨"TTB_CHc_CTL.AUTO_RESUME", 48, 4, 1, 3, 3, .rw, 0x0, .live, true, true⟩,
  ⟨"TTB_CHc_CTL.RESUME", 48, 4, 1, 4, 4, .ac, 0x0, .live, false, true⟩,
  ⟨"TTB_CHc_CTL.FLUSH", 48, 4, 1, 5, 5, .ac, 0x0, .live, false, true⟩,
  ⟨"TTB_CHc_CTL.EMIT_EN", 48, 4, 1, 6, 6, .rw, 0x0, .live, true, true⟩,
  ⟨"TTB_OUT_CFG.TOUT_EN", 52, 1, 1, 7, 0, .rw, 0x0, .live, true, true⟩,
  ⟨"TTB_OUT_CFG.HOLD_VAL", 52, 1, 1, 15, 8, .rw, 0x0, .live, true, true⟩,
  ⟨"TTB_OUT_CFG.HOLD_APPLY", 52, 1, 1, 23, 16, .rw, 0x0, .live, true, true⟩,
  ⟨"TTB_OUT_CFG.FSYNC_EN", 52, 1, 1, 27, 24, .rw, 0x0, .live, true, true⟩,
  ⟨"TTB_OUT_STAT.TOUT", 53, 1, 1, 7, 0, .ro, 0x0, .live, false, true⟩,
  ⟨"TTB_STEPn_CFG.EN", 56, 8, 1, 0, 0, .rw, 0x0, .live, true, true⟩,
  ⟨"TTB_STEPn_CFG.BIND", 56, 8, 1, 1, 1, .rw, 0x0, .live, true, true⟩,
  ⟨"TTB_STEPn_CFG.CHAIN", 56, 8, 1, 3, 2, .rw, 0x0, .live, true, true⟩,
  ⟨"TTB_STEPn_CFG.JOINT", 56, 8, 1, 6, 4, .rw, 0x0, .live, true, true⟩,
  ⟨"TTB_STEPn_CFG.WIDTH", 56, 8, 1, 15, 8, .rw, 0x1, .live, true, true⟩,
  ⟨"TTB_STEPn_CFG.PERIOD", 56, 8, 1, 31, 16, .rw, 0x2, .live, true, true⟩,
  ⟨"TTB_STEPn_SPU.SPU", 64, 8, 1, 31, 0, .rw, 0x3f800000, .live, true, true⟩,
  ⟨"TTB_FIRED,TTB_DEFER,TTB_LATE,TTB_CHECK_MISS,TTB_QERR,TTB_STEP_OVR.COUNT", 72, 6, 1, 31, 0, .ro, 0x0, .live, false, true⟩,
  ⟨"TTB_HLD_FIREDtoTTB_HLD_STEP_OVR.COUNT", 80, 6, 1, 31, 0, .hs, 0x0, .live, false, true⟩,
  ⟨"TTB_CHc_DECj.DEC", 96, 32, 1, 31, 0, .rw, 0x0, .live, true, true⟩]

/-- Register table of block ETH, one row for each row of the spec's table. -/
def rowsEth : List RegRow := [
  ⟨"ETH_MACm_CTL.EN", 0, 2, 16, 0, 0, .rw, 0x0, .live, true, true⟩,
  ⟨"ETH_MACm_CTL.SPEED", 0, 2, 16, 2, 1, .rw, 0x2, .live, true, true⟩,
  ⟨"ETH_MACm_CTL.GPTP_SLAVE", 0, 2, 16, 3, 3, .rw, 0x0, .live, true, true⟩,
  ⟨"ETH_MACm_CTL.QBV_EN", 0, 2, 16, 4, 4, .rw, 0x0, .live, true, true⟩,
  ⟨"ETH_MACm_ADDR_LO.ADDR", 1, 2, 16, 31, 0, .rw, 0x0, .live, true, true⟩,
  ⟨"ETH_MACm_ADDR_HI.ADDR", 2, 2, 16, 15, 0, .rw, 0x0, .live, true, true⟩,
  ⟨"ETH_MACm_QBV_BASE_LO.NS", 3, 2, 16, 31, 0, .rw, 0x0, .live, true, true⟩,
  ⟨"ETH_MACm_QBV_BASE_HI.NS", 4, 2, 16, 31, 0, .rw, 0x0, .live, true, true⟩,
  ⟨"ETH_MACm_QBV_CYCLE.NS", 5, 2, 16, 29, 0, .rw, 0x3e8, .live, true, true⟩,
  ⟨"ETH_MACm_QBV_SEL.ENTRY", 6, 2, 16, 7, 0, .rw, 0x0, .live, false, true⟩,
  ⟨"ETH_MACm_QBV_DATA.GATES", 7, 2, 16, 7, 0, .rw, 0xff, .live, true, true⟩,
  ⟨"ETH_MACm_QBV_DATA.INTERVAL", 7, 2, 16, 31, 8, .rw, 0x0, .live, true, true⟩,
  ⟨"ETH_MACm_QBV_CMD.WRITE", 8, 2, 16, 0, 0, .ac, 0x0, .live, false, true⟩,
  ⟨"ETH_MACm_QBV_CMD.SWAP", 8, 2, 16, 1, 1, .ac, 0x0, .live, false, true⟩,
  ⟨"ETH_PTPm_LO.NS", 9, 2, 16, 31, 0, .ro, 0x0, .live, false, true⟩,
  ⟨"ETH_PTPm_HI.NS", 10, 2, 16, 31, 0, .ro, 0x0, .live, false, true⟩,
  ⟨"ETH_PTPm_STAT.LOCK", 11, 2, 16, 0, 0, .ro, 0x0, .live, false, true⟩,
  ⟨"ETH_TPL_SEL.WORD", 32, 1, 1, 14, 2, .rw, 0x0, .live, false, true⟩,
  ⟨"ETH_TPL_DATA.DATA", 33, 1, 1, 31, 0, .rw, 0x0, .live, false, true⟩,
  ⟨"ETH_EVENT.PATCH_BAD_TPL_BUSY", 34, 1, 1, 1, 0, .sq, 0x0, .live, false, true⟩,
  ⟨"ETH_EVENT.SEQ", 34, 1, 1, 31, 24, .sq, 0x0, .live, false, true⟩,
  ⟨"ETH_TPLt_CFG.EN", 48, 16, 1, 0, 0, .rw, 0x0, .live, true, true⟩,
  ⟨"ETH_TPLt_CFG.MAC", 48, 16, 1, 1, 1, .rw, 0x0, .live, true, true⟩,
  ⟨"ETH_TPLt_CFG.CHAIN", 48, 16, 1, 3, 2, .rw, 0x0, .live, true, true⟩,
  ⟨"ETH_TPLt_CFG.CLASS", 48, 16, 1, 6, 4, .rw, 0x7, .live, true, true⟩,
  ⟨"ETH_TPLt_CFG.LENGTH", 48, 16, 1, 26, 16, .rw, 0x3c, .live, true, true⟩,
  ⟨"ETH_TX0,ETH_TX1,ETH_TPL_SENT,ETH_GATE_LATE.COUNT", 64, 4, 1, 31, 0, .ro, 0x0, .live, false, true⟩,
  ⟨"ETH_HLD_TX0toETH_HLD_GATE_LATE.COUNT", 72, 4, 1, 31, 0, .hs, 0x0, .live, false, true⟩]

/-- Register table of block CAP, one row for each row of the spec's table. -/
def rowsCap : List RegRow := [
  ⟨"CAP_CHn_CFG.EN", 0, 4, 8, 0, 0, .rw, 0x0, .live, true, true⟩,
  ⟨"CAP_CHn_CFG.LANES", 0, 4, 8, 2, 1, .rw, 0x2, .live, true, true⟩,
  ⟨"CAP_CHn_CFG.VC", 0, 4, 8, 4, 3, .rw, 0x0, .live, true, true⟩,
  ⟨"CAP_CHn_CFG.DATATYPE", 0, 4, 8, 13, 8, .rw, 0x2a, .live, true, true⟩,
  ⟨"CAP_CHn_CFG.BUFFERS", 0, 4, 8, 17, 16, .rw, 0x0, .live, true, true⟩,
  ⟨"CAP_CHn_CFG.STAMP_AXIS", 0, 4, 8, 19, 18, .rw, 0x0, .live, true, true⟩,
  ⟨"CAP_CHn_BASE.OFFSET", 1, 4, 8, 25, 0, .rw, 0x0, .live, true, true⟩,
  ⟨"CAP_CHn_SIZE.BYTES", 2, 4, 8, 24, 0, .rw, 0x0, .live, true, true⟩,
  ⟨"CAP_CHn_FRAMES.COUNT", 3, 4, 8, 31, 0, .ro, 0x0, .live, false, true⟩,
  ⟨"CAP_CHn_LAST.BUFFER", 4, 4, 8, 1, 0, .ro, 0x0, .live, false, true⟩,
  ⟨"CAP_CHn_LAST.BAD", 4, 4, 8, 2, 2, .ro, 0x0, .live, false, true⟩,
  ⟨"CAP_CHn_STAMP_LO.VALUE", 5, 4, 8, 31, 0, .ro, 0x0, .live, false, true⟩,
  ⟨"CAP_CHn_STAMP_HI.VALUE", 6, 4, 8, 31, 0, .ro, 0x0, .live, false, true⟩,
  ⟨"CAP_CHn_ERR.COUNT", 7, 4, 8, 31, 0, .ro, 0x0, .live, false, true⟩,
  ⟨"CAP_HLD_CH0_ERRtoCAP_HLD_CH3_ERR.COUNT", 40, 4, 1, 31, 0, .hs, 0x0, .live, false, true⟩]

/-- Register table of block BSN, one row for each row of the spec's table. -/
def rowsBsn : List RegRow := [
  ⟨"BSN_CTL.HBM_EN", 0, 1, 1, 0, 0, .rw, 0x0, .drop, true, false⟩,
  ⟨"BSN_CTL.DIGEST_EN", 0, 1, 1, 1, 1, .rw, 0x0, .drop, true, false⟩,
  ⟨"BSN_HBM_STAT.TRAINED", 1, 1, 1, 1, 0, .ro, 0x0, .live, false, false⟩,
  ⟨"BSN_HBM_STAT.HOT", 1, 1, 1, 3, 2, .ro, 0x0, .live, false, false⟩,
  ⟨"BSN_EVENT.SRAM_CE", 2, 1, 1, 0, 0, .sq, 0x0, .live, false, false⟩,
  ⟨"BSN_EVENT.SRAM_UE", 2, 1, 1, 1, 1, .sq, 0x0, .live, false, false⟩,
  ⟨"BSN_EVENT.HBM_CE", 2, 1, 1, 2, 2, .sq, 0x0, .live, false, false⟩,
  ⟨"BSN_EVENT.HBM_UE", 2, 1, 1, 3, 3, .sq, 0x0, .live, false, false⟩,
  ⟨"BSN_EVENT.SEQ", 2, 1, 1, 31, 24, .sq, 0x0, .live, false, false⟩,
  ⟨"BSN_ERR_ADDR_LO.GRANULE", 3, 1, 1, 31, 3, .ro, 0x0, .live, false, false⟩,
  ⟨"BSN_ERR_ADDR_HI.GRANULE", 4, 1, 1, 7, 0, .ro, 0x0, .live, false, false⟩,
  ⟨"BSN_ERR_ADDR_HI.VALID", 4, 1, 1, 31, 31, .ro, 0x0, .live, false, false⟩,
  ⟨"BSN_SCRUB_CTL.SCRUB_EN", 5, 1, 1, 0, 0, .rw, 0x0, .live, true, true⟩,
  ⟨"BSN_SRAM_CE.COUNT", 16, 1, 1, 31, 0, .ro, 0x0, .live, false, false⟩,
  ⟨"BSN_SRAM_UE.COUNT", 17, 1, 1, 31, 0, .ro, 0x0, .live, false, false⟩,
  ⟨"BSN_HBM_CE.COUNT", 18, 1, 1, 31, 0, .ro, 0x0, .live, false, false⟩,
  ⟨"BSN_HBM_UE.COUNT", 19, 1, 1, 31, 0, .ro, 0x0, .live, false, false⟩,
  ⟨"BSN_REFRESH_STALL.COUNT", 20, 1, 1, 31, 0, .ro, 0x0, .live, false, false⟩,
  ⟨"BSN_DIGEST_WAIT.COUNT", 21, 1, 1, 31, 0, .ro, 0x0, .live, false, false⟩,
  ⟨"BSN_PORT_CONFLICT0toBSN_PORT_CONFLICT7.COUNT", 24, 8, 1, 31, 0, .ro, 0x0, .live, false, false⟩,
  ⟨"BSN_HLD_SRAM_CEtoBSN_HLD_DIGEST_WAIT.COUNT", 32, 6, 1, 31, 0, .hs, 0x0, .live, false, false⟩,
  ⟨"BSN_HLD_PORT_CONFLICT0toBSN_HLD_PORT_CONFLICT7.COUNT", 38, 8, 1, 31, 0, .hs, 0x0, .live, false, false⟩]

/-- Register table of block ERR, one row for each row of the spec's table. -/
def rowsErr : List RegRow := [
  ⟨"ERR_CTL.RING_EN", 0, 1, 1, 0, 0, .rw, 0x0, .live, true, true⟩,
  ⟨"ERR_CTL.DRIFT_FAIL", 0, 1, 1, 1, 1, .rw, 0x0, .live, true, true⟩,
  ⟨"ERR_CTL.MIRROR", 0, 1, 1, 2, 2, .rw, 0x0, .live, true, true⟩,
  ⟨"ERR_EVENT.CORRECTED_etc", 1, 1, 1, 5, 0, .sq, 0x0, .live, false, true⟩,
  ⟨"ERR_EVENT.SEQ", 1, 1, 1, 31, 24, .sq, 0x0, .live, false, true⟩,
  ⟨"ERR_RING_BASE.OFFSET", 2, 1, 1, 25, 12, .rw, 0x0, .live, true, true⟩,
  ⟨"ERR_RING_BASE.LOG2", 2, 1, 1, 31, 28, .rw, 0x6, .live, true, true⟩,
  ⟨"ERR_RING_PTR.HEAD", 3, 1, 1, 11, 0, .rw, 0x0, .live, false, true⟩,
  ⟨"ERR_RING_PTR.TAIL", 3, 1, 1, 27, 16, .ro, 0x0, .live, false, true⟩,
  ⟨"ERR_RING_PTR.PHASE", 3, 1, 1, 31, 31, .ro, 0x1, .live, false, true⟩,
  ⟨"ERR_MIRROR_LO.ADDR", 4, 1, 1, 31, 12, .rw, 0x0, .live, true, true⟩,
  ⟨"ERR_MIRROR_HI.ADDR", 5, 1, 1, 31, 0, .rw, 0x0, .live, true, true⟩,
  ⟨"ERR_SUMMARY.CLASSES", 6, 1, 1, 3, 0, .ro, 0x0, .live, false, true⟩,
  ⟨"ERR_SUMMARY.SOURCES", 6, 1, 1, 15, 4, .ro, 0x0, .live, false, true⟩,
  ⟨"ERR_REGION_STAT.REINIT", 7, 1, 1, 8, 0, .ro, 0x0, .live, false, true⟩,
  ⟨"ERR_FATAL0toERR_FATAL7.RECORD", 8, 8, 1, 31, 0, .ro, 0x0, .live, false, true⟩,
  ⟨"ERR_CORRECTED,ERR_CONTAINED,ERR_REGION,ERR_CE_LOST,ERR_MIRROR_DROP,ERR_REINITS.COUNT", 16, 6, 1, 31, 0, .ro, 0x0, .live, false, true⟩,
  ⟨"ERR_HLD_CORRECTEDtoERR_HLD_REINITS.COUNT", 22, 6, 1, 31, 0, .hs, 0x0, .live, false, true⟩,
  ⟨"ERR_INJECT.GO", 28, 1, 1, 0, 0, .ac, 0x0, .live, false, true⟩,
  ⟨"ERR_INJECT.SOURCE", 28, 1, 1, 4, 1, .rw, 0x1, .live, false, true⟩,
  ⟨"ERR_INJECT.UNIT", 28, 1, 1, 11, 8, .rw, 0x0, .live, false, true⟩,
  ⟨"ERR_INJECT.PENDING", 28, 1, 1, 12, 12, .ro, 0x0, .live, false, true⟩]

/-- Register table of block SEC, one row for each row of the spec's table. -/
def rowsSec : List RegRow := [
  ⟨"SEC_LC_STAT.STATE", 0, 1, 1, 2, 0, .ro, 0x0, .live, false, true⟩,
  ⟨"SEC_LC_STAT.FUSED", 0, 1, 1, 6, 4, .ro, 0x0, .live, false, true⟩,
  ⟨"SEC_LC_STAT.ERASED_ALL", 0, 1, 1, 8, 8, .ro, 0x0, .live, false, true⟩,
  ⟨"SEC_LC_STAT.RESULT", 0, 1, 1, 15, 12, .ro, 0x0, .live, false, true⟩,
  ⟨"SEC_LC_CMD.GO", 1, 1, 1, 0, 0, .ac, 0x0, .live, false, true⟩,
  ⟨"SEC_LC_CMD.TARGET", 1, 1, 1, 3, 1, .wo, 0x0, .live, false, true⟩,
  ⟨"SEC_LC_CMD.KEY", 1, 1, 1, 31, 16, .wo, 0x0, .live, false, true⟩,
  ⟨"SEC_EVENT.FUSE_FAIL_CMD_IGNORED", 2, 1, 1, 1, 0, .sq, 0x0, .live, false, true⟩,
  ⟨"SEC_EVENT.SEQ", 2, 1, 1, 31, 24, .sq, 0x0, .live, false, true⟩,
  ⟨"SEC_STAT.BUSY", 3, 1, 1, 0, 0, .ro, 0x0, .live, false, true⟩,
  ⟨"SEC_UID_LO.UID", 4, 1, 1, 31, 0, .ro, 0x0, .live, false, true⟩,
  ⟨"SEC_UID_HI.UID", 5, 1, 1, 31, 0, .ro, 0x0, .live, false, true⟩,
  ⟨"SEC_KEY_DATA0toSEC_KEY_DATA7.HASH", 8, 8, 1, 31, 0, .rw, 0x0, .live, false, true⟩,
  ⟨"SEC_KEY_CMD.SLOT", 16, 1, 1, 1, 0, .wo, 0x0, .live, false, true⟩,
  ⟨"SEC_KEY_CMD.PROGRAM", 16, 1, 1, 2, 2, .ac, 0x0, .live, false, true⟩,
  ⟨"SEC_KEY_CMD.READ", 16, 1, 1, 3, 3, .ac, 0x0, .live, false, true⟩,
  ⟨"SEC_KEY_CMD.REVOKE", 16, 1, 1, 4, 4, .ac, 0x0, .live, false, true⟩,
  ⟨"SEC_KEY_CMD.KEY", 16, 1, 1, 31, 16, .wo, 0x0, .live, false, true⟩,
  ⟨"SEC_KEY_STAT.SLOTS", 17, 1, 1, 7, 0, .ro, 0x0, .live, false, true⟩,
  ⟨"SEC_KEY_STAT.RESULT", 17, 1, 1, 11, 8, .ro, 0x0, .live, false, true⟩,
  ⟨"SEC_TOKEN_OFF.OFFSET", 20, 1, 1, 25, 6, .rw, 0x0, .live, false, true⟩,
  ⟨"SEC_TOKEN_CMD.GO", 21, 1, 1, 0, 0, .ac, 0x0, .live, false, true⟩,
  ⟨"SEC_TOKEN_STAT.RESULT", 22, 1, 1, 3, 0, .ro, 0x0, .live, false, true⟩]

/-- Register table of block DBG, one row for each row of the spec's table. -/
def rowsDbg : List RegRow := [
  ⟨"DBG_CTL.HOST_LOCK", 0, 1, 1, 0, 0, .rw, 0x0, .live, true, true⟩,
  ⟨"DBG_STAT.DEBUG_OPEN", 1, 1, 1, 0, 0, .ro, 0x0, .live, false, true⟩,
  ⟨"DBG_STAT.TAP_ACTIVE", 1, 1, 1, 1, 1, .ro, 0x0, .live, false, true⟩,
  ⟨"DBG_EVENT.JTAG_DENIED", 2, 1, 1, 0, 0, .sq, 0x0, .live, false, true⟩,
  ⟨"DBG_EVENT.SEQ", 2, 1, 1, 31, 24, .sq, 0x0, .live, false, true⟩,
  ⟨"DBG_REGACC.COUNT", 4, 1, 1, 31, 0, .ro, 0x0, .live, false, true⟩,
  ⟨"DBG_HLD_REGACC.COUNT", 5, 1, 1, 31, 0, .hs, 0x0, .live, false, true⟩]

/-- Register table of block CORE, one row for each row of the spec's table. -/
def rowsCore : List RegRow := [
  ⟨"CORE_ID.INSTANCE", 0, 1, 1, 1, 0, .ro, 0x0, .live, false, false⟩,
  ⟨"CORE_CTL.ENABLE", 1, 1, 1, 0, 0, .rw, 0x0, .drop, true, false⟩,
  ⟨"CORE_CTL.ARR_EN", 1, 1, 1, 7, 4, .rw, 0x0, .drop, true, false⟩,
  ⟨"CORE_NUM.FTZ", 2, 1, 1, 0, 0, .rw, 0x0, .live, true, false⟩,
  ⟨"CORE_NUM.PASSES", 2, 1, 1, 2, 1, .rw, 0x3, .live, true, false⟩,
  ⟨"CORE_STAT.ARR_BUSY", 3, 1, 1, 3, 0, .ro, 0x0, .live, false, false⟩,
  ⟨"CORE_STAT.SHADOW_FULL", 3, 1, 1, 7, 4, .ro, 0x0, .live, false, false⟩,
  ⟨"CORE_STAT.MOORED", 3, 1, 1, 8, 8, .ro, 0x0, .live, false, false⟩,
  ⟨"CORE_FLAGS.OVF_UNF_INX_INV_NF", 4, 1, 1, 4, 0, .sq, 0x0, .live, false, false⟩,
  ⟨"CORE_FLAGS.SEQ", 4, 1, 1, 31, 24, .sq, 0x0, .live, false, false⟩,
  ⟨"CORE_NF_POS.COLUMN_to_VALID", 5, 1, 1, 31, 0, .ro, 0x0, .live, false, false⟩,
  ⟨"CORE_EVENT.RESIDUE", 6, 1, 1, 0, 0, .sq, 0x0, .live, false, false⟩,
  ⟨"CORE_EVENT.CAL_OVF", 6, 1, 1, 1, 1, .sq, 0x0, .live, false, false⟩,
  ⟨"CORE_EVENT.SEQ", 6, 1, 1, 31, 24, .sq, 0x0, .live, false, false⟩,
  ⟨"CORE_RES_POS.COLUMN", 7, 1, 1, 8, 0, .ro, 0x0, .live, false, false⟩,
  ⟨"CORE_RES_POS.SLOT", 7, 1, 1, 13, 9, .ro, 0x0, .live, false, false⟩,
  ⟨"CORE_RES_POS.ARRAY", 7, 1, 1, 15, 14, .ro, 0x0, .live, false, false⟩,
  ⟨"CORE_RES_POS.EDGE", 7, 1, 1, 30, 30, .ro, 0x0, .live, false, false⟩,
  ⟨"CORE_RES_POS.VALID", 7, 1, 1, 31, 31, .ro, 0x0, .live, false, false⟩,
  ⟨"CORE_RES_INJECT.ARM", 8, 1, 1, 0, 0, .ac, 0x0, .live, false, false⟩,
  ⟨"CORE_RES_INJECT.ARRAY", 8, 1, 1, 2, 1, .rw, 0x0, .live, false, true⟩,
  ⟨"CORE_SEQ_STEP.STEP", 9, 1, 1, 23, 0, .ro, 0x0, .live, false, false⟩,
  ⟨"CORE_ARR_FUM_STALL0toCORE_ARR_FUM_STALL3.COUNT", 16, 4, 1, 31, 0, .ro, 0x0, .live, false, false⟩,
  ⟨"CORE_ARR_SWAP_WAIT0toCORE_ARR_SWAP_WAIT3.COUNT", 20, 4, 1, 31, 0, .ro, 0x0, .live, false, false⟩,
  ⟨"CORE_ARR_EAST_WAIT0toCORE_ARR_EAST_WAIT3.COUNT", 24, 4, 1, 31, 0, .ro, 0x0, .live, false, false⟩,
  ⟨"CORE_ARR_DRAIN_WAIT0toCORE_ARR_DRAIN_WAIT3.COUNT", 28, 4, 1, 31, 0, .ro, 0x0, .live, false, false⟩,
  ⟨"CORE_HLD_FUM_STALL0toCORE_HLD_DRAIN_WAIT3.COUNT", 32, 16, 1, 31, 0, .hs, 0x0, .live, false, false⟩,
  ⟨"CORE_QNT_CTL.QNT_EN", 64, 1, 1, 0, 0, .rw, 0x0, .drop, true, false⟩,
  ⟨"CORE_QNT_CTL.GRP_EN", 64, 1, 1, 1, 1, .rw, 0x0, .drop, true, false⟩,
  ⟨"CORE_QNT_OUT.COUNT", 68, 1, 1, 31, 0, .ro, 0x0, .live, false, false⟩,
  ⟨"CORE_QNT_SAT.COUNT", 69, 1, 1, 31, 0, .ro, 0x0, .live, false, false⟩,
  ⟨"CORE_QNT_DRAWS.COUNT", 70, 1, 1, 31, 0, .ro, 0x0, .live, false, false⟩,
  ⟨"CORE_SURV_RUNS.COUNT", 71, 1, 1, 31, 0, .ro, 0x0, .live, false, false⟩,
  ⟨"CORE_TBL_WAIT.COUNT", 72, 1, 1, 31, 0, .ro, 0x0, .live, false, false⟩,
  ⟨"CORE_WEXP_BAD.COUNT", 73, 1, 1, 31, 0, .ro, 0x0, .live, false, false⟩,
  ⟨"CORE_HLD_QNT_OUTtoCORE_HLD_WEXP_BAD.COUNT", 80, 6, 1, 31, 0, .hs, 0x0, .live, false, false⟩,
  ⟨"CORE_VEC_CTL.VEC_EN", 96, 1, 1, 0, 0, .rw, 0x0, .drop, true, false⟩,
  ⟨"CORE_VEC_CTL.GEY_EN", 96, 1, 1, 1, 1, .rw, 0x0, .drop, true, false⟩,
  ⟨"CORE_GEY_VER.ROM", 97, 1, 1, 15, 0, .ro, 0x103, .live, false, false⟩,
  ⟨"CORE_GEY_USE.STEPS", 98, 1, 1, 10, 0, .ro, 0x0, .live, false, false⟩,
  ⟨"CORE_GEY_USE.TABLE", 98, 1, 1, 28, 16, .ro, 0x0, .live, false, false⟩,
  ⟨"CORE_ROW_RES_POS.ROW", 99, 1, 1, 5, 0, .ro, 0x0, .live, false, false⟩,
  ⟨"CORE_ROW_RES_POS.VALID", 99, 1, 1, 31, 31, .ro, 0x0, .live, false, false⟩,
  ⟨"CORE_VEC_EVENT.GEY_BADSTEP", 100, 1, 1, 0, 0, .sq, 0x0, .live, false, false⟩,
  ⟨"CORE_VEC_EVENT.SEQ", 100, 1, 1, 31, 24, .sq, 0x0, .live, false, false⟩,
  ⟨"CORE_GEY_WAIT0toCORE_GEY_WAIT3.COUNT", 104, 4, 1, 31, 0, .ro, 0x0, .live, false, false⟩,
  ⟨"CORE_GEY_SERVED0toCORE_GEY_SERVED3.COUNT", 108, 4, 1, 31, 0, .ro, 0x0, .live, false, false⟩,
  ⟨"CORE_ROW_READS.COUNT", 112, 1, 1, 31, 0, .ro, 0x0, .live, false, false⟩,
  ⟨"CORE_HLD_GEY_WAIT0toCORE_HLD_ROW_READS.COUNT", 116, 9, 1, 31, 0, .hs, 0x0, .live, false, false⟩,
  ⟨"CORE_DMA_CTL.DMA_EN", 48, 1, 1, 0, 0, .rw, 0x0, .drop, true, false⟩,
  ⟨"CORE_POOL_ERR_ADDR.GRANULE", 49, 1, 1, 25, 3, .ro, 0x0, .live, false, false⟩,
  ⟨"CORE_POOL_ERR_ADDR.VALID", 49, 1, 1, 31, 31, .ro, 0x0, .live, false, false⟩,
  ⟨"CORE_POOL_EVENT.CE", 50, 1, 1, 0, 0, .sq, 0x0, .live, false, false⟩,
  ⟨"CORE_POOL_EVENT.UE", 50, 1, 1, 1, 1, .sq, 0x0, .live, false, false⟩,
  ⟨"CORE_POOL_EVENT.SEQ", 50, 1, 1, 31, 24, .sq, 0x0, .live, false, false⟩,
  ⟨"CORE_POOL_CE.COUNT", 52, 1, 1, 31, 0, .ro, 0x0, .live, false, false⟩,
  ⟨"CORE_POOL_UE.COUNT", 53, 1, 1, 31, 0, .ro, 0x0, .live, false, false⟩,
  ⟨"CORE_POOL_CONFLICT.COUNT", 54, 1, 1, 31, 0, .ro, 0x0, .live, false, false⟩,
  ⟨"CORE_DMA_CONV.COUNT", 55, 1, 1, 31, 0, .ro, 0x0, .live, false, false⟩,
  ⟨"CORE_HLD_POOL_CEtoCORE_HLD_DMA_CONV.COUNT", 56, 4, 1, 31, 0, .hs, 0x0, .live, false, false⟩]

/-- Register table of block PLN, one row for each row of the spec's table. -/
def rowsPln : List RegRow := [
  ⟨"PLN_CTL.PLAN_EN", 0, 1, 1, 0, 0, .rw, 0x0, .drop, true, false⟩,
  ⟨"PLN_CTL.FEED_EN", 0, 1, 1, 1, 1, .rw, 0x0, .drop, true, false⟩,
  ⟨"PLN_STAT.LOADED", 1, 1, 1, 3, 0, .ro, 0x0, .live, false, false⟩,
  ⟨"PLN_STAT.LIVE", 1, 1, 1, 7, 4, .ro, 0x0, .live, false, false⟩,
  ⟨"PLN_EVENT.STORE_CE", 2, 1, 1, 0, 0, .sq, 0x0, .live, false, false⟩,
  ⟨"PLN_EVENT.STORE_UE", 2, 1, 1, 1, 1, .sq, 0x0, .live, false, false⟩,
  ⟨"PLN_EVENT.PREFIX_HIT", 2, 1, 1, 2, 2, .sq, 0x0, .live, false, false⟩,
  ⟨"PLN_EVENT.SEQ", 2, 1, 1, 31, 24, .sq, 0x0, .live, false, false⟩,
  ⟨"PLN_STORE_ERR_ADDR.GRANULE", 3, 1, 1, 24, 3, .ro, 0x0, .live, false, false⟩,
  ⟨"PLN_STORE_ERR_ADDR.VALID", 3, 1, 1, 31, 31, .ro, 0x0, .live, false, false⟩,
  ⟨"PLN_CH0_CFGtoPLN_CH3_CFG.PERIOD", 8, 4, 1, 2, 0, .rw, 0x2, .drop, true, false⟩,
  ⟨"PLN_CH0_CFGtoPLN_CH3_CFG.HORIZON", 8, 4, 1, 15, 4, .rw, 0x10, .live, true, false⟩,
  ⟨"PLN_CH0_CFGtoPLN_CH3_CFG.AHEAD", 8, 4, 1, 28, 16, .rw, 0x40, .live, true, false⟩,
  ⟨"PLN_CH0_FILLtoPLN_CH3_FILL.FILL", 12, 4, 1, 12, 0, .ro, 0x0, .live, false, false⟩,
  ⟨"PLN_CH0_ITEMtoPLN_CH3_ITEM.NUMBER", 16, 4, 1, 31, 0, .ro, 0x0, .live, false, false⟩,
  ⟨"PLN_CH0_GENtoPLN_CH3_GEN.GEN", 20, 4, 1, 31, 0, .ro, 0x0, .live, false, false⟩,
  ⟨"PLN_QUERIES,PLN_CE_FULL,PLN_REPAIRS,PLN_REPLANS,PLN_NN_SCANS,PLN_STORE_CE,PLN_STORE_UE.COUNT", 32, 7, 1, 31, 0, .ro, 0x0, .live, false, false⟩,
  ⟨"PLN_HLD_QUERIEStoPLN_HLD_STORE_UE.COUNT", 40, 7, 1, 31, 0, .hs, 0x0, .live, false, false⟩]

/-- Register table of block WLD, one row for each row of the spec's table. -/
def rowsWld : List RegRow := [
  ⟨"WLD_CTL.WORLD_EN", 0, 1, 1, 0, 0, .rw, 0x0, .drop, true, false⟩,
  ⟨"WLD_CTL.PIN_ENV", 0, 1, 1, 1, 1, .rw, 0x0, .live, true, false⟩,
  ⟨"WLD_CTL.LEAF", 0, 1, 1, 3, 2, .rw, 0x0, .drop, true, false⟩,
  ⟨"WLD_ORIGIN_XtoWLD_ORIGIN_Z.MM", 1, 3, 1, 31, 0, .rw, 0x0, .drop, true, false⟩,
  ⟨"WLD_UNKNOWN.VALUE", 4, 1, 1, 15, 0, .rw, 0x0, .live, true, false⟩,
  ⟨"WLD_MARGIN.MM", 5, 1, 1, 31, 0, .rw, 0x0, .live, true, false⟩,
  ⟨"WLD_ENV_LO.BRICK", 6, 1, 1, 26, 0, .rw, 0x0, .live, true, false⟩,
  ⟨"WLD_ENV_HI.BRICK", 7, 1, 1, 26, 0, .rw, 0x0, .live, true, false⟩,
  ⟨"WLD_GEN.GEN", 8, 1, 1, 31, 0, .ro, 0x0, .live, false, false⟩,
  ⟨"WLD_BRICKS.COUNT", 9, 1, 1, 18, 0, .ro, 0x0, .live, false, false⟩,
  ⟨"WLD_PIN_STAT.COUNT", 10, 1, 1, 14, 0, .ro, 0x0, .live, false, false⟩,
  ⟨"WLD_PIN_STAT.PINNED", 10, 1, 1, 31, 31, .ro, 0x0, .live, false, false⟩,
  ⟨"WLD_EVENT.BRICK_FULL", 11, 1, 1, 0, 0, .sq, 0x0, .live, false, false⟩,
  ⟨"WLD_EVENT.PIN_FULL", 11, 1, 1, 1, 1, .sq, 0x0, .live, false, false⟩,
  ⟨"WLD_EVENT.DIRTY_ALL", 11, 1, 1, 2, 2, .sq, 0x0, .live, false, false⟩,
  ⟨"WLD_EVENT.NAR_LEAF", 11, 1, 1, 3, 3, .sq, 0x0, .live, false, false⟩,
  ⟨"WLD_EVENT.BAD_RECORD", 11, 1, 1, 4, 4, .sq, 0x0, .live, false, false⟩,
  ⟨"WLD_EVENT.SEQ", 11, 1, 1, 31, 24, .sq, 0x0, .live, false, false⟩,
  ⟨"WLD_MERGED,WLD_PORT_WAIT,WLD_STALE,WLD_CHK_LIMIT,WLD_EVICT,WLD_PIN_MISS,WLD_NAR_LEAVES.COUNT", 16, 7, 1, 31, 0, .ro, 0x0, .live, false, false⟩,
  ⟨"WLD_HLD_MERGEDtoWLD_HLD_NAR_LEAVES.COUNT", 24, 7, 1, 31, 0, .hs, 0x0, .live, false, false⟩]

/-- The row stands at register index `i`. -/
def RegRow.standsAt (r : RegRow) (i : Nat) : Bool :=
  decide (r.base ≤ i) && decide ((i - r.base) % r.stride = 0) && decide ((i - r.base) / r.stride < r.count)

/-- The register table of a block slot (R43); an unlisted slot has none. -/
def rowsOfSlot : Nat → List RegRow
  | 0x00 => rowsGlb | 0x01 => rowsHif | 0x02 => rowsMmu | 0x03 => rowsClk | 0x04 => rowsPwr
  | 0x05 => rowsTtb | 0x06 => rowsEth | 0x07 => rowsCap | 0x08 => rowsBsn | 0x09 => rowsErr
  | 0x0A => rowsSec | 0x0B => rowsDbg | 0x10 => rowsCore | 0x11 => rowsCore | 0x12 => rowsCore
  | 0x13 => rowsCore | 0x18 => rowsPln | 0x19 => rowsWld
  | _ => []

/-- The number D of index bits a block decodes (R43, R44); 0 for an unlisted slot. -/
def slotBits : Nat → Nat
  | 0x00 => 6 | 0x01 => 8 | 0x02 => 6 | 0x03 => 6 | 0x04 => 5 | 0x05 => 7 | 0x06 => 7 | 0x07 => 6
  | 0x08 => 6 | 0x09 => 5 | 0x0A => 5 | 0x0B => 4 | 0x10 => 7 | 0x11 => 7 | 0x12 => 7 | 0x13 => 7
  | 0x18 => 7 | 0x19 => 6
  | _ => 0

/-- The block slots R43 lists, ascending. -/
def allSlots : List Nat :=
  [0x00, 0x01, 0x02, 0x03, 0x04, 0x05, 0x06, 0x07, 0x08, 0x09, 0x0A, 0x0B, 0x10, 0x11, 0x12, 0x13, 0x18, 0x19]

/-- The slot is one R43 lists. -/
def slotListed (slot : Nat) : Bool := allSlots.contains slot

/-- The region a block slot lies in (R43), by the region codes of R447 and R548. -/
def slotRegion : Nat → Nat
  | 0x03 => 8 | 0x04 => 8 | 0x0A => 8 | 0x05 => 7 | 0x06 => 7 | 0x07 => 7 | 0x08 => 5
  | 0x10 => 0 | 0x11 => 1 | 0x12 => 2 | 0x13 => 3 | 0x18 => 4 | 0x19 => 4
  | _ => 6

/-- A register's key: its block slot and its index (both after decoding). -/
def regKey (slot idx : Nat) : Nat := 256 * slot + idx

/-- The table rows of the register with a key. -/
def regRows (key : Nat) : List RegRow := (rowsOfSlot (key / 256)).filter (fun r => r.standsAt (key % 256))

/-- The value a register has after a start, by the Reset column (R14); CORE_ID holds the instance. -/
def regReset (key : Nat) : W32 :=
  (regRows key).foldl (fun w r => withField w r.hi r.lo r.reset) 0 |||
    (if key % 256 = 0 ∧ 0x10 ≤ key / 256 ∧ key / 256 ≤ 0x13 then BitVec.ofNat 32 (key / 256 - 0x10) else 0)

/-- The bits of a register that rows accepted by `p` hold. -/
def regMask (key : Nat) (p : RegRow → Bool) : W32 :=
  ((regRows key).filter p).foldl (fun w r => w ||| maskOf r.hi r.lo) 0

/-- The RW bits of a register. -/
def rwMask (key : Nat) : W32 := regMask key (fun r => decide (r.ty = .rw))
/-- The AC bits of a register. -/
def acMask (key : Nat) : W32 := regMask key (fun r => decide (r.ty = .ac))
/-- The bits of a register that are configuration bits (R78). -/
def crcMask (key : Nat) : W32 := regMask key (fun r => r.crc)
/-- The bits of a register that are not written and not read: WO and AC read as zero (R17). -/
def hiddenMask (key : Nat) : W32 := regMask key (fun r => decide (r.ty = .ac) || decide (r.ty = .wo))
/-- The register is a sequence-clear register (R66). -/
def isSq (key : Nat) : Bool := (regRows key).any (fun r => decide (r.ty = .sq))

/-- The device-wide snapshot's copies (R70): block slot, first counter, first holding register, how
many. The counters of CAP lie eight indices apart and are listed one by one. -/
def snapCopies : List (Nat × Nat × Nat × Nat) :=
  [(0x00, 20, 24, 3), (0x01, 160, 168, 6), (0x02, 8, 12, 3), (0x03, 48, 52, 4), (0x04, 16, 20, 2),
   (0x05, 72, 80, 6), (0x06, 64, 72, 4), (0x07, 7, 40, 1), (0x07, 15, 41, 1), (0x07, 23, 42, 1),
   (0x07, 31, 43, 1), (0x08, 16, 32, 6), (0x08, 24, 38, 8), (0x09, 16, 22, 6), (0x0B, 4, 5, 1),
   (0x18, 32, 40, 7), (0x19, 16, 24, 7)] ++
  [0x10, 0x11, 0x12, 0x13].flatMap (fun s => [(s, 16, 32, 16), (s, 68, 80, 6), (s, 104, 116, 9), (s, 52, 56, 4)])

/-- A named register field: the register's key and its bits [hi:lo]. -/
structure RField where
  key : Nat
  hi : Nat
  lo : Nat
  deriving DecidableEq, Repr

/-! ### Named fields, one for each field of the tables. An argument `c` is the core, `i` the
instance or number the table's name carries. -/

def GLB_ID_ID : RField := ⟨0, 31, 0⟩
def GLB_EDITION_SILICON : RField := ⟨1, 7, 0⟩
def GLB_EDITION_MANUAL : RField := ⟨1, 15, 8⟩
def GLB_CTL_RUN : RField := ⟨2, 0, 0⟩
def GLB_EVENT_CFG_DRIFT : RField := ⟨3, 0, 0⟩
def GLB_EVENT_REG_TIMEOUT : RField := ⟨3, 1, 1⟩
def GLB_EVENT_BAD_ACCESS : RField := ⟨3, 2, 2⟩
def GLB_EVENT_SNAP_DONE : RField := ⟨3, 3, 3⟩
def GLB_EVENT_BERTH_DONE : RField := ⟨3, 4, 4⟩
def GLB_EVENT_SEQ : RField := ⟨3, 31, 24⟩
def GLB_SCRATCH_DATA : RField := ⟨4, 31, 0⟩
def GLB_SNAP_SNAP : RField := ⟨8, 0, 0⟩
def GLB_SNAP_BUSY : RField := ⟨8, 1, 1⟩
def GLB_SNAP_TICK_LO_TICK : RField := ⟨9, 31, 0⟩
def GLB_SNAP_TICK_HI_TICK : RField := ⟨10, 31, 0⟩
def GLB_SNAP_COUNT_COUNT : RField := ⟨11, 31, 0⟩
def GLB_TICK_LO_TICK : RField := ⟨12, 31, 0⟩
def GLB_TICK_HI_TICK : RField := ⟨13, 31, 0⟩
def GLB_CFG_CTL_CHECK : RField := ⟨16, 0, 0⟩
def GLB_CFG_CTL_CAPTURE : RField := ⟨16, 1, 1⟩
def GLB_CFG_CTL_HOLD : RField := ⟨16, 2, 2⟩
def GLB_CFG_REF_REF : RField := ⟨17, 31, 0⟩
def GLB_CFG_CRC_CRC : RField := ⟨18, 31, 0⟩
def GLB_CNT_TIMEOUT_COUNT : RField := ⟨20, 31, 0⟩
def GLB_CNT_BADACC_COUNT : RField := ⟨21, 31, 0⟩
def GLB_CNT_DRIFT_COUNT : RField := ⟨22, 31, 0⟩
def GLB_HLD_TIMEOUT_COUNT : RField := ⟨24, 31, 0⟩
def GLB_HLD_BADACC_COUNT : RField := ⟨25, 31, 0⟩
def GLB_HLD_DRIFT_COUNT : RField := ⟨26, 31, 0⟩
def GLB_TIMEOUT_ADDR_OFFSET : RField := ⟨28, 23, 0⟩
def GLB_TIMEOUT_ADDR_WRITE : RField := ⟨28, 31, 31⟩
def GLB_BERTH_CTL_COMMIT : RField := ⟨32, 0, 0⟩
def GLB_BERTH_CTL_CONFIRM : RField := ⟨32, 1, 1⟩
def GLB_BERTH_CTL_RETURN_PREV : RField := ⟨32, 2, 2⟩
def GLB_BERTH_STAT_ACTIVE : RField := ⟨33, 1, 0⟩
def GLB_BERTH_STAT_PREVIOUS : RField := ⟨33, 3, 2⟩
def GLB_BERTH_STAT_TRIAL : RField := ⟨33, 4, 4⟩
def GLB_BERTH_STAT_WDOG_RUN : RField := ⟨33, 5, 5⟩
def GLB_BERTH_STAT_RESULT : RField := ⟨33, 11, 8⟩
def GLB_BERTH_VER_A_VERSION : RField := ⟨34, 31, 0⟩
def GLB_BERTH_VER_B_VERSION : RField := ⟨35, 31, 0⟩
def GLB_WDOG_LEFT_CYCLES : RField := ⟨36, 31, 0⟩
def GLB_XSPI_ADDR_ADDR : RField := ⟨40, 26, 0⟩
def GLB_XSPI_DATA_DATA : RField := ⟨41, 31, 0⟩
def GLB_XSPI_CMD_GO : RField := ⟨42, 0, 0⟩
def GLB_XSPI_CMD_OP : RField := ⟨42, 3, 1⟩
def GLB_XSPI_STAT_BUSY : RField := ⟨43, 0, 0⟩
def GLB_XSPI_STAT_ERROR : RField := ⟨43, 1, 1⟩
def HIF_CTL_EN : RField := ⟨256, 0, 0⟩
def HIF_STAT_CTX_BUSY : RField := ⟨257, 7, 0⟩
def HIF_STAT_IN_FLIGHT : RField := ⟨257, 16, 8⟩
def HIF_STAT_LINK_UP : RField := ⟨257, 17, 17⟩
def HIF_STAT_SPEED : RField := ⟨257, 20, 18⟩
def HIF_STAT_WIDTH : RField := ⟨257, 24, 21⟩
def HIF_EVENT_DB_BAD : RField := ⟨258, 0, 0⟩
def HIF_EVENT_CYC_OVERRUN : RField := ⟨258, 1, 1⟩
def HIF_EVENT_DB_FLUSHED : RField := ⟨258, 2, 2⟩
def HIF_EVENT_MIRROR_DROP : RField := ⟨258, 3, 3⟩
def HIF_EVENT_SEQ : RField := ⟨258, 31, 24⟩
def HIF_CTX_CTL_EN (i : Nat) : RField := ⟨288 + 16 * i, 0, 0⟩
def HIF_CTX_CTL_FLUSH (i : Nat) : RField := ⟨288 + 16 * i, 1, 1⟩
def HIF_CTX_CTL_CYCLIC (i : Nat) : RField := ⟨288 + 16 * i, 2, 2⟩
def HIF_CTX_CTL_CQ_OVERWRITE (i : Nat) : RField := ⟨288 + 16 * i, 3, 3⟩
def HIF_CTX_CTL_CRIT_OK (i : Nat) : RField := ⟨288 + 16 * i, 4, 4⟩
def HIF_CTX_CTL_MIRROR (i : Nat) : RField := ⟨288 + 16 * i, 5, 5⟩
def HIF_CTX_CTL_ADMIT (i : Nat) : RField := ⟨288 + 16 * i, 6, 6⟩
def HIF_CTX_SQ_BASE_LO_ADDR (i : Nat) : RField := ⟨289 + 16 * i, 31, 12⟩
def HIF_CTX_SQ_BASE_HI_ADDR (i : Nat) : RField := ⟨290 + 16 * i, 15, 0⟩
def HIF_CTX_CQ_BASE_LO_ADDR (i : Nat) : RField := ⟨291 + 16 * i, 31, 12⟩
def HIF_CTX_CQ_BASE_HI_ADDR (i : Nat) : RField := ⟨292 + 16 * i, 15, 0⟩
def HIF_CTX_SIZE_SQ_LOG2 (i : Nat) : RField := ⟨293 + 16 * i, 3, 0⟩
def HIF_CTX_SIZE_CQ_LOG2 (i : Nat) : RField := ⟨293 + 16 * i, 7, 4⟩
def HIF_CTX_SPTR_HEAD (i : Nat) : RField := ⟨294 + 16 * i, 11, 0⟩
def HIF_CTX_SPTR_TAIL (i : Nat) : RField := ⟨294 + 16 * i, 27, 16⟩
def HIF_CTX_CPTR_TAIL (i : Nat) : RField := ⟨295 + 16 * i, 11, 0⟩
def HIF_CTX_CPTR_HEAD (i : Nat) : RField := ⟨295 + 16 * i, 27, 16⟩
def HIF_CTX_CPTR_PHASE (i : Nat) : RField := ⟨295 + 16 * i, 31, 31⟩
def HIF_CTX_CYC_START (i : Nat) : RField := ⟨296 + 16 * i, 11, 0⟩
def HIF_CTX_IRQ_COUNT (i : Nat) : RField := ⟨297 + 16 * i, 7, 0⟩
def HIF_CTX_IRQ_US (i : Nat) : RField := ⟨297 + 16 * i, 23, 8⟩
def HIF_CTX_QUANTUM_US (i : Nat) : RField := ⟨298 + 16 * i, 19, 0⟩
def HIF_CTX_MIRROR_LO_ADDR (i : Nat) : RField := ⟨299 + 16 * i, 31, 12⟩
def HIF_CTX_MIRROR_HI_ADDR (i : Nat) : RField := ⟨300 + 16 * i, 15, 0⟩
def HIF_CTX_STAT_IN_FLIGHT (i : Nat) : RField := ⟨301 + 16 * i, 6, 0⟩
def HIF_CTX_STAT_HELD (i : Nat) : RField := ⟨301 + 16 * i, 11, 7⟩
def HIF_CTX_STAT_FLUSHING (i : Nat) : RField := ⟨301 + 16 * i, 12, 12⟩
def HIF_CTX_STAT_FETCH_STOP (i : Nat) : RField := ⟨301 + 16 * i, 13, 13⟩
def HIF_CTX_SUBSEQ_NEXT (i : Nat) : RField := ⟨302 + 16 * i, 31, 0⟩
def HIF_CTX_OVERRUN_COUNT (i : Nat) : RField := ⟨303 + 16 * i, 31, 0⟩
def HIF_DB_WRITES_COUNT : RField := ⟨416, 31, 0⟩
def HIF_DB_BAD_COUNT : RField := ⟨417, 31, 0⟩
def HIF_FETCHED_COUNT : RField := ⟨418, 31, 0⟩
def HIF_COMPLETED_COUNT : RField := ⟨419, 31, 0⟩
def HIF_PCIE_WAIT_COUNT : RField := ⟨420, 31, 0⟩
def HIF_MIRROR_DROP_COUNT : RField := ⟨421, 31, 0⟩
def HIF_HLD_DB_WRITES_COUNT (i : Nat) : RField := ⟨424 + 1 * i, 31, 0⟩
def MMU_CTL_MMU_EN : RField := ⟨512, 0, 0⟩
def MMU_CTL_TEST_DEFER : RField := ⟨512, 15, 8⟩
def MMU_EVENT_FAULT : RField := ⟨513, 0, 0⟩
def MMU_EVENT_DOUBLE : RField := ⟨513, 1, 1⟩
def MMU_EVENT_CAST_BAD : RField := ⟨513, 2, 2⟩
def MMU_EVENT_SIZE_BAD : RField := ⟨513, 3, 3⟩
def MMU_EVENT_SEQ : RField := ⟨513, 31, 24⟩
def MMU_INV_CTL_CONTEXT : RField := ⟨514, 2, 0⟩
def MMU_INV_CTL_SIZE : RField := ⟨514, 4, 3⟩
def MMU_INV_CTL_GO : RField := ⟨514, 8, 8⟩
def MMU_INV_CTL_BUSY : RField := ⟨514, 9, 9⟩
def MMU_INV_VA_LO_VA : RField := ⟨515, 31, 12⟩
def MMU_INV_VA_HI_VA : RField := ⟨516, 15, 0⟩
def MMU_CAST_SUBSEQ_SUBSEQ : RField := ⟨517, 31, 0⟩
def MMU_CAST_CMD_CONTEXT : RField := ⟨518, 2, 0⟩
def MMU_CAST_CMD_RETRY : RField := ⟨518, 4, 4⟩
def MMU_CAST_CMD_ABORT : RField := ⟨518, 5, 5⟩
def MMU_WALKS_COUNT : RField := ⟨520, 31, 0⟩
def MMU_FAULTS_COUNT : RField := ⟨521, 31, 0⟩
def MMU_WET_COUNT : RField := ⟨522, 31, 0⟩
def MMU_HLD_WALKS_COUNT (i : Nat) : RField := ⟨524 + 1 * i, 31, 0⟩
def MMU_CTX_ROOT_LO_HOST (i : Nat) : RField := ⟨528 + 6 * i, 0, 0⟩
def MMU_CTX_ROOT_LO_ADDR (i : Nat) : RField := ⟨528 + 6 * i, 31, 12⟩
def MMU_CTX_ROOT_HI_ADDR (i : Nat) : RField := ⟨529 + 6 * i, 31, 0⟩
def MMU_CTX_SAVE_LO_SAVE_LOG2 (i : Nat) : RField := ⟨530 + 6 * i, 4, 0⟩
def MMU_CTX_SAVE_LO_ADDR (i : Nat) : RField := ⟨530 + 6 * i, 31, 16⟩
def MMU_CTX_FR_LO_ADDR (i : Nat) : RField := ⟨531 + 6 * i, 31, 12⟩
def MMU_CTX_HI_SAVE (i : Nat) : RField := ⟨532 + 6 * i, 15, 0⟩
def MMU_CTX_HI_FR (i : Nat) : RField := ⟨532 + 6 * i, 31, 16⟩
def MMU_CTX_STAT_FR_HEAD (i : Nat) : RField := ⟨533 + 6 * i, 5, 0⟩
def MMU_CTX_STAT_FR_TAIL (i : Nat) : RField := ⟨533 + 6 * i, 13, 8⟩
def MMU_CTX_STAT_HALTED (i : Nat) : RField := ⟨533 + 6 * i, 16, 16⟩
def MMU_CTX_STAT_PENDING (i : Nat) : RField := ⟨533 + 6 * i, 17, 17⟩
def MMU_CTX_STAT_MOORED (i : Nat) : RField := ⟨533 + 6 * i, 24, 18⟩
def CLK_CTL_MODE : RField := ⟨768, 0, 0⟩
def CLK_CTL_DEFER : RField := ⟨768, 15, 8⟩
def CLK_STAT_LOCKED : RField := ⟨769, 8, 0⟩
def CLK_STAT_AON_XTAL : RField := ⟨769, 9, 9⟩
def CLK_EVENT_CHANGE_DONE : RField := ⟨770, 0, 0⟩
def CLK_EVENT_CHG_IGNORED : RField := ⟨770, 1, 1⟩
def CLK_EVENT_STRETCH : RField := ⟨770, 2, 2⟩
def CLK_EVENT_CANARY : RField := ⟨770, 3, 3⟩
def CLK_EVENT_THERM_HI : RField := ⟨770, 4, 4⟩
def CLK_EVENT_TRIP : RField := ⟨770, 5, 5⟩
def CLK_EVENT_UNLOCK : RField := ⟨770, 6, 6⟩
def CLK_EVENT_SEQ : RField := ⟨770, 31, 24⟩
def CLK_RGN_CFG_OP (i : Nat) : RField := ⟨776 + 4 * i, 3, 0⟩
def CLK_RGN_CFG_MIN_OP (i : Nat) : RField := ⟨776 + 4 * i, 7, 4⟩
def CLK_RGN_CFG_METHOD (i : Nat) : RField := ⟨776 + 4 * i, 8, 8⟩
def CLK_RGN_CFG_WIN (i : Nat) : RField := ⟨776 + 4 * i, 11, 9⟩
def CLK_RGN_CMD_GO (i : Nat) : RField := ⟨777 + 4 * i, 0, 0⟩
def CLK_RGN_STAT_CUR (i : Nat) : RField := ⟨778 + 4 * i, 6, 0⟩
def CLK_RGN_STAT_ARMED (i : Nat) : RField := ⟨778 + 4 * i, 8, 8⟩
def CLK_RGN_STAT_CHANGING (i : Nat) : RField := ⟨778 + 4 * i, 9, 9⟩
def CLK_RGN_STAT_STOPPED (i : Nat) : RField := ⟨778 + 4 * i, 10, 10⟩
def CLK_TEMP_TEMP (i : Nat) : RField := ⟨800 + 1 * i, 15, 0⟩
def CLK_THERM_CFG_THERM_HI : RField := ⟨808, 7, 0⟩
def CLK_THERM_CFG_THERM_TRIP : RField := ⟨808, 15, 8⟩
def CLK_CNT_CHANGES_COUNT : RField := ⟨816, 31, 0⟩
def CLK_CNT_STRETCH_COUNT : RField := ⟨817, 31, 0⟩
def CLK_CNT_CANARY_COUNT : RField := ⟨818, 31, 0⟩
def CLK_CNT_DROOP_COUNT : RField := ⟨819, 31, 0⟩
def CLK_HLD_CHANGES_COUNT (i : Nat) : RField := ⟨820 + 1 * i, 31, 0⟩
def PWR_CTL_WARM : RField := ⟨1024, 0, 0⟩
def PWR_CTL_KEY : RField := ⟨1024, 31, 16⟩
def PWR_STAT_BACKUP : RField := ⟨1025, 0, 0⟩
def PWR_STAT_WARM : RField := ⟨1025, 1, 1⟩
def PWR_STAT_VOK : RField := ⟨1025, 2, 2⟩
def PWR_STAT_XTAL_OK : RField := ⟨1025, 3, 3⟩
def PWR_STAT_RTC_VALID : RField := ⟨1025, 4, 4⟩
def PWR_STAT_STEP_FAIL : RField := ⟨1025, 11, 8⟩
def PWR_EVENT_PMB_FAIL : RField := ⟨1026, 0, 0⟩
def PWR_EVENT_SEQ : RField := ⟨1026, 31, 24⟩
def PWR_RESET_CAUSE_PORST : RField := ⟨1027, 0, 0⟩
def PWR_RESET_CAUSE_BROWNOUT : RField := ⟨1027, 1, 1⟩
def PWR_RESET_CAUSE_BERTH_ABANDONED : RField := ⟨1027, 2, 2⟩
def PWR_RESET_CAUSE_WARM_PIN : RField := ⟨1027, 3, 3⟩
def PWR_RESET_CAUSE_WARM_FATAL : RField := ⟨1027, 4, 4⟩
def PWR_RESET_CAUSE_WARM_SOFT : RField := ⟨1027, 5, 5⟩
def PWR_RESET_CAUSE_BACKUP_LOST : RField := ⟨1027, 6, 6⟩
def PWR_RESET_CAUSE_LOAD_LOST : RField := ⟨1027, 7, 7⟩
def PWR_VCORE_TARGET : RField := ⟨1028, 9, 0⟩
def PWR_VCORE_READ : RField := ⟨1028, 25, 16⟩
def PWR_VCORE_CTL_AUTO : RField := ⟨1029, 0, 0⟩
def PWR_VCORE_CTL_FIXED : RField := ⟨1029, 13, 8⟩
def PWR_PMB_CFG_EN : RField := ⟨1030, 0, 0⟩
def PWR_PMB_CFG_ADDR : RField := ⟨1030, 14, 8⟩
def PWR_START_TIME_US : RField := ⟨1031, 31, 0⟩
def PWR_PREV_SUMMARY_SUMMARY : RField := ⟨1032, 15, 0⟩
def PWR_BKP_EDITION_EDITION : RField := ⟨1033, 31, 0⟩
def PWR_RTC_LO_COUNT : RField := ⟨1034, 31, 0⟩
def PWR_RTC_HI_COUNT : RField := ⟨1035, 15, 0⟩
def PWR_RTC_LOAD_LO_COUNT : RField := ⟨1036, 31, 0⟩
def PWR_RTC_LOAD_HI_COUNT : RField := ⟨1037, 15, 0⟩
def PWR_RTC_CMD_LOAD : RField := ⟨1038, 0, 0⟩
def PWR_CNT_VREQ_COUNT : RField := ⟨1040, 31, 0⟩
def PWR_CNT_PMB_RETRY_COUNT : RField := ⟨1041, 31, 0⟩
def PWR_HLD_VREQ_COUNT : RField := ⟨1044, 31, 0⟩
def PWR_HLD_PMB_RETRY_COUNT : RField := ⟨1045, 31, 0⟩
def TTB_CTL_TT_EN : RField := ⟨1280, 0, 0⟩
def TTB_STAT_WIN_OPEN : RField := ⟨1281, 7, 0⟩
def TTB_STAT_HELD : RField := ⟨1281, 11, 8⟩
def TTB_STAT_RUNNING : RField := ⟨1281, 15, 12⟩
def TTB_EVENT_LATE : RField := ⟨1282, 0, 0⟩
def TTB_EVENT_CHECK_MISS : RField := ⟨1282, 1, 1⟩
def TTB_EVENT_HOLD_IN : RField := ⟨1282, 2, 2⟩
def TTB_EVENT_QERR : RField := ⟨1282, 3, 3⟩
def TTB_EVENT_UNLOCK : RField := ⟨1282, 4, 4⟩
def TTB_EVENT_WIN_TIMEOUT : RField := ⟨1282, 5, 5⟩
def TTB_EVENT_STEP_OVR : RField := ⟨1282, 6, 6⟩
def TTB_EVENT_ENT_BAD : RField := ⟨1282, 7, 7⟩
def TTB_EVENT_SEQ : RField := ⟨1282, 31, 24⟩
def TTB_ENT_SEL_INDEX : RField := ⟨1283, 9, 0⟩
def TTB_ENT_DATA_DATA (i : Nat) : RField := ⟨1284 + 1 * i, 31, 0⟩
def TTB_ENT_CMD_WRITE : RField := ⟨1292, 0, 0⟩
def TTB_ENT_CMD_READ : RField := ⟨1292, 1, 1⟩
def TTB_WIN_MAX_CYCLES : RField := ⟨1293, 31, 0⟩
def TTB_AX_CFG_SOURCE (i : Nat) : RField := ⟨1296 + 8 * i, 2, 0⟩
def TTB_AX_CFG_SET (i : Nat) : RField := ⟨1296 + 8 * i, 3, 3⟩
def TTB_AX_CFG_CHANNEL (i : Nat) : RField := ⟨1296 + 8 * i, 6, 4⟩
def TTB_AX_CFG_INVERT (i : Nat) : RField := ⟨1296 + 8 * i, 7, 7⟩
def TTB_AX_CFG_Z_LOAD (i : Nat) : RField := ⟨1296 + 8 * i, 8, 8⟩
def TTB_AX_CFG_GRAY (i : Nat) : RField := ⟨1296 + 8 * i, 9, 9⟩
def TTB_AX_CFG_SSI_BITS (i : Nat) : RField := ⟨1296 + 8 * i, 15, 10⟩
def TTB_AX_CFG_SSI_DIV (i : Nat) : RField := ⟨1296 + 8 * i, 23, 16⟩
def TTB_AX_CFG_SSI_PERIOD (i : Nat) : RField := ⟨1296 + 8 * i, 31, 24⟩
def TTB_AX_INCR_INCR (i : Nat) : RField := ⟨1297 + 8 * i, 31, 0⟩
def TTB_AX_WRAP_LO_WRAP (i : Nat) : RField := ⟨1298 + 8 * i, 31, 0⟩
def TTB_AX_WRAP_HI_WRAP (i : Nat) : RField := ⟨1299 + 8 * i, 15, 0⟩
def TTB_AX_LOAD_LO_VALUE (i : Nat) : RField := ⟨1300 + 8 * i, 31, 0⟩
def TTB_AX_LOAD_HI_VALUE (i : Nat) : RField := ⟨1301 + 8 * i, 31, 0⟩
def TTB_AX_POS_LO_VALUE (i : Nat) : RField := ⟨1302 + 8 * i, 31, 0⟩
def TTB_AX_POS_HI_VALUE (i : Nat) : RField := ⟨1303 + 8 * i, 31, 0⟩
def TTB_CH_CTL_LATE (i : Nat) : RField := ⟨1328 + 1 * i, 1, 0⟩
def TTB_CH_CTL_HOLD_PROFILE (i : Nat) : RField := ⟨1328 + 1 * i, 2, 2⟩
def TTB_CH_CTL_AUTO_RESUME (i : Nat) : RField := ⟨1328 + 1 * i, 3, 3⟩
def TTB_CH_CTL_RESUME (i : Nat) : RField := ⟨1328 + 1 * i, 4, 4⟩
def TTB_CH_CTL_FLUSH (i : Nat) : RField := ⟨1328 + 1 * i, 5, 5⟩
def TTB_CH_CTL_EMIT_EN (i : Nat) : RField := ⟨1328 + 1 * i, 6, 6⟩
def TTB_OUT_CFG_TOUT_EN : RField := ⟨1332, 7, 0⟩
def TTB_OUT_CFG_HOLD_VAL : RField := ⟨1332, 15, 8⟩
def TTB_OUT_CFG_HOLD_APPLY : RField := ⟨1332, 23, 16⟩
def TTB_OUT_CFG_FSYNC_EN : RField := ⟨1332, 27, 24⟩
def TTB_OUT_STAT_TOUT : RField := ⟨1333, 7, 0⟩
def TTB_STEP_CFG_EN (i : Nat) : RField := ⟨1336 + 1 * i, 0, 0⟩
def TTB_STEP_CFG_BIND (i : Nat) : RField := ⟨1336 + 1 * i, 1, 1⟩
def TTB_STEP_CFG_CHAIN (i : Nat) : RField := ⟨1336 + 1 * i, 3, 2⟩
def TTB_STEP_CFG_JOINT (i : Nat) : RField := ⟨1336 + 1 * i, 6, 4⟩
def TTB_STEP_CFG_WIDTH (i : Nat) : RField := ⟨1336 + 1 * i, 15, 8⟩
def TTB_STEP_CFG_PERIOD (i : Nat) : RField := ⟨1336 + 1 * i, 31, 16⟩
def TTB_STEP_SPU_SPU (i : Nat) : RField := ⟨1344 + 1 * i, 31, 0⟩
def TTB_FIRED_COUNT : RField := ⟨1352, 31, 0⟩
def TTB_DEFER_COUNT : RField := ⟨1353, 31, 0⟩
def TTB_LATE_COUNT : RField := ⟨1354, 31, 0⟩
def TTB_CHECK_MISS_COUNT : RField := ⟨1355, 31, 0⟩
def TTB_QERR_COUNT : RField := ⟨1356, 31, 0⟩
def TTB_STEP_OVR_COUNT : RField := ⟨1357, 31, 0⟩
def TTB_HLD_FIRED_COUNT (i : Nat) : RField := ⟨1360 + 1 * i, 31, 0⟩
def TTB_CH_DEC_DEC (i : Nat) : RField := ⟨1376 + 1 * i, 31, 0⟩
def ETH_MAC_CTL_EN (i : Nat) : RField := ⟨1536 + 16 * i, 0, 0⟩
def ETH_MAC_CTL_SPEED (i : Nat) : RField := ⟨1536 + 16 * i, 2, 1⟩
def ETH_MAC_CTL_GPTP_SLAVE (i : Nat) : RField := ⟨1536 + 16 * i, 3, 3⟩
def ETH_MAC_CTL_QBV_EN (i : Nat) : RField := ⟨1536 + 16 * i, 4, 4⟩
def ETH_MAC_ADDR_LO_ADDR (i : Nat) : RField := ⟨1537 + 16 * i, 31, 0⟩
def ETH_MAC_ADDR_HI_ADDR (i : Nat) : RField := ⟨1538 + 16 * i, 15, 0⟩
def ETH_MAC_QBV_BASE_LO_NS (i : Nat) : RField := ⟨1539 + 16 * i, 31, 0⟩
def ETH_MAC_QBV_BASE_HI_NS (i : Nat) : RField := ⟨1540 + 16 * i, 31, 0⟩
def ETH_MAC_QBV_CYCLE_NS (i : Nat) : RField := ⟨1541 + 16 * i, 29, 0⟩
def ETH_MAC_QBV_SEL_ENTRY (i : Nat) : RField := ⟨1542 + 16 * i, 7, 0⟩
def ETH_MAC_QBV_DATA_GATES (i : Nat) : RField := ⟨1543 + 16 * i, 7, 0⟩
def ETH_MAC_QBV_DATA_INTERVAL (i : Nat) : RField := ⟨1543 + 16 * i, 31, 8⟩
def ETH_MAC_QBV_CMD_WRITE (i : Nat) : RField := ⟨1544 + 16 * i, 0, 0⟩
def ETH_MAC_QBV_CMD_SWAP (i : Nat) : RField := ⟨1544 + 16 * i, 1, 1⟩
def ETH_PTP_LO_NS (i : Nat) : RField := ⟨1545 + 16 * i, 31, 0⟩
def ETH_PTP_HI_NS (i : Nat) : RField := ⟨1546 + 16 * i, 31, 0⟩
def ETH_PTP_STAT_LOCK (i : Nat) : RField := ⟨1547 + 16 * i, 0, 0⟩
def ETH_TPL_SEL_WORD : RField := ⟨1568, 14, 2⟩
def ETH_TPL_DATA_DATA : RField := ⟨1569, 31, 0⟩
def ETH_EVENT_PATCH_BAD : RField := ⟨1570, 0, 0⟩
def ETH_EVENT_TPL_BUSY : RField := ⟨1570, 1, 1⟩
def ETH_EVENT_SEQ : RField := ⟨1570, 31, 24⟩
def ETH_TPL_CFG_EN (i : Nat) : RField := ⟨1584 + 1 * i, 0, 0⟩
def ETH_TPL_CFG_MAC (i : Nat) : RField := ⟨1584 + 1 * i, 1, 1⟩
def ETH_TPL_CFG_CHAIN (i : Nat) : RField := ⟨1584 + 1 * i, 3, 2⟩
def ETH_TPL_CFG_CLASS (i : Nat) : RField := ⟨1584 + 1 * i, 6, 4⟩
def ETH_TPL_CFG_LENGTH (i : Nat) : RField := ⟨1584 + 1 * i, 26, 16⟩
def ETH_TX0_COUNT : RField := ⟨1600, 31, 0⟩
def ETH_TX1_COUNT : RField := ⟨1601, 31, 0⟩
def ETH_TPL_SENT_COUNT : RField := ⟨1602, 31, 0⟩
def ETH_GATE_LATE_COUNT : RField := ⟨1603, 31, 0⟩
def ETH_HLD_TX_COUNT (i : Nat) : RField := ⟨1608 + 1 * i, 31, 0⟩
def CAP_CH_CFG_EN (i : Nat) : RField := ⟨1792 + 8 * i, 0, 0⟩
def CAP_CH_CFG_LANES (i : Nat) : RField := ⟨1792 + 8 * i, 2, 1⟩
def CAP_CH_CFG_VC (i : Nat) : RField := ⟨1792 + 8 * i, 4, 3⟩
def CAP_CH_CFG_DATATYPE (i : Nat) : RField := ⟨1792 + 8 * i, 13, 8⟩
def CAP_CH_CFG_BUFFERS (i : Nat) : RField := ⟨1792 + 8 * i, 17, 16⟩
def CAP_CH_CFG_STAMP_AXIS (i : Nat) : RField := ⟨1792 + 8 * i, 19, 18⟩
def CAP_CH_BASE_OFFSET (i : Nat) : RField := ⟨1793 + 8 * i, 25, 0⟩
def CAP_CH_SIZE_BYTES (i : Nat) : RField := ⟨1794 + 8 * i, 24, 0⟩
def CAP_CH_FRAMES_COUNT (i : Nat) : RField := ⟨1795 + 8 * i, 31, 0⟩
def CAP_CH_LAST_BUFFER (i : Nat) : RField := ⟨1796 + 8 * i, 1, 0⟩
def CAP_CH_LAST_BAD (i : Nat) : RField := ⟨1796 + 8 * i, 2, 2⟩
def CAP_CH_STAMP_LO_VALUE (i : Nat) : RField := ⟨1797 + 8 * i, 31, 0⟩
def CAP_CH_STAMP_HI_VALUE (i : Nat) : RField := ⟨1798 + 8 * i, 31, 0⟩
def CAP_CH_ERR_COUNT (i : Nat) : RField := ⟨1799 + 8 * i, 31, 0⟩
def CAP_HLD_CH_ERR_COUNT (i : Nat) : RField := ⟨1832 + 1 * i, 31, 0⟩
def BSN_CTL_HBM_EN : RField := ⟨2048, 0, 0⟩
def BSN_CTL_DIGEST_EN : RField := ⟨2048, 1, 1⟩
def BSN_HBM_STAT_TRAINED : RField := ⟨2049, 1, 0⟩
def BSN_HBM_STAT_HOT : RField := ⟨2049, 3, 2⟩
def BSN_EVENT_SRAM_CE : RField := ⟨2050, 0, 0⟩
def BSN_EVENT_SRAM_UE : RField := ⟨2050, 1, 1⟩
def BSN_EVENT_HBM_CE : RField := ⟨2050, 2, 2⟩
def BSN_EVENT_HBM_UE : RField := ⟨2050, 3, 3⟩
def BSN_EVENT_SEQ : RField := ⟨2050, 31, 24⟩
def BSN_ERR_ADDR_LO_GRANULE : RField := ⟨2051, 31, 3⟩
def BSN_ERR_ADDR_HI_GRANULE : RField := ⟨2052, 7, 0⟩
def BSN_ERR_ADDR_HI_VALID : RField := ⟨2052, 31, 31⟩
def BSN_SCRUB_CTL_SCRUB_EN : RField := ⟨2053, 0, 0⟩
def BSN_SRAM_CE_COUNT : RField := ⟨2064, 31, 0⟩
def BSN_SRAM_UE_COUNT : RField := ⟨2065, 31, 0⟩
def BSN_HBM_CE_COUNT : RField := ⟨2066, 31, 0⟩
def BSN_HBM_UE_COUNT : RField := ⟨2067, 31, 0⟩
def BSN_REFRESH_STALL_COUNT : RField := ⟨2068, 31, 0⟩
def BSN_DIGEST_WAIT_COUNT : RField := ⟨2069, 31, 0⟩
def BSN_PORT_CONFLICT_COUNT (i : Nat) : RField := ⟨2072 + 1 * i, 31, 0⟩
def BSN_HLD_SRAM_CE_COUNT (i : Nat) : RField := ⟨2080 + 1 * i, 31, 0⟩
def BSN_HLD_PORT_CONFLICT_COUNT (i : Nat) : RField := ⟨2086 + 1 * i, 31, 0⟩
def ERR_CTL_RING_EN : RField := ⟨2304, 0, 0⟩
def ERR_CTL_DRIFT_FAIL : RField := ⟨2304, 1, 1⟩
def ERR_CTL_MIRROR : RField := ⟨2304, 2, 2⟩
def ERR_EVENT_CORRECTED : RField := ⟨2305, 0, 0⟩
def ERR_EVENT_CONTAINED : RField := ⟨2305, 1, 1⟩
def ERR_EVENT_REGION : RField := ⟨2305, 2, 2⟩
def ERR_EVENT_RING_FULL : RField := ⟨2305, 3, 3⟩
def ERR_EVENT_CE_LOST : RField := ⟨2305, 4, 4⟩
def ERR_EVENT_MIRROR_DROP : RField := ⟨2305, 5, 5⟩
def ERR_EVENT_SEQ : RField := ⟨2305, 31, 24⟩
def ERR_RING_BASE_OFFSET : RField := ⟨2306, 25, 12⟩
def ERR_RING_BASE_LOG2 : RField := ⟨2306, 31, 28⟩
def ERR_RING_PTR_HEAD : RField := ⟨2307, 11, 0⟩
def ERR_RING_PTR_TAIL : RField := ⟨2307, 27, 16⟩
def ERR_RING_PTR_PHASE : RField := ⟨2307, 31, 31⟩
def ERR_MIRROR_LO_ADDR : RField := ⟨2308, 31, 12⟩
def ERR_MIRROR_HI_ADDR : RField := ⟨2309, 31, 0⟩
def ERR_SUMMARY_CLASSES : RField := ⟨2310, 3, 0⟩
def ERR_SUMMARY_SOURCES : RField := ⟨2310, 15, 4⟩
def ERR_REGION_STAT_REINIT : RField := ⟨2311, 8, 0⟩
def ERR_FATAL_RECORD (i : Nat) : RField := ⟨2312 + 1 * i, 31, 0⟩
def ERR_CORRECTED_COUNT : RField := ⟨2320, 31, 0⟩
def ERR_CONTAINED_COUNT : RField := ⟨2321, 31, 0⟩
def ERR_REGION_COUNT : RField := ⟨2322, 31, 0⟩
def ERR_CE_LOST_COUNT : RField := ⟨2323, 31, 0⟩
def ERR_MIRROR_DROP_COUNT : RField := ⟨2324, 31, 0⟩
def ERR_REINITS_COUNT : RField := ⟨2325, 31, 0⟩
def ERR_HLD_CORRECTED_COUNT (i : Nat) : RField := ⟨2326 + 1 * i, 31, 0⟩
def ERR_INJECT_GO : RField := ⟨2332, 0, 0⟩
def ERR_INJECT_SOURCE : RField := ⟨2332, 4, 1⟩
def ERR_INJECT_UNIT : RField := ⟨2332, 11, 8⟩
def ERR_INJECT_PENDING : RField := ⟨2332, 12, 12⟩
def SEC_LC_STAT_STATE : RField := ⟨2560, 2, 0⟩
def SEC_LC_STAT_FUSED : RField := ⟨2560, 6, 4⟩
def SEC_LC_STAT_ERASED_ALL : RField := ⟨2560, 8, 8⟩
def SEC_LC_STAT_RESULT : RField := ⟨2560, 15, 12⟩
def SEC_LC_CMD_GO : RField := ⟨2561, 0, 0⟩
def SEC_LC_CMD_TARGET : RField := ⟨2561, 3, 1⟩
def SEC_LC_CMD_KEY : RField := ⟨2561, 31, 16⟩
def SEC_EVENT_FUSE_FAIL : RField := ⟨2562, 0, 0⟩
def SEC_EVENT_CMD_IGNORED : RField := ⟨2562, 1, 1⟩
def SEC_EVENT_SEQ : RField := ⟨2562, 31, 24⟩
def SEC_STAT_BUSY : RField := ⟨2563, 0, 0⟩
def SEC_UID_LO_UID : RField := ⟨2564, 31, 0⟩
def SEC_UID_HI_UID : RField := ⟨2565, 31, 0⟩
def SEC_KEY_DATA_HASH (i : Nat) : RField := ⟨2568 + 1 * i, 31, 0⟩
def SEC_KEY_CMD_SLOT : RField := ⟨2576, 1, 0⟩
def SEC_KEY_CMD_PROGRAM : RField := ⟨2576, 2, 2⟩
def SEC_KEY_CMD_READ : RField := ⟨2576, 3, 3⟩
def SEC_KEY_CMD_REVOKE : RField := ⟨2576, 4, 4⟩
def SEC_KEY_CMD_KEY : RField := ⟨2576, 31, 16⟩
def SEC_KEY_STAT_SLOTS : RField := ⟨2577, 7, 0⟩
def SEC_KEY_STAT_RESULT : RField := ⟨2577, 11, 8⟩
def SEC_TOKEN_OFF_OFFSET : RField := ⟨2580, 25, 6⟩
def SEC_TOKEN_CMD_GO : RField := ⟨2581, 0, 0⟩
def SEC_TOKEN_STAT_RESULT : RField := ⟨2582, 3, 0⟩
def DBG_CTL_HOST_LOCK : RField := ⟨2816, 0, 0⟩
def DBG_STAT_DEBUG_OPEN : RField := ⟨2817, 0, 0⟩
def DBG_STAT_TAP_ACTIVE : RField := ⟨2817, 1, 1⟩
def DBG_EVENT_JTAG_DENIED : RField := ⟨2818, 0, 0⟩
def DBG_EVENT_SEQ : RField := ⟨2818, 31, 24⟩
def DBG_REGACC_COUNT : RField := ⟨2820, 31, 0⟩
def DBG_HLD_REGACC_COUNT : RField := ⟨2821, 31, 0⟩
def CORE_ID_INSTANCE (c : Nat) : RField := ⟨4096 + 256 * c, 1, 0⟩
def CORE_CTL_ENABLE (c : Nat) : RField := ⟨4097 + 256 * c, 0, 0⟩
def CORE_CTL_ARR_EN (c : Nat) : RField := ⟨4097 + 256 * c, 7, 4⟩
def CORE_NUM_FTZ (c : Nat) : RField := ⟨4098 + 256 * c, 0, 0⟩
def CORE_NUM_PASSES (c : Nat) : RField := ⟨4098 + 256 * c, 2, 1⟩
def CORE_STAT_ARR_BUSY (c : Nat) : RField := ⟨4099 + 256 * c, 3, 0⟩
def CORE_STAT_SHADOW_FULL (c : Nat) : RField := ⟨4099 + 256 * c, 7, 4⟩
def CORE_STAT_MOORED (c : Nat) : RField := ⟨4099 + 256 * c, 8, 8⟩
def CORE_FLAGS_ALL (c : Nat) : RField := ⟨4100 + 256 * c, 31, 0⟩
def CORE_NF_POS_ALL (c : Nat) : RField := ⟨4101 + 256 * c, 31, 0⟩
def CORE_EVENT_RESIDUE (c : Nat) : RField := ⟨4102 + 256 * c, 0, 0⟩
def CORE_EVENT_CAL_OVF (c : Nat) : RField := ⟨4102 + 256 * c, 1, 1⟩
def CORE_EVENT_SEQ (c : Nat) : RField := ⟨4102 + 256 * c, 31, 24⟩
def CORE_RES_POS_COLUMN (c : Nat) : RField := ⟨4103 + 256 * c, 8, 0⟩
def CORE_RES_POS_SLOT (c : Nat) : RField := ⟨4103 + 256 * c, 13, 9⟩
def CORE_RES_POS_ARRAY (c : Nat) : RField := ⟨4103 + 256 * c, 15, 14⟩
def CORE_RES_POS_EDGE (c : Nat) : RField := ⟨4103 + 256 * c, 30, 30⟩
def CORE_RES_POS_VALID (c : Nat) : RField := ⟨4103 + 256 * c, 31, 31⟩
def CORE_RES_INJECT_ARM (c : Nat) : RField := ⟨4104 + 256 * c, 0, 0⟩
def CORE_RES_INJECT_ARRAY (c : Nat) : RField := ⟨4104 + 256 * c, 2, 1⟩
def CORE_SEQ_STEP_STEP (c : Nat) : RField := ⟨4105 + 256 * c, 23, 0⟩
def CORE_ARR_FUM_STALL_COUNT (c i : Nat) : RField := ⟨4112 + 256 * c + 1 * i, 31, 0⟩
def CORE_ARR_SWAP_WAIT_COUNT (c i : Nat) : RField := ⟨4116 + 256 * c + 1 * i, 31, 0⟩
def CORE_ARR_EAST_WAIT_COUNT (c i : Nat) : RField := ⟨4120 + 256 * c + 1 * i, 31, 0⟩
def CORE_ARR_DRAIN_WAIT_COUNT (c i : Nat) : RField := ⟨4124 + 256 * c + 1 * i, 31, 0⟩
def CORE_HLD_FUM_STALL_COUNT (c i : Nat) : RField := ⟨4128 + 256 * c + 1 * i, 31, 0⟩
def CORE_QNT_CTL_QNT_EN (c : Nat) : RField := ⟨4160 + 256 * c, 0, 0⟩
def CORE_QNT_CTL_GRP_EN (c : Nat) : RField := ⟨4160 + 256 * c, 1, 1⟩
def CORE_QNT_OUT_COUNT (c : Nat) : RField := ⟨4164 + 256 * c, 31, 0⟩
def CORE_QNT_SAT_COUNT (c : Nat) : RField := ⟨4165 + 256 * c, 31, 0⟩
def CORE_QNT_DRAWS_COUNT (c : Nat) : RField := ⟨4166 + 256 * c, 31, 0⟩
def CORE_SURV_RUNS_COUNT (c : Nat) : RField := ⟨4167 + 256 * c, 31, 0⟩
def CORE_TBL_WAIT_COUNT (c : Nat) : RField := ⟨4168 + 256 * c, 31, 0⟩
def CORE_WEXP_BAD_COUNT (c : Nat) : RField := ⟨4169 + 256 * c, 31, 0⟩
def CORE_HLD_QNT_OUT_COUNT (c i : Nat) : RField := ⟨4176 + 256 * c + 1 * i, 31, 0⟩
def CORE_VEC_CTL_VEC_EN (c : Nat) : RField := ⟨4192 + 256 * c, 0, 0⟩
def CORE_VEC_CTL_GEY_EN (c : Nat) : RField := ⟨4192 + 256 * c, 1, 1⟩
def CORE_GEY_VER_ROM (c : Nat) : RField := ⟨4193 + 256 * c, 15, 0⟩
def CORE_GEY_USE_STEPS (c : Nat) : RField := ⟨4194 + 256 * c, 10, 0⟩
def CORE_GEY_USE_TABLE (c : Nat) : RField := ⟨4194 + 256 * c, 28, 16⟩
def CORE_ROW_RES_POS_ROW (c : Nat) : RField := ⟨4195 + 256 * c, 5, 0⟩
def CORE_ROW_RES_POS_VALID (c : Nat) : RField := ⟨4195 + 256 * c, 31, 31⟩
def CORE_VEC_EVENT_GEY_BADSTEP (c : Nat) : RField := ⟨4196 + 256 * c, 0, 0⟩
def CORE_VEC_EVENT_SEQ (c : Nat) : RField := ⟨4196 + 256 * c, 31, 24⟩
def CORE_GEY_WAIT_COUNT (c i : Nat) : RField := ⟨4200 + 256 * c + 1 * i, 31, 0⟩
def CORE_GEY_SERVED_COUNT (c i : Nat) : RField := ⟨4204 + 256 * c + 1 * i, 31, 0⟩
def CORE_ROW_READS_COUNT (c : Nat) : RField := ⟨4208 + 256 * c, 31, 0⟩
def CORE_HLD_GEY_WAIT_COUNT (c i : Nat) : RField := ⟨4212 + 256 * c + 1 * i, 31, 0⟩
def CORE_DMA_CTL_DMA_EN (c : Nat) : RField := ⟨4144 + 256 * c, 0, 0⟩
def CORE_POOL_ERR_ADDR_GRANULE (c : Nat) : RField := ⟨4145 + 256 * c, 25, 3⟩
def CORE_POOL_ERR_ADDR_VALID (c : Nat) : RField := ⟨4145 + 256 * c, 31, 31⟩
def CORE_POOL_EVENT_CE (c : Nat) : RField := ⟨4146 + 256 * c, 0, 0⟩
def CORE_POOL_EVENT_UE (c : Nat) : RField := ⟨4146 + 256 * c, 1, 1⟩
def CORE_POOL_EVENT_SEQ (c : Nat) : RField := ⟨4146 + 256 * c, 31, 24⟩
def CORE_POOL_CE_COUNT (c : Nat) : RField := ⟨4148 + 256 * c, 31, 0⟩
def CORE_POOL_UE_COUNT (c : Nat) : RField := ⟨4149 + 256 * c, 31, 0⟩
def CORE_POOL_CONFLICT_COUNT (c : Nat) : RField := ⟨4150 + 256 * c, 31, 0⟩
def CORE_DMA_CONV_COUNT (c : Nat) : RField := ⟨4151 + 256 * c, 31, 0⟩
def CORE_HLD_POOL_CE_COUNT (c i : Nat) : RField := ⟨4152 + 256 * c + 1 * i, 31, 0⟩
def PLN_CTL_PLAN_EN : RField := ⟨6144, 0, 0⟩
def PLN_CTL_FEED_EN : RField := ⟨6144, 1, 1⟩
def PLN_STAT_LOADED : RField := ⟨6145, 3, 0⟩
def PLN_STAT_LIVE : RField := ⟨6145, 7, 4⟩
def PLN_EVENT_STORE_CE : RField := ⟨6146, 0, 0⟩
def PLN_EVENT_STORE_UE : RField := ⟨6146, 1, 1⟩
def PLN_EVENT_PREFIX_HIT : RField := ⟨6146, 2, 2⟩
def PLN_EVENT_SEQ : RField := ⟨6146, 31, 24⟩
def PLN_STORE_ERR_ADDR_GRANULE : RField := ⟨6147, 24, 3⟩
def PLN_STORE_ERR_ADDR_VALID : RField := ⟨6147, 31, 31⟩
def PLN_CH_CFG_PERIOD (i : Nat) : RField := ⟨6152 + 1 * i, 2, 0⟩
def PLN_CH_CFG_HORIZON (i : Nat) : RField := ⟨6152 + 1 * i, 15, 4⟩
def PLN_CH_CFG_AHEAD (i : Nat) : RField := ⟨6152 + 1 * i, 28, 16⟩
def PLN_CH_FILL_FILL (i : Nat) : RField := ⟨6156 + 1 * i, 12, 0⟩
def PLN_CH_ITEM_NUMBER (i : Nat) : RField := ⟨6160 + 1 * i, 31, 0⟩
def PLN_CH_GEN_GEN (i : Nat) : RField := ⟨6164 + 1 * i, 31, 0⟩
def PLN_QUERIES_COUNT : RField := ⟨6176, 31, 0⟩
def PLN_CE_FULL_COUNT : RField := ⟨6177, 31, 0⟩
def PLN_REPAIRS_COUNT : RField := ⟨6178, 31, 0⟩
def PLN_REPLANS_COUNT : RField := ⟨6179, 31, 0⟩
def PLN_NN_SCANS_COUNT : RField := ⟨6180, 31, 0⟩
def PLN_STORE_CE_COUNT : RField := ⟨6181, 31, 0⟩
def PLN_STORE_UE_COUNT : RField := ⟨6182, 31, 0⟩
def PLN_HLD_QUERIES_COUNT (i : Nat) : RField := ⟨6184 + 1 * i, 31, 0⟩
def WLD_CTL_WORLD_EN : RField := ⟨6400, 0, 0⟩
def WLD_CTL_PIN_ENV : RField := ⟨6400, 1, 1⟩
def WLD_CTL_LEAF : RField := ⟨6400, 3, 2⟩
def WLD_ORIGIN_MM (i : Nat) : RField := ⟨6401 + 1 * i, 31, 0⟩
def WLD_UNKNOWN_VALUE : RField := ⟨6404, 15, 0⟩
def WLD_MARGIN_MM : RField := ⟨6405, 31, 0⟩
def WLD_ENV_LO_BRICK : RField := ⟨6406, 26, 0⟩
def WLD_ENV_HI_BRICK : RField := ⟨6407, 26, 0⟩
def WLD_GEN_GEN : RField := ⟨6408, 31, 0⟩
def WLD_BRICKS_COUNT : RField := ⟨6409, 18, 0⟩
def WLD_PIN_STAT_COUNT : RField := ⟨6410, 14, 0⟩
def WLD_PIN_STAT_PINNED : RField := ⟨6410, 31, 31⟩
def WLD_EVENT_BRICK_FULL : RField := ⟨6411, 0, 0⟩
def WLD_EVENT_PIN_FULL : RField := ⟨6411, 1, 1⟩
def WLD_EVENT_DIRTY_ALL : RField := ⟨6411, 2, 2⟩
def WLD_EVENT_NAR_LEAF : RField := ⟨6411, 3, 3⟩
def WLD_EVENT_BAD_RECORD : RField := ⟨6411, 4, 4⟩
def WLD_EVENT_SEQ : RField := ⟨6411, 31, 24⟩
def WLD_MERGED_COUNT : RField := ⟨6416, 31, 0⟩
def WLD_PORT_WAIT_COUNT : RField := ⟨6417, 31, 0⟩
def WLD_STALE_COUNT : RField := ⟨6418, 31, 0⟩
def WLD_CHK_LIMIT_COUNT : RField := ⟨6419, 31, 0⟩
def WLD_EVICT_COUNT : RField := ⟨6420, 31, 0⟩
def WLD_PIN_MISS_COUNT : RField := ⟨6421, 31, 0⟩
def WLD_NAR_LEAVES_COUNT : RField := ⟨6422, 31, 0⟩
def WLD_HLD_MERGED_COUNT (i : Nat) : RField := ⟨6424 + 1 * i, 31, 0⟩

end Sys2Proof.Machine
end

