-- ==== Sys2Proof/Machine/Backup.lean ====
section
/-! DEFINITION. The retention SRAM's contents: its CRC and one update of it (R654, R655). -/

namespace Sys2Proof.Machine

/-- A sparse byte store after writes of byte strings. -/
def putBytes (st : SMap Byte) (writes : List (Nat × List Byte)) : SMap Byte :=
  writes.foldl (fun st p => smWrite 0 st p.1 p.2) st

/-- CRC-32C of the retention store, with the CRC's own bytes taken as zero (R654). -/
def backupCrc (st : SMap Byte) : W32 :=
  crc32c (smRead 0 st 0 8 ++ zeros 4 ++ smRead 0 st 12 2036)

/-- MAGIC of the retention store (R654). -/
def backupMagic : Nat := 0x4C414553

/-- What an update of the store writes (R655): the changed fields, MAGIC, EDITION + 1 and the new CRC. -/
def storeUpdate (st : SMap Byte) (writes : List (Nat × List Byte)) : SMap Byte :=
  let ed := leNat (smRead 0 st 4 4)
  let st := putBytes st (writes ++ [(0, natLE 4 backupMagic), (4, natLE 4 (ed + 1))])
  putBytes st [(8, natLE 4 (backupCrc st).toNat)]

/-- The TRAINING field (R654). -/
def trainingBytes : List Byte := (List.range 1536).map Config.trainingByte

end Sys2Proof.Machine
end

