-- ==== Sys2Proof/Machine/State.lean ====
section
/-! DEFINITION. Everything the manual gives the device to hold, as plain data, and the state right
after a cold start. Registers stand in `regs` under their keys (RegTable); what a status field shows
of a structure held elsewhere is computed when the register is read (Regs). -/

namespace Sys2Proof.Machine

/-! ### Jobs and rings (chapters 11 to 13) -/

/-- The body of a descriptor (R436, R438). -/
inductive JobBody where
  | nop
  | run (image sectionIdx args : Nat)
  | copy (src dst len : Nat) (digest : Bool)
  | fill (dst len : Nat) (pattern : W64)
  | fence
  | wait (cond which : Nat) (value : W32) (timeout : Nat)
  | world (list count : Nat)
  | plan (request : Nat)
  | test (test unit base len : Nat)
  | moor (target : Nat) (job : W32) (dryOnly : Bool)
  deriving DecidableEq, Repr

/-- A descriptor with its common header (R436). -/
structure Desc where
  body : JobBody
  cls : Nat
  irq : Bool
  manifest : Bool
  after : Bool
  units : Nat
  tag : W32
  seed : W64
  report : Nat
  deriving DecidableEq, Repr

/-- What a mooring was asked for by (R514, R539, R541, R542, R543). -/
inductive MoorWhy where
  | fault | moorJob | quantum | preempt | test
  deriving DecidableEq, Repr

/-- Where a job stands: fetched and not started; held before its start by a MOOR (R539); started and
at work; moored; done (R445). -/
inductive JobPhase where
  | queued | held | running | moored (why : MoorWhy) | done
  deriving DecidableEq, Repr

/-- A step record of 32 bytes (R490), as the sequencer fetched it. -/
abbrev StepRec := List Byte

/-- One caldera: its 640-bit value, its residue and its side flags (R159, R164). -/
structure Cell where
  c : BitVec 640
  rho : Nat
  nar : Bool
  pinf : Bool
  ninf : Bool
  ovf : Bool
  deriving DecidableEq, Repr

/-- A row caldera (R233): two accumulators, the exact maximum and the count. -/
structure RowCal where
  sum : Cell
  sq : Cell
  max : Option Val
  count : Nat
  deriving DecidableEq, Repr

/-- A plane of weights of one array (R142, R184): the format it was loaded in, its 128 rows of
weights as exact operands, the size of a scale group (0 for none) and the group scales, one row of
512 for each group (R202). -/
structure Plane where
  fmt : Nat
  rows : List (List Val)
  group : Nat
  scales : List (List Val)
  deriving DecidableEq, Repr

/-- A step that has issued and is not done (R493): its issue number, index and record, the core cycle it issued in, and
how far it has come: the bursts done of a DMA or STORE step, the arrays a SWAP has copied as a mask. -/
structure Issued where
  no : Nat
  idx : Nat
  r : StepRec
  cycle : Nat
  progress : Nat
  deriving DecidableEq, Repr

/-- A fumarole lane (R155 to R158): the products that wait in it, and those that arrive in each coming cycle. -/
structure Lane where
  waiting : Nat
  due : List Nat
  deriving DecidableEq, Repr

/-- Where a core's units stand in its own cycles: the cycle now; by array, the cycle in which the next vector can enter,
the one from which the load path is free, the one in which row group 0 last copied its shadow, the one from which the
converters are free, and the one from which the rescale table is loaded; by slot key, the cycle from which its last
readout is finished; and each array's fumarole lane as it stands in the cycle the next vector can enter. -/
structure CoreTime where
  clock : Nat
  stream : SMap Nat
  load : SMap Nat
  copied : SMap Nat
  read : SMap Nat
  table : SMap Nat
  slot : SMap Nat
  lanes : SMap Lane
  deriving DecidableEq, Repr

/-- What a moored RUN job keeps of its core (R525, R529): planes, rescale tables, caldera slots, row
calderas, shadow-full marks, steps issued and not done, and where its units stood. -/
structure SavedCore where
  planes : SMap Plane
  tables : SMap (List W64)
  slots : SMap (List Cell)
  rowcals : SMap RowCal
  shadowFull : SMap Bool
  queue : List Issued
  time : CoreTime
  wet : Bool
  deriving DecidableEq, Repr

/-- A tensor declaration (R472). -/
structure Tensor where
  sid : Nat
  fmt : Nat
  role : Nat
  arg : Nat
  dims : List Nat
  off : Nat
  deriving DecidableEq, Repr

/-- A resource declaration (R469). -/
structure Decl where
  poolBase : Nat
  poolBytes : Nat
  arrays : Nat
  slots : Nat
  rowcal : Nat
  args : Nat
  geyBase : Nat
  geySteps : Nat
  geyTbase : Nat
  geyTbytes : Nat
  wetBytes : Nat
  dryGap : Nat
  deriving DecidableEq, Repr

/-- What the device holds of an image it has admitted (R468 to R476): its digest, declaration,
tensors, loaded Geyser functions (identifier, entry), Geyser step words and table bytes. -/
structure Image where
  digest : List Byte
  decl : Decl
  tensors : List Tensor
  funcs : List (Nat × Nat)
  geyWords : List W32
  geyTable : List Byte
  deriving DecidableEq, Repr

/-- The state of a RUN job on its core (R490 to R498): the core, the next step index, the eight
counters, how many step records its section has and their address, the functions they need (R722), the arguments, the digested elements by
tensor × 2^52 + index (bits of the word × 2^32 + the word), one more than the tick a WAIT began at, what a mooring saved,
the block of records the sequencer has fetched with its number (R496), and the step last at work.
While the job waits for a core, `core` is 4. -/
structure RunState where
  core : Nat
  pc : Nat
  counters : SMap W32
  nsteps : Nat
  stepsVa : Nat
  image : Image
  needs : Nat
  args : List Nat
  cover : SMap (Option Nat)
  waitFrom : Nat
  saved : Option SavedCore
  ranSince : Nat
  admitNo : Nat
  block : Option (Nat × List StepRec)
  stepAt : Nat
  deriving DecidableEq, Repr

/-- The outcome of a PLAN job whose result record is still to be written: the record with its path nodes
(R336), the result code, and whether the job installed its path (R347). -/
structure Planned where
  record : List Byte
  code : Nat
  installed : Bool
  deriving DecidableEq, Repr

/-- A job in flight (R436 to R459). `poison` lists the partial writes as (virtual granule, count);
`baseline` is what the doorbell that presented it saw (R441): the capture frame counts and the number
of completions written; `hostWait` is the host bus address of an access held while the link is down
and the tick it was first tried at (R723); `digestData` is what a DIGEST copy has passed to the digest
engine, newest first (R291); `pendingMoors` is what moorings wait and whether each is DRY_ONLY (R500,
R540); `faultSeq` is the number of its last fault record (R537); `castWait` is a cast-off given while
that record waits, true for ABORT (R516); `planned` is the outcome of a PLAN job whose search has ended (R519);
`poisonList` says whether the poison list of a job that is done has been written, none while that is open (R450). -/
structure Job where
  ctx : Nat
  sub : W32
  pos : Nat
  desc : Desc
  phase : JobPhase
  status : Nat
  detail : W32
  detailHi : Nat
  unit : Nat
  num : Flags
  disturbed : Bool
  poison : List (Nat × Nat)
  moorings : Nat
  errSeq : W32
  wrote : Bool
  pendingMoors : List (MoorWhy × Bool)
  startedAt : Nat
  progress : Nat
  run : Option RunState
  frames : List W32
  writesSeen : Nat
  hostWait : Option (Nat × Nat)
  faultSeq : W32
  castWait : Option Bool
  digestData : List Byte
  planned : Option Planned
  poisonList : Option Bool
  deriving DecidableEq, Repr

/-- What a doorbell presented at a ring position: the ring position, the four capture frame counts
and the number of completions written when it rang (R441); `late` marks a position that a failed CHECK ended before its
fetch (R389). -/
structure Present where
  pos : Nat
  frames : List W32
  writes : Nat
  late : Bool
  deriving DecidableEq, Repr

/-- A waiting fault record (R515), with its 32 bytes but PHASE, and the job it is for. -/
structure FaultRec where
  bytes : List Byte
  job : Option W32
  deriving DecidableEq, Repr

/-- A submission context (R425 to R435, R447 to R456, R463 to R466, R516, R545). A waiting mirror write is its host
address, its bytes and the tick it began to wait at (R453). -/
structure Ctx where
  sqHead : Nat
  sqTail : Nat
  cqHead : Nat
  cqTail : Nat
  cqPhase : Bool
  subseq : W32
  completed : Nat
  presented : List Present
  flushing : Bool
  stopping : Bool
  halted : Bool
  irqCount : Nat
  irqSince : Option Nat
  mirrorWait : List (Nat × List Byte × Nat)
  frTail : Nat
  frPhase : Bool
  faultWait : List FaultRec
  cycPresented : Bool
  deriving DecidableEq, Repr

/-- A waiting error record (R551): its 32 bytes but PHASE, its class, and the job it affects. -/
structure ErrRec where
  bytes : List Byte
  cls : Nat
  job : Option (Nat × W32)
  deriving DecidableEq, Repr

/-- A cached verified image (R481): context, address, the image, its section table (offset and steps), the
device-physical extents it was read from, and what its sections need (R722), one more than the need bits
of a section examined. -/
structure CachedImage where
  ctx : Nat
  va : Nat
  image : Image
  sections : List (Nat × Nat)
  extents : List (Nat × Nat)
  leaves : List (Nat × Nat)
  needs : SMap Nat
  deriving DecidableEq, Repr

/-! ### Cores (chapters 4 to 6) -/

/-- One Geyser (R242, R255, R256): its sixteen working registers, the result of an ended program, and
the group it last served other than its home group. -/
structure Geyser where
  g : SMap Val
  result : Option Val
  lastServed : Nat
  deriving DecidableEq, Repr

/-- One core (R142, R184, R208, R233, R242). Planes are keyed by array, shadow planes by 4 + array;
slots by (2 × array + edge) × 32 + slot. `queue` holds the steps issued and not done of all six classes, oldest first,
and `issued` counts issues (R493). -/
structure Core where
  resident : List (Nat × W32)
  running : Option (Nat × W32)
  planes : SMap Plane
  tables : SMap (List W64)
  shadowFull : SMap Bool
  queue : List Issued
  issued : Nat
  slots : SMap (List Cell)
  rowcals : SMap RowCal
  time : CoreTime
  geysers : SMap Geyser
  geySteps : SMap W32
  geyTable : SMap Byte
  inject : Option Nat
  seqStep : Nat
  deriving DecidableEq, Repr

/-! ### World and planner (chapters 8 and 9) -/

/-- One copy of a brick (R312): the generation that wrote it, and its 512 leaves as TP16 words, none
for an absent brick. -/
structure BrickCopy where
  tag : Nat
  leaves : Option (List Nat)
  deriving DecidableEq, Repr

/-- A brick's two copies (R312). -/
structure Brick where
  a : BrickCopy
  b : BrickCopy
  deriving DecidableEq, Repr

/-- The world model (R295 to R319). `gen` counts generations, and WLD_GEN shows it modulo 2^32 (R311). `dirty` holds the dirty list of each of the last 8 generations, newest
first, none where every brick counts as dirty (R313, R314); `slots` is the hot bricks, least recently used
first (R315, R316); `pinned` is what WLD_PIN_STAT.PINNED shows (R318). -/
structure World where
  gen : Nat
  bricks : SMap Brick
  dirty : List (Nat × Option (List Nat))
  slots : List Nat
  pinned : Bool
  deriving DecidableEq, Repr

/-- A setpoint item (R356). -/
structure Item where
  number : W32
  gen : W32
  last : Bool
  first : Bool
  joints : List (W32 × W32)
  deriving DecidableEq, Repr

/-- A roadmap edge (R345): its ends, and unchecked, or valid or invalid on a generation. -/
structure RoadEdge where
  a : Nat
  b : Nat
  state : Option (Bool × Nat)
  deriving DecidableEq, Repr

/-- What the shaper holds of an item (R349, R353): its acceleration by joint, and its place on the path: 2e on edge e,
2n − 1 within the blend at node n. -/
structure Shaped where
  acc : List Q
  place : Nat
  deriving DecidableEq, Repr

/-- A live trajectory (R347, R355, R359): its path, the generation each path edge stands on, the generation of its
installation, the items still to commit in order, the number of its item with LAST set and of its splice item. Its path
begins with the edges on which items of the trajectory it replaced, up to the splice item, still lie. -/
structure Live where
  path : List (List W32)
  gens : List Nat
  gen : Nat
  items : List (Item × Shaped)
  lastNo : W32
  spliceNo : W32
  deriving DecidableEq, Repr

/-- A chain in PLAN (R332, R344, R347, R356, R357). `lastSet` is the last committed item as the shaper holds it;
`splice` is the item number beyond which the
feeder commits no old item while an installing job runs or after PREFIX_HIT (R349, R350). -/
structure Chain where
  desc : Option (List Byte)
  reach : List W32
  live : Option Live
  queue : List Item
  lastItem : W32
  everCommitted : Bool
  rest : List W32
  lastSet : Option (Item × Shaped)
  splice : Option W32
  roadNodes : List (List W32)
  roadEdges : List RoadEdge
  deriving DecidableEq, Repr

/-! ### Timetable, emission, Ethernet and capture (chapter 10) -/

/-- An axis (R366, R367). -/
structure Axis where
  value : Nat
  up : Bool
  moved : Bool
  deriving DecidableEq, Repr

/-- A timetable entry (R372): its 256 bits, whether it is armed, and the opening of its window in
which ONCE has already let it fire (R375). -/
structure Entry where
  bits : BitVec 256
  armed : Bool
  firedOpening : Option Nat
  deriving DecidableEq, Repr

/-- A fired entry waiting to act (R376): its index, its bits as they stood when it fired, the number of completions
written by then (R387), the RTIO cycle it fired in, and the one it acts in once that is settled. -/
structure Fired where
  idx : Nat
  bits : BitVec 256
  writes : Nat
  cycle : Nat
  slot : Nat
  deriving DecidableEq, Repr

/-- Emission state of a chain (R390 to R398). `holdRest` is the position of its last hold item since it entered hold
(R397). -/
structure EmitCh where
  held : Bool
  ramp : Bool
  run : Bool
  runGptp : Option Nat
  nextAt : Nat
  committedSince : Bool
  resumed : Bool
  emitted : Option (List (W32 × W32))
  lastNumber : W32
  holdPending : Bool
  holdRest : Option (List W32)
  deriving DecidableEq, Repr

/-- A STEP channel (R384, R399 to R401): the position register, whether the next item only loads it,
the pulse train in progress (start cycle, pulses whose time has come, pulses in all, spacing numerator and
denominator in RTIO cycles, the step of the position register for each pulse emitted: 0 for a train that no item
made), the levels on the balls, and the RTIO cycle a pulse falls at. -/
structure StepCh where
  nPrev : Int
  load : Bool
  base : Nat
  started : Nat
  total : Nat
  num : Nat
  den : Nat
  stride : Int
  level : Bool
  dir : Bool
  fallAt : Nat
  deriving DecidableEq, Repr

/-- A queued frame of a MAC (R405, R410): template, traffic class, bytes, whether it waited for a gate. -/
structure Frame where
  tpl : Nat
  cls : Nat
  bytes : List Byte
  waited : Bool
  deriving DecidableEq, Repr

/-- A MAC (R402 to R405): gPTP time in nanoseconds and the count of good synchronisation intervals; the timestamp of
the last gPTP event message, the departure of a delay request that awaits its answer, and the measured peer delay; the
active and the armed gate control list; the transmit queue. -/
structure Mac where
  gptp : Nat
  goodSyncs : Nat
  stamp : Nat
  reqSent : Option Nat
  peerDelay : Nat
  active : SMap W32
  activeFrom : Nat
  store : SMap W32
  swapArmed : Bool
  txq : List Frame
  busyUntil : Nat
  deriving DecidableEq, Repr

/-- A mains input (R365, R370, R704): the tick of its last edge, its period, and valid edges in a row. -/
structure Mains where
  lastEdge : Option Nat
  period : Nat
  good : Nat
  deriving DecidableEq, Repr

/-- The RTIO region (R365 to R418). `ssiAt` is the tick, plus one, at which an axis's last serial read began (R365);
`actCycle` is the last RTIO cycle in which entries fired or acted and `actCount` how many have acted in it (R376); `back` is
how many RTIO cycles of the tick under way are still to come, zero between commands. -/
structure Rtio where
  axes : SMap Axis
  enc : SMap Nat
  ssiRun : SMap Bool
  ssiAt : SMap Nat
  mains : SMap Mains
  entries : SMap Entry
  acting : List Fired
  deferred : List Fired
  actCycle : Nat
  actCount : Nat
  back : Nat
  windows : SMap (Option Nat)
  openings : Nat
  checkBase : SMap Nat
  ttEnBase : Nat
  emit : SMap EmitCh
  stepch : SMap StepCh
  tout : BitVec 8
  fsync : SMap Nat
  holdLow : Bool
  macs : SMap Mac
  templates : SMap W32
  tplSent : SMap W32
  receiving : SMap Bool
  winSince : SMap Nat
  deriving DecidableEq, Repr

/-! ### Clocks, power, keys, JTAG (chapters 16 to 18) -/

/-- A region's frequency change (R618 to R626): armed at `goAt` with the CLK_rgn_CFG of that time, and the
opening of its window if any; or changing, with the target ÷ 12.5 MHz, the ferry boundary it started at,
the glide steps done, and whether it is a step of the adaptive controller; since when the controller has
seen good margin, and whether a step down is due. -/
structure ClkRegion where
  armed : Bool
  goAt : Nat
  winAt : Option Nat
  changing : Bool
  target : Nat
  startAt : Nat
  step : Nat
  stopped : Bool
  adaptive : Bool
  calmSince : Nat
  stretched : Bool
  cfg : Nat
  downDue : Bool
  deriving DecidableEq, Repr

/-- A start that has begun (R639 to R644): cold or warm, with the RESET_CAUSE fields of its trigger. -/
inductive Phase where
  /-- PORST_N low or a main rail below tolerance: the device stays in reset (R631, R639). -/
  | inReset (brownout : Bool)
  /-- A start runs: warm or cold, and the RESET_CAUSE bits of its trigger. -/
  | starting (warm : Bool) (cause : Nat)
  /-- A warm start holds at its step 2 until REFCLK returns (R709): its cause, its microseconds until then,
  and the tick it began to hold at. -/
  | refclkHold (cause us since : Nat)
  /-- Ready. -/
  | ready
  /-- Stopped by SCANDUMP until a cold start (R682). -/
  | scanned
  deriving DecidableEq, Repr

/-- A key slot's fuses (R670). -/
structure KeySlot where
  hash : List Byte
  valid : Bool
  revoked : Bool
  erased : Bool
  deriving DecidableEq, Repr

/-- A fuse operation in progress (R665, R668, R671, R672, R675). -/
inductive FuseOp where
  | lc (bits : BitVec 4)
  | key (slot : Nat) (hash : List Byte)
  | revoke (slot : Nat)
  deriving DecidableEq, Repr

/-- Fuses and the life cycle (R664 to R677). -/
structure Sec where
  lc : BitVec 4
  slots : SMap KeySlot
  erasedAll : Bool
  uid : W64
  state : Nat
  op : Option FuseOp
  tokenBusy : Bool
  opFromToken : Bool
  deriving DecidableEq, Repr

/-- The backup domain and the supplies (R653 to R661, R709); when the store was last updated, since an update takes time
(R655). -/
structure Backup where
  store : SMap Byte
  witness : Bool
  updatedAt : Option Nat
  rtc : Nat
  rtcFrac : Nat
  xtal : Bool
  rtcValid : Bool
  mainOn : Bool
  refclk : Bool
  deriving DecidableEq, Repr

/-- The berths and the flash (R84 to R92): its bytes, whether each berth's state sector holds a confirmation
record, the operation in progress (OP, address, word), the bytes and the CRC of the content in the load
area, and the reference ticks, half an AON cycle each, left on the start watchdog (R90): none when none was started or it was
stopped, 0 once it has expired. -/
structure Flash where
  bytes : SMap Byte
  confirmedA : Bool
  confirmedB : Bool
  xspiOp : Option (Nat × Nat × W32)
  loaded : Nat
  loadCrc : W32
  wdog : Option Nat
  deriving DecidableEq, Repr

/-- PMBus regulation (R635 to R637). -/
structure Pmb where
  voutMode : Nat
  sentAt : Option Nat
  code : Nat
  pollAt : Nat
  deriving DecidableEq, Repr

/-- The TAP (R679 to R682). -/
structure Jtag where
  ir : BitVec 8
  dr : BitVec 64
  active : Bool
  deriving DecidableEq, Repr

/-- What the device has sent outside, newest first: MSI-X messages (vector, address, data), frames
(MAC, bytes), the answer to a read and to the second half of a 64-bit read (R49), those to a configuration request and a scan, and the ferry crossing last
delivered (sender, receiver, picoseconds). -/
structure Out where
  msix : List (Nat × W64 × W32)
  frames : List (Nat × List Byte)
  rdata : W32
  rdataHi : W32
  cfg : Option W32
  tdo : List Bool
  ferry : Option (Nat × Nat × Nat)
  vout : List Nat
  alertLow : Bool
  deriving DecidableEq, Repr

/-- An access on the register path (R50, R424): a host write or read of a BAR at an offset, where `high` says that the read
is the second half of a 64-bit access (R49), or the access of an Update-DR under REGACC (R681). -/
inductive Access where
  | write (bar off : Nat) (be : BitVec 4) (data : W32)
  | read (bar off : Nat) (high : Bool)
  | regacc (dr : BitVec 64)
  deriving DecidableEq, Repr

/-- The device. -/
structure State where
  /-- Commands waiting, first in, first out. -/
  pending : List Instr
  /-- Reference ticks of 10 ns since power was first applied (R70's tick). -/
  now : Nat
  /-- The tick at which the device last declared ready (R70, R605). -/
  readyAt : Nat
  phase : Phase
  regs : SMap W32
  /-- The sequence-clear registers whose SEQ has risen in the cycle under way (R67); empty between commands. -/
  raised : List Nat
  /-- Device-physical memory (R261). -/
  mem : SMap Byte
  /-- Host memory, as the device reaches it over PCIe (R508). -/
  host : SMap Byte
  /-- Poisoned 8-byte granules (R272). -/
  poison : List Nat
  /-- Flipped bits not yet found, by granule: 1 correctable, 2 not (R271, R272, R581). -/
  latent : SMap Nat
  ctxs : SMap Ctx
  jobs : List Job
  /-- Completions written, by context × 4,096 + ring position: the number of the write (R387, R441). -/
  written : SMap Nat
  writes : Nat
  /-- The context each unit served last (R458). -/
  served : SMap Nat
  admits : Nat
  images : List CachedImage
  cores : SMap Core
  world : World
  chains : SMap Chain
  rtio : Rtio
  /-- The next FSEQ (R517). -/
  fseq : W32
  errWait : List ErrRec
  /-- Mirror writes of error records that wait for the link: host address, bytes and the tick each began to wait (R555). -/
  errMirror : List (Nat × List Byte × Nat)
  /-- Region reinitialisations: the tick the last one of a region completed (R547). -/
  reinitAt : SMap (Option Nat)
  /-- An armed injection: source and unit (R581), and its act deferred by an open window. -/
  inject : Option (Nat × Nat)
  /-- The first granule written in the injection's memory since it was armed; the regions whose next
  incoming transfer has its parity flipped (R581). -/
  injectAt : Option Nat
  parityFlip : List Nat
  snapAt : Option Nat
  /-- CAPTURE writes waiting: one served by the pass under way, one by the next (R82). -/
  captureNow : Bool
  captureNext : Bool
  /-- The configuration CRC pass under way (R79): the tick it began at, and the configuration bits, as the
  pass read them, of registers changed after it had read them. -/
  passStart : Nat
  passOld : SMap W32
  /-- The tick of a PWR_CTL write whose warm start has not begun yet (R643). -/
  warmAsked : Option Nat
  clk : SMap ClkRegion
  sec : Sec
  backup : Backup
  flash : Flash
  pmb : Pmb
  jtag : Jtag
  msixTable : SMap W32
  msixPending : List Nat
  /-- Register accesses that have arrived and wait, oldest first: the first for a region in SHORT_STOP (R628), the others for
  the first (R50). -/
  accessQ : List Access
  /-- Crossing receive slots in use, by sender × 16 + receiver (R612). -/
  ferry : SMap Nat
  out : Out
  deriving DecidableEq, Repr

/-- Why a step stops. -/
inductive Fault where
  /-- Raised by SCRUB_PATROL_READ at an address outside the populated ranges of R261, where there is
  no memory to read. Safe: the patrol of R275 never reads there. -/
  | unpopulated
  deriving DecidableEq, Repr

/-- Why a command has no meaning. -/
inductive Refusal where
  /-- The command has no meaning in this model yet. Safe: nothing is claimed of it. -/
  | notModelled (mnemonic : String)
  deriving DecidableEq, Repr

/-! ### What unlisted keys read as -/

/-- An empty caldera. -/
def Cell.zero : Cell := ⟨0, 0, false, false, false, false⟩
/-- An empty row caldera. -/
def RowCal.empty : RowCal := ⟨Cell.zero, Cell.zero, none, 0⟩
/-- A plane that holds zero weights. -/
def Plane.zero : Plane := ⟨0, [], 0, []⟩
/-- A context right after a start (R428, R448). -/
def Ctx.reset : Ctx := ⟨0, 0, 0, 0, true, 0, 0, [], false, false, false, 0, none, [], 0, true, [], false⟩
/-- A Geyser right after a start. -/
def Geyser.reset : Geyser := ⟨[], none, 4⟩
/-- A core whose units have nothing in progress. -/
def CoreTime.reset : CoreTime := ⟨0, [], [], [], [], [], [], []⟩
/-- A lane with nothing in it. -/
def Lane.empty : Lane := ⟨0, []⟩
/-- A core right after a start. -/
def Core.reset : Core := ⟨[], none, [], [], [], [], 0, [], [], CoreTime.reset, [], [], [], none, 0⟩
/-- A brick absent in every generation. -/
def Brick.absent : Brick := ⟨⟨0, none⟩, ⟨0, none⟩⟩
/-- The world after a start (R311). -/
def World.reset : World := ⟨0, [], [], [], false⟩
/-- A chain after a start. -/
def Chain.reset : Chain := ⟨none, [], none, [], 0, false, [], none, none, [], []⟩
/-- An axis after a start: value 0, direction up (R367). -/
def Axis.reset : Axis := ⟨0, true, false⟩
/-- A zeroed entry: DIR 0, disabled. -/
def Entry.reset : Entry := ⟨0, false, none⟩
/-- A chain's emission state after a start. -/
def EmitCh.reset : EmitCh := ⟨false, false, false, none, 0, false, false, none, 0, false, none⟩
/-- A STEP channel after a start: n_prev 0, the first item only loads it (R400). -/
def StepCh.reset : StepCh := ⟨0, true, 0, 0, 0, 0, 1, 0, false, false, 0⟩
/-- A MAC after a start. -/
def Mac.reset : Mac := ⟨0, 0, 0, none, 0, [], 0, [], false, [], 0⟩
/-- A mains input not yet seen. -/
def Mains.reset : Mains := ⟨none, 0, 0⟩
/-- RTIO after a start; HOLD_N reads high through its pull-up. -/
def Rtio.reset : Rtio :=
  ⟨[], [], [], [], [], [], [], [], 0, 0, 0, [], 0, [], 0, [], [], 0, [], false, [], [], [], [], []⟩
/-- A region's clock after a start. -/
def ClkRegion.reset : ClkRegion := ⟨false, 0, none, false, 0, 0, 0, false, false, 0, false, 0, false⟩
/-- An unblown key slot (R670). -/
def KeySlot.empty : KeySlot := ⟨List.replicate 32 0, false, false, false⟩
/-- No message sent. -/
def Out.reset : Out := ⟨[], [], 0, 0, none, [], none, [], false⟩

/-- A factory-fresh device at ready, right after the cold start that its first PORST_N rise began: the witness
read LOST at power-up (R656), so the start cleared the backup and then updated it twice (R658, R659); the
flash is blank, so neither berth loads (R86), and no fuse is blown, so the life cycle is TEST (R664). Registers the
table gives a reset value read it because nothing is listed for them; those listed here are set by the start:
CLK_STAT with every generator locked, PWR_RESET_CAUSE with PORST and BACKUP_LOST (R644, R658), and
BSN_HBM_STAT with both stacks trained. -/
def State.reset : State where
  pending := []
  now := 0
  readyAt := 0
  phase := .ready
  regs := [(0x301, 0x1FF), (0x403, 0x41), (0x801, 0x3)]
  raised := []
  mem := []
  host := []
  poison := []
  latent := []
  ctxs := []
  jobs := []
  written := []
  writes := 0
  served := []
  admits := 0
  images := []
  cores := []
  world := World.reset
  chains := []
  rtio := Rtio.reset
  fseq := 1
  errWait := []
  errMirror := []
  reinitAt := []
  inject := none
  injectAt := none
  parityFlip := []
  snapAt := none
  captureNow := false
  captureNext := false
  passStart := 0
  passOld := []
  warmAsked := none
  clk := []
  sec := ⟨0, [], false, 0, 0, none, false, false⟩
  backup := ⟨storeUpdate (storeUpdate [] [(64, trainingBytes)]) [(20, natLE 4 0x41), (24, natLE 4 0)], true, some 0, 0, 0, true, false, true, true⟩
  flash := ⟨[], false, false, none, 0, 0, none⟩
  pmb := ⟨0, none, 0, 0⟩
  jtag := ⟨0x01, 0, false⟩
  msixTable := []
  msixPending := []
  accessQ := []
  ferry := []
  out := Out.reset

end Sys2Proof.Machine
end

