-- ==== Sys2Proof/Machine/Regs.lean ====
section
/-! DEFINITION. Reading and changing registers from inside the device: fields, counters, events with
their sequence numbers and MSI-X vectors, and the value a read returns (R14 to R17, R66, R67, R462). -/

namespace Sys2Proof.Machine

/-- The stored word of a register; an unlisted register holds its reset value (R14). -/
def getReg (s : State) (key : Nat) : W32 := smGet (regReset key) s.regs key

/-- Store a register word. -/
def putReg (s : State) (key : Nat) (w : W32) : State :=
  { s with regs := smPut (regReset key) s.regs key w }

/-- A field's stored value. -/
def getF (s : State) (f : RField) : Nat := fieldOf (getReg s f.key) f.hi f.lo

/-- A one-bit field's stored value. -/
def flag (s : State) (f : RField) : Bool := decide (getF s f = 1)

/-- Store a field. -/
def setF (s : State) (f : RField) (v : Nat) : State := putReg s f.key (withField (getReg s f.key) f.hi f.lo v)

/-- Clock state of region `r`. -/
def getClk (s : State) (r : Nat) : ClkRegion := smGet ClkRegion.reset s.clk r

/-- The region that holds a register block, of those whose clock can stop (R608, R620): a core's, or PLAN for PLN and WLD. -/
def stopRegion (slot : Nat) : Option Nat :=
  match slot with
  | 0x10 => some 0
  | 0x11 => some 1
  | 0x12 => some 2
  | 0x13 => some 3
  | 0x18 | 0x19 => some 4
  | _ => none

/-- The register `key` lies in a region in SHORT_STOP. -/
def inStopped (s : State) (key : Nat) : Bool :=
  match stopRegion (key / 256) with
  | some r => (getClk s r).stopped
  | none => false

/-- Add to a counter field; it wraps at its width. The counters of a stopped region do not change (R629). -/
def addF (s : State) (f : RField) (n : Nat) : State := if inStopped s f.key then s else setF s f (getF s f + n)

/-- Count one. -/
def incF (s : State) (f : RField) : State := addF s f 1

/-- R79: the register `key`, whose configuration bits are about to change, has been read already by the
CRC pass under way: the pass covers its old value. -/
def notePass (s : State) (key : Nat) : State :=
  if key < Config.passPosition s.passStart (s.now - s.passStart) ∧ !(s.passOld.any (fun p => decide (p.1 = key))) then
    { s with passOld := smInsert s.passOld key (getReg s key &&& crcMask key) }
  else s

/-! ### Regions, contexts, cores by number -/

/-- Context `k`. -/
def getCtx (s : State) (k : Nat) : Ctx := smGet Ctx.reset s.ctxs k
/-- Replace context `k`. -/
def putCtx (s : State) (k : Nat) (c : Ctx) : State := { s with ctxs := smPut Ctx.reset s.ctxs k c }
/-- Core `c`. -/
def getCore (s : State) (c : Nat) : Core := smGet Core.reset s.cores c
/-- Replace core `c`. -/
def putCore (s : State) (c : Nat) (x : Core) : State := { s with cores := smPut Core.reset s.cores c x }
/-- Chain `c`. -/
def getChain (s : State) (c : Nat) : Chain := smGet Chain.reset s.chains c
/-- Replace chain `c`. -/
def putChain (s : State) (c : Nat) (x : Chain) : State := { s with chains := smPut Chain.reset s.chains c x }
/-- Axis `a`. -/
def getAxis (s : State) (a : Nat) : Axis := smGet Axis.reset s.rtio.axes a
/-- Replace axis `a`. -/
def putAxis (s : State) (a : Nat) (x : Axis) : State :=
  { s with rtio := { s.rtio with axes := smPut Axis.reset s.rtio.axes a x } }
/-- Emission state of chain `c`. -/
def getEmit (s : State) (c : Nat) : EmitCh := smGet EmitCh.reset s.rtio.emit c
/-- Replace the emission state of chain `c`. -/
def putEmit (s : State) (c : Nat) (x : EmitCh) : State :=
  { s with rtio := { s.rtio with emit := smPut EmitCh.reset s.rtio.emit c x } }
/-- STEP channel `n`. -/
def getStep (s : State) (n : Nat) : StepCh := smGet StepCh.reset s.rtio.stepch n
/-- Replace STEP channel `n`. -/
def putStep (s : State) (n : Nat) (x : StepCh) : State :=
  { s with rtio := { s.rtio with stepch := smPut StepCh.reset s.rtio.stepch n x } }
/-- MAC `m`. -/
def getMac (s : State) (m : Nat) : Mac := smGet Mac.reset s.rtio.macs m
/-- Replace MAC `m`. -/
def putMac (s : State) (m : Nat) (x : Mac) : State :=
  { s with rtio := { s.rtio with macs := smPut Mac.reset s.rtio.macs m x } }
/-- Replace the clock state of region `r`. -/
def putClk (s : State) (r : Nat) (x : ClkRegion) : State := { s with clk := smPut ClkRegion.reset s.clk r x }
/-- Timetable entry `i`. -/
def getEntry (s : State) (i : Nat) : Entry := smGet Entry.reset s.rtio.entries i
/-- Replace timetable entry `i`. -/
def putEntry (s : State) (i : Nat) (x : Entry) : State :=
  { s with rtio := { s.rtio with entries := smPut Entry.reset s.rtio.entries i x } }
/-- The opening of window `w`, when it is open: the opening's number. -/
def getWindow (s : State) (w : Nat) : Option Nat := smGet none s.rtio.windows w
/-- A key slot. -/
def getSlotFuses (s : State) (i : Nat) : KeySlot := smGet KeySlot.empty s.sec.slots i

/-- RTIO cycles (2 ns) since power was first applied: five to a reference tick. -/
def rtioNow (s : State) : Nat := 5 * s.now - s.rtio.back

/-! ### MSI-X (R462) -/

/-- What an unlisted word of the MSI-X table reads as: every vector is masked after a start. -/
def msixReset (i : Nat) : W32 := if i % 4 = 3 then 1 else 0

/-- A word of the MSI-X table. -/
def msixWord (s : State) (i : Nat) : W32 := smGet (msixReset i) s.msixTable i

/-- The vector's mask bit is set, or the link is down: a message cannot be sent now. -/
def msixBlocked (s : State) (v : Nat) : Bool := bitOf (msixWord s (4 * v + 3)).toNat 0 || !(flag s HIF_STAT_LINK_UP)

/-- Send a vector's message (R462): a masked vector becomes pending instead. -/
def sendMsix (s : State) (v : Nat) : State :=
  if msixBlocked s v then { s with msixPending := natInsert v s.msixPending }
  else
    let addr : W64 := BitVec.ofNat 64 ((msixWord s (4 * v)).toNat + 2 ^ 32 * (msixWord s (4 * v + 1)).toNat)
    { s with out := { s.out with msix := (v, addr, msixWord s (4 * v + 2)) :: s.out.msix },
             msixPending := natErase v s.msixPending }

/-- Send every pending vector that is no longer blocked (R462). -/
def flushMsix (s : State) : State :=
  s.msixPending.foldl (fun s v => if msixBlocked s v then s else sendMsix s v) s

/-- The vector of an event register, by its key (R462). -/
def vectorOfKey (key : Nat) : Option Nat :=
  let slot := key / 256
  if key = 0x003 ∨ key = 0x102 then some 17
  else if key = 0x502 ∨ key = 0x622 then some 18
  else if key = 0x1902 + 9 ∨ key = 0x1802 then some 19
  else if 0x10 ≤ slot ∧ slot ≤ 0x13 then some (20 + (slot - 0x10))
  else if key = 0x802 then some 24
  else if key = 0x201 then some 25
  else if key = 0x901 then some 26
  else if key = 0x302 then some 27
  else if key = 0x402 then some 28
  else if key = 0xA02 ∨ key = 0xB02 then some 29
  else none

/-- The word of a sequence-clear register after the device sets event bits in one cycle (R66, R67): the bits
are set and SEQ grows by one modulo 256. -/
def eventWord (w : W32) (mask : Nat) : W32 :=
  withField (w ||| BitVec.ofNat 32 (mask % 16777216)) 31 24 (fieldOf w 31 24 + 1)

/-- The message of an event register, where it has a vector (R462). -/
def notifyOf (s : State) (key : Nat) : State :=
  match vectorOfKey key with
  | some v => sendMsix s v
  | none => s

/-- A later cycle of the same command begins: SEQ of every register can rise again (R67). -/
def newCycle (s : State) : State := { s with raised := [] }

/-- The device sets event bits of a sequence-clear register (R66). SEQ rises once in a cycle, and the register's vector is
sent each time it does (R67, R462). -/
def setEvents (s : State) (key mask : Nat) : State :=
  if s.raised.contains key then putReg s key (getReg s key ||| BitVec.ofNat 32 (mask % 16777216))
  else notifyOf { putReg s key (eventWord (getReg s key) mask) with raised := key :: s.raised } key

/-- The device sets one event bit. -/
def setEvent (s : State) (f : RField) : State := setEvents s f.key (2 ^ f.lo)

/-! ### What a read returns -/

/-- The number with bit `i` for each `i` below `n` that `p` accepts. -/
def bitmap (n : Nat) (p : Nat → Bool) : Nat :=
  (List.range n).foldl (fun a i => if p i then a + 2 ^ i else a) 0

/-- The jobs of context `k` that are in flight (R454). -/
def jobsOf (s : State) (k : Nat) : List Job := s.jobs.filter (fun j => decide (j.ctx = k))

/-- The job is moored. -/
def Job.isMoored (j : Job) : Bool :=
  match j.phase with
  | .moored _ => true
  | _ => false

/-- Jobs of a context that are done and in completion holding: done, and not the oldest in flight (R456). -/
def holdingCount (s : State) (k : Nat) : Nat :=
  ((jobsOf s k).drop 1).countP (fun j => decide (j.phase = .done))

/-- The jobs that hold a resource of region `r` (R447's unit codes). -/
def regionJobs (s : State) (r : Nat) : List Job :=
  s.jobs.filter (fun j => decide (j.unit = r) && (decide (j.phase = .running) || j.isMoored))

/-- Ring sizes (R425). -/
def ringLog2 (n : Nat) : Nat := if n > 12 then 12 else if n < 1 then 1 else n
/-- Entries of the submission ring of context `k`. -/
def sqSize (s : State) (k : Nat) : Nat := 2 ^ ringLog2 (getF s (HIF_CTX_SIZE_SQ_LOG2 k))
/-- Entries of the completion ring of context `k`. -/
def cqSize (s : State) (k : Nat) : Nat := 2 ^ ringLog2 (getF s (HIF_CTX_SIZE_CQ_LOG2 k))

/-- Completions written and not yet passed by the completion head (R455). -/
def unconsumed (s : State) (k : Nat) : Nat :=
  let c := getCtx s k
  (c.cqTail + cqSize s k - c.cqHead) % cqSize s k

/-- Fetch of context `k` is stopped by R455. -/
def fetchStopped (s : State) (k : Nat) : Bool :=
  decide ((jobsOf s k).length + unconsumed s k ≥ cqSize s k - 1)

/-- R312: the leaves of a brick that a reader of generation `g` sees: the copy with the highest tag not above `g`. -/
def Brick.at (b : Brick) (g : Nat) : Option (List Nat) :=
  if b.a.tag ≤ g ∧ (b.b.tag ≤ b.a.tag ∨ g < b.b.tag) then b.a.leaves else b.b.leaves

/-- The leaves of a brick in the newest generation that wrote it. -/
def Brick.current (b : Brick) : Option (List Nat) := b.at (max b.a.tag b.b.tag)

/-- The current generation as WLD_GEN and every record show it (R311). -/
def World.word (w : World) : W32 := BitVec.ofNat 32 w.gen

/-- The present bricks (R298). -/
def presentBricks (w : World) : List Nat :=
  (w.bricks.filter (fun p => p.2.current.isSome)).map Prod.fst

/-- The brick number bx + 512 by + 512² bz lies in the envelope WLD_ENV_LO to WLD_ENV_HI (R317). -/
def inEnvelope (s : State) (n : Nat) : Bool :=
  let lo := getF s WLD_ENV_LO_BRICK
  let hi := getF s WLD_ENV_HI_BRICK
  let ok (i : Nat) := decide (bitsOf lo (9 * i + 8) (9 * i) ≤ bitsOf n (9 * i + 8) (9 * i)) &&
    decide (bitsOf n (9 * i + 8) (9 * i) ≤ bitsOf hi (9 * i + 8) (9 * i))
  ok 0 && ok 1 && ok 2

/-- The number of bricks the envelope box holds (R317, R318). -/
def envelopeSize (s : State) : Nat :=
  let lo := getF s WLD_ENV_LO_BRICK
  let hi := getF s WLD_ENV_HI_BRICK
  let d (i : Nat) := bitsOf hi (9 * i + 8) (9 * i) + 1 - bitsOf lo (9 * i + 8) (9 * i)
  d 0 * d 1 * d 2

/-- Pinning is in effect: Timed mode or PIN_ENV, and an envelope of at most 16,384 bricks (R317, R318). -/
def pinning (s : State) : Bool :=
  (decide (getF s CLK_CTL_MODE = 0) || flag s WLD_CTL_PIN_ENV) && decide (envelopeSize s ≤ 16384)

/-- A brick is pinned (R317, R318). -/
def isPinned (s : State) (n : Nat) : Bool := pinning s && inEnvelope s n

/-- The state code of a key slot (R670); in VOID every slot reads EMPTY (R669). -/
def slotState (s : State) (i : Nat) : Nat :=
  let k := getSlotFuses s i
  if s.sec.state = 4 then 0
  else if k.erased then 3 else if k.revoked then 2 else if k.valid then 1 else 0

/-- The life-cycle state a thermometer code reads as (R664). -/
def lcState (lc : BitVec 4) : Nat :=
  if lc = 0b0000 then 0 else if lc = 0b0001 then 1 else if lc = 0b0011 then 2 else if lc = 0b0111 then 3 else 4

/-- Debug register access and scan dump are open (R664, R677). -/
def debugOpen (s : State) : Bool :=
  decide (s.sec.state = 0) || decide (s.sec.state = 1) || (decide (s.sec.state = 3) && s.sec.erasedAll)

/-- A little-endian word of the retention SRAM (R654). -/
def bkWord (s : State) (off n : Nat) : Nat :=
  leNat ((List.range n).map (fun i => smGet 0 s.backup.store (off + i)))

/-- The images of the jobs resident on core `c` (R486). -/
def residentImages (s : State) (c : Nat) : List Image :=
  (getCore s c).resident.filterMap (fun p =>
    match s.jobs.find? (fun j => decide (j.ctx = p.1) && decide (j.sub = p.2)) with
    | some j => j.run.map (fun r => r.image)
    | none => none)

/-- The bits a status register shows of structures held elsewhere in the state; their stored bits are
always zero. -/
def derivedReg (s : State) (key : Nat) : Nat :=
  let slot := key / 256
  let i := key % 256
  match slot with
  | 0x00 =>
    if i = 8 then 2 * b2n s.snapAt.isSome
    else if i = 12 then (s.now - s.readyAt) % 2 ^ 32
    else if i = 16 then 4 * b2n (s.captureNow || s.captureNext)
    else if i = 33 then 32 * b2n (decide (s.flash.wdog.getD 0 ≠ 0))
    else if i = 36 then (s.flash.wdog.getD 0 + 1) / 2
    else if i = 43 then b2n s.flash.xspiOp.isSome
    else 0
  | 0x01 =>
    if i = 1 then bitmap 8 (fun k => decide ((jobsOf s k).length > 0)) + 2 ^ 8 * s.jobs.length
    else if 32 ≤ i ∧ i < 160 then
      let k := (i - 32) / 16
      let c := getCtx s k
      match (i - 32) % 16 with
      | 6 => c.sqHead + 2 ^ 16 * c.sqTail
      | 7 => c.cqTail + 2 ^ 16 * c.cqHead
      | 13 => (jobsOf s k).length + 2 ^ 7 * min 16 (holdingCount s k) + 2 ^ 12 * b2n c.flushing + 2 ^ 13 * b2n (fetchStopped s k)
      | 14 => c.subseq.toNat
      | _ => 0
    else 0
  | 0x02 =>
    if i ≥ 16 ∧ (i - 16) % 6 = 5 then
      let k := (i - 16) / 6
      let c := getCtx s k
      2 ^ 8 * c.frTail + 2 ^ 16 * b2n c.halted + 2 ^ 17 * b2n (!c.faultWait.isEmpty && decide ((c.frTail + 1) % 64 = getF s (MMU_CTX_STAT_FR_HEAD k))) +
        2 ^ 18 * (jobsOf s k).countP (fun j => j.isMoored || decide (j.phase = .held))
    else 0
  | 0x03 =>
    if i = 1 then 2 ^ 9 * b2n (!s.backup.mainOn)
    else if 8 ≤ i ∧ i < 28 ∧ i % 4 = 2 then
      let c := getClk s ((i - 8) / 4)
      2 ^ 8 * b2n c.armed + 2 ^ 9 * b2n c.changing + 2 ^ 10 * b2n c.stopped
    else 0
  | 0x04 =>
    if i = 1 then 2 ^ 3 * b2n s.backup.xtal + 2 ^ 4 * b2n s.backup.rtcValid
    else if i = 9 then bkWord s 4 4
    else if i = 10 then s.backup.rtc % 2 ^ 32
    else 0
  | 0x05 =>
    if i = 1 then bitmap 8 (fun w => (getWindow s w).isSome) + 2 ^ 8 * bitmap 4 (fun c => (getEmit s c).held) +
      2 ^ 12 * bitmap 4 (fun c => (getEmit s c).run)
    else if 16 ≤ i ∧ i < 48 ∧ i % 8 = 6 then (getAxis s ((i - 16) / 8)).value % 2 ^ 32
    else if i = 53 then s.rtio.tout.toNat
    else 0
  | 0x06 => if i % 16 = 9 ∧ i < 32 then (getMac s (i / 16)).gptp % 2 ^ 32 else 0
  | 0x09 => if i = 28 then 2 ^ 12 * b2n s.inject.isSome else 0
  | 0x0A =>
    if i = 0 then s.sec.state + 2 ^ 4 * lcState s.sec.lc + 2 ^ 8 * b2n s.sec.erasedAll
    else if i = 3 then b2n (s.sec.op.isSome || s.sec.tokenBusy)
    else if i = 4 then s.sec.uid.toNat % 2 ^ 32
    else if i = 5 then s.sec.uid.toNat / 2 ^ 32
    else if i = 17 then
      slotState s 0 + 4 * slotState s 1 + 16 * slotState s 2 + 64 * slotState s 3
    else 0
  | 0x0B => if i = 1 then b2n (debugOpen s) + 2 * b2n s.jtag.active else 0
  | 0x10 | 0x11 | 0x12 | 0x13 =>
    let c := slot - 0x10
    let x := getCore s c
    if i = 3 then
      (match x.running with
        | some (k, sub) =>
          match s.jobs.find? (fun j => decide (j.ctx = k) && decide (j.sub = sub)) with
          | some j => match j.run with | some r => r.image.decl.arrays | none => 0
          | none => 0
        | none => 0) +
      2 ^ 4 * bitmap 4 (fun a => smGet false x.shadowFull a) +
      2 ^ 8 * b2n (s.jobs.any (fun j => decide (j.unit = c) && j.isMoored))
    else if i = 9 then x.seqStep
    else if i = 98 then
      let ds := (residentImages s c).foldl (fun (l : List Image) im =>
        if l.any (fun y => decide (y.digest = im.digest) && decide (y.decl.geyBase = im.decl.geyBase) &&
          decide (y.decl.geyTbase = im.decl.geyTbase)) then l else im :: l) []
      (ds.map (fun im => im.decl.geySteps)).foldl (· + ·) 0 + 2 ^ 16 * (ds.map (fun im => im.decl.geyTbytes)).foldl (· + ·) 0
    else 0
  | 0x18 =>
    if i = 1 then bitmap 4 (fun c => (getChain s c).desc.isSome) + 2 ^ 4 * bitmap 4 (fun c => (getChain s c).live.isSome)
    else if 12 ≤ i ∧ i < 16 then (getChain s (i - 12)).queue.length
    else if 16 ≤ i ∧ i < 20 then (getChain s (i - 16)).lastItem.toNat
    else if 20 ≤ i ∧ i < 24 then
      match (getChain s (i - 20)).live with
      | some l => l.gen % 2 ^ 32
      | none => 0
    else 0
  | 0x19 =>
    if i = 8 then s.world.gen % 2 ^ 32
    else if i = 9 then (presentBricks s.world).length
    else if i = 10 then
      ((presentBricks s.world).filter (isPinned s)).length + 2 ^ 31 * b2n s.world.pinned
    else 0
  | _ => 0

/-- CPTR.PHASE and ERR_RING_PTR.PHASE reset to 1 and are kept where the pointers are. -/
def phaseView (s : State) (key : Nat) (w : W32) : W32 :=
  if key / 256 = 0x01 ∧ 32 ≤ key % 256 ∧ key % 256 < 160 ∧ (key % 256 - 32) % 16 = 7 then
    withField w 31 31 (b2n (getCtx s ((key % 256 - 32) / 16)).cqPhase)
  else w

/-- The value a read of a register returns (R15, R17, R43, R45): AC and WO fields and reserved bits
read zero. -/
def readReg (s : State) (key : Nat) : W32 :=
  phaseView s key ((getReg s key ||| BitVec.ofNat 32 (derivedReg s key)) &&& ~~~(hiddenMask key))

end Sys2Proof.Machine
end

