-- ==== Sys2Proof/Machine/Ops.lean ====
section
/-! DEFINITION. The operations every command shares: how a meaning answers, reading and writing memory
with SECDED (R261 to R277), error records and their classes (R546 to R563), the books of a job, and
translated access (R503 to R513). -/

namespace Sys2Proof.Machine

/-- What a command answers. -/
abbrev Answer := Host.Outcome State Fault Refusal

/-- What no command but a fuse operation changes: the fuses (R664, R665, R670). -/
def sameFuses (s t : State) : Sec :=
  { t.sec with lc := s.sec.lc, slots := s.sec.slots, erasedAll := s.sec.erasedAll, uid := s.sec.uid }

/-- The answer of a command that leaves memory, time, the fuses and the queue alone. -/
def keep (s t : State) : Answer :=
  .next { t with pending := s.pending, now := s.now, raised := s.raised, sec := sameFuses s t, mem := s.mem, host := s.host }

/-- A sparse store put into its canonical form. -/
def smNorm {α : Type} [DecidableEq α] (d : α) (m : SMap α) : SMap α :=
  if smWf d m then m else m.foldr (fun p m => smPut d m p.1 p.2) []

/-- The answer of a command that may write memory; memory is left in its canonical form. -/
def commit (s t : State) : Answer :=
  .next { t with
    pending := s.pending, now := s.now, raised := s.raised, sec := sameFuses s t, mem := smNorm 0 t.mem, host := smNorm 0 t.host }

/-- The device is ready and not stopped by a scan dump (R605, R652, R682). -/
def isReady (s : State) : Bool := decide (s.phase = .ready)

/-- A command that acts only while the device is ready and that leaves memory alone. -/
def whenReady (s : State) (f : State → State) : Answer := if isReady s then keep s (f (newCycle s)) else .next s

/-- A command that acts only while the device is ready and that may write memory. -/
def whenReadyMem (s : State) (f : State → State) : Answer := if isReady s then commit s (f (newCycle s)) else .next s

/-- GLB_TICK: reference ticks since ready (R70). -/
def glbTick (s : State) : Nat := s.now - s.readyAt

/-! ### The address map (R261) -/

/-- The memories of R261. -/
inductive MemKind where
  | hbm | pool (c : Nat) | basin | store
  deriving DecidableEq, Repr

/-- Base of the pool of core `c`. -/
def poolBase (c : Nat) : Nat := 0x1000000000 + c * 0x4000000
/-- Size of a core pool. -/
def poolSize : Nat := 58720256
/-- Base of the basin. -/
def basinBase : Nat := 0x1100000000
/-- Size of the basin. -/
def basinSize : Nat := 0x3000000
/-- Base of the planner store. -/
def storeBase : Nat := 0x1200000000
/-- Size of the planner store. -/
def storeSize : Nat := 0x1800000

/-- The memory a device-physical address lies in; none outside the populated ranges. -/
def memKind (a : Nat) : Option MemKind :=
  if a < 0x800000000 then some .hbm
  else if poolBase 0 ≤ a ∧ a < poolBase 4 ∧ (a - poolBase 0) % 0x4000000 < poolSize then
    some (.pool ((a - poolBase 0) / 0x4000000))
  else if basinBase ≤ a ∧ a < basinBase + basinSize then some .basin
  else if storeBase ≤ a ∧ a < storeBase + storeSize then some .store
  else none

/-- The address is populated (R261, R262). -/
def populated (a : Nat) : Bool := (memKind a).isSome

/-- Region code of the unit that detects an error in a memory (R447). -/
def MemKind.region : MemKind → Nat
  | .pool c => c
  | .store => 4
  | .hbm | .basin => 5

/-! ### Plain bytes -/

/-- One byte of device memory. -/
def memByte (s : State) (a : Nat) : Byte := smGet 0 s.mem a

/-- One byte of host memory. -/
def hostByte (s : State) (a : Nat) : Byte := smGet 0 s.host a

/-- `n` bytes of device memory, with no check. -/
def rawRead (s : State) (a n : Nat) : List Byte := smRead 0 s.mem a n

/-- Write device memory, with no check. -/
def rawWrite (s : State) (a : Nat) (l : List Byte) : State := { s with mem := smWrite 0 s.mem a l }

/-- `n` bytes of host memory. -/
def hostRead (s : State) (a n : Nat) : List Byte := smRead 0 s.host a n

/-- Write host memory. -/
def hostWrite (s : State) (a : Nat) (l : List Byte) : State := { s with host := smWrite 0 s.host a l }

/-! ### Error records (R517, R546 to R556, R563) -/

/-- What is known of an error: its source and class before promotion, the region of the unit that
detected it, DETAIL, ADDR and the affected job. -/
structure ErrInfo where
  src : Nat
  cls : Nat
  unit : Nat
  detail : Nat
  addr : Option Nat
  job : Option (Nat × W32)
  deriving DecidableEq, Repr

/-- Take the next record number (R517): it grows by 1 per record and skips 0. -/
def takeSeq (s : State) : W32 × State := (s.fseq, { s with fseq := if s.fseq + 1 = 0 then 1 else s.fseq + 1 })

/-- R547: the class after promotion. A REGION error in BASIN, HOST or AON, or less than 10 ms after the
region's last reinitialisation completed, or while one still runs, is FATAL. -/
def promote (s : State) (region cls : Nat) : Nat :=
  if cls ≠ 2 then cls
  else if region = 5 ∨ region = 6 ∨ region = 8 then 3
  else if bitOf (getF s ERR_REGION_STAT_REINIT) region then 3
  else match smGet none s.reinitAt region with
    | some t => if s.now < t + 1000000 then 3 else 2
    | none => 2

/-- The 32 bytes of an error record, with PHASE 0 (R551). -/
def errBytes (s : State) (e : ErrInfo) (cls : Nat) (seq : W32) : List Byte :=
  let jf := match e.job with | some (k, _) => 1 + 4 * k | none => 0
  let sub := match e.job with | some (_, w) => w.toNat | none => 0
  natLE 1 cls ++ natLE 1 e.src ++ natLE 1 e.unit ++ natLE 1 (jf + 2 * b2n e.addr.isSome) ++
    natLE 4 seq.toNat ++ natLE 4 sub ++ natLE 4 e.detail ++ natLE 8 (e.addr.getD 0) ++ natLE 8 (glbTick s)

/-- Records the error ring holds, 2^LOG2 (R552). -/
def errRingSize (s : State) : Nat :=
  let l := getF s ERR_RING_BASE_LOG2
  2 ^ (if l < 6 then 6 else if l > 12 then 12 else l)

/-- Free entries of the error ring; as in R516, a ring is full when its tail stands one behind its
head, and records already waiting count as taken (DEDUCED). -/
def errFree (s : State) : Nat :=
  let n := errRingSize s
  n - 1 - (getF s ERR_RING_PTR_TAIL + n - getF s ERR_RING_PTR_HEAD % n) % n - s.errWait.length

/-- One update of the retention store under R655, after which the witness reads VALID, unless a reset cuts it (`cutUpdate`). -/
def backupUpdate (s : State) (writes : List (Nat × List Byte)) : State :=
  { s with backup := { s.backup with
      store := storeUpdate s.backup.store writes, witness := true, updatedAt := some s.now } }

/-- A reset that falls into an update of the store, whose length is free: the update does not reach its last step, so that the
witness stays at LOST (R655). -/
def cutUpdate (b : Backup) (now : Nat) : Backup :=
  match b.updatedAt with
  | some t => { b with witness := b.witness && decide (t + Config.updateTicks ≤ now) }
  | none => b

/-- The backup is valid: the witness reads VALID, and MAGIC and CRC match (R657). -/
def backupValid (s : State) : Bool :=
  s.backup.witness && decide (leNat (smRead 0 s.backup.store 0 4) = backupMagic) &&
    decide (leNat (smRead 0 s.backup.store 8 4) = (backupCrc s.backup.store).toNat)

/-- ERR_SUMMARY as a word. -/
def errSummary (s : State) : Nat := (getReg s ERR_SUMMARY_CLASSES.key).toNat

/-- The books of an error, before its record waits for the ring: ERR_SUMMARY, kept in the backup at each
change (R659), the counter of its class and its event bit (R548, R553). -/
def countError (s : State) (src cls : Nat) : State :=
  let old := errSummary s
  let s := setF s ERR_SUMMARY_CLASSES (getF s ERR_SUMMARY_CLASSES ||| 2 ^ cls)
  let s := setF s ERR_SUMMARY_SOURCES (getF s ERR_SUMMARY_SOURCES ||| 2 ^ (src - 1))
  let s := if errSummary s = old then s else backupUpdate s [(24, natLE 4 (errSummary s))]
  match cls with
  | 0 => setEvent (incF s ERR_CORRECTED_COUNT) ERR_EVENT_CORRECTED
  | 1 => setEvent (incF s ERR_CONTAINED_COUNT) ERR_EVENT_CONTAINED
  | 2 => setEvent (incF s ERR_REGION_COUNT) ERR_EVENT_REGION
  | _ => s

/-- From the beginning of a start and in reset the balls of the timetable are low and ALERT_N is released (R417, R631,
R663). -/
def releaseBalls (s : State) : State :=
  { s with rtio := { s.rtio with tout := 0, fsync := [], stepch := [] }, out := { s.out with alertLow := false } }

/-- Begin a start (R639, R640, R642, R563): the cause is RESET_CAUSE's bits. -/
def beginStart (s : State) (warm : Bool) (cause : Nat) : State := { releaseBalls s with phase := .starting warm cause }

/-- Go into reset, by the fall of a main rail or by PORST_N (R631, R632, R639). -/
def enterReset (s : State) (brownout : Bool) : State :=
  { releaseBalls s with phase := .inReset brownout, backup := cutUpdate s.backup s.now }

/-- R563: store the FATAL record in ERR_FATAL0 to 7 and in the backup, and warm start. -/
def fatal (s : State) (bytes : List Byte) : State :=
  let s := (List.range 8).foldl (fun s i => setF s (ERR_FATAL_RECORD i) (recNat bytes (4 * i) 4)) s
  beginStart (backupUpdate s [(28, bytes)]) true (2 ^ 4)

/-- Report an error of any class but REGION: its number, its books, and its record. A CORRECTED record
is dropped while fewer than 32 entries are free (R553); a record of another class waits (R554); with
RING_EN at 0 no record is written (R556). A FATAL error stores its record and starts the device (R563).
Returns the record's number. -/
def reportPlain (s : State) (e : ErrInfo) (cls : Nat) : W32 × State :=
  let (seq, s) := takeSeq s
  let s := countError s e.src cls
  let bytes := errBytes s e cls seq
  if cls = 3 then (seq, fatal s bytes)
  else if !(flag s ERR_CTL_RING_EN) then (seq, s)
  else if cls = 0 ∧ errFree s < 32 then (seq, setEvent (incF s ERR_CE_LOST_COUNT) ERR_EVENT_CE_LOST)
  else
    let full := decide (errFree s = 0)
    let s := { s with errWait := s.errWait ++ [⟨bytes, cls, e.job⟩] }
    (seq, if full then setEvent s ERR_EVENT_RING_FULL else s)

/-! ### SECDED (R270 to R277) -/

/-- The memory's DETAIL of an error at `a` (R548). -/
def memDetail (k : MemKind) (a : Nat) : Nat :=
  match k with
  | .pool _ => 0
  | .basin => 2 ^ 8
  | .store => 2 ^ 9
  | .hbm => bitsOf a 13 13 + 2 * bitsOf a 12 8

/-- Count a correction and set the memory's CE event (R271, R277). -/
def countCe (s : State) (k : MemKind) : State :=
  match k with
  | .pool c => setEvent (incF s (CORE_POOL_CE_COUNT c)) (CORE_POOL_EVENT_CE c)
  | .basin => setEvent (incF s BSN_SRAM_CE_COUNT) BSN_EVENT_SRAM_CE
  | .store => setEvent (incF s PLN_STORE_CE_COUNT) PLN_EVENT_STORE_CE
  | .hbm => setEvent (incF s BSN_HBM_CE_COUNT) BSN_EVENT_HBM_CE

/-- Count a marking, set the memory's UE event, and load the address register while its VALID bit is 0
(R272, R274, R277). -/
def countUe (s : State) (k : MemKind) (g : Nat) : State :=
  let addr (v f : RField) (x : Nat) (s : State) := if flag s v then s else setF (setF s f x) v 1
  match k with
  | .pool c => addr (CORE_POOL_ERR_ADDR_VALID c) (CORE_POOL_ERR_ADDR_GRANULE c) (g / 8)
      (setEvent (incF s (CORE_POOL_UE_COUNT c)) (CORE_POOL_EVENT_UE c))
  | .store => addr PLN_STORE_ERR_ADDR_VALID PLN_STORE_ERR_ADDR_GRANULE (g / 8)
      (setEvent (incF s PLN_STORE_UE_COUNT) PLN_EVENT_STORE_UE)
  | .basin | .hbm =>
    let s := if k = .basin then setEvent (incF s BSN_SRAM_UE_COUNT) BSN_EVENT_SRAM_UE
      else setEvent (incF s BSN_HBM_UE_COUNT) BSN_EVENT_HBM_UE
    if flag s BSN_ERR_ADDR_HI_VALID then s
    else setF (setF (setF s BSN_ERR_ADDR_LO_GRANULE (g / 8)) BSN_ERR_ADDR_HI_GRANULE (g / 2 ^ 32)) BSN_ERR_ADDR_HI_VALID 1

/-- The granules one error stands for: the granule, or an HBM burst's four (R277). -/
def errGranules (k : MemKind) (g : Nat) : List Nat :=
  match k with
  | .hbm => [g / 32 * 32, g / 32 * 32 + 8, g / 32 * 32 + 16, g / 32 * 32 + 24]
  | _ => [g]

/-- The address an error record gives: the granule, or the burst (R548). -/
def errAddr (k : MemKind) (g : Nat) : Nat :=
  match k with
  | .hbm => g / 32 * 32
  | _ => g

/-- A reader (a job, or none for the patrol and the device's own engines) reaches granule `g`. A
single-bit error of a granule, or of an HBM burst (R277), is corrected and reported; an uncorrectable one marks the granule (R271, R272); a
marked granule fails the job under its own record (R550). Returns the record's number when the job
fails. -/
def eccRead (s : State) (who : Option (Nat × W32)) (g : Nat) : Option W32 × State :=
  match memKind g with
  | none => (none, s)
  | some k =>
    let gs := errGranules k g
    let lat := gs.foldl (fun m x => m + smGet 0 s.latent x) 0
    let src := if k = .hbm then 3 else 1
    if s.poison.contains g then
      match who with
      | none => (none, s)
      | some j =>
        let (q, s) := reportPlain (newCycle s) ⟨src + 1, 1, k.region, memDetail k g + 2 ^ 15, some (errAddr k g), some j⟩ 1
        (some q, s)
    else if lat = 0 then (none, s)
    else
      let s := newCycle { s with latent := gs.foldl (fun m x => smPut 0 m x 0) s.latent }
      if lat = 1 then
        let d := memDetail k g + (if k = .hbm then 0 else (Config.syndrome g).toNat)
        (none, (reportPlain (countCe s k) ⟨src, 0, k.region, d, some (errAddr k g), none⟩ 0).2)
      else
        let s := countUe { s with poison := gs.foldl (fun p x => natInsert x p) s.poison } k g
        let (q, s) := reportPlain s ⟨src + 1, 1, k.region, memDetail k g, some (errAddr k g), who⟩ 1
        (if who.isSome then some q else none, s)

/-- No window named in MMU_CTL.TEST_DEFER is open (R543, R581). -/
def testAllowed (s : State) : Bool :=
  (List.range 8).all (fun w => !((getWindow s w).isSome && bitOf (getF s MMU_CTL_TEST_DEFER) w))

/-- The memory that a region's injection acts on holds the address (R581). -/
def injectsInto (unit a : Nat) : Bool :=
  match memKind a with
  | some k => decide (k.region = unit) && decide (k ≠ .hbm)
  | none => false

/-- R273: write bytes that lie within one granule. A whole granule clears poison; a part of a poisoned
granule is not written, and the writing job fails. -/
def granuleWrite (s : State) (who : Option (Nat × W32)) (a : Nat) (l : List Byte) : Option W32 × State :=
  let g := a / 8 * 8
  let note (s : State) : State :=
    match s.inject, s.injectAt with
    | some (src, u), none =>
      if src ≠ 8 && testAllowed s && injectsInto u a then { s with injectAt := some g } else s
    | _, _ => s
  if l.length = 8 then
    (none, note (rawWrite { s with poison := natErase g s.poison, latent := smPut 0 s.latent g 0 } a l))
  else
    match eccRead s who g with
    | (some q, s) => (some q, s)
    | (none, s) => (none, if s.poison.contains g then s else note (rawWrite s a l))

/-- Pieces of a run of bytes that do not cross a multiple of `m`, at most `fuel` pieces. -/
def pieces {α : Type} (m : Nat) : Nat → Nat → List α → List (Nat × List α)
  | 0, _, _ => []
  | _ + 1, _, [] => []
  | f + 1, a, l => let n := m - a % m; (a, l.take n) :: pieces m f (a + n) (l.drop n)

/-- Pieces of a range, as address and length. -/
def rangePieces (m : Nat) : Nat → Nat → Nat → List (Nat × Nat)
  | 0, _, _ => []
  | f + 1, a, n => if n = 0 then [] else
    let k := min n (m - a % m)
    (a, k) :: rangePieces m f (a + k) (n - k)

/-! ### Jobs -/

/-- The job of context `k` with sequence number `sub`. -/
def findJob (s : State) (k : Nat) (sub : W32) : Option Job :=
  s.jobs.find? (fun j => decide (j.ctx = k) && decide (j.sub = sub))

/-- Change one job. -/
def updJob (s : State) (k : Nat) (sub : W32) (f : Job → Job) : State :=
  { s with jobs := s.jobs.map (fun j => if j.ctx = k ∧ j.sub = sub then f j else j) }

/-- Insert a granule range into a list kept sorted and merged (R567). -/
def addRange (g n : Nat) : List (Nat × Nat) → List (Nat × Nat)
  | [] => [(g, n)]
  | (h, m) :: r =>
    if g + n < h then (g, n) :: (h, m) :: r
    else if h + m < g then (h, m) :: addRange g n r
    else addRange (min g h) (max (g + n) (h + m) - min g h) r

/-- R566, R567: bytes `n` at virtual address `va` join the job's partial writes, in whole granules. -/
def notePartial (s : State) (who : Option (Nat × W32)) (va n : Nat) : State :=
  match who with
  | some (k, sub) => if n = 0 then s else
    updJob s k sub (fun j => { j with poison := addRange (va / 8) ((va + n + 7) / 8 - va / 8) j.poison })
  | none => s

/-! ### Stopped work -/

/-- Why a job's work stops before its end: a translation fault (R513), a failing status, or an access
to host memory while the link is down (R723). -/
inductive Stop where
  | fault (kind level : Nat) (write walk pinned : Bool) (va : Nat)
  | fail (status : Nat) (detail : Option W32) (errSeq : W32)
  | hold (addr : Nat)
  deriving DecidableEq, Repr

/-- Work on the state that may stop; what it did before it stopped stands. -/
abbrev Op (α : Type) := ExceptT Stop (StateM State) α

/-- Run work on a state. -/
def runOp {α : Type} (x : Op α) (s : State) : Except Stop α × State := x.run s

/-- Stop with a failing status. -/
def failWith {α : Type} (status : Nat) (detail : Option W32) (errSeq : W32) : Op α := throw (.fail status detail errSeq)

/-- Run `f` on each element in turn. -/
def eachOp {α : Type} (f : α → Op Unit) : List α → Op Unit
  | [] => pure ()
  | x :: xs => do f x; eachOp f xs

/-- Collect what `f` answers for each element in turn. -/
def gatherOp {α β : Type} (f : α → Op β) : List α → Op (List β)
  | [] => pure []
  | x :: xs => do
    let y ← f x
    let ys ← gatherOp f xs
    pure (y :: ys)

/-- A job may not reach HBM while BSN_CTL.HBM_EN is 0 (R64). -/
def hbmGate (a : Nat) : Op Unit := do
  let s ← get
  if memKind a = some .hbm && !(flag s BSN_CTL_HBM_EN) then failWith 1 none 0 else pure ()

/-- Read device memory for a job or an engine, with SECDED. -/
def readDev (who : Option (Nat × W32)) (a n : Nat) : Op (List Byte) := do
  hbmGate a
  eachOp (fun p => do
    let s ← get
    let (q, s) := eccRead s who (p.1 / 8 * 8)
    set s
    match q with
    | some q => failWith 9 none q
    | none => pure ()) (rangePieces 8 (n + 1) a n)
  let s ← get
  pure (rawRead s a n)

/-- R482: a write into a cached image's range makes its entry invalid. -/
def dropImages (s : State) (a n : Nat) : State :=
  { s with images := s.images.filter (fun c => !(c.extents.any (fun e => decide (a < e.1 + e.2) && decide (e.1 < a + n)))) }

/-- Write device memory for a job or an engine, with SECDED. -/
def writeDev (who : Option (Nat × W32)) (a : Nat) (l : List Byte) : Op Unit := do
  hbmGate a
  modify (fun s => dropImages s a l.length)
  eachOp (fun p => do
    let s ← get
    let (q, s) := granuleWrite s who p.1 p.2
    set s
    match q with
    | some q => failWith 9 none q
    | none => pure ()) (pieces 8 (l.length + 1) a l)

/-- Reach host memory: the access waits while the link is down (R723). An access that the host answers with an
error is a PCIE_UE error, and its job completes ECC (R548); which accesses those are is the host's. -/
def hostGate (who : Option (Nat × W32)) (a : Nat) (write : Bool) : Op Unit := do
  let s ← get
  if !(flag s HIF_STAT_LINK_UP) then throw (.hold a)
  match Config.hostError s.now a write with
  | none => pure ()
  | some st =>
    let (q, s) := reportPlain (newCycle s) ⟨6, 1, 6, st.toNat, some a, who⟩ 1
    set s
    failWith 9 none q

/-! ### Translation (R503 to R513) -/

/-- Page size of a leaf at each level (R503). -/
def pageSize (level : Nat) : Nat := if level = 1 then 2 ^ 30 else if level = 2 then 2 ^ 21 else 2 ^ 12

/-- A table entry breaks R505: V is 0 or a bit that must be zero is 1. -/
def entryBad (e level : Nat) : Bool :=
  let leaf := bitOf e 2
  !(bitOf e 0) || decide (bitsOf e 11 6 ≠ 0) || (!(bitOf e 4) && decide (bitsOf e 63 40 ≠ 0)) ||
    (!leaf && decide (level < 3) && (bitOf e 1 || bitOf e 3 || bitOf e 5))

/-- R506 from `level` on, with the table at `t` (in host memory when `h`). Answers the address, whether the host holds
it, and the level of the leaf. -/
def walk (who : Option (Nat × W32)) (va : Nat) (write pinned : Bool) : Nat → Nat → Nat → Bool → Op (Nat × Bool × Nat)
  | 0, level, _, _ => throw (.fault 1 level write false pinned va)
  | f + 1, level, t, h => do
    if !h && !(populated t) then throw (.fault 1 level write true pinned va)
    let at_ := t + 8 * bitsOf va (47 - 9 * level) (39 - 9 * level)
    let bytes ← if h then do hostGate who at_ false; let s ← get; pure (hostRead s at_ 8) else readDev who at_ 8
    let e := leNat bytes
    let addr := bitsOf e 63 12 * 4096
    let bad {α : Type} (kind : Nat) : Op α := throw (.fault kind level write false pinned va)
    if entryBad e level then bad 1
    if bitOf e 2 || decide (level = 3) then
      if level = 0 || !(bitOf e 2) || decide (addr % pageSize level ≠ 0) then bad 1
      if bitOf e 5 then bad 3
      if write && !(bitOf e 1) then bad 2
      if pinned && !(bitOf e 3) then bad 2
      let pa := addr + va % pageSize level
      if !(bitOf e 4) && !(populated pa) then bad 1
      pure (pa, bitOf e 4, level)
    else walk who va write pinned f (level + 1) addr (bitOf e 4)

/-- Root of the context's table and whether it is in host memory. -/
def rootOf (s : State) (k : Nat) : Nat × Bool :=
  (getF s (MMU_CTX_ROOT_LO_ADDR k) * 4096 + getF s (MMU_CTX_ROOT_HI_ADDR k) * 2 ^ 32, flag s (MMU_CTX_ROOT_LO_HOST k))

/-- Translate one address of context `k` (R506), with the level of its leaf; each walk counts in MMU_WALKS. The model
keeps no cached translation, which R509 permits. -/
def translateLeaf (who : Option (Nat × W32)) (k va : Nat) (write pinned : Bool) : Op (Nat × Bool × Nat) := do
  modify (fun s => incF s MMU_WALKS_COUNT)
  let s ← get
  let (t, h) := rootOf s k
  walk who (va % 2 ^ 48) write pinned 4 0 t h

/-- Translate one address of context `k`. -/
def translate (who : Option (Nat × W32)) (k va : Nat) (write pinned : Bool) : Op (Nat × Bool) := do
  let (pa, h, _) ← translateLeaf who k va write pinned
  pure (pa, h)

/-- Read `n` bytes at a translated address, page by page. -/
def readVa (who : Option (Nat × W32)) (k va n : Nat) (pinned : Bool) : Op (List Byte) := do
  let parts ← gatherOp (fun (p : Nat × Nat) => do
    let (pa, h) ← translate who k p.1 false pinned
    if h then do hostGate who pa false; let s ← get; pure (hostRead s pa p.2) else readDev who pa p.2) (rangePieces 4096 (n + 1) va n)
  pure parts.flatten

/-- Write bytes at a translated address, page by page. Every page is translated first, so that an access that faults
writes nothing (R514, R520). When `note` is set the bytes join the job's partial writes as they are issued (R566); a write
into the pool range `own` of the job does not. -/
def writeVa (who : Option (Nat × W32)) (k va : Nat) (l : List Byte) (pinned note : Bool) (own : Nat × Nat) : Op Unit := do
  let parts ← gatherOp (fun (p : Nat × List Byte) => do
    let (pa, h) ← translate who k p.1 true pinned
    pure (p, pa, h)) (pieces 4096 (l.length + 1) va l)
  eachOp (fun (q : (Nat × List Byte) × Nat × Bool) => do
    let p := q.1
    let pa := q.2.1
    let h := q.2.2
    let isOwn := !h && decide (own.1 ≤ pa) && decide (pa < own.1 + own.2)
    if note && !isOwn && !(decide (memKind pa = some .store) && !h) then
      modify (fun s => notePartial s who (p.1 % 2 ^ 48) p.2.length)
    if h then do hostGate who pa true; modify (fun s => hostWrite s pa p.2) else writeDev who pa p.2) parts

end Sys2Proof.Machine
end

