-- ==== Sys2Proof/Machine/Jobs.lean ====
section
/-! DEFINITION. The books of jobs: when a job may start and which is taken first (R442, R445, R456 to
R458), its end (R447, R459), poisoned ranges (R449, R566, R567), and the completion record (R447). -/

namespace Sys2Proof.Machine

/-- The job is done and its completion not yet written. -/
def Job.isDone (j : Job) : Bool := decide (j.phase = .done)

/-- The job holds a unit: running or moored. -/
def Job.isHeld (j : Job) : Bool := decide (j.phase = .running) || j.isMoored

/-- Where the job stands names it. -/
def Job.is (k : Nat) (sub : W32) (j : Job) : Bool := decide (j.ctx = k) && decide (j.sub = sub)

/-- The jobs of the same ring that were fetched before. -/
def earlierJobs (s : State) (j : Job) : List Job := (jobsOf s j.ctx).takeWhile (fun x => decide (x.sub ≠ j.sub))

/-- The body is a FENCE. -/
def JobBody.isFence : JobBody → Bool
  | .fence => true
  | _ => false

/-- The body is a WAIT. -/
def JobBody.isWait : JobBody → Bool
  | .wait .. => true
  | _ => false

/-- The kind never moors: NOP, FENCE, WAIT, TEST and MOOR jobs (R522, R539). -/
def JobBody.neverMoors : JobBody → Bool
  | .nop | .fence | .wait .. | .test .. | .moor .. => true
  | _ => false

/-- The performer of a kind (R446), as a number: 0 the ring engine, 1 the copy engine, 2 the world
unit, 3 the planner, 4 a core, 5 + u the test of unit u. -/
def JobBody.performer : JobBody → Nat
  | .nop | .fence | .wait .. | .moor .. => 0
  | .copy .. | .fill .. => 1
  | .world .. => 2
  | .plan .. => 3
  | .run .. => 4
  | .test _ u .. => 5 + u

/-- UNIT of a kind that names no core (R447). -/
def JobBody.unit : JobBody → Nat
  | .world .. | .plan .. => 4
  | .test _ u .. => u
  | _ => 6

/-- R449: a merged granule range as reported ranges of at most 2^19 granules. -/
def splitRange : Nat → Nat → Nat → List (Nat × Nat)
  | 0, _, _ => []
  | f + 1, g, n => if n ≤ 2 ^ 19 then [(g, n)] else (g, 2 ^ 19) :: splitRange f (g + 2 ^ 19) (n - 2 ^ 19)

/-- R449: a poisoned range as 8 bytes. -/
def rangeWord (r : Nat × Nat) : Nat := r.1 + 2 ^ 45 * (r.2 - 1)

/-- The poisoned ranges a job reports: none when it ends OK (R569). -/
def Job.ranges (j : Job) : List (Nat × Nat) :=
  if j.status = 0 then [] else j.poison.flatMap (fun r => splitRange (r.2 / 2 ^ 19 + 1) r.1 r.2)

/-- Jobs of a context that are done and not yet completed (R456). -/
def doneCount (s : State) (k : Nat) : Nat := (jobsOf s k).countP Job.isDone

/-- Every result of a done job is visible, its poison list included (R445, R460): a list it has to write has been tried. -/
def Job.settled (j : Job) : Bool :=
  j.isDone && (j.poisonList.isSome || decide (j.desc.report = 0) || j.ranges.isEmpty)

/-- R442, R445, R456, R460: nothing of its own ring keeps the job from starting: no WAIT or FENCE before it has still to
complete, with AFTER every earlier job is done, and fewer than 16 jobs of the context are done and not completed. -/
def ringAllows (s : State) (j : Job) : Bool :=
  let before := earlierJobs s j
  !(before.any (fun x => x.desc.body.isFence || x.desc.body.isWait)) &&
    (!j.desc.after || before.all Job.settled) && decide (doneCount s j.ctx < 16)

/-- The job has been fetched and has not started. -/
def Job.isQueued (j : Job) : Bool := decide (j.phase = .queued)

/-- The job may start now, its unit apart. -/
def mayStart (s : State) (j : Job) : Bool := j.isQueued && ringAllows s j

/-- Region `r` admits jobs: it is not being reinitialised (R558). -/
def regionOpen (s : State) (r : Nat) : Bool := !(bitOf (getF s ERR_REGION_STAT_REINIT) r)

/-- Every page of a context's submission ring maps to the basin (R427). -/
def ringLocal (s : State) (k : Nat) : Bool :=
  let base := getF s (HIF_CTX_SQ_BASE_LO_ADDR k) * 4096 + getF s (HIF_CTX_SQ_BASE_HI_ADDR k) * 2 ^ 32
  (List.range ((64 * sqSize s k + 4095) / 4096)).all (fun i =>
    match (runOp (translate none k (base + 4096 * i) false true) s).1 with
    | .ok (pa, h) => !h && decide (memKind pa = some .basin)
    | .error _ => false)

/-- R457: the class a job acts as. -/
def effClass (s : State) (j : Job) : Nat :=
  if j.desc.cls = 0 ∧ !(flag s (HIF_CTX_CTL_CRIT_OK j.ctx) && ringLocal s j.ctx) then 1 else j.desc.cls

/-- R458: job `a` is taken before job `b` by a unit that served context `last` last: the higher class,
then the context nearest after the last one served, then the lower SUBSEQ, which is the earlier fetch. -/
def takenBefore (s : State) (last : Nat) (a b : Job) : Bool :=
  let ca := effClass s a
  let cb := effClass s b
  let da := (a.ctx + 7 - last) % 8
  let db := (b.ctx + 7 - last) % 8
  if ca ≠ cb then decide (ca < cb)
  else if da ≠ db then decide (da < db)
  else (earlierJobs s b).any (Job.is a.ctx a.sub)

/-- No job that `rival` accepts is taken before `j` by performer `p`. -/
def isNext (s : State) (p : Nat) (j : Job) (rival : Job → Bool) : Bool :=
  let last := smGet 7 s.served p
  s.jobs.all (fun x => (x.is j.ctx j.sub) || !(rival x) || !(takenBefore s last x j))

/-- A unit of performer `p` takes job `j`. -/
def takeJob (s : State) (p : Nat) (j : Job) (unit : Nat) : State :=
  let s := { s with served := smPut 7 s.served p j.ctx }
  updJob s j.ctx j.sub (fun x => { x with phase := .running, unit := unit, startedAt := s.now })

/-- Complete every MOOR job that waits on the job, with a DETAIL of R539. -/
def resolveMoors (s : State) (k : Nat) (sub : W32) (detail : Nat) : State :=
  { s with jobs := s.jobs.map (fun m =>
      match m.desc.body, m.phase with
      | .moor t x _, .running =>
        if t = k ∧ x = sub then { m with phase := .done, status := 0, detail := BitVec.ofNat 32 detail } else m
      | _, _ => m) }

/-- Empty what a core holds of the job that runs on it: planes, tables, calderas, queues and the units' times (R63, R138,
R502, R558). -/
def clearCore (x : Core) : Core :=
  { x with planes := [], tables := [], shadowFull := [], queue := [], slots := [], rowcals := [], time := CoreTime.reset }

/-- R459: the job's core takes no more part in it: its reservation and its turn go, and what the core held of it is
discarded, so that nothing of an ended job reaches a later one (R138, R502). -/
def releaseCore (s : State) (j : Job) : State :=
  match j.run with
  | none => s
  | some r =>
    let c := getCore s r.core
    let mine (p : Nat × W32) := p.1 = j.ctx ∧ p.2 = j.sub
    let wasRunning := match c.running with
      | some p => decide (mine p)
      | none => false
    let c1 := { c with resident := c.resident.filter (fun p => !(decide (mine p))) }
    putCore s r.core (if wasRunning then { clearCore c1 with running := none } else c1)

/-- DETAIL a job shows at its end when no rule gives another (R447): the step index of a RUN, the bytes
written of a COPY or FILL. -/
def Job.detailAtEnd (j : Job) : Nat :=
  match j.desc.body with
  | .run .. => match j.run with
    | some r => r.stepAt
    | none => 0
  | .copy .. | .fill .. => j.progress
  | _ => 0

/-- The job is done, with its status, DETAIL and ERR_SEQ; a job already done keeps those of its first
error. Its units are released and the MOOR jobs that wait on it complete. -/
def endJob (s : State) (k : Nat) (sub : W32) (status : Nat) (detail : Option W32) (errSeq : W32) : State :=
  match findJob s k sub with
  | none => s
  | some j =>
    if j.isDone then s
    else
      let s := releaseCore s j
      let d := match detail with
        | some d => d.toNat
        | none => j.detailAtEnd
      let s := updJob s k sub (fun x => { x with
        phase := .done, status := status, detail := BitVec.ofNat 32 d,
        detailHi := match detail with | some _ => 0 | none => bitsOf d 39 32,
        errSeq := errSeq, pendingMoors := [], hostWait := none, castWait := none })
      resolveMoors s k sub 2

/-- The body is a MOOR. -/
def JobBody.isMoor : JobBody → Bool
  | .moor .. => true
  | _ => false

/-- R63, R466: the jobs a drop stops complete DISABLED, MOOR jobs first, so that no dropped MOOR job is served by the end
of its target. -/
def dropJobs (s : State) (p : Job → Bool) : State :=
  let l := s.jobs.filter (fun j => p j && !j.isDone)
  (l.filter (fun j => j.desc.body.isMoor) ++ l.filter (fun j => !j.desc.body.isMoor)).foldl
    (fun s j => endJob s j.ctx j.sub 1 none 0) s

/-- R61: the touched jobs report CONFIG_DISTURBED. -/
def disturbJobs (s : State) (p : Job → Bool) : State :=
  { s with jobs := s.jobs.map (fun j => if p j && !j.isDone then { j with disturbed := true } else j) }

/-- R64: the functions every job needs: RUN, HIF_CTL.EN and MMU_CTL.MMU_EN. -/
def commonEnabled (s : State) : Bool := flag s GLB_CTL_RUN && flag s HIF_CTL_EN && flag s MMU_CTL_MMU_EN

/-- R64: the functions a job's kind needs beyond those every job needs; a RUN's own needs are judged at
its admission. -/
def kindEnabled (s : State) (b : JobBody) : Bool :=
  match b with
  | .world .. => flag s WLD_CTL_WORLD_EN
  | .plan .. => flag s PLN_CTL_PLAN_EN
  | .copy _ _ _ d => !d || flag s BSN_CTL_DIGEST_EN
  | _ => true

/-! ### Completion record (R447 to R450) -/

/-- R447: the completion record's 32 bytes. -/
def completionBytes (j : Job) (phase : Bool) : List Byte :=
  let rs := j.ranges
  let fl := b2n j.disturbed + 2 * b2n (decide (j.poisonList = some true)) + 4 * b2n (decide (rs.length > 32)) + 8 * b2n j.wrote +
    16 * b2n (decide (j.moorings > 0)) + 128 * b2n phase
  natLE 1 j.status ++ natLE 1 fl ++ natLE 1 j.num.toNat ++ natLE 1 j.detailHi ++ natLE 4 j.desc.tag.toNat ++
    natLE 4 j.sub.toNat ++ natLE 4 j.detail.toNat ++ natLE 2 (min rs.length 65535) ++ natLE 1 j.unit ++
    natLE 1 (min j.moorings 255) ++ natLE 4 j.errSeq.toNat ++
    natLE 8 (match rs with | r :: _ => rangeWord r | [] => 0)

end Sys2Proof.Machine
end

