-- ==== Sys2Proof/Machine/Flags.lean ====
section
/-! DEFINITION. The sticky flags of a core and of a job, and the first non-finite position (R133 to
R141). -/

namespace Sys2Proof.Machine

/-- Key of CORE_FLAGS of core `c`. -/
def coreFlagsKey (c : Nat) : Nat := (CORE_FLAGS_ALL c).key

/-- R136, R137: work of the job on core `c` raises flags in one cycle: they are set in CORE_FLAGS and
join the job's own. -/
def raiseFlags (s : State) (c : Nat) (who : Option (Nat × W32)) (f : Flags) : State :=
  if f = 0 then s
  else
    let s := setEvents s (coreFlagsKey c) f.toNat
    match who with
    | some (k, sub) => updJob s k sub (fun j => { j with num := j.num ||| f })
    | none => s

/-- CORE_FLAGS.NF of core `c`. -/
def nfSet (s : State) (c : Nat) : Bool := bitOf (getReg s (coreFlagsKey c)).toNat 4

/-- CORE_NF_POS's word (R141). A vector index above 16,383 does not fit VECTOR; its low 14 bits are kept (DESIGN CHOICE,
log entry 100). -/
def nfWord (column slot array vector : Nat) (east : Bool) : W32 :=
  BitVec.ofNat 32 (column % 512 + 2 ^ 9 * (slot % 32) + 2 ^ 14 * (array % 4) + 2 ^ 16 * (vector % 2 ^ 14) +
    2 ^ 30 * b2n east + 2 ^ 31)

/-- R139: a DRAIN that changes NF from 0 to 1 loads the position of its first non-finite element. -/
def loadNfPos (s : State) (c : Nat) (pos : Option W32) : State :=
  match pos with
  | some w => if nfSet s c then s else putReg s (CORE_NF_POS_ALL c).key w
  | none => s

end Sys2Proof.Machine
end

