-- ==== Sys2Proof/Machine/Caldera.lean ====
section
/-! DEFINITION. Calderas: exact accumulation, side flags and residue (R147 to R168, R204 to R207, R236,
R237), and the residue's failure (R167, R240). -/

namespace Sys2Proof.Machine

/-- The residue modulus. -/
def rhoMod : Nat := 4095

/-- c_int as an integer (R159). -/
def Cell.int (x : Cell) : Int := x.c.toInt

/-- The value of a slot (R159). -/
def Cell.value (x : Cell) : Q := qDyadic x.int (-300)

/-- R160: add an integer multiple of 2^-300 and its residue. An addition beyond the range sets OVF and
keeps c_int; a slot with OVF ignores additions. -/
def Cell.add (x : Cell) (n : Int) (r : Nat) : Cell :=
  if x.ovf then x
  else
    let t := x.int + n
    if t < -(2 ^ 639 : Int) ∨ t > (2 ^ 639 : Int) - 1 then { x with ovf := true }
    else { x with c := BitVec.ofInt 640 t, rho := (x.rho + r) % rhoMod }

/-- Any side flag is set (R161). -/
def Cell.anyFlag (x : Cell) : Bool := x.nar || x.pinf || x.ninf || x.ovf

/-- R523: the caldera is live. -/
def Cell.live (x : Cell) : Bool := decide (x.c ≠ 0) || decide (x.rho ≠ 0) || x.anyFlag

/-- R166: the caldera's own residue, from its 54 chunks of 12 bits. -/
def calderaResidue (c : BitVec 640) : Nat :=
  let n := c.toNat
  let sum := (List.range 54).foldl (fun a j => a + (n / 2 ^ (12 * j)) % 2 ^ 12) 0
  (sum + 16 * (rhoMod - 1) * (n / 2 ^ 639 % 2)) % rhoMod

/-- R166, R168: the residue check, not performed while OVF is set. -/
def Cell.residueOk (x : Cell) : Bool := x.ovf || decide (calderaResidue x.c = x.rho)

/-- The residue of a product, scaled or not, from its operands' fields (R164, R205): significands, the
power of two of the product's last place, and its sign. -/
def productResidue (ms : List Nat) (y : Int) (neg : Bool) : Nat :=
  let u := ms.foldl (fun a m => a * (m % rhoMod) % rhoMod) 1
  let t := ((y + 300) % 12).toNat
  let r := u * 2 ^ t % rhoMod
  if neg then (rhoMod - r) % rhoMod else r

/-- What the product of two operands, times a group scale, brings to a caldera: nothing; side flags, with the flag
raised at the product (R152); or an exact value in units of 2^-300 with its residue (R149, R150, R164), and the product
exponent y that places it in the window (R153). -/
inductive Product where
  | nothing
  | special (nar pinf ninf : Bool) (fl : Flags)
  | value (n : Int) (rho : Nat) (y : Int)
  deriving DecidableEq, Repr

/-- R152: the product of two operands of which one is not finite. -/
def specialProduct (a b : Val) : Product :=
  let neg := xor a.isNeg b.isNeg
  match a, b with
  | .nan _, _ | _, .nan _ => .special true false false (if a = .nan true ∨ b = .nan true then fINV else 0)
  | .inf _, .zero _ | .zero _, .inf _ => .special true false false fINV
  | _, _ => .special false (!neg) neg 0

/-- `m × 2^y` in units of 2^-300, negated for a negative product. R150: the value is a multiple of 2^-298 also
where y lies below −300, so the division there is exact. -/
def productInt (m : Nat) (y : Int) (neg : Bool) : Int :=
  let v : Int := if y + 300 ≥ 0 then (m * 2 ^ (y + 300).toNat : Nat) else (m / 2 ^ (-(y + 300)).toNat : Nat)
  if neg then -v else v

/-- R149, R164: the product of two non-zero finite operands. -/
def plainProduct (p q : Q) : Product :=
  let ua := unpack p
  let uw := unpack q
  let y := ua.e + uw.e - 22
  let neg := xor ua.s uw.s
  .value (productInt (ua.m * uw.m) y neg) (productResidue [ua.m, uw.m] y neg) y

/-- R204, R205: the same product times a non-zero finite group scale; its place in the window is that of the
product before the scale. -/
def scaledProduct (p q g : Q) : Product :=
  let ua := unpack p
  let uw := unpack q
  let ug := unpack g
  let y := ua.e + uw.e + ug.e - 33
  let neg := xor (xor ua.s uw.s) ug.s
  .value (productInt (ua.m * uw.m * ug.m) y neg) (productResidue [ua.m, uw.m, ug.m] y neg) (ua.e + uw.e - 22)

/-- R149 to R152, R204 to R206: the product of an activation and a weight; `scale` is none for a tile without groups.
A NaR scale acts on every product of its group as a NaR operand. The spec does not say what a group scale does to an
infinite product: under a finite scale, zero or negative ones included, the operands alone decide it (DESIGN CHOICE,
log entry 105). -/
def productOf (a w : Val) (scale : Option Val) : Product :=
  if (match scale with | some g => !g.isFinite | none => false) then .special true false false (if a = .nan true ∨ w = .nan true then fINV else 0)
  else match a, w with
    | .fin p, .fin q =>
      match scale with
      | none => plainProduct p q
      | some (.fin g) => scaledProduct p q g
      | some _ => .value 0 0 ((unpack p).e + (unpack q).e - 22)
    | .fin _, .zero _ | .zero _, .fin _ | .zero _, .zero _ => .nothing
    | _, _ => specialProduct a w

/-- The product exponent of a non-zero finite product (R153). -/
def Product.exponent : Product → Option Int
  | .value _ _ y => some y
  | _ => none

/-- The lowest exponent the alignment window of a group takes (R153, R154); none for a group with no non-zero finite
product. -/
def windowFloor (l : List Product) : Option Int :=
  match l.filterMap Product.exponent with
  | [] => none
  | y :: r => some (r.foldl max y - 56)

/-- The product leaves the window of a group whose lowest exponent is `lo` (R155). -/
def Product.leaves (lo : Int) : Product → Bool
  | .value _ _ y => decide (y < lo)
  | _ => false

/-- The sum of the values of products, with the sum of their residues. -/
def sumProducts (l : List Product) : Int × Nat :=
  l.foldl (fun a p => match p with
    | .value n r _ => (a.1 + n, (a.2 + r) % rhoMod)
    | _ => a) (0, 0)

/-- Side flags of a product (R152). -/
def Cell.mark (x : Cell) : Product → Cell
  | .special nar pinf ninf _ => { x with nar := x.nar || nar, pinf := x.pinf || pinf, ninf := x.ninf || ninf }
  | _ => x

/-- The flag raised at a product. -/
def Product.flags : Product → Flags
  | .special _ _ _ fl => fl
  | _ => 0

/-- R153 to R157: the products of one group of one vector into a caldera: the window's sum in one addition, then each
product of the fumarole lane. -/
def Cell.addGroup (x : Cell) (l : List Product) : Cell × Flags :=
  let y := l.foldl Cell.mark x
  let fl := l.foldl (fun f p => f ||| p.flags) 0
  match windowFloor l with
  | none => (y, fl)
  | some lo =>
    let w := sumProducts (l.filter (fun p => !p.leaves lo))
    ((l.filter (Product.leaves lo)).foldl (fun c p => let t := sumProducts [p]; c.add t.1 t.2) (y.add w.1 w.2), fl)

/-- R237: add a whole value and its residue into an accumulator of a row caldera. The addend is
(−1)^s × M × 2^q; every choice of M and q for one value gives the same residue, and q is −300 here. -/
def Cell.addValue (x : Cell) (v : Q) : Cell :=
  let n := (qFloor (qScale2 (qAbs v) 300)).toNat
  let r := n % rhoMod
  if v.num < 0 then x.add (-(n : Int)) ((rhoMod - r) % rhoMod) else x.add (n : Int) r

/-! ### Slots of a core -/

/-- Key of slot `i` of an array's south or east edge. -/
def slotKey (a : Nat) (east : Bool) (i : Nat) : Nat := (2 * a + b2n east) * 32 + i

/-- Calderas on an edge: 512 columns or 128 rows. -/
def edgeWidth (east : Bool) : Nat := if east then 128 else 512

/-- The calderas of a slot; an empty slot reads as zeros. -/
def slotCells (x : Core) (a : Nat) (east : Bool) (i : Nat) : List Cell :=
  match smGet [] x.slots (slotKey a east i) with
  | [] => List.replicate (edgeWidth east) Cell.zero
  | l => l

/-- Store the calderas of a slot; a slot of zeros is an empty one. -/
def putSlot (x : Core) (a : Nat) (east : Bool) (i : Nat) (l : List Cell) : Core :=
  { x with slots := smPut [] x.slots (slotKey a east i) (if l.all (fun c => decide (c = Cell.zero)) then [] else l) }

/-- R162: the calderas of a slot that `read` names are cleared. -/
def clearCells (x : Core) (a : Nat) (east : Bool) (i : Nat) (read : Nat → Bool) : Core :=
  putSlot x a east i ((slotCells x a east i).zipIdx.map (fun p => if read p.2 then Cell.zero else p.1))

/-- A slot is live (R523). -/
def slotLive (x : Core) (a : Nat) (east : Bool) (i : Nat) : Bool := (smGet [] x.slots (slotKey a east i)).any Cell.live

/-! ### A residue mismatch -/

/-- CORE_RES_POS's word. -/
def resWord (column slot array : Nat) (east : Bool) : Nat :=
  column % 512 + 2 ^ 9 * slot + 2 ^ 14 * array + 2 ^ 30 * b2n east + 2 ^ 31

/-- R167: a residue mismatch in an array caldera: CORE_RES_POS is loaded while its VALID is 0,
CORE_EVENT.RESIDUE is set, and the error is reported. Answers the record's number. -/
def residueError (s : State) (c : Nat) (who : Nat × W32) (column slot array : Nat) (east : Bool) : W32 × State :=
  let w := resWord column slot array east
  let s := if flag s (CORE_RES_POS_VALID c) then s else putReg s (CORE_RES_POS_VALID c).key (BitVec.ofNat 32 w)
  reportPlain (setEvent s (CORE_EVENT_RESIDUE c)) ⟨7, 1, c, w, none, some who⟩ 1

/-- R240: a residue mismatch in a row caldera. -/
def rowResidueError (s : State) (c : Nat) (who : Nat × W32) (row : Nat) : W32 × State :=
  let w := row % 64 + 2 ^ 31
  let s := if flag s (CORE_ROW_RES_POS_VALID c) then s else putReg s (CORE_ROW_RES_POS_VALID c).key (BitVec.ofNat 32 w)
  reportPlain (setEvent s (CORE_EVENT_RESIDUE c)) ⟨7, 1, c, w + 2 ^ 29, none, some who⟩ 1

/-- A caldera newly set OVF: CORE_EVENT.CAL_OVF (R160). -/
def noteOvf (s : State) (c : Nat) (newOvf : Bool) : State := if newOvf then setEvent s (CORE_EVENT_CAL_OVF c) else s

end Sys2Proof.Machine
end

