-- ==== Sys2Proof/Machine/Operands.lean ====
section
/-! DEFINITION. Operand forms: descriptors (R436 to R440), the fields of step records (R490) and
external operands (R473). -/

namespace Sys2Proof.Machine

/-! ### Descriptors -/

/-- The first byte of a range of a record that is not zero, as its offset. -/
def firstNonZero (r : List Byte) (lo : Nat) : Option Nat :=
  match findIdxFrom (fun b => decide (b ≠ 0)) (r.drop lo) lo with
  | some (i, _) => some i
  | none => none

/-- The first of a list of checks that fails, as the offset of its field. -/
def firstBad : List (Nat × Bool) → Option Nat
  | [] => none
  | (off, ok) :: r => if ok then firstBad r else some off

/-- The bytes from `lo` to `hi − 1` are zero. -/
def zeroAt (r : List Byte) (lo hi : Nat) : Bool := allZero ((r.take hi).drop lo)

/-- Checks that each byte from `lo` to 63 is zero, each under its own offset. -/
def zeroFrom (r : List Byte) (lo : Nat) : List (Nat × Bool) :=
  (List.range (64 - lo)).map (fun i => (lo + i, zeroAt r (lo + i) (lo + i + 1)))

/-- An 8-byte address with bits [63:48] zero (R439). -/
def vaOk (r : List Byte) (off : Nat) : Bool := decide (recNat r (off + 6) 2 = 0)

/-- The memory a test acts on, in bytes: the pool, the planner store or the basin of a unit (R574). -/
def testMemSize (unit : Nat) : Nat := if unit ≤ 3 then 58720256 else if unit = 4 then 0x1800000 else 0x3000000

/-- The test accepts the unit (R574). -/
def testUnitOk (test unit : Nat) : Bool :=
  match test with
  | 0 | 3 | 4 => decide (unit ≤ 3)
  | 1 => decide (unit = 5)
  | 2 | 5 => decide (unit = 4)
  | _ => decide (unit ≤ 5)

/-- BASE and LENGTH of a test, where it uses them (R574, R575): a multiple of 65,536 for the pool and
basin tests, of 8 for READ_CHECK; a LENGTH of 0 or a range beyond the memory is out of range. -/
def testRangeChecks (test unit base len : Nat) : List (Nat × Bool) :=
  if test = 0 ∨ test = 1 ∨ test = 6 then
    let m := if test = 6 then 8 else 65536
    [(32, decide (base % m = 0) && decide (base < testMemSize unit)),
     (40, decide (len % m = 0) && decide (0 < len) && decide (base + len ≤ testMemSize unit))]
  else []

/-- The body checks of each kind, in ascending offset (R438, R439, R304, R335, R575). -/
def bodyChecks (r : List Byte) : List (Nat × Bool) :=
  match recNat r 0 1 with
  | 0 | 4 => zeroFrom r 24
  | 1 => [(24, vaOk r 24), (36, vaOk r 36)] ++ zeroFrom r 44
  | 2 => [(24, vaOk r 24), (32, vaOk r 32), (40, decide (1 ≤ recNat r 40 8) && decide (recNat r 40 8 ≤ 2 ^ 36)),
      (48, decide (recNat r 48 1 ≤ 1))] ++ zeroFrom r 49
  | 3 => [(24, vaOk r 24), (32, decide (1 ≤ recNat r 32 8) && decide (recNat r 32 8 ≤ 2 ^ 36))] ++ zeroFrom r 48
  | 5 => [(24, decide (recNat r 24 1 ≤ 3)),
      (25, decide (recNat r 24 1 = 3) || decide (recNat r 25 1 ≤ (if recNat r 24 1 = 2 then 3 else 7))),
      (26, zeroAt r 26 27), (27, zeroAt r 27 28)] ++ zeroFrom r 36
  | 6 => [(24, vaOk r 24 && decide (recNat r 24 1 % 16 = 0)),
      (32, decide (1 ≤ recNat r 32 2) && decide (recNat r 32 2 ≤ 4096))] ++ zeroFrom r 34
  | 7 => (24, vaOk r 24 && decide (recNat r 24 1 % 64 = 0)) :: zeroFrom r 32
  | 8 => [(24, decide (recNat r 24 1 ≤ 6)), (25, testUnitOk (recNat r 24 1) (recNat r 25 1))] ++
      (List.range 6).map (fun i => (26 + i, zeroAt r (26 + i) (27 + i))) ++
      testRangeChecks (recNat r 24 1) (recNat r 25 1) (recNat r 32 8) (recNat r 40 8) ++ zeroFrom r 48
  | _ => [(24, decide (recNat r 24 1 ≤ 7)), (25, zeroAt r 25 26), (26, zeroAt r 26 27), (27, zeroAt r 27 28),
      (32, decide (recNat r 32 1 ≤ 1))] ++ zeroFrom r 33

/-- R440: the offset of the first bad field of a 64-byte descriptor. -/
def descBad (r : List Byte) : Option Nat :=
  firstBad ([(0, decide (recNat r 0 1 ≤ 9)), (1, decide (bitsOf (recNat r 1 1) 7 5 = 0)),
    (2, decide (recNat r 0 1 = 1) || zeroAt r 2 3), (3, zeroAt r 3 4),
    (16, vaOk r 16 && decide (recNat r 16 1 % 64 = 0))] ++ bodyChecks r)

/-- The body a descriptor's bytes spell (R438). -/
def parseBody (r : List Byte) : JobBody :=
  match recNat r 0 1 with
  | 1 => .run (recNat r 24 8) (recNat r 32 4) (recNat r 36 8)
  | 2 => .copy (recNat r 24 8) (recNat r 32 8) (recNat r 40 8) (bitOf (recNat r 48 1) 0)
  | 3 => .fill (recNat r 24 8) (recNat r 32 8) (BitVec.ofNat 64 (recNat r 40 8))
  | 4 => .fence
  | 5 => .wait (recNat r 24 1) (recNat r 25 1) (BitVec.ofNat 32 (recNat r 28 4)) (recNat r 32 4)
  | 6 => .world (recNat r 24 8) (recNat r 32 2)
  | 7 => .plan (recNat r 24 8)
  | 8 => .test (recNat r 24 1) (recNat r 25 1) (recNat r 32 8) (recNat r 40 8)
  | 9 => .moor (recNat r 24 1) (BitVec.ofNat 32 (recNat r 28 4)) (bitOf (recNat r 32 1) 0)
  | _ => .nop

/-- The descriptor 64 bytes spell (R436). -/
def parseDesc (r : List Byte) : Desc :=
  let b := recNat r 1 1
  { body := parseBody r, cls := bitsOf b 1 0, irq := bitOf b 2, manifest := bitOf b 3, after := bitOf b 4,
    units := recNat r 2 1, tag := BitVec.ofNat 32 (recNat r 4 4), seed := BitVec.ofNat 64 (recNat r 8 8),
    report := recNat r 16 8 }

/-! ### Step records -/

/-- OP of a step record. -/
def stepOp (r : StepRec) : Nat := bitsOf (recNat r 0 1) 3 0

/-- The bytes of a step record that are neither byte 0 nor among `used` are zero, and so are bits [7:4]
of byte 0 (R490, R497). -/
def onlyUses (r : StepRec) (used : List Nat) : Bool :=
  decide (bitsOf (recNat r 0 1) 7 4 = 0) &&
    (List.range 31).all (fun i => used.contains (i + 1) || zeroAt r (i + 1) (i + 2))

/-- The byte offsets from `lo` to `hi`. -/
def bytesOf (lo hi : Nat) : List Nat := (List.range (hi + 1 - lo)).map (fun i => lo + i)

/-- An external operand (R473): argument index, offset, and whether bits [63:56] are zero. -/
structure Ext where
  arg : Nat
  off : Nat
  ok : Bool
  deriving DecidableEq, Repr

/-- The external operand at byte `lo` of a step record. -/
def extAt (r : StepRec) (lo : Nat) : Ext := ⟨recNat r lo 1, recNat r (lo + 1) 6, zeroAt r (lo + 7) (lo + 8)⟩

/-- The indices of the set bits among the low `n` of a mask, rising. -/
def maskList (n m : Nat) : List Nat := (List.range n).filter (fun i => bitOf m i)

end Sys2Proof.Machine
end

