-- ==== Sys2Proof/Machine/Rings.lean ====
section
/-! DEFINITION. Rings, doorbells, descriptor fetch, the jobs the ring engine performs, completions,
interrupt coalescing and flush (R425 to R466). -/

namespace Sys2Proof.Machine

/-! ### Doorbells (R430 to R435, R465) -/

/-- A doorbell that is refused (R432). -/
def badDoorbell (s : State) : State := setEvent (incF s HIF_DB_BAD_COUNT) HIF_EVENT_DB_BAD

/-- The four capture frame counts (R413). -/
def frameCounts (s : State) : List W32 := (List.range 4).map (fun n => getReg s (CAP_CH_FRAMES_COUNT n).key)

/-- What the doorbell saw, for each position it presents (R441). -/
def presentAll (s : State) (n : Nat) : Nat → Nat → List Present
  | 0, _ => []
  | m + 1, t => ⟨t % n, frameCounts s, s.writes, false⟩ :: presentAll s n m (t + 1)

/-- An accepted doorbell makes positions `t` to `tail` − 1 available. -/
def acceptTail (s : State) (k head t tail : Nat) : State :=
  let n := sqSize s k
  let c := getCtx s k
  let s := putCtx s k { c with
    sqHead := head, sqTail := tail, presented := c.presented ++ presentAll s n ((tail + n - t) % n) t }
  incF s HIF_DB_WRITES_COUNT

/-- A TAIL presented to context `k`, by the host or by the timetable (R431, R432, R435, R465). The tail is kept as a ring
position, TAIL mod N (DEDUCED, log entry 106). -/
def ringTail (s : State) (k tail : Nat) : State :=
  let c := getCtx s k
  let n := sqSize s k
  if c.flushing then setEvent s HIF_EVENT_DB_FLUSHED
  else if flag s (HIF_CTX_CTL_CYCLIC k) then
    if decide (c.sqHead = c.sqTail) && (jobsOf s k).isEmpty then
      let start := getF s (HIF_CTX_CYC_START k) % n
      acceptTail s k start start (tail % n)
    else setEvent (incF s (HIF_CTX_OVERRUN_COUNT k)) HIF_EVENT_CYC_OVERRUN
  else if (tail % n + n - c.sqTail) % n ≤ (c.sqHead + 2 * n - c.sqTail - 1) % n then acceptTail s k c.sqHead c.sqTail (tail % n)
  else badDoorbell s

/-- A write to the TAIL word of a doorbell page (R430). -/
def tailWrite (s : State) (k : Nat) (be : BitVec 4) (data : W32) : State :=
  if be ≠ 0xF then badDoorbell s else ringTail s k (fieldOf data 11 0)

/-- A write to the HEAD word of a doorbell page (R430, R432, R452). -/
def headWrite (s : State) (k : Nat) (be : BitVec 4) (data : W32) : State :=
  let c := getCtx s k
  let n := cqSize s k
  let h := fieldOf data 11 0
  if be ≠ 0xF then badDoorbell s
  else if flag s (HIF_CTX_CTL_CQ_OVERWRITE k) then s
  else if h < n ∧ (h + n - c.cqHead) % n ≤ (c.cqTail + n - c.cqHead) % n then
    incF (putCtx s k { c with cqHead := h }) HIF_DB_WRITES_COUNT
  else badDoorbell s

/-! ### Descriptor fetch (R433, R436 to R440, R454, R455) -/

/-- A job as it stands right after its fetch. -/
def newJob (k : Nat) (sub : W32) (pos : Nat) (d : Desc) (p : Present) : Job :=
  { ctx := k, sub := sub, pos := pos, desc := d, phase := .queued, status := 0, detail := 0, detailHi := 0,
    unit := 0xFF, num := 0, disturbed := false, poison := [], moorings := 0, errSeq := 0, wrote := false,
    pendingMoors := [], startedAt := 0, progress := 0, run := none, frames := p.frames, writesSeen := p.writes,
    hostWait := none, faultSeq := 0, castWait := none, digestData := [], planned := none, poisonList := none }

/-- R454: there is room in flight for a job of the class. -/
def inFlightRoom (s : State) (k : Nat) (critical : Bool) : Bool :=
  decide ((jobsOf s k).length < 64) && decide (s.jobs.length < 256) &&
    (critical || decide ((s.jobs.filter (fun j => decide (effClass s j ≠ 0))).length < 224))

/-- R440: the VALUE of a WAIT on POS is no position of the submission ring it names. -/
def posBad (s : State) (j : Job) : Bool :=
  match j.desc.body with
  | .wait 1 w v _ => decide (v.toNat ≥ sqSize s w)
  | _ => false

/-- R444: a WAIT that names its own descriptor or a later one of its own ring. -/
def waitsOnSelf (s : State) (j : Job) : Bool :=
  match j.desc.body with
  | .wait 0 w v _ => decide (w = j.ctx) && decide ((v - j.sub).toNat < 2 ^ 31)
  | .wait 1 w v _ =>
    let n := sqSize s j.ctx
    let c := getCtx s j.ctx
    decide (w = j.ctx) && decide ((v.toNat % n + n - j.pos) % n < (c.sqTail + n - j.pos) % n)
  | _ => false

/-- The context fetches now: enabled, not halted, a descriptor available, completion-ring room (R433,
R454, R455, R545). -/
def canFetch (s : State) (k : Nat) : Bool :=
  let c := getCtx s k
  flag s HIF_CTL_EN && flag s (HIF_CTX_CTL_EN k) && !c.stopping && !c.halted &&
    decide (c.sqHead ≠ c.sqTail) && !(fetchStopped s k)

/-- Address of a submission ring's position. -/
def sqVa (s : State) (k pos : Nat) : Nat :=
  getF s (HIF_CTX_SQ_BASE_LO_ADDR k) * 4096 + getF s (HIF_CTX_SQ_BASE_HI_ADDR k) * 2 ^ 32 + 64 * pos

/-- Address of a completion ring's position. -/
def cqVa (s : State) (k pos : Nat) : Nat :=
  getF s (HIF_CTX_CQ_BASE_LO_ADDR k) * 4096 + getF s (HIF_CTX_CQ_BASE_HI_ADDR k) * 2 ^ 32 + 32 * pos

/-- Take the descriptor's 64 bytes into flight. -/
def admitDesc (s : State) (k : Nat) (r : List Byte) : State :=
  let c := getCtx s k
  let p := (c.presented.find? (fun p => decide (p.pos = c.sqHead))).getD ⟨c.sqHead, frameCounts s, s.writes, false⟩
  let j := newJob k c.subseq c.sqHead (parseDesc r) p
  if !(inFlightRoom s k (decide (effClass s j = 0))) then s
  else
    let n := sqSize s k
    let s := putCtx s k { c with
      sqHead := (c.sqHead + 1) % n, subseq := c.subseq + 1,
      presented := c.presented.drop 1 }
    let s := incF { s with jobs := s.jobs ++ [j] } HIF_FETCHED_COUNT
    if c.flushing then endJob s k c.subseq 4 none 0
    else if p.late then endJob s k c.subseq 3 none 0
    else match descBad r with
      | some off => endJob s k c.subseq 6 (some (BitVec.ofNat 32 (0xFFFF0000 + off))) 0
      | none => if posBad s j || waitsOnSelf s j then endJob s k c.subseq 6 (some 0xFFFF001C) 0 else s

/-- Fetch one descriptor. A ring that cannot be read (a fault, an error, or the link down) is tried again by
the next fetch. -/
def fetchDesc (s : State) (k : Nat) : State :=
  if canFetch s k then
    match runOp (readVa none k (sqVa s k (getCtx s k).sqHead) 64 true) s with
    | (.ok r, s') => admitDesc s' k r
    | (.error (.fail ..), s') => s'
    | (.error _, _) => s
  else s

/-- DESCRIPTOR_FETCH. -/
def execDescriptorFetch (k : Fin 8) (s : State) : Answer := whenReady s (fun s => fetchDesc s k)

/-! ### Jobs of the ring engine -/

/-- Start job `sub` of context `k` when it is of the wanted kind, may start and is `ready`, and then do `run`;
a job already running goes on with `run`. A job that needs a function that is off completes DISABLED without
starting (R64). -/
def performWhen (s : State) (k : Nat) (sub : W32) (wants : JobBody → Bool) (ready : Job → Bool) (run : State → Job → State) : State :=
  match findJob s k sub with
  | none => s
  | some j =>
    if !(wants j.desc.body) || (getClk s j.desc.body.unit).stopped then s
    else if j.phase = .running then run s j
    else if mayStart s j then
      if !(commonEnabled s && kindEnabled s j.desc.body) then endJob s k sub 1 none 0
      else if ready j && regionOpen s j.desc.body.unit then
        let s := takeJob s j.desc.body.performer j j.desc.body.unit
        match findJob s k sub with
        | some j => run s j
        | none => s
      else s
    else s

/-- The job is its performer's next (R458). -/
def isTurn (s : State) (j : Job) : Bool :=
  isNext s j.desc.body.performer j (fun x => mayStart s x && decide (x.desc.body.performer = j.desc.body.performer))

/-- `performWhen` for a performer that takes its jobs in the order of R458, when it is `free`. -/
def performJob (s : State) (k : Nat) (sub : W32) (wants : JobBody → Bool) (free : Bool) (run : State → Job → State) : State :=
  performWhen s k sub wants (fun j => free && isTurn s j) run

/-- The body is a NOP. -/
def JobBody.isNop : JobBody → Bool
  | .nop => true
  | _ => false

/-- JOB_NOP (R446). -/
def execJobNop (k : Fin 8) (sub : W32) (s : State) : Answer :=
  whenReady s (fun s => performJob s k sub JobBody.isNop true (fun s _ => endJob s k sub 0 none 0))

/-- JOB_FENCE (R460): it completes once every earlier descriptor of its ring has completed. -/
def execJobFence (k : Fin 8) (sub : W32) (s : State) : Answer :=
  whenReady s (fun s => performJob s k sub JobBody.isFence true (fun s j =>
    if (earlierJobs s j).isEmpty then endJob s k sub 0 none 0 else s))

/-- The body is a WAIT on condition `c`. -/
def JobBody.isWaitOn (c : Nat) : JobBody → Bool
  | .wait c' .. => decide (c' = c)
  | _ => false

/-- Serial comparison: `x` reaches `v` (R441). -/
def reaches (x v : W32) : Bool := decide ((x - v).toNat < 2 ^ 31)

/-- Whether a WAIT's condition holds, and the value observed (R441, R447). -/
def waitState (s : State) (j : Job) : Bool × W32 :=
  match j.desc.body with
  | .wait 0 w v _ => (decide (v.toNat < (getCtx s w).completed), v)
  | .wait 1 w v _ =>
    let x := smGet 0 s.written (w * 4096 + v.toNat)
    (decide (x / 2 ^ 32 > j.writesSeen), BitVec.ofNat 32 (x % 2 ^ 32))
  | .wait 2 n v _ =>
    let f := getReg s (CAP_CH_FRAMES_COUNT n).key
    (decide ((f - j.frames.getD n 0).toNat ≥ v.toNat), f)
  | .wait 3 _ v _ => (reaches s.world.word v, s.world.word)
  | _ => (false, 0)

/-- A WAIT of condition `c`: it starts, and completes OK when its condition holds (R442). -/
def waitJob (s : State) (k : Nat) (sub : W32) (c : Nat) : State :=
  performJob s k sub (JobBody.isWaitOn c) true (fun s j =>
    if (waitState s j).1 then endJob s k sub 0 (some (waitState s j).2) 0 else s)

/-- JOB_WAIT_SEQ. -/
def execJobWaitSeq (k : Fin 8) (sub : W32) (s : State) : Answer := whenReady s (fun s => waitJob s k sub 0)
/-- JOB_WAIT_POS. -/
def execJobWaitPos (k : Fin 8) (sub : W32) (s : State) : Answer := whenReady s (fun s => waitJob s k sub 1)
/-- JOB_WAIT_LANDING. -/
def execJobWaitLanding (k : Fin 8) (sub : W32) (s : State) : Answer := whenReady s (fun s => waitJob s k sub 2)
/-- JOB_WAIT_GEN. -/
def execJobWaitGen (k : Fin 8) (sub : W32) (s : State) : Answer := whenReady s (fun s => waitJob s k sub 3)

/-- JOB_WAIT_TIMEOUT (R443): a started WAIT whose TIMEOUT has elapsed completes LATE. -/
def waitTimeout (s : State) (k : Nat) (sub : W32) : State :=
  match findJob s k sub with
  | some j =>
    match j.desc.body with
    | .wait _ _ _ t =>
      if j.phase = .running ∧ t ≠ 0 ∧ s.now ≥ j.startedAt + 100 * t ∧ !(waitState s j).1 then
        endJob s k sub 3 (some (waitState s j).2) 0
      else s
    | _ => s
  | none => s

/-- JOB_WAIT_TIMEOUT. -/
def execJobWaitTimeout (k : Fin 8) (sub : W32) (s : State) : Answer := whenReady s (fun s => waitTimeout s k sub)

/-! ### Completions (R447 to R453, R456, R460 to R463) -/

/-- Announce: the completion vector of context `k`, which starts a new count (R463). -/
def announce (s : State) (k : Nat) : State :=
  sendMsix (putCtx s k { getCtx s k with irqCount := 0, irqSince := none }) k

/-- R463: count a written completion and announce when its descriptor asks or the COUNT is reached. -/
def countIrq (s : State) (k : Nat) (irq : Bool) : State :=
  let c := getCtx s k
  let n := c.irqCount + 1
  let s := putCtx s k { c with irqCount := n, irqSince := some (c.irqSince.getD s.now) }
  let want := getF s (HIF_CTX_IRQ_COUNT k)
  if irq || (decide (want ≠ 0) && decide (n ≥ want)) then announce s k else s

/-- RECORD-FIRST: a record that affects the job, or that its ERR_SEQ names, still waits (R460, R554). -/
def recordWaits (s : State) (j : Job) : Bool :=
  s.errWait.any (fun e => decide (e.job = some (j.ctx, j.sub)) ||
    (decide (j.errSeq ≠ 0) && decide (recNat e.bytes 4 4 = j.errSeq.toNat))) ||
    (getCtx s j.ctx).faultWait.any (fun f => decide (f.job = some j.sub))

/-- The mirror's bytes for a position (R453). -/
def mirrorAddr (s : State) (k pos : Nat) : Nat :=
  getF s (HIF_CTX_MIRROR_LO_ADDR k) * 4096 + getF s (HIF_CTX_MIRROR_HI_ADDR k) * 2 ^ 32 + 32 * pos

/-- R453: mirror a completion; a write that the link cannot take waits from now. -/
def mirrorCompletion (s : State) (k pos : Nat) (bytes : List Byte) : State :=
  if !(flag s (HIF_CTX_CTL_MIRROR k)) then s
  else if flag s HIF_STAT_LINK_UP then hostWrite s (mirrorAddr s k pos) bytes
  else let c := getCtx s k; putCtx s k { c with mirrorWait := c.mirrorWait ++ [(mirrorAddr s k pos, bytes, s.now)] }

/-- R428, R516: the submission side of a new session: head and tail 0. -/
def resetSubmission (s : State) (k : Nat) : State :=
  putCtx s k { getCtx s k with sqHead := 0, sqTail := 0, presented := [], flushing := false }

/-- R428, R516, R545: the rest of a new session: completion pointers, sequence counter and phases, the fault ring, and
HALTED. -/
def resetSession (s : State) (k : Nat) : State :=
  let c := getCtx s k
  putCtx (setF s (MMU_CTX_STAT_FR_HEAD k) 0) k { Ctx.reset with
    sqHead := c.sqHead, sqTail := c.sqTail, presented := c.presented, flushing := c.flushing,
    irqCount := c.irqCount, irqSince := c.irqSince, mirrorWait := c.mirrorWait }

/-- R464, R466: what ends when the last job of a context has completed: a flush, and the stop of a
context whose EN was cleared (a new session then begins if EN was set meanwhile). -/
def settleCtx (s : State) (k : Nat) : State :=
  let c := getCtx s k
  let idle := (jobsOf s k).isEmpty
  let c1 := if c.flushing && idle && decide (c.sqHead = c.sqTail) then { c with flushing := false } else c
  let s := putCtx s k { c1 with stopping := c1.stopping && !idle }
  if c.stopping && idle && flag s (HIF_CTX_CTL_EN k) then resetSession s k else s

/-- Move the completion ring on by one (R428, R448, R452). -/
def advanceCq (s : State) (k : Nat) : State :=
  let c := getCtx s k
  let n := cqSize s k
  let t := (c.cqTail + 1) % n
  putCtx s k { c with
    cqTail := t, cqPhase := if t = 0 then !c.cqPhase else c.cqPhase, completed := c.completed + 1,
    cqHead := if flag s (HIF_CTX_CTL_CQ_OVERWRITE k) then t else c.cqHead }

/-- R463: US microseconds after the first unannounced completion. -/
def irqTimeout (s : State) (k : Nat) : State :=
  match (getCtx s k).irqSince with
  | some t =>
    let us := getF s (HIF_CTX_IRQ_US k)
    if us ≠ 0 ∧ s.now ≥ t + 100 * us then announce s k else s
  | none => s

/-- IRQ_COALESCE_TIMEOUT. -/
def execIrqCoalesceTimeout (k : Fin 8) (s : State) : Answer := whenReady s (fun s => irqTimeout s k)

/-- A waiting mirror write of a completion is dropped and counted (R453). -/
def loseMirror (s : State) : State := setEvent (incF s HIF_MIRROR_DROP_COUNT) HIF_EVENT_MIRROR_DROP

/-- R453: the oldest waiting mirror write is dropped and counted, 10 µs ± 1 µs after it began to wait. -/
def dropMirror (s : State) (k : Nat) : State :=
  let c := getCtx s k
  match c.mirrorWait with
  | [] => s
  | (_, _, t) :: r =>
    if s.now < t + 900 then s
    else loseMirror (putCtx s k { c with mirrorWait := r })

/-- COMPLETION_MIRROR_DROP. -/
def execCompletionMirrorDrop (k : Fin 8) (s : State) : Answer := whenReady s (fun s => dropMirror s k)

/-! ### Flush, enable, disable (R428, R464, R466) -/

/-- The job has not started. -/
def Job.unstarted (j : Job) : Bool := decide (j.phase = .queued) || decide (j.phase = .held)

/-- Complete every fetched job of context `k` that has not started with a status. -/
def endUnstarted (s : State) (k status : Nat) : State :=
  (jobsOf s k).foldl (fun s j => if j.unstarted then endJob s k j.sub status none 0 else s) s

/-- R464: a write of 1 to HIF_CTXk_CTL.FLUSH. -/
def ctxFlush (s : State) (k : Nat) : State :=
  settleCtx (endUnstarted (putCtx s k { getCtx s k with flushing := true }) k 4) k

/-- R428: EN of context `k` changes to 1. The submission pointers start over at once; a context that still writes DISABLED
completions keeps its completion pointers and its sequence counter until the last of them, and fetches nothing before
(DEDUCED from R466, log entry 106). -/
def ctxEnable (s : State) (k : Nat) : State :=
  if flag s (HIF_CTX_CTL_EN k) then s
  else
    let s := resetSubmission (setF (notePass s (HIF_CTX_CTL_EN k).key) (HIF_CTX_CTL_EN k) 1) k
    if (getCtx s k).stopping then s else resetSession s k

/-- R466: EN of context `k` changes to 0; the jobs it holds complete DISABLED before it stops. -/
def ctxDisable (s : State) (k : Nat) : State :=
  if !(flag s (HIF_CTX_CTL_EN k)) then s
  else
    let s := dropJobs (setF (notePass s (HIF_CTX_CTL_EN k).key) (HIF_CTX_CTL_EN k) 0) (fun j => decide (j.ctx = k))
    let c := getCtx s k
    putCtx s k { c with stopping := !(jobsOf s k).isEmpty, sqTail := c.sqHead, presented := [], flushing := false }

end Sys2Proof.Machine
end

