-- ==== Sys2Proof/Machine/Mooring.lean ====
section
/-! DEFINITION. Moorings: how a job stops and what it saves (R514 to R534), fault records, cast-off
(R535 to R538), who asks for a mooring (R539 to R543), double faults (R544, R545), and the invalidation
of cached translations (R509 to R512). -/

namespace Sys2Proof.Machine

/-! ### Fault records (R514 to R518) -/

/-- Address of the fault ring of context `k`. -/
def frVa (s : State) (k : Nat) : Nat := getF s (MMU_CTX_FR_LO_ADDR k) * 4096 + getF s (MMU_CTX_HI_FR k) * 2 ^ 32

/-- Entries of the fault ring that can be written now (R516). -/
def frFree (s : State) (k : Nat) : Nat := (getF s (MMU_CTX_STAT_FR_HEAD k) + 63 - (getCtx s k).frTail % 64) % 64

/-- DETAIL of a fault record: the step index of a RUN job, the bytes written of a COPY or FILL (R515). -/
def Job.faultDetail (j : Job) : Nat :=
  match j.desc.body with
  | .run .. | .copy .. | .fill .. => j.detailAtEnd
  | _ => 0

/-- The 32 bytes of a fault record, with PHASE 0 (R515). -/
def faultBytes (j : Job) (unit : Nat) (seq : W32) (kind level : Nat) (write walk pinned double : Bool) (va : Nat) : List Byte :=
  natLE 1 kind ++ natLE 1 (b2n write + 2 * b2n walk + 4 * b2n pinned + 8 * b2n double) ++ natLE 1 unit ++ natLE 1 level ++
    natLE 4 j.sub.toNat ++ natLE 4 seq.toNat ++ natLE 4 j.faultDetail ++ natLE 8 (va % 2 ^ 48) ++
    natLE 4 j.desc.tag.toNat ++ natLE 1 (match j.desc.body with | .run .. => 0 | _ => bitsOf j.faultDetail 39 32) ++ zeros 3

/-- A fault record joins those that wait for the fault ring. -/
def queueFault (s : State) (k : Nat) (sub : W32) (bytes : List Byte) : State :=
  let c := getCtx s k
  putCtx s k { c with faultWait := c.faultWait ++ [⟨bytes, some sub⟩] }

/-- R544, R545: a fault in a save, in a restore or on the fault ring. `st` gives the fault's own fields;
a record with DOUBLE is written only when the ring can take one. -/
def doubleFault (s : State) (k : Nat) (sub : W32) (unit : Nat) (st : Stop) (ring : Bool) : State :=
  match findJob s k sub with
  | none => s
  | some j =>
    let (seq, s) :=
      if !ring && decide (frFree s k > (getCtx s k).faultWait.length) then
        match st with
        | .fault kind level write walk pinned va =>
          let (q, s) := takeSeq s
          (q, queueFault s k sub (faultBytes j unit q kind level write walk pinned true va))
        | _ => (0, s)
      else (0, s)
    let s := endJob s k sub 7 none seq
    let s := setEvent (putCtx s k { getCtx s k with halted := true }) MMU_EVENT_DOUBLE
    endUnstarted s k 4

/-! ### Stopping a job -/

/-- R723: an access of the job to host memory is held while the link is down. -/
def holdJob (s : State) (k : Nat) (sub : W32) (addr : Nat) : State :=
  updJob s k sub (fun j => { j with hostWait := some (match j.hostWait with | some (_, t) => (addr, t) | none => (addr, s.now)) })

/-- The mooring is complete: the job is moored, the moorings it satisfies are served, and a fault leaves
its record (R514, R533). -/
def markMoored (s : State) (k : Nat) (sub : W32) (why : MoorWhy) (left : List (MoorWhy × Bool)) (wet : Bool)
    (unit : Nat) (st : Option Stop) : State :=
  let s := updJob s k sub (fun j => { j with
    phase := .moored why, moorings := j.moorings + 1, pendingMoors := left, hostWait := none, castWait := none, faultSeq := 0 })
  let s := if why = .fault ∨ why = .moorJob then resolveMoors s k sub (b2n wet) else s
  match st, findJob s k sub with
  | some (.fault kind level write walk pinned va), some j =>
    let (q, s) := takeSeq s
    updJob (queueFault s k sub (faultBytes j unit q kind level write walk pinned false va)) k sub (fun j => { j with faultSeq := q })
  | _, _ => s

/-- A mooring of a job that holds no calderas: it is dry and saves nothing (R532, R540). -/
def moorPlain (s : State) (k : Nat) (sub : W32) (unit : Nat) (why : MoorWhy) (st : Option Stop) : State :=
  markMoored s k sub why [] false unit st

/-- The save area of a job: its address and log2 of its size (R524). -/
def saveArea (s : State) (k : Nat) (sub : W32) : Nat × Nat :=
  let l := getF s (MMU_CTX_SAVE_LO_SAVE_LOG2 k)
  let l := if l < 16 then 16 else if l > 23 then 23 else l
  ((getF s (MMU_CTX_SAVE_LO_ADDR k) * 2 ^ 16 + getF s (MMU_CTX_HI_SAVE k) * 2 ^ 32 + (sub.toNat % 64) * 2 ^ l) % 2 ^ 48, l)

/-- The declared slots that are live, in the order of their records (R523, R525). -/
def liveSlots (x : Core) (d : Decl) : List (Nat × Bool × Nat) :=
  (maskList 4 d.arrays).flatMap (fun a => [false, true].flatMap (fun e =>
    ((List.range d.slots).filter (slotLive x a e)).map (fun i => (a, e, i))))

/-- The declared row calderas that are live (R523). -/
def liveRows (x : Core) (d : Decl) : List Nat :=
  (List.range d.rowcal).filter (fun r => decide ((smGet RowCal.empty x.rowcals r).count ≠ 0))

/-- A caldera's side word (R526). -/
def sideWord (c : Cell) : Nat := c.rho % 4096 + 2 ^ 12 * b2n c.nar + 2 ^ 13 * b2n c.pinf + 2 ^ 14 * b2n c.ninf + 2 ^ 15 * b2n c.ovf

/-- A slot record (R526). -/
def slotRecord (l : List Cell) : List Byte := l.flatMap (fun c => natLE 80 c.c.toNat) ++ l.flatMap (fun c => natLE 2 (sideWord c))

/-- The calderas a slot record spells. -/
def slotOfRecord (n : Nat) (b : List Byte) : List Cell :=
  (List.range n).map (fun i =>
    let w := recNat b (80 * n + 2 * i) 2
    ⟨BitVec.ofNat 640 (recNat b (80 * i) 80), w % 4096, bitOf w 12, bitOf w 13, bitOf w 14, bitOf w 15⟩)

/-- The first 64 bytes of a save area (R525). -/
def saveHeader (sub : W32) (live : List (Nat × Bool × Nat)) (wet : Bool) : List Byte :=
  let count (e : Bool) := live.countP (fun p => decide (p.2.1 = e))
  let map (lo : Nat) := live.foldl (fun m p =>
    if lo ≤ p.1 ∧ p.1 < lo + 2 then m + 2 ^ (64 * (p.1 - lo) + 32 * b2n p.2.1 + p.2.2) else m) 0
  natLE 4 0x4D4F4F52 ++ natLE 4 sub.toNat ++ natLE 1 (b2n wet) ++ zeros 3 ++ natLE 4 (count false) ++ natLE 4 (count true) ++
    zeros 4 ++ natLE 16 (map 0) ++ natLE 16 (map 2) ++ zeros 8

/-- Bytes of a save (R528). -/
def wetSize (live : List (Nat × Bool × Nat)) : Nat :=
  65536 + (live.map (fun p => if p.2.1 then 10496 else 41984)).foldl (· + ·) 0

/-- The first residue mismatch of a wet save among its live slots, in the order of their records (R527): the error's
record and the state after it. -/
def saveCheck (s : State) (c : Nat) (who : Nat × W32) (live : List (Nat × Bool × Nat)) : Option (W32 × State) :=
  let x := getCore s c
  let bad := live.filterMap (fun (a, e, i) =>
    (findIdxFrom (fun y => !(Cell.residueOk y)) (slotCells x a e i) 0).map (fun p => (a, e, i, p.1)))
  bad.head?.map (fun (a, e, i, col) => residueError s c who col i a e)

/-- What a core holds for its running job. -/
def savedCore (x : Core) (wet : Bool) : SavedCore := ⟨x.planes, x.tables, x.slots, x.rowcals, x.shadowFull, x.queue, x.time, wet⟩

/-- R523 to R531: moor the RUN job that runs on its core. `left` is what stays pending. -/
def moorRun (s : State) (j : Job) (r : RunState) (why : MoorWhy) (left : List (MoorWhy × Bool)) (st : Option Stop) : State :=
  let k := j.ctx
  let d := r.image.decl
  let x := getCore s r.core
  let live := liveSlots x d
  let rows := liveRows x d
  let wet := !(live.isEmpty && rows.isEmpty)
  let (va, log2) := saveArea s k j.sub
  if wet ∧ (wetSize live > d.wetBytes ∨ wetSize live > 2 ^ log2) then
    setEvent (endJob s k j.sub 6 (some 0xFFFD0001) 0) MMU_EVENT_SIZE_BAD
  else
    match if wet then saveCheck s r.core (k, j.sub) live else none with
    | some (q, s) => endJob s k j.sub 8 none q
    | none =>
      let bytes := saveHeader j.sub live wet ++ (List.range 65472).map (fun i => Config.saveByte k j.sub (64 + i)) ++
        live.flatMap (fun (a, e, i) => slotRecord (slotCells x a e i))
      match runOp (writeVa (some (k, j.sub)) k va bytes true false (0, 0)) s with
      | (.error (.hold a), s') => holdJob s' k j.sub a
      | (.error (.fail status _ q), s') => endJob s' k j.sub status none q
      | (.error f, s') => doubleFault s' k j.sub r.core f false
      | (.ok _, s') =>
        let s' := if wet then incF s' MMU_WET_COUNT else s'
        let x := getCore s' r.core
        let mine (p : Nat × W32) := decide (p.1 = k) && decide (p.2 = j.sub)
        let s' := putCore s' r.core { clearCore x with
          running := none,
          resident := if why = .quantum then x.resident.filter (fun p => !(mine p)) ++ x.resident.filter mine else x.resident }
        let s' := updJob s' k j.sub (fun y => { y with run := some { r with saved := some (savedCore x wet), block := none } })
        markMoored s' k j.sub why left wet r.core st

/-- A unit of the job faults: it moors at its restartable point (R514, R521), and the fault mooring
satisfies every pending one (R540). -/
def faultMoor (s : State) (j : Job) (st : Stop) : State :=
  match j.run with
  | some r => moorRun s j r .fault [] (some st)
  | none => moorPlain s j.ctx j.sub j.desc.body.unit .fault (some st)

/-- The job's work stopped before its end. -/
def stopJob (s : State) (k : Nat) (sub : W32) (st : Stop) : State :=
  match findJob s k sub with
  | none => s
  | some j =>
    match st with
    | .fault .. => faultMoor s j st
    | .fail status detail q => endJob s k sub status detail q
    | .hold a => holdJob s k sub a

/-! ### FAULT_RECORD_WRITE -/

/-- Give a fault record its PHASE. -/
def withPhase (b : List Byte) (at_ : Nat) (phase : Bool) : List Byte := setAt b at_ (BitVec.ofNat 8 (recNat b at_ 1 + 128 * b2n phase))

/-- A done job whose poison list could not be written is moored (R514): `poisonList` says so, and a cast-off tries the
list again. -/
def Job.listMoored (j : Job) : Bool := j.isMoored && j.poisonList.isSome

/-- The job is no longer moored and goes on at its restartable point (R536): a RUN job takes its core and
reads its slots back; a fault there is a double fault. A job held before its start may start. -/
def resumeJob (s : State) (j : Job) : State :=
  let k := j.ctx
  if j.listMoored then updJob s k j.sub (fun y => { y with phase := .done, poisonList := none, hostWait := none })
  else match j.phase, j.run with
  | .held, _ => updJob s k j.sub (fun y => { y with phase := .queued })
  | _, some r =>
    match r.saved with
    | none => s
    | some v =>
      let x := getCore s r.core
      let live := (liveSlots { x with slots := v.slots } r.image.decl)
      let (va, _) := saveArea s k j.sub
      let size (e : Bool) := if e then 10496 else 41984
      let offs := live.foldl (fun (p : Nat × List (Nat × Bool × Nat × Nat)) q => (p.1 + size q.2.1, p.2 ++ [(q.1, q.2.1, q.2.2, p.1)])) (65536, [])
      let read := gatherOp (fun (q : Nat × Bool × Nat × Nat) => do
        let b ← readVa (some (k, j.sub)) k (va + q.2.2.2) (size q.2.1) true
        pure (slotKey q.1 q.2.1 q.2.2.1, slotOfRecord (edgeWidth q.2.1) b)) offs.2
      match runOp read s with
      | (.error (.hold a), s') => holdJob s' k j.sub a
      | (.error (.fail status _ q), s') => endJob s' k j.sub status none q
      | (.error f, s') => doubleFault s' k j.sub r.core f false
      | (.ok slots, s') =>
        let s' := putCore s' r.core { getCore s' r.core with
          running := some (k, j.sub), planes := v.planes, tables := v.tables, rowcals := v.rowcals, shadowFull := v.shadowFull,
          queue := v.queue, time := v.time, slots := slots.foldl (fun m p => smPut [] m p.1 p.2) [] }
        updJob s' k j.sub (fun y => { y with
          phase := .running, hostWait := none, run := some { r with saved := none, block := none, ranSince := s.now } })
  | _, none =>
    let started := decide (j.unit ≠ 0xFF)
    updJob s k j.sub (fun y => { y with phase := if started then .running else .queued, hostWait := none })

/-- The unit a moored job needs is free to it: its core runs no job and no test waits for it (R538,
R543). -/
def unitFree (s : State) (j : Job) : Bool :=
  let unit := match j.run with
    | some r => r.core
    | none => j.unit
  !(s.jobs.any (fun t => match t.desc.body with
    | .test _ u .. => decide (u = unit) && decide (t.phase = .running)
    | _ => false)) &&
  match j.run with
  | some r => (getCore s r.core).running.isNone
  | none => true

/-- Cast off with RETRY, or complete with ABORT (R536, R537). A RETRY whose unit serves another job
waits for it as R538 states. -/
def castJob (s : State) (j : Job) (abort : Bool) : State :=
  if abort then endJob s j.ctx j.sub 6 none j.faultSeq
  else if j.listMoored || unitFree s j then resumeJob s j
  else updJob s j.ctx j.sub (fun y => { y with phase := .moored .preempt })

/-- R514, R516: the oldest waiting fault record of context `k` is written when the ring has room; then
vector 8 + k is sent, and a cast-off that waited for the record acts. -/
def faultRecordWrite (s : State) (k : Nat) : State :=
  let c := getCtx s k
  match c.faultWait with
  | [] => s
  | f :: rest =>
    if frFree s k = 0 then s
    else
      match runOp (writeVa none k (frVa s k + 32 * c.frTail) (withPhase f.bytes 1 c.frPhase) true false (0, 0)) s with
      | (.error (.hold _), _) => s
      | (.error st, s') =>
        let s' := putCtx s' k { getCtx s' k with faultWait := rest }
        match f.job, st with
        | some sub, .fail status _ q => endJob s' k sub status none q
        | some sub, _ => doubleFault s' k sub 0 st true
        | none, _ => s'
      | (.ok _, s') =>
        let t := (c.frTail + 1) % 64
        let s' := putCtx s' k { getCtx s' k with
          faultWait := rest, frTail := t, frPhase := if t = 0 then !c.frPhase else c.frPhase }
        let s' := sendMsix (setEvent (incF s' MMU_FAULTS_COUNT) MMU_EVENT_FAULT) (8 + k)
        match f.job with
        | none => s'
        | some sub =>
          match findJob s' k sub with
          | some j =>
            match j.castWait, j.isMoored with
            | some abort, true => castJob (updJob s' k sub (fun y => { y with castWait := none })) { j with castWait := none } abort
            | _, _ => s'
          | none => s'

/-- FAULT_RECORD_WRITE. -/
def execFaultRecordWrite (k : Fin 8) (s : State) : Answer := whenReadyMem s (fun s => faultRecordWrite s k)

/-! ### Completions (R447 to R450, R456, R460, R461) -/

/-- R450, R460: the poison list of a job that is done is written into its report area. While the link keeps it from the host
it waits (R723); a fault moors the job (R514); an area that answers with an error keeps the list from being written. -/
def writeList (s : State) (j : Job) : State :=
  if !j.isDone || j.settled then s
  else
    let set (s : State) (b : Bool) := updJob s j.ctx j.sub (fun y => { y with poisonList := some b })
    match runOp (writeVa none j.ctx (j.desc.report + 128) ((j.ranges.take 32).flatMap (fun r => natLE 8 (rangeWord r))) false false (0, 0)) s with
    | (.ok _, s') => set s' true
    | (.error (.hold _), _) => s
    | (.error (.fail ..), s') => set s' false
    | (.error st, s') => moorPlain (set s' false) j.ctx j.sub j.unit .fault (some st)

/-- COMPLETION_WRITE (R460): the poison lists of done jobs are written; then, when the oldest job in flight of the context
is done, its results are visible and no record of it waits, its completion is written, in its slot, with its PHASE. -/
def completeOldest (s : State) (k : Nat) : State :=
  let s := (jobsOf s k).foldl writeList s
  match jobsOf s k with
  | [] => s
  | j :: _ =>
    if !j.settled || recordWaits s j then s
    else
      let c := getCtx s k
      let bytes := completionBytes j c.cqPhase
      match runOp (writeVa none k (cqVa s k c.cqTail) bytes true false (0, 0)) s with
      | (.error (.fail ..), s2) => s2
      | (.error _, _) => s
      | (.ok _, s2) =>
        let s2 := mirrorCompletion s2 k c.cqTail bytes
        let n := s2.writes + 1
        let s2 := { s2 with
          writes := n, written := smPut 0 s2.written (k * 4096 + j.pos) (n * 2 ^ 32 + j.sub.toNat),
          jobs := s2.jobs.filter (fun x => !(x.is k j.sub)) }
        let s2 := incF (advanceCq s2 k) HIF_COMPLETED_COUNT
        settleCtx (countIrq s2 k j.desc.irq) k

/-- COMPLETION_WRITE. -/
def execCompletionWrite (k : Fin 8) (s : State) : Answer := whenReadyMem s (fun s => completeOldest s k)

/-! ### Cast-off -/

/-- Moored by a fault or by a MOOR descriptor, or held by one (R535). -/
def Job.byDriver (j : Job) : Bool :=
  decide (j.phase = .moored .fault) || decide (j.phase = .moored .moorJob) || decide (j.phase = .held)

/-- R535: a write to MMU_CAST_CMD with RETRY or ABORT for context `k`. -/
def castCmd (s : State) (k : Nat) (abort : Bool) : State :=
  let sub := BitVec.ofNat 32 (getF s MMU_CAST_SUBSEQ_SUBSEQ)
  match findJob s k sub with
  | some j =>
    if !j.byDriver then setEvent s MMU_EVENT_CAST_BAD
    else if (getCtx s k).faultWait.any (fun f => decide (f.job = some sub)) then
      updJob s k sub (fun y => { y with castWait := some abort })
    else castJob s j abort
  | none => setEvent s MMU_EVENT_CAST_BAD

/-- Moored by the quantum, by a pre-emption or by a test (R538). -/
def Job.bySlice (j : Job) : Bool :=
  decide (j.phase = .moored .quantum) || decide (j.phase = .moored .preempt) || decide (j.phase = .moored .test)

/-- A resident RUN job waits for its turn on its core: not yet begun, or moored by a slice. -/
def waitsTurn (s : State) (c : Nat) (p : Nat × W32) : Bool :=
  match findJob s p.1 p.2 with
  | some j => decide ((getCore s c).running ≠ some p) && (decide (j.phase = .running) || j.bySlice)
  | none => false

/-- The resident job of core `c` whose turn is next: CRITICAL first, then the order of residence, which is
the order of admission with each job sliced off put last (R486, R541, R542). -/
def nextTurn (s : State) (c : Nat) : Option (Nat × W32) :=
  let w := (getCore s c).resident.filter (waitsTurn s c)
  match w.find? (fun p => match findJob s p.1 p.2 with | some j => decide (effClass s j = 0) | none => false) with
  | some p => some p
  | none => w.head?

/-- CAST_OFF_AUTO (R538). -/
def castOffAuto (s : State) (k : Nat) (sub : W32) : State :=
  match findJob s k sub with
  | some j =>
    let turn := match j.run with
      | some r => decide (nextTurn s r.core = some (k, sub))
      | none => true
    if j.bySlice && unitFree s j && turn then resumeJob s j else s
  | none => s

/-- CAST_OFF_AUTO. -/
def execCastOffAuto (k : Fin 8) (sub : W32) (s : State) : Answer := whenReadyMem s (fun s => castOffAuto s k sub)

/-! ### Requested moorings -/

/-- A mooring becomes pending on a job. -/
def requestMoor (s : State) (k : Nat) (sub : W32) (why : MoorWhy) (dryOnly : Bool) : State :=
  updJob s k sub (fun j => if j.pendingMoors.contains (why, dryOnly) then j else { j with pendingMoors := j.pendingMoors ++ [(why, dryOnly)] })

/-- R541: the running job of core `c` has run its quantum while another resident job waits. -/
def quantumExpiry (s : State) (c : Nat) : State :=
  let x := getCore s c
  match x.running with
  | none => s
  | some (k, sub) =>
    match findJob s k sub with
    | some j =>
      match j.run with
      | some r =>
        let q := getF s (HIF_CTX_QUANTUM_US k)
        let q := if q = 0 then 1 else q
        if flag s (HIF_CTX_CTL_ADMIT k) && decide (s.now ≥ r.ranSince + 100 * q) && x.resident.any (waitsTurn s c) then
          requestMoor s k sub .quantum false
        else s
      | none => s
    | none => s

/-- QUANTUM_EXPIRY. -/
def execQuantumExpiry (c : Fin 4) (s : State) : Answer := whenReady s (fun s => quantumExpiry s c)

/-- R539, R540: what a MOOR job does to its target, once it has started. -/
def moorTarget (s : State) (k : Nat) (sub : W32) (m : Job) : State :=
  match m.desc.body with
  | .moor t x dryOnly =>
    let done (s : State) (d : Nat) := endJob s k sub 0 (some (BitVec.ofNat 32 d)) 0
    match findJob s t x with
    | none => done s 2
    | some j =>
      let s := if j.unit = 0xFF then s else updJob s k sub (fun y => { y with unit := j.unit })
      if j.desc.body.neverMoors then done s 3
      else if j.isDone then done s 2
      else match j.phase with
        | .held => done s 0
        | .queued => done (updJob s t x (fun y => { y with phase := .held, moorings := y.moorings + 1 })) 0
        | .moored _ =>
          let wet := match j.run with
            | some r => match r.saved with | some v => v.wet | none => false
            | none => false
          done (if j.byDriver then s else updJob s t x (fun y => { y with phase := .moored .moorJob })) (b2n wet)
        | _ => requestMoor s t x .moorJob (dryOnly && j.run.isSome)
  | _ => s

/-- JOB_MOOR. -/
def execJobMoor (k : Fin 8) (sub : W32) (s : State) : Answer :=
  whenReady s (fun s => performJob s k sub JobBody.isMoor true (fun s j => moorTarget s k sub j))

/-- A restartable point of a job other than a RUN: a pending mooring takes place there (R539). -/
def pointMoor (s : State) (j : Job) : Option State :=
  match j.pendingMoors with
  | [] => none
  | l => some (moorPlain s j.ctx j.sub j.unit (if l.any (fun p => decide (p.1 = .moorJob)) then .moorJob else .test) none)

/-! ### Cached translations (R509 to R512) -/

/-- R482, R511: the verified images of context `k` that a leaf entry overlapping a range of virtual addresses covers go. -/
def dropImagesVa (s : State) (k va n : Nat) : State :=
  { s with images := s.images.filter (fun c =>
      !(decide (c.ctx = k) && c.leaves.any (fun l => decide (va < l.1 + l.2) && decide (l.1 < va + n)))) }

/-- R511: MMU_INV_CTL.GO. The model keeps no cached translation (R509 lets a unit keep some), so BUSY
clears at once; verified images that the range covers become invalid. -/
def mmuInvalidate (s : State) : State :=
  let k := getF s MMU_INV_CTL_CONTEXT
  let va := getF s MMU_INV_VA_LO_VA * 4096 + getF s MMU_INV_VA_HI_VA * 2 ^ 32
  match getF s MMU_INV_CTL_SIZE with
  | 0 => dropImagesVa s k (va / 2 ^ 12 * 2 ^ 12) (2 ^ 12)
  | 1 => dropImagesVa s k (va / 2 ^ 21 * 2 ^ 21) (2 ^ 21)
  | 2 => dropImagesVa s k (va / 2 ^ 30 * 2 ^ 30) (2 ^ 30)
  | _ => { s with images := s.images.filter (fun c => decide (c.ctx ≠ k)) }

/-- R510, R62: a write of a root register that changes it drops the jobs of context `k` (a DROP field)
and removes the context's cached entries. -/
def mmuRootWrite (s : State) (k : Nat) (high : Bool) (data : W32) : State :=
  let key := if high then (MMU_CTX_ROOT_HI_ADDR k).key else (MMU_CTX_ROOT_LO_ADDR k).key
  let w := if high then data else data &&& 0xFFFFF001
  if getReg s key = w then s
  else
    let s := putReg (dropJobs (notePass s key) (fun j => decide (j.ctx = k))) key w
    { s with images := s.images.filter (fun c => decide (c.ctx ≠ k)) }

end Sys2Proof.Machine
end

