-- ==== Sys2Proof/Machine/World.lean ====
section
/-! DEFINITION. The world model: bricks, generations, residency and the merge of a WORLD job (R295 to
R319). -/

namespace Sys2Proof.Machine

/-- Leaf edge in millimetres (R295). -/
def leafMm (s : State) : Nat := 2 ^ getF s WLD_CTL_LEAF

/-- The clock mode is Timed (R587). -/
def timedMode (s : State) : Bool := decide (getF s CLK_CTL_MODE = 0)

/-- WLD_PIN_STAT.PINNED follows whether pinning is in effect (R318). -/
def repin (s : State) : State := { s with world := { s.world with pinned := pinning s } }

/-! ### Nodes of the tree (R295, R296, R298, R299) -/

/-- A node of the tree by its level and its number along each axis (R296). -/
structure Node where
  level : Nat
  x : Nat
  y : Nat
  z : Nat
  deriving DecidableEq, Repr

/-- Leaves along an edge of a node (R296). -/
def Node.edge (n : Node) : Nat := 2 ^ (12 - n.level)

/-- Brick `b`, the number bx + 512 by + 512² bz, as the node of level 9 that it is (R296). -/
def brickNode (b : Nat) : Node := ⟨9, b % 512, b / 512 % 512, b / 512 / 512⟩

/-- The node of level `l` that holds node `n`, at or below that level. -/
def Node.above (n : Node) (l : Nat) : Node :=
  let d := 2 ^ (n.level - l)
  ⟨l, n.x / d, n.y / d, n.z / d⟩

/-- Origin of the cube (R295). -/
def worldOrigin (s : State) : List W32 := (List.range 3).map (fun i => getReg s (WLD_ORIGIN_MM i).key)

/-- A node's cube in world millimetres: its lowest corner and the length of its edge (R295, R296). -/
def Node.cube (s : State) (n : Node) : List Q × Q :=
  let e := qInt (n.edge * leafMm s : Nat)
  (List.zipWith (fun o i => qAdd (f32 o).q (qMul (qInt (i : Nat)) e)) (worldOrigin s) [n.x, n.y, n.z], e)

/-- WLD_UNKNOWN as a leaf word; a NaR is taken as 0 mm, as a NaR leaf is stored (DEDUCED, log entry 63). -/
def unknownWord (s : State) : Nat :=
  match decodeTp 16 (getF s WLD_UNKNOWN_VALUE) with
  | .fin _ => getF s WLD_UNKNOWN_VALUE
  | _ => 0

/-- A brick of the world. -/
def getBrick (w : World) (n : Nat) : Brick := smGet Brick.absent w.bricks n

/-- The smaller of two leaf words by their values (R305). -/
def minLeaf (a b : Nat) : Nat := if qLe (decodeTp 16 a).q (decodeTp 16 b).q then a else b

/-- R299: the floor of a node of levels 0 to 9 in generation `g`: the least of the leaf values beneath it, absent leaves
included. A floor follows from the leaves and WLD_UNKNOWN, so State holds no second copy of it. -/
def nodeFloor (s : State) (g : Nat) (n : Node) : Nat :=
  let beneath := s.world.bricks.filterMap (fun p =>
    if (brickNode p.1).above n.level = n then (p.2.at g) else none)
  let known := beneath.map (fun l => (l.drop 1).foldl minLeaf (l.getD 0 0))
  let all := if beneath.length < (2 ^ (9 - n.level)) ^ 3 then unknownWord s :: known else known
  (all.drop 1).foldl minLeaf (all.getD 0 0)

/-! ### The planner store and the homes of bricks (R270, R315) -/

/-- The granule of the planner store that holds granule `i` of a thing of kind `kind`: 0 hot-brick slots, 1 setpoint
queues, 2 roadmap nodes, 3 roadmap edges, 4 live paths. The spec gives the store no layout: it is free. -/
def storeGranule (kind i : Nat) : Nat := storeBase + Config.storeCell kind i % (storeSize / 8) * 8

/-- PLAN writes `n` whole granules of the planner store (R273). -/
def storePut (s : State) (kind i n : Nat) : State :=
  (List.range n).foldl (fun s k =>
    let g := storeGranule kind (i + k)
    (granuleWrite s none g (rawRead s g 8)).2) s

/-- PLAN reads `n` granules of the planner store for a job (R271, R272, R550). -/
def storeTake (who : Option (Nat × W32)) (kind i n : Nat) : Op Unit :=
  eachOp (fun k => do
    let s ← get
    let (q, s) := eccRead s who (storeGranule kind (i + k))
    set s
    match q with
    | some q => failWith 9 none q
    | none => pure ()) (List.range n)

/-- The HBM burst that holds burst `i` of a brick's home (R315); where a home lies is free. -/
def homeBurst (n i : Nat) : Nat := Config.brickHome n i % (0x800000000 / 32) * 32

/-- Read a brick's copy from its home, 32 bursts (R315, R316). -/
def homeTake (who : Option (Nat × W32)) (n : Nat) : Op Unit :=
  eachOp (fun i => do let _ ← readDev who (homeBurst n i) 32) (List.range 32)

/-- Write a brick's copy to its home (R315). -/
def homePut (s : State) (n : Nat) : State :=
  (List.range 32).foldl (fun s i =>
    (List.range 4).foldl (fun s k =>
      let g := homeBurst n i + 8 * k
      (granuleWrite s none g (rawRead s g 8)).2) s) s

/-! ### Slots (R315 to R319) -/

/-- Make room for one more hot brick: the least recently used unpinned one leaves (R316). -/
def evictBrick (s : State) : State :=
  if s.world.slots.length < 20480 then s
  else
    match s.world.slots.find? (fun n => !(isPinned s n)) with
    | some v => incF { s with world := { s.world with slots := natErase v s.world.slots } } WLD_EVICT_COUNT
    | none => s

/-- A query or merge of a job reaches a present brick: one with no slot is fetched from its home in HBM (R316, R319). -/
def reachBrick (who : Option (Nat × W32)) (n : Nat) : Op Unit := do
  let s ← get
  if s.world.slots.contains n then
    set { s with world := { s.world with slots := natErase n s.world.slots ++ [n] } }
    storeTake who 0 (128 * n) 128
  else
    homeTake who n
    let s ← get
    let s := if timedMode s then incF s WLD_PIN_MISS_COUNT else s
    let s := evictBrick s
    set (storePut { s with world := { s.world with slots := s.world.slots ++ [n] } } 0 (128 * n) 128)

/-- A new copy goes to a slot and to the brick's home (R315). -/
def placeBrick (s : State) (n : Nat) : State :=
  let s := if s.world.slots.contains n then s else evictBrick s
  homePut (storePut { s with world := { s.world with slots := natErase n s.world.slots ++ [n] } } 0 (128 * n) 128) n

/-! ### Generations (R311 to R314) -/

/-- Write a brick's new content of generation `g` into the copy with the lower tag (R312). -/
def Brick.write (b : Brick) (g : Nat) (leaves : Option (List Nat)) : Brick :=
  if b.b.tag ≤ b.a.tag then { b with b := ⟨g, leaves⟩ } else { b with a := ⟨g, leaves⟩ }

/-- Commit one generation: `changes` gives each brick's new content (R308, R312, R313). -/
def commitWorld (s : State) (changes : SMap (Option (Option (List Nat)))) (all : Bool) : State :=
  let gen := s.world.gen + 1
  let ch := changes.filterMap (fun p => p.2.map (fun l => (p.1, l)))
  let dirty := (ch.filter (fun p => decide ((getBrick s.world p.1).current ≠ p.2))).map Prod.fst
  let w := { s.world with
    gen := gen
    bricks := ch.foldl (fun m p => smPut Brick.absent m p.1 ((smGet Brick.absent m p.1).write gen p.2)) s.world.bricks
    dirty := ((gen, if all then none else some dirty) :: s.world.dirty).take 8
    slots := s.world.slots.filter (fun n => !(ch.any (fun p => decide (p.1 = n) && p.2.isNone))) }
  repin (ch.foldl (fun s p => if p.2.isSome then placeBrick s p.1 else s) { s with world := w })

/-- R314: a change of LEAF or of the origin makes every brick absent in one new generation. -/
def clearWorld (s : State) : State :=
  let changes := (presentBricks s.world).foldl (fun m n => smPut none m n (some none)) []
  setEvent (commitWorld s changes true) WLD_EVENT_DIRTY_ALL

/-! ### The merge (R304 to R310) -/

/-- R306: a leaf as it is stored, and whether it was NaR. -/
def storedLeaf (h w : Nat) : Nat × Bool :=
  let lim := (encodeTp 16 (qInt (128 * h : Nat))).1
  match decodeTp 16 w with
  | .fin q => if qLt (qInt (128 * h : Nat)) (qAbs q) then (if q.num < 0 then 2 ^ 16 - lim else lim, false) else (w, false)
  | .zero _ => (w, false)
  | _ => (0, true)

/-- What a merge has built so far: the new content of bricks, and how many bricks are present. -/
structure Merge where
  changes : SMap (Option (Option (List Nat)))
  present : Nat
  deriving DecidableEq, Repr

/-- A brick's content as the merge sees it. -/
def Merge.content (m : Merge) (s : State) (n : Nat) : Option (List Nat) :=
  match smGet none m.changes n with
  | some l => l
  | none => (getBrick s.world n).current

/-- R305 to R307: one record of a job. A record that reaches a present brick fetches it first (R316). -/
def mergeRecord (who : Option (Nat × W32)) (m : Merge) (r : List Byte) : Op Merge := do
  let n := recNat r 0 2 % 512 + 512 * (recNat r 2 2 % 512) + 512 * 512 * (recNat r 4 2 % 512)
  let mode := recNat r 6 1
  let s ← get
  let old := m.content s n
  if mode > 2 then
    modify (fun s => setEvent s WLD_EVENT_BAD_RECORD)
    pure m
  else
  if (smGet none m.changes n).isNone && old.isSome then reachBrick who n
  if mode = 2 then pure ⟨smPut none m.changes n (some none), m.present - b2n old.isSome⟩
  else
    if !(flag s BSN_CTL_HBM_EN) then failWith 1 none 0
    if old.isNone && decide (m.present ≥ 262144) then
      modify (fun s => setEvent s WLD_EVENT_BRICK_FULL)
      pure m
    else
      let stored := (List.range 512).map (fun i => storedLeaf (leafMm s) (recNat r (16 + 2 * i) 2))
      let nars := stored.countP Prod.snd
      if nars > 0 then modify (fun s => setEvent (addF s WLD_NAR_LEAVES_COUNT nars) WLD_EVENT_NAR_LEAF)
      let new := stored.map Prod.fst
      let leaves := match old, decide (mode = 1) with
        | some l, true => List.zipWith minLeaf l new
        | _, _ => new
      modify (fun s => incF s WLD_MERGED_COUNT)
      pure ⟨smPut none m.changes n (some (some leaves)), m.present + b2n old.isNone⟩

/-- The records of a list in order (R305). -/
def mergeRecords (who : Option (Nat × W32)) (k : Nat) : Nat → Nat → Merge → Op Merge
  | 0, _, m => pure m
  | n + 1, va, m => do
    let r ← readVa who k va 1040 false
    let m ← mergeRecord who m r
    mergeRecords who k n (va + 1040) m

/-- A WORLD job at work. What it does before its commit touches no brick and no generation (R309), so a job
that restarts begins anew (R522). -/
def worldWork (s : State) (j : Job) : State :=
  match pointMoor s j, j.desc.body with
  | some s, _ => s
  | none, .world list count =>
    match runOp (mergeRecords (some (j.ctx, j.sub)) j.ctx count list ⟨[], (presentBricks s.world).length⟩) s with
    | (.ok m, s') =>
      let s' := commitWorld s' m.changes false
      endJob s' j.ctx j.sub 0 (some s'.world.word) 0
    | (.error st, s') => stopJob { s' with world := { s'.world with slots := s.world.slots } } j.ctx j.sub st
  | none, _ => s

/-- The body is a WORLD. -/
def JobBody.isWorld : JobBody → Bool
  | .world .. => true
  | _ => false

/-- The world unit is free (R310): a moored job keeps it. -/
def worldFree (s : State) : Bool := !(s.jobs.any (fun j => j.desc.body.isWorld && j.isHeld))

/-- Perform a WORLD job. -/
def worldJob (s : State) (k : Nat) (sub : W32) : State := performJob s k sub JobBody.isWorld (worldFree s) worldWork

/-- JOB_WORLD. -/
def execJobWorld (k : Fin 8) (sub : W32) (s : State) : Answer := whenReadyMem s (fun s => worldJob s k sub)

/-- The WORLD job whose merge may begin or go on now: the first admitted that is not done (R310). -/
def nextWorld (s : State) : Option Job :=
  s.jobs.find? (fun j => j.desc.body.isWorld && !j.isDone && (decide (j.phase = .running) || (mayStart s j && worldFree s)))

end Sys2Proof.Machine
end

