-- ==== Sys2Proof/Machine/Collide.lean ====
section
/-! DEFINITION. Chains, kinematics and the swept-volume check (R300 to R303, R320 to R329, R332 to R334). -/

namespace Sys2Proof.Machine

/-! ### Chain descriptions (R332) -/

/-- An FP32 word of a record. -/
def wordAt (b : List Byte) (o : Nat) : W32 := BitVec.ofNat 32 (recNat b o 4)

/-- JOINTS. -/
def chainJoints (b : List Byte) : Nat := recNat b 0 1
/-- CAPSULES. -/
def chainCapsules (b : List Byte) : Nat := recNat b 1 1

/-- A field of joint `j`, by its byte in the joint's record. -/
def jointWord (b : List Byte) (j o : Nat) : W32 := wordAt b (64 + 64 * j + o)

/-- FP32 one. -/
def fOne : W32 := 0x3F800000

/-- A positive value. -/
def fPos (w : W32) : Bool := fLt 0 w

/-- A value of at least zero. -/
def fNonNeg (w : W32) : Bool := fLe 0 w

/-- A joint record keeps R332. -/
def jointOk (b : List Byte) (j : Nat) : Bool :=
  let o := 64 + 64 * j
  decide (recNat b o 1 ≤ 1) && zeroAt b (o + 1) (o + 4) && zeroAt b (o + 44) (o + 64) &&
    fPos (jointWord b j 28) && fPos (jointWord b j 32) && fPos (jointWord b j 36) && fNonNeg (jointWord b j 40)

/-- A capsule record keeps R332. -/
def capsuleOk (b : List Byte) (i : Nat) : Bool :=
  let o := 576 + 32 * i
  decide (recNat b o 1 < chainJoints b) && zeroAt b (o + 1) (o + 4) && fNonNeg (wordAt b (o + 28))

/-- A chain description keeps R332. -/
def chainOk (b : List Byte) : Bool :=
  decide (1 ≤ chainJoints b) && decide (chainJoints b ≤ 8) && decide (1 ≤ chainCapsules b) && decide (chainCapsules b ≤ 32) &&
    zeroAt b 2 16 && (List.range (chainJoints b)).all (jointOk b) && (List.range (chainCapsules b)).all (capsuleOk b)

/-! ### Kinematics (R333) -/

/-- A matrix by rows. -/
abbrev Mat := List (List W32)

/-- Products summed from left to right. -/
def dotF (a b : List W32) : W32 :=
  match List.zipWith fMul a b with
  | [] => 0
  | x :: xs => xs.foldl fAdd x

/-- Column `j`. -/
def matCol (m : Mat) (j : Nat) : List W32 := m.map (fun r => r.getD j 0)

/-- The product of two 4 × 4 matrices. -/
def matMul (a b : Mat) : Mat := a.map (fun r => (List.range 4).map (fun j => dotF r (matCol b j)))

/-! ### The trigonometric unit (R334) -/

/-- Sine (0) or cosine (1) of a word. The unit's result is a free value; where it is not within 1 ulp of the exact value,
the exact value rounded stands for it, so that the results R334 allows, and no other, are possible. For an infinity or a
NaN the spec states no result. -/
def trigWord (f : Nat) (w : W32) : W32 :=
  let k := Config.planTrig f w
  match f32 w with
  | .nan _ | .inf _ => k
  | v =>
    let e := ivTrig v.q f
    if (f32 k).isFinite && withinUlp .fp32 1 e (f32 k).q then k else fOfQ e.lo

/-- The negated FP32 word. -/
def fNeg (w : W32) : W32 := w ^^^ 0x80000000

/-- rot_z. -/
def rotZ (t : W32) : Mat :=
  let c := trigWord 1 t
  let s := trigWord 0 t
  [[c, fNeg s, 0, 0], [s, c, 0, 0], [0, 0, fOne, 0], [0, 0, 0, fOne]]

/-- rot_x. -/
def rotX (t : W32) : Mat :=
  let c := trigWord 1 t
  let s := trigWord 0 t
  [[fOne, 0, 0, 0], [0, c, fNeg s, 0], [0, s, c, 0], [0, 0, 0, fOne]]

/-- A translation. -/
def transM (x z : W32) : Mat := [[fOne, 0, 0, x], [0, fOne, 0, 0], [0, 0, fOne, z], [0, 0, 0, fOne]]

/-- The base frame. -/
def baseFrame (b : List Byte) : Mat :=
  (List.range 3).map (fun i => (List.range 4).map (fun j => wordAt b (16 + 16 * i + 4 * j))) ++ [[0, 0, 0, fOne]]

/-- The frame of joint `j` relative to the one before (R333). -/
def jointFrame (b : List Byte) (j : Nat) (q : W32) : Mat :=
  let prismatic := decide (recNat b (64 + 64 * j) 1 = 1)
  let th := fAdd (jointWord b j 16) (if prismatic then 0 else q)
  let dd := fAdd (jointWord b j 12) (if prismatic then q else 0)
  matMul (matMul (matMul (rotZ th) (transM 0 dd)) (transM (jointWord b j 4) 0)) (rotX (jointWord b j 8))

/-- The frames of the links, in order (R333). -/
def linkFrames (b : List Byte) (q : List W32) : List Mat :=
  ((List.range (chainJoints b)).foldl (fun (p : Mat × List Mat) j =>
    let t := matMul p.1 (jointFrame b j (q.getD j 0))
    (t, p.2 ++ [t])) (baseFrame b, [])).2

/-- A point of a link's frame in world millimetres. -/
def toWorld (t : Mat) (p : List W32) : List W32 := (t.take 3).map (fun r => dotF r (p ++ [fOne]))

/-- A capsule in world millimetres: its axis ends and its radius. -/
structure Capsule where
  p0 : List W32
  p1 : List W32
  rho : W32
  deriving DecidableEq, Repr

/-- The capsules of a chain at a configuration. -/
def capsulesAt (b : List Byte) (q : List W32) : List Capsule :=
  let fr := linkFrames b q
  (List.range (chainCapsules b)).map (fun i =>
    let o := 576 + 32 * i
    let t := fr.getD (recNat b o 1) []
    let p (o : Nat) := toWorld t [wordAt b o, wordAt b (o + 4), wordAt b (o + 8)]
    ⟨p (o + 4), p (o + 16), wordAt b (o + 28)⟩)

/-! ### Reach (R321) -/

/-- A rotation about z, or about x, and a translation, in enclosures; the fourth row of a matrix is left out. -/
abbrev IvMat := List (List Iv)

/-- The fourth row. -/
def ivLast : List Iv := [ivExact qZero, ivExact qZero, ivExact qZero, ivExact (qInt 1)]

/-- The sum of products of a row and a column. -/
def ivDot (a b : List Iv) : Iv := (List.zipWith ivMul a b).foldl ivAdd (ivExact qZero)

/-- A point moved by a matrix. -/
def ivApply (m : IvMat) (p : List Iv) : List Iv := m.map (fun r => ivDot r (p ++ [ivExact (qInt 1)]))

/-- The matrix of a joint at exact joint value `q`, as R333 composes it, without rounding. -/
def ivJoint (b : List Byte) (j : Nat) (q : Q) : List (IvMat) :=
  let w (o : Nat) : Q := (f32 (jointWord b j o)).q
  let prismatic := decide (recNat b (64 + 64 * j) 1 = 1)
  let th := if prismatic then w 16 else qAdd (w 16) q
  let dd := if prismatic then qAdd (w 12) q else w 12
  let n (x : Q) : Iv := ivExact x
  let o := n qZero
  let i := n (qInt 1)
  let rot (x : Q) := (ivTrig x 1, ivTrig x 0)
  let (c, s) := rot th
  let (c', s') := rot (w 8)
  [[[c, ivNeg s, o, o], [s, c, o, o], [o, o, i, o]], [[i, o, o, n (w 4)], [o, i, o, o], [o, o, i, n dd]],
   [[i, o, o, o], [o, c', ivNeg s', o], [o, s', c', o]]]

/-- The point `p` of link `l`'s frame, seen from the frame before joint `j`, at the given values of joints j to l. -/
def ivPoint (b : List Byte) (j : Nat) (qs : List Q) (p : List Q) : List Iv :=
  ((List.range qs.length).flatMap (fun i => ivJoint b (j + i) (qs.getD i qZero))).foldr ivApply (p.map ivExact)

/-- The axis points of the capsules on link `j` or beyond, each with its link. -/
def axisPoints (b : List Byte) (j : Nat) : List (Nat × List Q) :=
  ((List.range (chainCapsules b)).filter (fun i => decide (j ≤ recNat b (576 + 32 * i) 1))).flatMap (fun i =>
    let o := 576 + 32 * i
    let p (o : Nat) : List Q := [(f32 (wordAt b o)).q, (f32 (wordAt b (o + 4))).q, (f32 (wordAt b (o + 8))).q]
    [(recNat b o 1, p (o + 4)), (recNat b o 1, p (o + 16))])

/-- Every value R321 rests on is finite. -/
def reachFinite (b : List Byte) (j : Nat) : Bool :=
  ((List.range (chainJoints b)).filter (fun i => decide (j ≤ i))).all (fun i =>
    [4, 8, 12, 16, 20, 24].all (fun o => (f32 (jointWord b i o)).isFinite)) &&
  (List.range (chainCapsules b)).all (fun i => (List.range 6).all (fun k => (f32 (wordAt b (576 + 32 * i + 4 + 4 * k))).isFinite))

/-- Every FP32 value of joint `j` between its limits. -/
def jointValues (b : List Byte) (j : Nat) : List Q :=
  (List.range (2 ^ 32)).filterMap (fun w =>
    let x : W32 := BitVec.ofNat 32 w
    if (f32 x).isFinite && fLe (jointWord b j 20) x && fLe x (jointWord b j 24) then some (f32 x).q else none)

/-- `ok` holds of every choice of one value of each list, after those in `acc`. -/
def allChoices (ok : List Q → Bool) : List (List Q) → List Q → Bool
  | [], acc => ok acc
  | l :: r, acc => l.all (fun x => allChoices ok r (acc ++ [x]))

/-- R321: `r` is at least the distance from the axis of joint `j` to every capsule axis point on link `j` or beyond, in every
configuration. The axis is the z axis of the frame before the joint, and the joint's own motion does not change the
distance from it. -/
def reachSound (b : List Byte) (j : Nat) (r : Q) : Bool :=
  (axisPoints b j).all (fun p =>
    allChoices (fun qs =>
      match ivPoint b j qs p.2 with
      | x :: y :: _ => qLe (ivAdd (ivMul x x) (ivMul y y)).hi (qMul r r)
      | _ => true)
      ([qZero] :: ((List.range (p.1 - j)).map (fun i => jointValues b (j + 1 + i)))) [])

/-- The least FP32 word at or above a value of at least zero. -/
def fCeil (x : Q) : W32 :=
  let w := fOfQ x
  if (f32 w).isFinite && qLt (f32 w).q x then w + 1 else w

/-- A sum of lengths that no configuration exceeds: the offsets of the joints from `j` to the link, and the point's own
length (as the sum of its coordinates' magnitudes). -/
def reachBound (b : List Byte) (j : Nat) : Q :=
  ((axisPoints b j).map (fun p =>
    let offsets := (List.range (p.1 + 1 - j)).map (fun i =>
      let w (o : Nat) : Q := (f32 (jointWord b (j + i) o)).q
      let slide := if recNat b (64 + 64 * (j + i)) 1 = 1 then qMax (qAbs (w 20)) (qAbs (w 24)) else qZero
      qAdd (qAbs (w 4)) (if i = 0 then qZero else qAdd (qAbs (w 12)) slide))
    qAdd (qSum offsets) (qSum (p.2.map qAbs)))).foldl qMax qZero

/-- R321: reach of a revolute joint. The device's bound is free among the upper bounds; a word that is none is replaced by
one. Where a value it rests on is not finite there is no such distance, and the word stands. -/
def revoluteReach (b : List Byte) (j : Nat) : W32 :=
  let k := Config.reach b j
  if !(reachFinite b j) || decide (k = 0x7F800000) || (fNonNeg k && (f32 k).isFinite && reachSound b j (f32 k).q) then k
  else fCeil (reachBound b j)

/-- Reach of every joint (R321): 1 for a prismatic one. -/
def chainReach (b : List Byte) : List W32 :=
  (List.range (chainJoints b)).map (fun j => if recNat b (64 + 64 * j) 1 = 1 then fOne else revoluteReach b j)

/-! ### Capsule queries (R300 to R303) -/

/-- The value of leaf `i` of brick `n` in generation `g` (R298, R312). -/
def leafValue (s : State) (g n i : Nat) : Q :=
  match (getBrick s.world n).at g with
  | some l => (decodeTp 16 (l.getD i 0)).q
  | none => (decodeTp 16 (unknownWord s)).q

/-- Centre of leaf `i` of brick `n` (R295, R296, R304). -/
def leafCentre (s : State) (n i : Nat) : List Q :=
  let h := leafMm s
  let idx (b l : Nat) : Q := qMul (qAdd (qInt (8 * b + l : Nat)) (qFrac 1 2)) (qInt h)
  List.zipWith (fun o x => qAdd (f32 o).q x) (worldOrigin s)
    [idx (n % 512) (i % 8), idx (n / 512 % 512) (i / 8 % 8), idx (n / 512 / 512) (i / 64)]

/-- Squared length. -/
def qNorm2 (v : List Q) : Q := qSum (v.map (fun x => qMul x x))

/-- Squared distance of point `c` from the segment between `a` and `b`. -/
def segDist2 (a b c : List Q) : Q :=
  let d := List.zipWith qSub b a
  let w := List.zipWith qSub c a
  let dd := qNorm2 d
  let t := if dd.num = 0 then qZero else qMin (qMax (qDiv (qSum (List.zipWith qMul w d)) dd) qZero) (qInt 1)
  qNorm2 (List.zipWith (fun x y => qSub x (qMul t y)) w d)

/-- One coordinate's distance from an interval. -/
def outside (lo hi x : Q) : Q := qMax qZero (qMax (qSub lo x) (qSub x hi))

/-- Squared distance of the segment between `a` and `b` from a cube: along the segment it is a square of the coordinates'
distances, whose least value falls at an end, where a coordinate meets a face, or where the sum over the coordinates that
lie beyond a face is stationary. -/
def cubeDist2 (a b lo : List Q) (e : Q) : Q :=
  let d := List.zipWith qSub b a
  let at_ (t : Q) : Q := qNorm2 ((List.range 3).map (fun i =>
    outside (lo.getD i qZero) (qAdd (lo.getD i qZero) e) (qAdd (a.getD i qZero) (qMul t (d.getD i qZero)))))
  let face (i k : Nat) : Q := qSub (qAdd (lo.getD i qZero) (if k = 1 then e else qZero)) (a.getD i qZero)
  let meets := (List.range 3).flatMap (fun i => [qDiv (face i 0) (d.getD i qZero), qDiv (face i 1) (d.getD i qZero)])
  let still := (List.range 27).map (fun m =>
    let parts := (List.range 3).filterMap (fun i =>
      match m / 3 ^ i % 3 with
      | 0 => none
      | k => some (face i (k - 1), d.getD i qZero))
    qDiv (qSum (parts.map (fun p => qMul p.1 p.2))) (qNorm2 (parts.map Prod.snd)))
  ((meets ++ still).map (fun t => at_ (qMin (qMax t qZero) (qInt 1)))).foldl qMin (qMin (at_ qZero) (at_ (qInt 1)))

/-- The ends of a capsule's axis, exactly. -/
def Capsule.axis (x : Capsule) : List Q × List Q := (x.p0.map (fun w => (f32 w).q), x.p1.map (fun w => (f32 w).q))

/-- A clearance `k` does not exceed what leaf `i` of brick `n` allows: k + ρ − v ≤ |S − c| (R300, R302). -/
def leafAllows (s : State) (g : Nat) (x : Capsule) (k : Q) (n i : Nat) : Bool :=
  let need := qSub (qAdd k (f32 x.rho).q) (leafValue s g n i)
  qLe need qZero || qLe (qMul need need) (segDist2 x.axis.1 x.axis.2 (leafCentre s n i))

/-- R302: the clearance is finite and never exceeds the minimum of f(p) − ρ over the axis. -/
def clearanceSound (s : State) (g : Nat) (x : Capsule) (k : W32) : Bool :=
  (f32 k).isFinite && (List.range (512 * 512 * 512)).all (fun n => (List.range 512).all (leafAllows s g x (f32 k).q n))

/-- The node term of a node, floor + distance from the axis to its cube, lies below k + ρ (R299, R302): a query that answers
`k` has looked beneath the node. -/
def Node.opened (s : State) (g : Nat) (x : Capsule) (k : Q) (n : Node) : Bool :=
  let need := qSub (qAdd k (f32 x.rho).q) (decodeTp 16 (nodeFloor s g n)).q
  qLt qZero need && qLt (cubeDist2 x.axis.1 x.axis.2 (n.cube s).1 (n.cube s).2) (qMul need need)

/-- What a query depends on (R303): the bricks present in its generation, and the world's and the capsule's values. -/
def queryArgs (s : State) (g : Nat) (x : Capsule) : List (Nat × List Nat) × List W32 × List W32 :=
  (s.world.bricks.filterMap (fun p => (p.2.at g).map (fun l => (p.1, l))),
   BitVec.ofNat 32 (getF s WLD_UNKNOWN_VALUE) :: BitVec.ofNat 32 (leafMm s) :: worldOrigin s, x.p0 ++ x.p1 ++ [x.rho])

/-- R302: the clearance of a capsule; a value the bound does not allow is taken as −inf, which collides. -/
def queryClearance (s : State) (g : Nat) (x : Capsule) : W32 :=
  let (b, w, c) := queryArgs s g x
  let k := Config.clearance b w c
  if clearanceSound s g x k then k else 0xFF800000

/-- The present bricks a query reaches (R316): those whose leaves its answer must have looked at, because every node above
them is opened, and any others the device looks at, in a free order. -/
def queryReaches (s : State) (g : Nat) (x : Capsule) : List Nat :=
  let (b, w, c) := queryArgs s g x
  let k := (f32 (queryClearance s g x)).q
  let free := (Config.queryBricks b w c).filter (fun n => b.any (fun p => decide (p.1 = n)))
  let due := (b.map Prod.fst).filter (fun n => !(free.contains n) &&
    (List.range 10).all (fun l => ((brickNode n).above l).opened s g x k))
  free ++ due

/-- A capsule query of generation `g` by a job (R302, R316). -/
def capsuleQuery (who : Option (Nat × W32)) (g : Nat) (x : Capsule) : Op W32 := do
  let s ← get
  eachOp (reachBrick who) (queryReaches s g x)
  pure (queryClearance s g x)

/-! ### The swept-volume check (R323 to R329) -/

/-- What a check counts: samples drawn, capsule queries spent, and those of a local repair. -/
structure Spent where
  samples : Nat
  queries : Nat
  budget : Nat
  deriving DecidableEq, Repr

/-- Work of the planner. -/
abbrev POp (α : Type) := StateT Spent Op α

/-- The chain a check is for, and its job. -/
structure Checker where
  k : Nat
  sub : W32
  b : List Byte
  reach : List W32
  deriving DecidableEq, Repr

/-- The differences qb − qa by joint. -/
def deltas (qa qb : List W32) : List W32 := List.zipWith fSub qb qa

/-- dmax (R323). -/
def sweepMax (reach qa qb : List W32) : W32 := (List.zipWith (fun r d => fMul r (fAbs d)) reach (deltas qa qb)).foldl fAdd 0

/-- m: WLD_MARGIN, or 0 where it is negative or NaN, and 2^-18 × Σ reach (R323). -/
def checkMargin (s : State) (reach : List W32) : W32 :=
  let w := getReg s WLD_MARGIN_MM.key
  fAdd (if fNonNeg w then w else 0) (fMul (fOfQ (qDyadic 1 (-18))) (reach.foldl fAdd 0))

/-- The smaller of two FP32 words. -/
def fMin (a b : W32) : W32 := if fLt b a then b else a

/-- The boxes whose union is the swept box of an edge (R326), one for each capsule: its axis at qa, grown by ρ + dmax on
every side; none where a value is not finite. -/
def sweptBoxes (b : List Byte) (reach qa qb : List W32) : Option (List (List Q × List Q)) :=
  let caps := capsulesAt b qa
  let dmax := sweepMax reach qa qb
  if !((dmax :: caps.flatMap (fun x => x.rho :: (x.p0 ++ x.p1))).all (fun w => (f32 w).isFinite)) then none
  else some (caps.map (fun x =>
    let r := qAdd (f32 x.rho).q (f32 dmax).q
    (List.zipWith (fun u v => qSub (qMin u v) r) x.axis.1 x.axis.2, List.zipWith (fun u v => qAdd (qMax u v) r) x.axis.1 x.axis.2)))

/-- One of the boxes meets brick `n`. Boxes of unknown extent meet every brick. -/
def boxesMeet (s : State) (boxes : Option (List (List Q × List Q))) (n : Nat) : Bool :=
  match boxes with
  | none => true
  | some l =>
    let (a, e) := (brickNode n).cube s
    l.any (fun p => (List.range 3).all (fun i =>
      qLe (a.getD i qZero) (p.2.getD i qZero) && qLe (p.1.getD i qZero) (qAdd (a.getD i qZero) e)))

/-- R327: a result of generation `g` is stale now. -/
def isStale (s : State) (g : Nat) (boxes : Option (List (List Q × List Q))) : Bool :=
  let age := s.world.gen - g
  decide (age > 8) || (s.world.dirty.take age).any (fun p => match p.2 with
    | none => true
    | some l => l.any (boxesMeet s boxes))

/-- The least clearance of the chain at a configuration in generation `g`, less the margin (R323). -/
def Checker.clearance (x : Checker) (g : Nat) (m : W32) (q : List W32) : POp W32 := do
  let caps := capsulesAt x.b q
  let ks ← (gatherOp (capsuleQuery (some (x.k, x.sub)) g) caps : Op (List W32))
  modify (fun n => { n with queries := n.queries + caps.length, budget := n.budget + caps.length })
  (modify (fun s => addF s PLN_QUERIES_COUNT caps.length) : Op Unit)
  pure (fSub (ks.foldl fMin 0x7F800000) m)

/-- What the world unit does meanwhile (R310, R329): a merge may begin, which ends a check that does not read the current
generation, and may then commit. The command runs a search to its end, so these come at free moments of it. Answers
whether the check of generation `g` is ended. -/
def Checker.meanwhile (x : Checker) (g : Nat) : POp Bool := do
  let s ← (get : Op State)
  let n ← get
  match nextWorld s, Config.meanwhile s.now x.k x.sub n.queries with
  | some j, e =>
    if e = 0 || (getClk s 4).stopped then pure false
    else
      if e = 2 then (set (worldJob s j.ctx j.sub) : Op Unit)
      pure (decide (g ≠ s.world.gen))
  | none, _ => pure false

/-- The loop of R323, in generation `g`; `fuel` is one more than the steps still allowed. None where the check is ended
(R329). -/
def Checker.loop (x : Checker) (g : Nat) (m dmax : W32) (qa dq : List W32) : Nat → W32 → POp (Option Bool)
  | 0, _ => do
    (modify (fun s => incF s WLD_CHK_LIMIT_COUNT) : Op Unit)
    pure (some false)
  | fuel + 1, t => do
    let c ← x.clearance g m (List.zipWith (fun a d => fAdd a (fMul t d)) qa dq)
    if ← x.meanwhile g then pure none
    else if !(fLt 0 c) then pure (some false)
    else if fLe fOne t || fEq dmax 0 then pure (some true)
    else if fIsNan dmax then pure (some false)
    else x.loop g m dmax qa dq fuel (fMin fOne (fAdd t (fMul (fDiv c dmax) (fOfQ (qSub (qInt 1) (qDyadic 1 (-20)))))))

/-- One check of an edge on the current generation (R323): its answer, where it stands on the generation that is then
current, and none where it is ended or stale (R327, R329). A check needs WLD_CTL.WORLD_EN (R64). -/
def Checker.once (x : Checker) (qa qb : List W32) : POp (Option Bool) := do
  let s ← (get : Op State)
  if !(flag s WLD_CTL_WORLD_EN) then (failWith 1 none 0 : Op Unit)
  let g := s.world.gen
  let r ← x.loop g (checkMargin s x.reach) (sweepMax x.reach qa qb) qa (deltas qa qb) 4097 0
  let s ← (get : Op State)
  pure (if s.world.gen ≠ g && isStale s g (sweptBoxes x.b x.reach qa qb) then none else r)

/-- R328: check an edge, up to `n` times; a check whose result does not stand is made again on the current generation, and
after the last one the edge is rejected. The answer comes with the generation it stands on. -/
def Checker.attempt (x : Checker) (qa qb : List W32) : Nat → POp (Bool × Nat)
  | 0 => do
    let s ← (get : Op State)
    pure (false, s.world.gen)
  | n + 1 => do
    match ← x.once qa qb with
    | some ok => do
      let s ← (get : Op State)
      pure (ok, s.world.gen)
    | none => do
      if n > 0 then (modify (fun s => incF s WLD_STALE_COUNT) : Op Unit)
      x.attempt qa qb n

/-- R323, R325, R328: check an edge; the answer and the generation it stands on. -/
def Checker.check (x : Checker) (qa qb : List W32) : POp (Bool × Nat) := x.attempt qa qb 3

end Sys2Proof.Machine
end

