-- ==== Sys2Proof/Machine/Quant.lean ====
section
/-! DEFINITION. The keyed generator (R219), the quantiser (R211 to R218) and the scale choice and
records of a survey (R223 to R226). -/

namespace Sys2Proof.Machine

/-- R219: the keyed generator. -/
def keyedU32 (seed : W64) (sid : W32) (idx : Nat) : W32 :=
  let k0 : W32 := BitVec.ofNat 32 seed.toNat
  let k1 : W32 := BitVec.ofNat 32 (seed.toNat / 2 ^ 32)
  let round (st : W32 × W32 × W32 × W32) (r : Nat) : W32 × W32 × W32 × W32 :=
    let (a, b, c, d) := st
    let k := if r % 2 = 0 then k0 else k1
    let a := a + k + BitVec.ofNat 32 r
    let b := (b ^^^ a).rotateLeft 11
    let c := c + b
    let d := (d ^^^ c).rotateLeft 19
    (a + d, b, c, d)
  let (a, _, c, _) := [0, 1, 2, 3].foldl round
    (BitVec.ofNat 32 idx, sid, 0x7F4A0000 + BitVec.ofNat 32 (idx / 2 ^ 32 % 2 ^ 16), 0x5B1DE7A3)
  a ^^^ c

/-- The value of a code of a code format (R100). -/
def codeValue (f : Fmt) (code : Nat) : Q :=
  match f with
  | .bell4 => bell4Value code
  | .int4 => qInt (toSigned 4 code)
  | _ => qInt (toSigned 8 code)

/-- The codes adjacent below and above a `w` that lies strictly between two codes, lower value first. -/
def adjacent (f : Fmt) (w : Q) : Nat × Nat :=
  match f with
  | .bell4 => let lo := bell4Floor w; (lo, lo + 1)
  | _ => let n := qFloor w; (ofSigned f.bits n, ofSigned f.bits (n + 1))

/-- The word of lowest and highest value of a code format. -/
def codeEnds (f : Fmt) : Nat × Nat :=
  match f with
  | .bell4 => (0, 15)
  | .int4 => (8, 7)
  | _ => (0x80, 0x7F)

/-- R214 to R216: round `w` into a code by a mode (0 NEAREST, 1 STOCHASTIC with draw `u`, 2
TOWARD_ZERO). The last answer says that the code saturated. -/
def quantCode (f : Fmt) (mode : Nat) (u : W32) (w : Q) : Nat × Flags × Bool :=
  let (lo, hi) := codeEnds f
  if qLt w (codeValue f lo) then (lo, fOVF ||| fINX, true)
  else if qLt (codeValue f hi) w then (hi, fOVF ||| fINX, true)
  else if mode = 0 then let (c, fl) := roundQ f false w; (c, fl, false)
  else
    let (l, h) := adjacent f w
    if qEq (codeValue f l) w then (l, 0, false)
    else
      let vl := codeValue f l
      let vh := codeValue f h
      if mode = 1 then
        let fr := qDiv (qSub w vl) (qSub vh vl)
        (if qLt (qFrac u.toNat (2 ^ 32)) fr then h else l, fINX, false)
      else (if qLe (qAbs vl) (qAbs vh) then l else h, fINX, false)

/-- The zero code of a code target: 7 for BELL4, else 0 (R212). -/
def zeroCode (f : Fmt) : Nat := if f = .bell4 then 7 else 0

/-- R211 to R216: quantise a value with a TP16 scale and a zero point. A non-finite value gives R128's
code (R213); a scale that is zero, negative or NaR gives the zero code with INV (R212). -/
def quantise (f : Fmt) (mode : Nat) (z : Int) (qscale v : Val) (u : W32) : Nat × Flags × Bool :=
  if v.isFinite then
    match qscale with
    | .fin q =>
      if q.num < 0 then (zeroCode f, fINV, false)
      else quantCode f mode u (qAdd (qDiv v.q q) (qInt (if f = .bell4 then 0 else z)))
    | _ => (zeroCode f, fINV, false)
  else
    let (c, fl) := convert f false v
    (c, fl ||| fINV, false)

/-- What a unit writes when it stores a value in a format: a rounding, or the quantiser in NEAREST mode
with QSCALE 1 and Z 0 for a code format (R230, R720). -/
def storeVal (f : Fmt) (ftz : Bool) (v : Val) : Nat × Flags × Bool :=
  if f.isCode then quantise f 0 0 (.fin (qInt 1)) v 0
  else let (w, fl) := convert f ftz v; (w, fl, false)

/-- TAB4 names no format a result can be rounded into. -/
def Fmt.isTarget (f : Fmt) : Bool := decide (f ≠ .tab4)

/-- Elements as bytes; 4-bit elements pack two to a byte, the lower index in the low half (R101). The spec does not say
what the upper half of the last byte of an odd count holds; it is written as 0 (DESIGN CHOICE, log entry 98). -/
def packElems (f : Fmt) : List Nat → List Byte
  | [] => []
  | [x] => natLE (max f.bytes 1) x
  | x :: y :: r =>
    if f.is4 then BitVec.ofNat 8 (x % 16 + 16 * (y % 16)) :: packElems f r
    else natLE f.bytes x ++ natLE f.bytes y ++ packElems f r

/-- `n` elements of a format from bytes (R101). -/
def unpackElems (f : Fmt) (n : Nat) (b : List Byte) : List Nat :=
  (List.range n).map (fun i =>
    if f.is4 then let x := recNat b (i / 2) 1; if i % 2 = 0 then x % 16 else x / 16
    else recNat b (i * f.bytes) f.bytes)

/-- Bytes `n` elements occupy. -/
def elemBytes (f : Fmt) (n : Nat) : Nat := if f.is4 then (n + 1) / 2 else n * f.bytes

/-! ### Survey records (R223 to R226) -/

/-- What a survey keeps of a channel: the exact maximum magnitude of its finite values, and the count of
non-finite ones. -/
structure Channel where
  max : Q
  nf : Nat
  deriving DecidableEq, Repr

/-- R223: one more value. -/
def Channel.see (c : Channel) (v : Val) : Channel :=
  if v.isFinite then { c with max := qMax c.max (qAbs v.q) } else { c with nf := min (c.nf + 1) (2 ^ 32 - 1) }

/-- R224: the bin of a finite value. -/
def histBin (h : Int) (v : Val) : Option Nat :=
  if !v.isFinite then none
  else if v.q.num = 0 then some 63
  else
    let p := qLog2 (qAbs v.q)
    some (if p ≥ h then 0 else if h - 62 ≤ p then (h - p).toNat else 63)

/-- R225: the largest magnitude of a code target. -/
def qMaxOf (f : Fmt) : Q :=
  match f with
  | .int8 => qInt 127
  | .int4 => qInt 7
  | _ => qInt 1

/-- The smallest TP16 word whose value is not below a positive `x` (R225): the words rise with their
values, so it is the nearest word or the next one. -/
def tp16AtLeast (x : Q) : Nat :=
  let w := (encodeTp 16 x).1
  match decodeTp 16 w with
  | .fin v => if qLt v x then w + 1 else w
  | _ => w

/-- R225: the scale's TP16 word. A POW2 scale that is no TP16 value, such as 2^49, must still be stored as one; the spec does
not say how, and it is rounded under R104 with no flag (DESIGN CHOICE, log entry 99). -/
def chooseScale (f : Fmt) (tp16 : Bool) (m : Q) : Nat :=
  if m.num = 0 then (encodeTp 16 (qInt 1)).1
  else
    let r := qMin (qMax (qDiv m (qMaxOf f)) (qDyadic 1 (-56))) (qDyadic 1 56)
    if tp16 then tp16AtLeast r
    else
      let e := qLog2 r
      (encodeTp 16 (if qEq (qDyadic 1 e) r then r else qDyadic 1 (e + 1))).1

/-- R226: one channel's record of 16 bytes. -/
def channelRecord (scale : Nat) (c : Channel) : List Byte :=
  if c.max.num = 0 then natLE 2 scale ++ zeros 5 ++ natLE 1 2 ++ natLE 4 c.nf ++ zeros 4
  else
    let e := qLog2 c.max
    let full := qScale2 c.max (23 - e)
    let man := (qFloor full).toNat
    let sticky := b2n (!(qEq full (qInt man)))
    natLE 2 scale ++ natLE 2 (ofSigned 16 e) ++ natLE 3 man ++ natLE 1 sticky ++ natLE 4 c.nf ++ zeros 4

/-- R226: the histogram as 64 little-endian counts. -/
def histBytes (h : List Nat) : List Byte := h.flatMap (fun n => natLE 4 (min n (2 ^ 32 - 1)))

end Sys2Proof.Machine
end

