-- ==== Sys2Proof/Machine/Search.lean ====
section
/-! DEFINITION. Searching for a path: samples and neighbours (R340 to R342), trees (R343), roadmaps (R344
to R346) and shortcuts (R352). -/

namespace Sys2Proof.Machine

/-- What a search works with: the chain's number, description and reach, the job's seed and its request. -/
structure Plan where
  k : Nat
  sub : W32
  c : Nat
  b : List Byte
  reach : List W32
  seed : W64
  req : List Byte
  deriving DecidableEq, Repr

/-- A field of the request (R335). -/
def Plan.f (p : Plan) (lo n : Nat) : Nat := recNat p.req lo n

/-- A joint vector of the request. -/
def Plan.joints (p : Plan) (lo : Nat) : List W32 := (List.range (chainJoints p.b)).map (fun j => wordAt p.req (lo + 4 * j))

/-- The job. -/
def Plan.who (p : Plan) : Option (Nat × W32) := some (p.k, p.sub)

/-- The chain's checks. -/
def Plan.checker (p : Plan) : Checker := ⟨p.k, p.sub, p.b, p.reach⟩

/-- Check an edge of the chain (R323 to R329). -/
def Plan.check (p : Plan) (qa qb : List W32) : POp Bool := do pure (← p.checker.check qa qb).1

/-- INSTALL is set. -/
def Plan.installs (p : Plan) : Bool := bitOf (p.f 2 1) 0

/-- The job has a splice item S: with INSTALL, and for a REPAIR, whose path begins at S (R347, R349, R350). -/
def Plan.splices (p : Plan) : Bool := p.installs || decide (p.f 0 1 = 3)

/-! ### Samples and neighbours -/

/-- A draw (R340): `i` is 0 for joint values, 1 for the goal-bias decision and 2 for shortcut points. -/
def Plan.draw (p : Plan) (i idx : Nat) : W32 := keyedU32 p.seed (BitVec.ofNat 32 (0x504C0000 + 16 * p.c + i)) (idx % 2 ^ 48)

/-- u × 2^-32 in FP32. -/
def unitF (u : W32) : W32 := fOfQ (qFrac u.toNat (2 ^ 32))

/-- The joint values of sample `n` (R341). -/
def Plan.sampleAt (p : Plan) (n : Nat) : List W32 :=
  (List.range (chainJoints p.b)).map (fun j =>
    let lo := jointWord p.b j 20
    fAdd lo (fMul (fSub (jointWord p.b j 24) lo) (unitF (p.draw 0 (8 * n + j)))))

/-- The next sample; `opposite` is the other tree's root (R341). -/
def Plan.sample (p : Plan) (opposite : List W32) : POp (List W32) := do
  let x ← get
  set { x with samples := x.samples + 1 }
  if qLt (qFrac (p.draw 1 x.samples).toNat (2 ^ 32)) (f32 (wordAt p.req 12)).q then pure opposite else pure (p.sampleAt x.samples)

/-- d² (R342). -/
def dist2 (b : List Byte) (p q : List W32) : W32 :=
  (List.range (chainJoints b)).foldl (fun a j =>
    let d := fSub (p.getD j 0) (q.getD j 0)
    fAdd a (fMul (jointWord b j 40) (fMul d d))) 0

/-- d. -/
def dist (b : List Byte) (p q : List W32) : W32 := fSqrt (dist2 b p q)

/-- Insert a neighbour by d², ties by index; the list rises. -/
def nearInsert (x : W32 × Nat) : List (W32 × Nat) → List (W32 × Nat)
  | [] => [x]
  | y :: r => if fLt x.1 y.1 then x :: y :: r else y :: nearInsert x r

/-- Up to `n` nodes with the smallest d² (R342). -/
def nearest (b : List Byte) (n : Nat) (nodes : List (List W32)) (q : List W32) : List (W32 × Nat) :=
  nodes.zipIdx.foldl (fun l p => (nearInsert (dist2 b p.1 q, p.2) l).take n) []

/-- A scan of the neighbour engine. -/
def Plan.near (p : Plan) (n : Nat) (nodes : List (List W32)) (q : List W32) : POp (List (W32 × Nat)) := do
  (modify (fun s => incF s PLN_NN_SCANS_COUNT) : Op Unit)
  pure (nearest p.b n nodes q)

/-! ### Trees (R343) -/

/-- A node of a tree and its parent; a root has none. -/
structure TNode where
  q : List W32
  parent : Option Nat
  deriving DecidableEq, Repr

/-- The configurations from the root to node `i`. -/
def traceTree (t : List TNode) : Nat → Nat → List (List W32)
  | 0, _ => []
  | f + 1, i =>
    match t[i]? with
    | none => []
    | some n => (match n.parent with
      | some p => traceTree t f p
      | none => []) ++ [n.q]

/-- How a round of 16 samples ends; `nodes` counts both trees. -/
inductive RoundOut where
  | joined (fromA fromB : List (List W32)) (nodes : Nat)
  | full (nodes : Nat)
  | more (ta : List TNode)
  deriving DecidableEq, Repr

/-- The node a sample leads to: the sample, or EXTEND towards it (R343). -/
def Plan.extend (p : Plan) (nq s : List W32) : List W32 :=
  let d := dist p.b nq s
  let e := wordAt p.req 16
  if fLe d e then s
  else
    let r := fDiv e d
    List.zipWith (fun a x => fAdd a (fMul (fSub x a) r)) nq s

/-- The samples of a round in order (R343). `limit` bounds the nodes of both trees; `budget`, where given,
the queries. -/
def Plan.round (p : Plan) (limit : Nat) (budget : Option Nat) (tb : List TNode) :
    List (List W32 × Nat) → List TNode → POp RoundOut
  | [], ta => pure (.more ta)
  | (s, ni) :: rest, ta => do
    let spentOut (x : Spent) : Bool := match budget with
      | some n => decide (x.budget ≥ n)
      | none => false
    if ta.length + tb.length ≥ limit || spentOut (← get) then pure (.full (ta.length + tb.length))
    else
      let nq := (ta.getD ni ⟨[], none⟩).q
      let new := p.extend nq s
      if !(← p.check nq new) then p.round limit budget tb rest ta
      else
        let ta := ta ++ [⟨new, some ni⟩]
        let m := ((← p.near 1 (tb.map TNode.q) new).headD (0, 0)).2
        if spentOut (← get) then pure (.full (ta.length + tb.length))
        else if ← p.check new (tb.getD m ⟨[], none⟩).q then
          pure (.joined (traceTree ta ta.length (ta.length - 1)) (traceTree tb tb.length m) (ta.length + tb.length))
        else p.round limit budget tb rest ta

/-- The end of a search: a path from the first root to the second, or none; and the nodes held. Out of
fuel, the search has not ended. -/
inductive SearchOut where
  | found (path : List (List W32)) (nodes : Nat)
  | failed (nodes : Nat)
  | unfinished
  deriving DecidableEq, Repr

/-- Samples with their nearest nodes in a tree. -/
def Plan.roundSamples (p : Plan) (ta tb : List TNode) : Nat → POp (List (List W32 × Nat))
  | 0 => pure []
  | n + 1 => do
    let s ← p.sample ((tb.headD ⟨[], none⟩).q)
    let ni := ((← p.near 1 (ta.map TNode.q) s).headD (0, 0)).2
    let r ← p.roundSamples ta tb n
    pure ((s, ni) :: r)

/-- Rounds, the trees in turn (R343). `swapped` says that `ta` is the second tree. -/
def Plan.rounds (p : Plan) (limit : Nat) (budget : Option Nat) : Nat → Bool → List TNode → List TNode → POp SearchOut
  | 0, _, _, _ => pure .unfinished
  | f + 1, swapped, ta, tb => do
    let ss ← p.roundSamples ta tb 16
    match ← p.round limit budget tb ss ta with
    | .joined a b n => pure (.found (if swapped then b ++ a.reverse else a ++ b.reverse) n)
    | .full n => pure (.failed n)
    | .more ta => p.rounds limit budget f (!swapped) tb ta

/-- R343: grow two trees until they join. A search that samples for 2^41 rounds would begin to repeat its
draws; the job is then still at work. -/
def Plan.tree (p : Plan) (start goal : List W32) (limit : Nat) (budget : Option Nat) : POp SearchOut :=
  p.rounds limit budget (2 ^ 41) false [⟨start, none⟩] [⟨goal, none⟩]

/-! ### Roadmaps (R344 to R346) -/

/-- ROADMAP_GROW: add samples until `n` are added; false where a capacity would be passed (R344). -/
def Plan.grow (p : Plan) : Nat → List (List W32) → List RoadEdge → POp (Bool × List (List W32) × List RoadEdge)
  | 0, nodes, edges => pure (true, nodes, edges)
  | n + 1, nodes, edges => do
    let x ← get
    let s := p.sampleAt x.samples
    let near ← p.near 16 nodes s
    if nodes.length + 1 > 65536 || edges.length + near.length > 1048576 then pure (false, nodes, edges)
    else
      set { (← get) with samples := x.samples + 1 }
      p.grow n (nodes ++ [s]) (edges ++ near.map (fun q => ⟨q.2, nodes.length, none⟩))

/-- A node of a shortest-path search: its distance and the node before it. -/
structure Reached where
  d : W32
  prev : Option Nat
  done : Bool
  deriving DecidableEq, Repr

/-- The unfinished reached node with the least distance; ties to the lower index. -/
def nextReached (l : List (Option Reached)) : Option (Nat × W32) :=
  l.zipIdx.foldl (fun best p => match p.1, best with
    | some r, none => if r.done then none else some (p.2, r.d)
    | some r, some (i, d) => if !r.done && fLt r.d d then some (p.2, r.d) else some (i, d)
    | none, b => b) none

/-- Shortest paths from the first node by summed d, ties to the lower node index (R346). `links i` lists
what node `i` is joined to, with d. -/
def shortest (links : Nat → List (Nat × W32)) : Nat → List (Option Reached) → List (Option Reached)
  | 0, l => l
  | f + 1, l =>
    match nextReached l with
    | none => l
    | some (i, d) =>
      let l := l.zipIdx.map (fun p => if p.2 = i then p.1.map (fun r => { r with done := true }) else p.1)
      shortest links f ((links i).foldl (fun l q =>
        let nd := fAdd d q.2
        match l.getD q.1 none with
        | none => setAt l q.1 (some ⟨nd, some i, false⟩)
        | some r => if !r.done && (fLt nd r.d || (fEq nd r.d && decide (i < r.prev.getD 0))) then setAt l q.1 (some ⟨nd, some i, false⟩) else l) l)

/-- The nodes of a path back from node `i`. -/
def traceBack (l : List (Option Reached)) : Nat → Nat → List Nat
  | 0, _ => []
  | f + 1, i => (match l.getD i none with
    | some r => match r.prev with
      | some p => traceBack l f p
      | none => []
    | none => []) ++ [i]

/-- What an edge counts as now: valid, invalid, or unchecked, also where its mark is stale (R345). -/
def edgeState (s : State) (p : Plan) (nodes : List (List W32)) (e : RoadEdge) : Option Bool :=
  match e.state with
  | none => none
  | some (ok, g) => if isStale s g (sweptBoxes p.b p.reach (nodes.getD e.a []) (nodes.getD e.b [])) then none else some ok

/-- Check the unchecked edges of a path in order until one is rejected (R346); the edges as marked then,
and whether all stand. -/
def Plan.checkPath (p : Plan) (nodes : List (List W32)) : List (Nat × Nat) → List RoadEdge → POp (Bool × List RoadEdge)
  | [], edges => pure (true, edges)
  | (i, j) :: r, edges => do
    let s ← (get : Op State)
    let here (e : RoadEdge) : Bool := (decide (e.a = i) && decide (e.b = j)) || (decide (e.a = j) && decide (e.b = i))
    if (edges.find? (fun e => here e && decide (edgeState s p nodes e ≠ some false))).any (fun e => decide (edgeState s p nodes e = some true)) then
      p.checkPath nodes r edges
    else
      let (ok, g) ← p.checker.check (nodes.getD i []) (nodes.getD j [])
      let edges := edges.map (fun e => if here e then { e with state := some (ok, g) } else e)
      if ok then p.checkPath nodes r edges else pure (false, edges)

/-- R346: search the roadmap with START and GOAL as its last two nodes, until a path stands or none is
left. -/
def Plan.query (p : Plan) (nodes : List (List W32)) (start goal : Nat) : Nat → List RoadEdge → POp (Option (List Nat) × List RoadEdge)
  | 0, edges => pure (none, edges)
  | f + 1, edges => do
    let s ← (get : Op State)
    let open_ := edges.filter (fun e => decide (edgeState s p nodes e ≠ some false))
    let links (i : Nat) : List (Nat × W32) := open_.filterMap (fun e =>
      if e.a = i then some (e.b, dist p.b (nodes.getD e.a []) (nodes.getD e.b []))
      else if e.b = i then some (e.a, dist p.b (nodes.getD e.a []) (nodes.getD e.b [])) else none)
    let l := shortest links nodes.length (nodes.zipIdx.map (fun q => if q.2 = start then some ⟨0, none, false⟩ else none))
    match l.getD goal none with
    | none => pure (none, edges)
    | some _ =>
      let path := traceBack l nodes.length goal
      let (ok, edges) ← p.checkPath nodes (path.zip (path.drop 1)) edges
      if ok then pure (some path, edges) else p.query nodes start goal f edges

/-! ### Shortcuts (R352) -/

/-- Arc length at each node of a path. -/
def arcs (b : List Byte) (path : List (List W32)) : List W32 :=
  ((path.zip (path.drop 1)).foldl (fun (acc : W32 × List W32) p =>
    let x := fAdd acc.1 (dist b p.1 p.2)
    (x, acc.2 ++ [x])) (0, [0])).2

/-- The point of a path at arc length `x`: its edge and its configuration. -/
def pointAt (path : List (List W32)) (cum : List W32) (x : W32) : Nat × List W32 :=
  let i := ((List.range (path.length - 1)).filter (fun e => fLe (cum.getD e 0) x)).foldl max 0
  let len := fSub (cum.getD (i + 1) 0) (cum.getD i 0)
  let fr := if fPos len then fDiv (fSub x (cum.getD i 0)) len else 0
  let a := path.getD i []
  (i, List.zipWith (fun u v => fAdd u (fMul (fSub v u) fr)) a (path.getD (i + 1) a))

/-- One iteration (R340, R352): the section between two points of the path, at its fractions of the arc length, becomes one
edge where the check accepts it. A section that reaches before the first node after S stays (DESIGN CHOICE, log entry 108). -/
def Plan.shortcut (p : Plan) (i : Nat) (path : List (List W32)) : POp (List (List W32)) := do
  let cum := arcs p.b path
  let tot := cum.getLastD 0
  if path.length < 2 || !(fPos tot) || !((f32 tot).isFinite) then pure path
  else
    let u := fMul (unitF (p.draw 2 (2 * i))) tot
    let v := fMul (unitF (p.draw 2 (2 * i + 1))) tot
    let (x, y) := if fLe u v then (pointAt path cum u, pointAt path cum v) else (pointAt path cum v, pointAt path cum u)
    if p.splices && decide (x.1 = 0) then pure path
    else if ← p.check x.2 y.2 then pure (path.take (x.1 + 1) ++ [x.2, y.2] ++ path.drop (y.1 + 1))
    else pure path

/-- SHORTCUTS iterations (R352). -/
def Plan.shortcuts (p : Plan) : List Nat → List (List W32) → POp (List (List W32))
  | [], path => pure path
  | i :: r, path => do
    let path ← p.shortcut i path
    p.shortcuts r path

end Sys2Proof.Machine
end

