-- ==== Sys2Proof/Machine/Shaper.lean ====
section
/-! DEFINITION. Time scaling of a path under jerk limits (R353 to R355): motions of constant jerk, what the manual asks of
a shaped profile, and the setpoints it gives. The device's own profile is free among those that keep the rules. -/

namespace Sys2Proof.Machine

/-! ### Motion at constant jerk -/

/-- A joint's position, velocity and acceleration at an instant, exactly. -/
structure Along where
  p : Q
  v : Q
  a : Q
  deriving DecidableEq, Repr

/-- After a time `t` at jerk `j`. -/
def Along.after (x : Along) (j t : Q) : Along :=
  let t2 := qMul t t
  ⟨qSum [x.p, qMul x.v t, qMul (qMul x.a t2) (qFrac 1 2), qMul (qMul j (qMul t2 t)) (qFrac 1 6)],
   qSum [x.v, qMul x.a t, qMul (qMul j t2) (qFrac 1 2)], qAdd x.a (qMul j t)⟩

/-- A stretch of constant jerk: its duration in seconds, each joint's jerk, and its place on the path. -/
structure Stretch where
  dur : Q
  jerk : List Q
  place : Nat
  deriving DecidableEq, Repr

/-- All joints after a time `t` of a stretch. -/
def moveBy (m : List Along) (s : Stretch) (t : Q) : List Along := List.zipWith (fun x j => x.after j t) m s.jerk

/-- The state of a profile at time `t` from its start, and the place there. -/
def stateAt : List Stretch → List Along → Nat → Q → List Along × Nat
  | [], m, pl, _ => (m, pl)
  | s :: r, m, _, t => if qLe t s.dur then (moveBy m s t, s.place) else stateAt r (moveBy m s s.dur) s.place (qSub t s.dur)

/-- Each stretch with the state it starts in. -/
def withStarts : List Stretch → List Along → List (List Along × Stretch)
  | [], _ => []
  | s :: r, m => (m, s) :: withStarts r (moveBy m s s.dur)

/-- The exact zero test. -/
def qIsZero (x : Q) : Bool := decide (x.num = 0)

/-- A velocity that begins as `x.v` stays, over a stretch, where `ok` holds: at its ends, and where the acceleration changes
sign between them. -/
def speedKept (ok : Q → Bool) (x : Along) (j t : Q) : Bool :=
  let y := x.after j t
  ok x.v && ok y.v && (!(qLt (qMul x.a y.a) qZero) || ok (qSub x.v (qDiv (qMul x.a x.a) (qMul (qInt 2) j))))

/-! ### What a profile keeps (R353, R354) -/

/-- A magnitude is within a limit of a chain description; an infinite limit bounds nothing. -/
def limitOk (w : W32) (x : Q) : Bool :=
  match f32 w with
  | .inf _ => true
  | v => qLe (qAbs x) v.q

/-- A joint keeps VMAX, AMAX and JMAX at every instant of a stretch (R353). -/
def limitsKept (b : List Byte) (j : Nat) (x : Along) (jerk t : Q) : Bool :=
  limitOk (jointWord b j 36) jerk && limitOk (jointWord b j 32) x.a && limitOk (jointWord b j 32) (x.after jerk t).a &&
    speedKept (limitOk (jointWord b j 28)) x jerk t

/-- Exact values of a configuration. -/
def exactly (q : List W32) : List Q := q.map (fun w => (f32 w).q)

/-- How far a vector reaches along a direction, in units of it; none where it does not lie along it. -/
def along (e u : List Q) : Option Q :=
  let c := match (List.zip e u).find? (fun p => !(qIsZero p.1)) with
    | some p => qDiv p.2 p.1
    | none => qZero
  if (List.zip e u).all (fun p => qEq p.2 (qMul c p.1)) then some c else none

/-- A stretch lies on the edge from `a` to `b`, and never moves back on it (R353: the path is time-scaled). -/
def onEdge (a b : List Q) (m : List Along) (s : Stretch) : Bool :=
  let e := List.zipWith qSub b a
  match along e (List.zipWith (fun x y => qSub x.p y) m a), along e (m.map Along.v), along e (m.map Along.a), along e s.jerk with
  | some p, some v, some ac, some j =>
    let x : Along := ⟨p, v, ac⟩
    qLe qZero p && qLe (x.after j s.dur).p (qInt 1) && speedKept (qLe qZero) x j s.dur
  | _, _, _, _ => false

/-- Exact d² of R342. -/
def exactDist2 (b : List Byte) (p q : List Q) : Q :=
  qSum ((List.range (chainJoints b)).map (fun j =>
    let d := qSub (p.getD j qZero) (q.getD j qZero)
    qMul (f32 (jointWord b j 40)).q (qMul d d)))

/-- A position lies within the blend length of a corner (R354). -/
def inBlend (b : List Byte) (blend : W32) (corner p : List Q) : Bool :=
  fPos blend && (match f32 blend with
    | .fin r => qLe (exactDist2 b p corner) (qMul r r)
    | .inf _ => true
    | _ => false)

/-- The start moves along the first edge, or is at rest. A start that moves otherwise can follow no edge with a bounded
jerk, and the spec does not say how the profile then reaches the path: its stretches on the first edge are held to the
limits only (DESIGN CHOICE, log entry 60). -/
def startsAlong (path : List (List W32)) (m : List Along) : Bool :=
  let a := exactly (path.getD 0 [])
  let e := List.zipWith qSub (exactly (path.getD 1 [])) a
  match along e (m.map Along.v), along e (m.map Along.a) with
  | some v, some _ => qLe qZero v
  | _, _ => false

/-- The setpoint period in seconds (the PERIOD code). -/
def periodOf (code : Nat) : Q := qFrac (2 ^ min 4 code) 16000

/-- The shaped duration in setpoint periods: the items of the trajectory (R355, R356). -/
def itemCount (l : List Stretch) (code : Nat) : Nat :=
  max 1 (-(qFloor (qNeg (qDiv (qSum (l.map Stretch.dur)) (periodOf code))))).toNat

/-- The exact state and the place of each item, from the first after the splice (R355). -/
def itemStates (l : List Stretch) (m : List Along) (code : Nat) : List (List Along × Nat) :=
  (List.range (itemCount l code)).map (fun k => stateAt l m 0 (qMul (qInt ((k + 1 : Nat) : Int)) (periodOf code)))

/-- One stretch is where its place says, within the limits. -/
def stretchOk (b : List Byte) (path : List (List W32)) (blends : List W32) (free : Bool) (m : List Along) (s : Stretch) : Bool :=
  let node (i : Nat) := exactly (path.getD i [])
  let e := s.place / 2
  qLt qZero s.dur && decide (s.jerk.length = m.length) && decide (e + 1 < path.length) &&
    (m.zip s.jerk).zipIdx.all (fun x => limitsKept b x.2 x.1.1 x.1.2 s.dur) &&
    (if s.place % 2 = 0 then (free && decide (e = 0)) || onEdge (node e) (node (e + 1)) m s
     else inBlend b (blends.getD (e + 1) 0) (node (e + 1)) (m.map Along.p) &&
       inBlend b (blends.getD (e + 1) 0) (node (e + 1)) ((moveBy m s s.dur).map Along.p))

/-- R353, R354: a profile keeps the limits at every instant, follows the path but for its blends, and ends at rest at the
goal. Inside a blend the distance from the corner is asked for at the ends of stretches and at the items. -/
def profileOk (b : List Byte) (path : List (List W32)) (m : List Along) (code : Nat) (blends : List W32) (l : List Stretch) : Bool :=
  let starts := withStarts l m
  let last := (stateAt l m 0 (qSum (l.map Stretch.dur))).1
  starts.all (fun p => stretchOk b path blends (!(startsAlong path m)) p.1 p.2) &&
    (l.zip (l.drop 1)).all (fun p => decide (p.1.place ≤ p.2.place)) &&
    (itemStates l m code).all (fun p => p.2 % 2 = 0 ||
      inBlend b (blends.getD (p.2 / 2 + 1) 0) (exactly (path.getD (p.2 / 2 + 1) [])) (p.1.map Along.p)) &&
    decide (last.length = (path.getLastD []).length) &&
    (last.zip (exactly (path.getLastD []))).all (fun p => qEq p.1.p p.2 && qIsZero p.1.v && qIsZero p.1.a)

/-! ### A profile that always keeps the rules -/

/-- How many times a limit of a chain description goes into a magnitude. -/
def timesLimit (w : W32) (x : Q) : Q :=
  match f32 w with
  | .fin q => qDiv (qAbs x) q
  | _ => qZero

/-- From rest at `a` to rest at `b`, in four stretches of one duration: jerk up, down, down and up again, in the direction
of the edge. The duration is at least a second, and long enough for every limit. -/
def restEdge (b : List Byte) (a c : List Q) (place : Nat) : List Stretch :=
  let d := List.zipWith qSub c a
  if d.all qIsZero then []
  else
    let tau := (d.zipIdx.flatMap (fun p => [28, 32, 36].map (fun o => qMul (qFrac 1 2) (timesLimit (jointWord b p.2 o) p.1)))).foldl qMax (qInt 1)
    let j := d.map (fun x => qDiv x (qMul (qInt 2) (qMul tau (qMul tau tau))))
    [⟨tau, j, place⟩, ⟨tau, j.map qNeg, place⟩, ⟨tau, j.map qNeg, place⟩, ⟨tau, j, place⟩]

/-- The whole path, with a stop at every node. -/
def restProfile (b : List Byte) (path : List (List W32)) : List Stretch :=
  (path.zip (path.drop 1)).zipIdx.flatMap (fun p => restEdge b (exactly p.1.1) (exactly p.1.2) (2 * p.2))

/-! ### The shaper -/

/-- The free profile, as stretches. -/
def freeProfile (b : List Byte) (path : List (List W32)) (m : List Along) (code : Nat) (blends : List W32) : List Stretch :=
  let frac (x : Q) : Int × Nat := (x.num, x.den)
  (Config.shape path (m.map (fun x => (frac x.p, frac x.v, frac x.a))) b code blends).map (fun t =>
    ⟨qFrac t.1.1 t.1.2, t.2.1.map (fun x => qFrac x.1 x.2), t.2.2⟩)

/-- R353: the profile from a start state: the device's, where it keeps the rules; else, from rest, one with a stop at every
node. None where the start moves and the free profile keeps no rule. -/
def profile (b : List Byte) (path : List (List W32)) (m : List Along) (code : Nat) (blends : List W32) : Option (List Stretch) :=
  let l := freeProfile b path m code blends
  if profileOk b path m code blends l then some l
  else if m.all (fun x => qIsZero x.v && qIsZero x.a) then some (restProfile b path)
  else none

/-- An item's values by joint, and what the shaper holds of it. -/
abbrev Setpoint := List (W32 × W32) × Shaped

/-- A state as a setpoint: position and velocity, each rounded once (R355). -/
def setpointOf (p : List Along × Nat) : Setpoint := (p.1.map (fun x => (fOfQ x.p, fOfQ x.v)), ⟨p.1.map Along.a, p.2⟩)

/-- The exact state the shaper starts from: item S's position and velocity, and the acceleration it holds for S (R353). -/
def startOf (x : Setpoint) : List Along :=
  x.1.zipIdx.map (fun p => ⟨(f32 p.1.1).q, (f32 p.1.2).q, x.2.acc.getD p.2 qZero⟩)

/-- The setpoints of a profile (R355). -/
def setpoints (l : List Stretch) (m : List Along) (code : Nat) : List Setpoint := (itemStates l m code).map setpointOf

/-- What a job starts its trajectory from: item S, the items of the old trajectory after it, and the old path from S on. -/
structure Splice where
  no : W32
  at_ : Setpoint
  later : List Setpoint
  tail : List (List W32)
  deriving DecidableEq, Repr

/-- Where no free profile serves a moving start, the old trajectory runs on to its end, within its limits; the chain goes
back along its path to the configuration of S, and follows the new path from there, with a stop at every node. Answers the
path it takes and the setpoints. -/
def runOn (b : List Byte) (path : List (List W32)) (x : Splice) (code : Nat) : List (List W32) × List Setpoint :=
  let q := path.getD 0 []
  let out := q :: x.tail
  let back := out.reverse ++ path.drop 1
  let e := x.at_.2.place / 2
  let first := x.later.map (fun t => (t.1, { t.2 with place := t.2.place - 2 * e }))
  let rest := (setpoints (restProfile b back) ((back.getD 0 []).map (fun w => ⟨(f32 w).q, qZero, qZero⟩)) code).map (fun t =>
    (t.1, { t.2 with place := t.2.place + 2 * (out.length - 1) }))
  (out ++ back.drop 1, first ++ rest)

/-- The first corner in whose blend two consecutive setpoints form an edge that is rejected (R354). -/
def Plan.badBlend (p : Plan) : List (Setpoint × Setpoint) → POp (Option Nat)
  | [] => pure none
  | (x, y) :: r => do
    if x.2.place % 2 = 1 ∧ x.2.place = y.2.place then
      if ← p.check (x.1.map Prod.fst) (y.1.map Prod.fst) then p.badBlend r else pure (some (x.2.place / 2 + 1))
    else p.badBlend r

/-- R353, R354: shape, and shape again with a corner's blend at zero while a blend holds a rejected pair. -/
def Plan.shapeBlends (p : Plan) (path : List (List W32)) (x : Splice) (code : Nat) : Nat → List W32 → POp (List (List W32) × List Setpoint)
  | 0, _ => pure (path, setpoints (restProfile p.b path) (startOf x.at_) code)
  | n + 1, blends =>
    match profile p.b path (startOf x.at_) code blends with
    | none => pure (runOn p.b path x code)
    | some l => do
      let sp := setpoints l (startOf x.at_) code
      match ← p.badBlend (sp.zip (sp.drop 1)) with
      | none => pure (path, sp)
      | some c => p.shapeBlends path x code n (setAt blends c 0)

/-- R353 to R355: the path as it will be followed, and its setpoints. Every interior node begins with the blend of the
request. -/
def Plan.shaped (p : Plan) (path : List (List W32)) (x : Splice) (code : Nat) : POp (List (List W32) × List Setpoint) :=
  let blends := (List.range path.length).map (fun i => if 0 < i ∧ i + 1 < path.length then wordAt p.req 20 else 0)
  p.shapeBlends path x code (path.length + 1) blends

end Sys2Proof.Machine
end

