-- ==== Sys2Proof/Machine/Planner.lean ====
section
/-! DEFINITION. PLAN jobs (R335 to R339), the live trajectory, repair and installation (R347 to R351, R353
to R355), the feeder (R356 to R359) and the flush of a chain's queue (R360, R361, R394). -/

namespace Sys2Proof.Machine

/-! ### Queues and trajectories -/

/-- `a` lies before `b` in the order of item numbers, modulo 2^32. -/
def before (a b : W32) : Bool := decide (a ≠ b) && decide ((b - a).toNat < 2 ^ 31)

/-- A chain without its live trajectory. -/
def Chain.dropLive (x : Chain) : Chain := { x with live := none, splice := none }

/-- The items a chain's queue holds at most (R356, R357). -/
def aheadOf (s : State) (c : Nat) : Nat := min 4096 (max 1 (getF s (PLN_CH_CFG_AHEAD c)))

/-- FEEDER_COMMIT (R356 to R359): the next item of the live trajectory is written to the store and committed. A stopped
PLAN commits nothing (R620). -/
def feederCommit (s : State) (c : Nat) : State :=
  let x := getChain s c
  match x.live with
  | none => s
  | some l =>
    match l.items with
    | [] => s
    | i :: rest =>
      let stop := match x.splice with
        | some n => before n i.1.number
        | none => false
      if !(flag s PLN_CTL_FEED_EN) || stop || (getClk s 4).stopped || decide (x.queue.length ≥ aheadOf s c) then s
      else
        let s := storePut s 1 ((c * 4096 + i.1.number.toNat % 4096) * 10) 10
        let s := putEmit s c { getEmit s c with committedSince := true }
        putChain s c { x with
          live := some { l with items := rest }, queue := x.queue ++ [i.1], lastItem := i.1.number, everCommitted := true,
          rest := i.1.joints.map Prod.fst, lastSet := some i }

/-- FEEDER_COMMIT. -/
def execFeederCommit (c : Fin 4) (s : State) : Answer := whenReady s (fun s => feederCommit s c)

/-- The chain's rest configuration: the position of its last hold item while it is held, else the last committed item; none
before any item (R347, R397). -/
def restConfig (s : State) (c : Nat) : Option (List W32) :=
  let e := getEmit s c
  let x := getChain s c
  match e.held, e.holdRest with
  | true, some q => some q
  | _, _ => if x.everCommitted then some x.rest else none

/-- The setpoint at rest at a configuration. -/
def restAt (q : List W32) : Setpoint := (q.map (fun w => (w, 0)), ⟨[], 0⟩)

/-- Item `n` as the shaper holds it: among the items still to commit, or the last one committed. -/
def itemAt (x : Chain) (l : Live) (n : W32) : Setpoint :=
  match l.items.find? (fun i => decide (i.1.number = n)), x.lastSet with
  | some i, _ => (i.1.joints, i.2)
  | none, some i => (i.1.joints, i.2)
  | none, none => restAt x.rest

/-- R349: the splice item of a job on a chain with a live trajectory: C + HORIZON where that lies before L, else L; an item
within a blend gives way to the first later one on a straight segment, and never beyond L. -/
def spliceItem (s : State) (c : Nat) (l : Live) : W32 :=
  let x := getChain s c
  let want := x.lastItem + BitVec.ofNat 32 (getF s (PLN_CH_CFG_HORIZON c))
  let n := if before want l.lastNo then want else l.lastNo
  if (itemAt x l n).2.place % 2 = 0 then n
  else match l.items.find? (fun i => before n i.1.number && decide (i.2.place % 2 = 0)) with
    | some i => i.1.number
    | none => l.lastNo

/-- Where a trajectory that replaces the live one begins (R349, R350, R353). -/
def spliceOf (s : State) (c : Nat) (l : Live) : Splice :=
  let x := getChain s c
  let n := spliceItem s c l
  let at_ := itemAt x l n
  ⟨n, at_, (l.items.filter (fun i => before n i.1.number)).map (fun i => (i.1.joints, i.2)), l.path.drop (at_.2.place / 2 + 1)⟩

/-! ### Results (R336) -/

/-- How a PLAN job ends: its code, HOW, the path it found, the nodes it held, the splice item and the duration. -/
structure PlanEnd where
  code : Nat
  how : Nat
  path : List (List W32)
  nodes : Nat
  splice : W32
  duration : Nat
  deriving DecidableEq, Repr

/-- An end without a path. -/
def planEnd (code how nodes : Nat) : PlanEnd := ⟨code, how, [], nodes, 0, 0⟩

/-- A path node as 32 bytes. -/
def nodeBytes (q : List W32) : List Byte := (List.range 8).flatMap (fun j => natLE 4 (q.getD j 0).toNat)

/-- The result record and its path nodes (R336). GEN is the generation on which every path edge stands: of the path found, or
of the live path that was KEPT. -/
def resultBytes (r : PlanEnd) (gen : W32) (queries : Nat) : List Byte :=
  natLE 1 r.code ++ natLE 1 r.how ++ natLE 2 r.path.length ++ natLE 4 (if r.code ≤ 1 then gen.toNat else 0) ++
    natLE 4 (min queries (2 ^ 32 - 1)) ++ natLE 4 r.nodes ++ natLE 4 r.splice.toNat ++ natLE 4 r.duration ++ zeros 40 ++
    r.path.flatMap nodeBytes

/-! ### Installation (R347, R349, R351, R353 to R355, R358) -/

/-- Number the items of a trajectory from S + 1 (R355, R356, R358). -/
def numberItems (start gen : W32) (l : List Setpoint) : List (Item × Shaped) :=
  l.zipIdx.map (fun p => (⟨start + BitVec.ofNat 32 (p.2 + 1), gen, decide (p.2 + 1 = l.length), decide (p.2 = 0), p.1.1⟩, p.1.2))

/-- Places of a path that gains nodes before its first, or loses some. -/
def Shaped.moved (x : Shaped) (gain loss : Nat) : Shaped := { x with place := x.place + 2 * gain - 2 * loss }

/-- R347, R358: the trajectory replaces the chain's live one from item S on. Old items up to S stay, and with them the
edges of the old path on which they, and the last committed item, lie. -/
def installPath (s : State) (p : Plan) (path : List (List W32)) (x : Splice) (items : List Setpoint) : State :=
  let ch := getChain s p.c
  let gen := s.world.gen
  let new := numberItems x.no s.world.word items
  let gens := List.replicate (path.length - 1) gen
  let last := x.no + BitVec.ofNat 32 items.length
  let s := storePut s 4 (p.c * 2 ^ 20) (4 * path.length)
  match ch.live with
  | none =>
    putChain s p.c { ch with
      splice := none, live := some ⟨path, gens, gen, new, last, x.no⟩
      lastSet := ch.lastSet.map (fun i => (i.1, { i.2 with place := 0 })) }
  | some l =>
    let e0 := (match ch.lastSet with | some i => i.2.place | none => 0) / 2
    let es := x.at_.2.place / 2
    let before_ := (l.path.take (es + 1)).drop e0
    let old := l.items.filter (fun i => !(before x.no i.1.number))
    putChain s p.c { ch with
      splice := none
      live := some ⟨before_ ++ path, (l.gens.drop e0).take before_.length ++ gens, gen,
        old.map (fun i => (i.1, i.2.moved 0 e0)) ++ new.map (fun i => (i.1, i.2.moved before_.length 0)), last, x.no⟩
      lastSet := ch.lastSet.map (fun i => (i.1, i.2.moved 0 e0)) }

/-- A path edge and the generation its last check stands on; none before it is checked again. -/
abbrev PathEdge := (List W32 × List W32) × Option Nat

/-- The edge has no check that stands now. -/
def Plan.unsettled (p : Plan) (s : State) (e : PathEdge) : Bool :=
  match e.2 with
  | none => true
  | some g => decide (g ≠ s.world.gen) && isStale s g (sweptBoxes p.b p.reach e.1.1 e.1.2)

/-- Check the unsettled edges in order; none where one is rejected. A check made again counts in WLD_STALE (R328). -/
def Plan.settleOnce (p : Plan) : List PathEdge → POp (Option (List PathEdge))
  | [] => pure (some [])
  | e :: r => do
    let s ← (get : Op State)
    if !(p.unsettled s e) then do pure ((← p.settleOnce r).map (e :: ·))
    else
      if e.2.isSome then (modify (fun s => incF s WLD_STALE_COUNT) : Op Unit)
      let (ok, g) ← p.checker.check e.1.1 e.1.2
      if !ok then pure none
      else do pure ((← p.settleOnce r).map ((e.1, some g) :: ·))

/-- R351: every path edge is checked again, until all stand on one generation; an edge that two re-checks do not settle is
rejected (R328). -/
def Plan.settle (p : Plan) : Nat → List PathEdge → POp Bool
  | 0, _ => pure false
  | n + 1, l => do
    match ← p.settleOnce l with
    | none => pure false
    | some l =>
      let s ← (get : Op State)
      if l.any (p.unsettled s) then p.settle n l else pure true

/-- A path was found: shorten it, shape it, check it again, and install it where the request asks (R347, R351 to R355). A
path that the last check rejects gives NO_PATH (DESIGN CHOICE, log entry 109). -/
def Plan.deliver (p : Plan) (path : List (List W32)) (how : Nat) (x : Splice) (nodes : Nat) : POp PlanEnd := do
  let path ← p.shortcuts (List.range (p.f 3 1)) path
  let s ← (get : Op State)
  let (path, items) ← p.shaped path x (getF s (PLN_CH_CFG_PERIOD p.c))
  if path.length > p.f 28 4 then pure (planEnd 6 how nodes)
  else if !(← p.settle 3 ((path.zip (path.drop 1)).map (fun e => (e, none)))) then pure (planEnd 2 how nodes)
  else
    if p.installs then (modify (fun s => installPath s p path x items) : Op Unit)
    pure ⟨0, how, path, nodes, if p.installs then x.no else 0, items.length⟩

/-! ### Requests -/

/-- Configuration within the joint limits (R338). -/
def Plan.inLimits (p : Plan) (q : List W32) : Bool :=
  (List.range (chainJoints p.b)).all (fun j => fLe (jointWord p.b j 20) (q.getD j 0) && fLe (q.getD j 0) (jointWord p.b j 24))

/-- A configuration is rejected (R338). -/
def Plan.hit (p : Plan) (q : List W32) : POp Bool := do
  if !(p.inLimits q) then pure true
  else
    let ok ← p.check q q
    pure (!ok)

/-- Where a TREE or ROADMAP_QUERY starts (R347 to R349); none where START is not the rest configuration. -/
def Plan.startOf (p : Plan) : Op (Option Splice) := do
  let s ← get
  let x := getChain s p.c
  let start := p.joints 32
  match p.installs, x.live with
  | true, some l => pure (some (spliceOf s p.c l))
  | true, none =>
    if (restConfig s p.c).any (fun r => !((start.zip r).all (fun q => fEq q.1 q.2))) then pure none
    else pure (some ⟨x.lastItem, restAt start, [], []⟩)
  | false, _ => pure (some ⟨0, restAt start, [], []⟩)

/-- What follows the end of a search: none where the search is still at work. -/
def Plan.finish (p : Plan) (o : SearchOut) (how : Nat) (x : Splice) : POp (Option PlanEnd) :=
  match o with
  | .unfinished => pure none
  | .failed k => pure (some (planEnd 2 how k))
  | .found path k => some <$> p.deliver path how x k

/-- START and GOAL are checked, and `search` answers between them (R336, R338, R348); `held` is the nodes held before it. -/
def Plan.between (p : Plan) (held : Nat) (search : List W32 → List W32 → POp SearchOut) : POp (Option PlanEnd) := do
  match ← (p.startOf : Op _) with
  | none => pure (some (planEnd 7 0 held))
  | some x =>
    let start := x.at_.1.map Prod.fst
    let goal := p.joints 64
    if ← p.hit start then pure (some (planEnd 3 0 held))
    else if ← p.hit goal then pure (some (planEnd 4 0 held))
    else
      let o ← search start goal
      p.finish o 0 x

/-- TREE (R343). -/
def Plan.treeJob (p : Plan) : POp (Option PlanEnd) := p.between 0 (fun a b => p.tree a b (p.f 4 4) none)

/-- ROADMAP_GROW (R344). -/
def Plan.growJob (p : Plan) : POp (Option PlanEnd) := do
  let s ← (get : Op State)
  let x := getChain s p.c
  let (ok, nodes, edges) ← p.grow (p.f 4 4) x.roadNodes x.roadEdges
  (modify (fun s =>
    let s := storePut s 2 ((p.c * 65536 + x.roadNodes.length) * 4) (4 * (nodes.length - x.roadNodes.length))
    let s := storePut s 3 (p.c * 2 ^ 20 + x.roadEdges.length) (edges.length - x.roadEdges.length)
    putChain s p.c { getChain s p.c with roadNodes := nodes, roadEdges := edges }) : Op Unit)
  pure (some (planEnd (if ok then Config.growResult.toNat else 6) 0 nodes.length))

/-- ROADMAP_QUERY's search (R346); START and GOAL are not kept. -/
def Plan.querySearch (p : Plan) (start goal : List W32) : POp SearchOut := do
  let s ← (get : Op State)
  let x := getChain s p.c
  let n := x.roadNodes.length
  (storeTake p.who 2 (p.c * 65536 * 4) (4 * n) : Op Unit)
  (storeTake p.who 3 (p.c * 2 ^ 20) x.roadEdges.length : Op Unit)
  let a ← p.near 16 x.roadNodes start
  let b ← p.near 16 x.roadNodes goal
  let edges := x.roadEdges ++ a.map (fun q => ⟨q.2, n, none⟩) ++ b.map (fun q => ⟨q.2, n + 1, none⟩)
  let nodes := x.roadNodes ++ [start, goal]
  let (path, edges) ← p.query nodes n (n + 1) (edges.length + 1) edges
  (modify (fun s => putChain s p.c { getChain s p.c with roadEdges := edges.take x.roadEdges.length }) : Op Unit)
  match path with
  | some l => pure (.found (l.map (fun i => nodes.getD i [])) n)
  | none => pure (.failed n)

/-- Nodes of the chain's roadmap. -/
def roadHeld (s : State) (c : Nat) : Nat := (getChain s c).roadNodes.length

/-- ROADMAP_QUERY. -/
def Plan.queryJob (p : Plan) : POp (Option PlanEnd) := do
  let s ← (get : Op State)
  p.between (roadHeld s p.c) p.querySearch

/-- Check each edge a repair must check again: the first, and those whose result would be stale (R350). -/
def Plan.recheck (p : Plan) : List ((List W32 × List W32) × Nat) → Bool → POp (List Bool)
  | [], _ => pure []
  | (e, gen) :: r, first => do
    let s ← (get : Op State)
    let ok ← if first || isStale s gen (sweptBoxes p.b p.reach e.1 e.2) then p.check e.1 e.2 else pure true
    let rest ← p.recheck r false
    pure (ok :: rest)

/-- Steps 4 and 5 of R350: the section from node `a` to node `b` is grown anew within REPAIR_QUERIES. Where the budget runs
out, the job plans from S to GOAL, or ends NO_PATH with NO_FALLBACK; where NODE_LIMIT is reached first, it ends NO_PATH. -/
def Plan.regrow (p : Plan) (x : Splice) (path : List (List W32)) (a b : Nat) : POp (Option PlanEnd) := do
  modify (fun n => { n with budget := 0 })
  match ← p.tree (path.getD a []) (path.getD b []) (p.f 4 4) (some (p.f 8 4)) with
  | .unfinished => pure none
  | .found mid k => some <$> p.deliver (path.take a ++ mid ++ path.drop (b + 1)) 1 x k
  | .failed k =>
    let n ← get
    if bitOf (p.f 2 1) 1 || decide (n.budget < p.f 8 4) then pure (some (planEnd 2 0 k))
    else if ← p.hit (p.joints 64) then pure (some (planEnd 4 2 k))
    else
      let o ← p.tree (path.getD 0 []) (p.joints 64) (p.f 4 4) none
      p.finish o 2 x

/-- REPAIR (R350). -/
def Plan.repairJob (p : Plan) : POp (Option PlanEnd) := do
  let s ← (get : Op State)
  match (getChain s p.c).live with
  | none => pure (some (planEnd 9 0 0))
  | some l =>
    (storeTake p.who 4 (p.c * 2 ^ 20) (4 * l.path.length) : Op Unit)
    let x := spliceOf s p.c l
    let path := x.at_.1.map Prod.fst :: x.tail
    let oks ← p.recheck ((path.zip (path.drop 1)).zip (l.gens.drop (x.at_.2.place / 2))) true
    match findIdxFrom (fun ok => !ok) oks 0 with
    | none => pure (some (planEnd 1 0 0))
    | some (0, _) =>
      (modify (fun s => putChain (setEvent s PLN_EVENT_PREFIX_HIT) p.c { getChain s p.c with splice := some x.no }) : Op Unit)
      pure (some (planEnd 5 0 0))
    | some (a, _) => p.regrow x path a (((oks.zipIdx.filter (fun q => !q.1)).map Prod.snd).foldl max 0 + 1)

/-- LOAD_CHAIN (R332, R336): a chain's description, its reach, and no roadmap of another description. A STEP
channel bound to the chain only loads its next position (R400). -/
def loadChain (who : Option (Nat × W32)) (k : Nat) (req : List Byte) (c : Nat) : Op Nat := do
  let addr := recNat req 24 4
  let s ← get
  if (getChain s c).live.isSome then pure 8
  else if addr % 64 ≠ 0 then pure 7
  else
    let b ← readVa who k addr 1600 false
    if !(chainOk b) then pure 7
    else
      modify (fun s => putChain s c { getChain s c with desc := some b, reach := chainReach b, roadNodes := [], roadEdges := [] })
      modify (fun s => (List.range 8).foldl (fun s n =>
        if flag s (TTB_STEP_CFG_BIND n) ∧ getF s (TTB_STEP_CFG_CHAIN n) = c then putStep s n { getStep s n with load := true } else s) s)
      pure 10

/-- A request has no reserved or out-of-range field (R335). NODE_LIMIT has a range for the kinds that grow trees or a
roadmap; a blend length is at least 0 (DEDUCED, log entry 110). -/
def requestOk (r : List Byte) : Bool :=
  let kind := recNat r 0 1
  let limit := recNat r 4 4
  decide (kind ≤ 4) && decide (recNat r 1 1 ≤ 3) && decide (recNat r 2 1 < 4) && decide (recNat r 3 1 ≤ 64) && zeroAt r 96 128 &&
    (!(decide (kind = 0 ∨ kind = 3)) || (decide (2 ≤ limit) && decide (limit ≤ 16384))) &&
    (decide (kind ≠ 1) || (decide (1 ≤ limit) && decide (limit ≤ 65536))) &&
    fNonNeg (wordAt r 12) && fLe (wordAt r 12) fOne && fPos (wordAt r 16) && fNonNeg (wordAt r 20)

/-- R335: a request record lies in the basin or the planner store; whether the device takes one that lies elsewhere is free
(log entry 110). -/
def requestPlace (s : State) (k request : Nat) : Bool :=
  match (runOp (translate none k request false false) s).1 with
  | .ok (pa, h) => (!h && (decide (memKind pa = some .basin) || decide (memKind pa = some .store))) || Config.planAnywhere
  | .error _ => true

/-- The work of a request; none where it is still at work. -/
def planRequest (k : Nat) (sub : W32) (seed : W64) (r : List Byte) : Op (Option (PlanEnd × Nat)) := do
  let who := some (k, sub)
  let c := recNat r 1 1
  let s ← get
  let held := if (recNat r 0 1 = 1 ∨ recNat r 0 1 = 2) ∧ c < 4 then roadHeld s c else 0
  if !(requestOk r) then pure (some (planEnd 7 0 held, 0))
  else if recNat r 0 1 = 4 then
    let code ← loadChain who k r c
    pure (some (planEnd code 0 0, 0))
  else
    let x := getChain s c
    match x.desc with
    | none => pure (some (planEnd 9 0 held, 0))
    | some b =>
      let p : Plan := ⟨k, sub, c, b, x.reach, seed, r⟩
      if p.installs && x.live.isSome then modify (fun s => putChain s c { getChain s c with splice := none })
      let work := match recNat r 0 1 with
        | 0 => p.treeJob
        | 1 => p.growJob
        | 2 => p.queryJob
        | _ => p.repairJob
      let (e, x) ← work.run ⟨0, 0, 0⟩
      pure (e.map (fun e => (e, x.queries)))

/-- Write the result record of a PLAN job whose search has ended, and complete it. A fault or a host access
that waits leaves the outcome to be written again (R519, R536). -/
def writePlanned (request : List Byte) (d : Planned) (s : State) (k : Nat) (sub : W32) : State :=
  match runOp (writeVa (some (k, sub)) k (recNat request 24 4) d.record false true (0, 0)) s with
  | (.ok _, s') => endJob s' k sub 0 (some (BitVec.ofNat 32 d.code)) 0
  | (.error st, s') => stopJob s' k sub st

/-- The outcome that a search leaves, and what it counts. A LOAD_CHAIN writes no record, since its ADDR
names the chain description (DEDUCED). -/
def noteOutcome (s : State) (p : Plan) (r : List Byte) (e : PlanEnd) (queries : Nat) : State :=
  let s := if e.how = 1 then incF s PLN_REPAIRS_COUNT else if e.how = 2 then incF s PLN_REPLANS_COUNT else s
  updJob s p.k p.sub (fun x => { x with
    planned := some ⟨if recNat r 0 1 = 4 then [] else resultBytes e s.world.word queries, e.code, p.installs && decide (e.code = 0)⟩ })

/-- Another PLAN job of chain `c` is at work (R339). -/
def chainBusy (s : State) (j : Job) (c : Nat) : Bool :=
  s.jobs.any (fun x => !(x.is j.ctx j.sub) && x.isHeld && decide (x.progress = c + 1) && decide (x.desc.body.performer = 3))

/-- A PLAN job at work. A stop within the search undoes what the command did, so that the search begins
anew; once it has ended, its outcome stands. -/
def planWork (request : Nat) (s : State) (j : Job) : State :=
  match pointMoor s j with
  | some s => s
  | none =>
    let who := some (j.ctx, j.sub)
    match runOp (readVa who j.ctx request 128 false) s with
    | (.error st, s') => stopJob s' j.ctx j.sub st
    | (.ok r, s1) =>
      let c := recNat r 1 1
      match j.planned with
      | some d => writePlanned r d s1 j.ctx j.sub
      | none =>
        if requestOk r && chainBusy s j c then s
        else
          let s1 := updJob s1 j.ctx j.sub (fun x => { x with progress := if requestOk r then c + 1 else 0, hostWait := none })
          match runOp (if requestPlace s1 j.ctx request then planRequest j.ctx j.sub j.desc.seed r
            else pure (some (planEnd 7 0 0, 0))) s1 with
          | (.ok (some (e, q)), s2) =>
            let s2 := noteOutcome s2 ⟨j.ctx, j.sub, c, [], [], j.desc.seed, r⟩ r e q
            match (findJob s2 j.ctx j.sub).bind Job.planned with
            | some d => writePlanned r d s2 j.ctx j.sub
            | none => s2
          | (.ok none, _) => s1
          | (.error (.fail st d q), s') => stopJob s' j.ctx j.sub (.fail st d q)
          | (.error st, _) => stopJob s1 j.ctx j.sub st

/-- The body is a PLAN. -/
def JobBody.isPlan : JobBody → Bool
  | .plan _ => true
  | _ => false

/-- The request a PLAN job names, where it can be read; reading it here has no effect. -/
def requestOf (s : State) (j : Job) : Option (List Byte) :=
  match j.desc.body with
  | .plan r => (runOp (readVa (some (j.ctx, j.sub)) j.ctx r 128 false) s).1.toOption
  | _ => none

/-- The chain a PLAN job works on; none where its request is bad or cannot be read. -/
def requestChain (s : State) (j : Job) : Option Nat :=
  match requestOf s j with
  | some r => if requestOk r then some (recNat r 1 1) else none
  | none => none

/-- R339: no PLAN job of the same chain is at work, and none admitted before it waits to start. -/
def chainTurn (s : State) (j : Job) : Bool :=
  match requestChain s j with
  | some c => !(chainBusy s j c) && (s.jobs.takeWhile (fun x => !(x.is j.ctx j.sub))).all (fun x =>
      !(x.desc.body.isPlan && mayStart s x && decide (requestChain s x = some c)))
  | none => true

/-- A PLAN job of KIND `kind`, or of a reserved KIND, or of one that cannot be read. -/
def planJob (s : State) (k : Nat) (sub : W32) (kind : Nat) : State :=
  match (findJob s k sub).bind (requestOf s) with
  | some r => if recNat r 0 1 = kind ∨ recNat r 0 1 > 4 then go else s
  | none => go
where
  go : State := performWhen s k sub JobBody.isPlan (chainTurn s) (fun s j => match j.desc.body with
    | .plan r => planWork r s j
    | _ => s)

/-- R394, R398, R360: committed, unemitted items and the live trajectory of chain `c` are discarded, and the PLAN jobs of
the chain that have been fetched and have not installed complete FLUSHED. A PLAN job at work keeps its chain's number, plus
one, as its progress. -/
def flushChain (s : State) (c : Nat) : State :=
  let s := putChain s c { (getChain s c).dropLive with queue := [] }
  let s := putEmit s c { getEmit s c with committedSince := false, resumed := false }
  s.jobs.foldl (fun s j =>
    if j.desc.body.isPlan && !j.isDone && !(j.planned.any Planned.installed) &&
      (decide (j.progress = c + 1) || decide (requestChain s j = some c)) then endJob s j.ctx j.sub 4 none 0 else s) s

/-- PLAN_TREE. -/
def execPlanTree (k : Fin 8) (sub : W32) (s : State) : Answer := whenReadyMem s (fun s => planJob s k sub 0)
/-- PLAN_ROADMAP_GROW. -/
def execPlanRoadmapGrow (k : Fin 8) (sub : W32) (s : State) : Answer := whenReadyMem s (fun s => planJob s k sub 1)
/-- PLAN_ROADMAP_QUERY. -/
def execPlanRoadmapQuery (k : Fin 8) (sub : W32) (s : State) : Answer := whenReadyMem s (fun s => planJob s k sub 2)
/-- PLAN_REPAIR. -/
def execPlanRepair (k : Fin 8) (sub : W32) (s : State) : Answer := whenReadyMem s (fun s => planJob s k sub 3)
/-- PLAN_LOAD_CHAIN. -/
def execPlanLoadChain (k : Fin 8) (sub : W32) (s : State) : Answer := whenReadyMem s (fun s => planJob s k sub 4)

end Sys2Proof.Machine
end

