-- ==== Sys2Proof/Machine/Emit.lean ====
section
/-! DEFINITION. Emission: setpoint items into template frames and pulse trains, late handling and hold
(R390 to R401), the Ethernet MACs' queues and gates (R402 to R410), capture (R411 to R414), and HOLD_N
(R415, R416). -/

namespace Sys2Proof.Machine

/-- Region `r` is being reinitialised (R558). -/
def reinitOn (s : State) (r : Nat) : Bool := bitOf (getF s ERR_REGION_STAT_REINIT) r

/-! ### Templates (R407 to R410) -/

/-- Byte `b` of template `t`'s slot (R407). -/
def tplByte (s : State) (t b : Nat) : Byte :=
  BitVec.ofNat 8 ((smGet 0 s.rtio.templates (t * 512 + b / 4)).toNat / 2 ^ (8 * (b % 4)))

/-- LENGTH of template `t`; above its range it acts as 1,500 (DEDUCED, log entry 68). -/
def tplLength (s : State) (t : Nat) : Nat := min 1500 (getF s (ETH_TPL_CFG_LENGTH t))

/-- R407: the MAC pads a frame to 60 bytes. -/
def padFrame (l : List Byte) : List Byte := l ++ zeros (60 - l.length)

/-- What one emitted item carries: its joints, and the NUMBER its frames show (R409). -/
structure Emitted where
  joints : List (W32 × W32)
  number : W32
  deriving DecidableEq, Repr

/-- R408: the value a patch entry names. A joint beyond the item's reads 0 (DEDUCED). -/
def patchValue (s : State) (t : Nat) (e : Emitted) (joint field : Nat) : Val :=
  let j := e.joints.getD joint (0, 0)
  match field with
  | 0 => f32 j.1
  | 1 => f32 j.2
  | 2 => valOf (qInt (e.number.toNat : Int))
  | _ => valOf (qInt ((smGet 0 s.rtio.tplSent t).toNat : Int))

/-- R409: round_ne(value × SCALE), saturated to `n` bits. -/
def patchInt (n : Nat) (v scale : Val) : Nat :=
  let hi : Int := (2 ^ (n - 1) : Nat) - 1
  let lo : Int := -((2 ^ (n - 1) : Nat) : Int)
  match (vMul v scale).1 with
  | .nan _ => 0
  | .inf neg => ofSigned n (if neg then lo else hi)
  | .zero _ => 0
  | .fin q => ofSigned n (max lo (min hi (qRne q)))

/-- R408: the bytes a patch writes; none for the reserved FORMAT 3. -/
def patchBytes (v : Val) (format : Nat) (scale : W32) (big : Bool) : Option (List Byte) :=
  let l := match format with
    | 0 => some (natLE 4 (toF32 v).toNat)
    | 1 => some (natLE 4 (patchInt 32 v (f32 scale)))
    | 2 => some (natLE 2 (patchInt 16 v (f32 scale)))
    | _ => none
  if big then l.map List.reverse else l

/-- R408: one patch entry applied to the frame; true when it is bad. -/
def applyPatch (s : State) (t : Nat) (e : Emitted) (f : List Byte) (i : Nat) : List Byte × Bool :=
  let p := (List.range 8).map (fun b => tplByte s t (1536 + 8 * i + b))
  if !(bitOf (recNat p 3 1) 0) then (f, false)
  else
    let c := recNat p 2 1
    let off := recNat p 0 2
    match patchBytes (patchValue s t e (bitsOf c 2 0) (bitsOf c 4 3)) (bitsOf c 6 5) (BitVec.ofNat 32 (recNat p 4 4)) (bitOf c 7) with
    | some l => if off + l.length > f.length then (f, true) else (f.take off ++ l ++ f.drop (off + l.length), false)
    | none => (f, true)

/-- R408: the frame of template `t` for an item. -/
def buildFrame (s : State) (t : Nat) (e : Emitted) : List Byte × Bool :=
  (List.range 16).foldl (fun (p : List Byte × Bool) i =>
    let (f, bad) := applyPatch s t e p.1 i
    (f, p.2 || bad)) ((List.range (tplLength s t)).map (tplByte s t), false)

/-- Queue the frame of template `t` when it is bound to chain `c` and its MAC is on. -/
def emitTemplate (c : Nat) (e : Emitted) (s : State) (t : Nat) : State :=
  let m := getF s (ETH_TPL_CFG_MAC t)
  if flag s (ETH_TPL_CFG_EN t) ∧ getF s (ETH_TPL_CFG_CHAIN t) = c ∧ flag s (ETH_MAC_CTL_EN m) then
    let (f, bad) := buildFrame s t e
    let s := if bad then setEvent s ETH_EVENT_PATCH_BAD else s
    let x := getMac s m
    putMac s m { x with txq := x.txq ++ [⟨t, getF s (ETH_TPL_CFG_CLASS t), padFrame f, false⟩] }
  else s

/-! ### Bound STEP channels (R399 to R401) -/

/-- The setpoint period of chain `c` in nanoseconds. -/
def periodNs (s : State) (c : Nat) : Nat := 62500 * 2 ^ min 4 (getF s (PLN_CH_CFG_PERIOD c))

/-- WIDTH of STEP channel `n` in RTIO cycles. -/
def stepWidth (s : State) (n : Nat) : Nat := max 1 (getF s (TTB_STEP_CFG_WIDTH n))

/-- R399, R400: round_ne(p × SPU), saturated to 64 bits; none for a NaN or infinite product. -/
def stepTarget (p spu : W32) : Option Int :=
  match (vMul (f32 p) (f32 spu)).1 with
  | .zero _ => some 0
  | .fin q => some (max (-((2 ^ 63 : Nat) : Int)) (min ((2 ^ 63 : Nat) - 1) (qRne q)))
  | _ => none

/-- Start a train of `total` pulses, pulse i at floor(i × num ÷ den) cycles after `base`; each pulse emitted moves the
position register by `stride`. -/
def startTrain (s : State) (n base total num den : Nat) (stride : Int) : State :=
  putStep s n { getStep s n with base := base, started := 0, total := total, num := num, den := max 1 den, stride := stride }

/-- STEP channel `n` with BIND set takes an item of chain `c` (R399 to R401). An item that asks for more pulses than one
item may emit counts as meeting the limit. DIRn is driven only while the channel is enabled (R417). -/
def stepItem (c : Nat) (e : Emitted) (s : State) (n : Nat) : State :=
  let joint := getF s (TTB_STEP_CFG_JOINT n)
  if flag s (TTB_STEP_CFG_BIND n) ∧ getF s (TTB_STEP_CFG_CHAIN n) = c ∧ joint < e.joints.length then
    match stepTarget (e.joints.getD joint (0, 0)).1 (getReg s (TTB_STEP_SPU_SPU n).key) with
    | none => s
    | some v =>
      let x := getStep s n
      if x.load then putStep s n { x with nPrev := v, load := false }
      else if v = x.nPrev then s
      else
        let want := (v - x.nPrev).natAbs
        let period := periodNs s c / 2
        let k := min want (period / (2 * stepWidth s n))
        let up := decide (v > x.nPrev)
        let s := if k < want then setEvent (incF s TTB_STEP_OVR_COUNT) TTB_EVENT_STEP_OVR else s
        startTrain (putStep s n { x with dir := up && flag s (TTB_STEP_CFG_EN n) }) n (rtioNow s) k period want (if up then 1 else -1)
  else s

/-- Every bound template and STEP channel takes the item (R391). -/
def sendItem (s : State) (c : Nat) (e : Emitted) : State :=
  let s := putEmit s c { getEmit s c with emitted := some e.joints }
  let s := (List.range 16).foldl (emitTemplate c e) s
  (List.range 8).foldl (stepItem c e) s

/-! ### Hold (R393 to R398) -/

/-- R394: chain `c` enters hold; its queue is flushed. -/
def enterHold (s : State) (c : Nat) (ramp : Bool) : State :=
  let s := flushChain s c
  putEmit s c { getEmit s c with held := true, ramp := ramp, holdPending := false, holdRest := none }

/-- R395: one joint of a RAMP_HOLD item. -/
def rampItem (dec t p v : W32) : W32 × W32 :=
  let dv := fMul dec t
  let v2 := if fLt dv v then fSub v dv else if fLt v (dv ^^^ 0x80000000) then fAdd v dv else 0
  (fAdd p (fMul (fMul (fAdd v v2) 0x3F000000) t), v2)

/-- The joints of the item before a hold item: the last emitted, or the rest configuration at rest. -/
def lastJoints (s : State) (c : Nat) : List (W32 × W32) :=
  ((getEmit s c).emitted).getD ((getChain s c).rest.map (fun q => (q, 0)))

/-- R393, R395: the joints of a hold item. -/
def holdJoints (s : State) (c : Nat) : List (W32 × W32) :=
  let t := fOfQ (qFrac (periodNs s c : Int) 1000000000)
  (lastJoints s c).zipIdx.map (fun q =>
    if (getEmit s c).ramp then rampItem (getReg s (TTB_CH_DEC_DEC (8 * c + q.2)).key) t q.1.1 q.1.2 else (q.1.1, 0))

/-- A hold item goes out; its position is the chain's rest configuration (R397). -/
def sendHold (s : State) (c : Nat) : State :=
  let js := holdJoints s c
  let s := if js.isEmpty then s else putEmit s c { getEmit s c with holdRest := some (js.map Prod.fst) }
  sendItem s c ⟨js, (getEmit s c).lastNumber⟩

/-- R393: chain `c` is late; LATE 3 acts as 0. -/
def lateChain (s : State) (c : Nat) : State :=
  let s := setEvent (incF s TTB_LATE_COUNT) TTB_EVENT_LATE
  match getF s (TTB_CH_CTL_LATE c) with
  | 1 => enterHold s c true
  | 2 => s
  | _ => enterHold s c false

/-- R396: the held chain leaves hold at this instant; not while HOLD_N is low (R416). -/
def leavesHold (s : State) (c : Nat) : Bool :=
  let e := getEmit s c
  !s.rtio.holdLow && (lastJoints s c).all (fun q => fEq q.2 0) &&
    ((flag s (TTB_CH_CTL_AUTO_RESUME c) && e.committedSince) || e.resumed)

/-- What is emitted once hold is settled: a hold item, the oldest committed item, or a late event. -/
def emitNext (s : State) (c : Nat) : State :=
  if (getEmit s c).held then sendHold s c
  else
    match (getChain s c).queue with
    | i :: rest =>
      let s := putChain s c { getChain s c with queue := rest }
      let e := getEmit s c
      let s := putEmit s c { e with lastNumber := i.number, run := e.run && !i.last }
      sendItem s c ⟨i.joints, i.number⟩
    | [] =>
      let s := lateChain s c
      if (getEmit s c).held then sendHold s c else s

/-- An emission instant of chain `c` (R391, R393, R396); none while RTIO is reinitialised (R561). -/
def emissionInstant (s : State) (c : Nat) : State :=
  if !(flag s (TTB_CH_CTL_EMIT_EN c)) || reinitOn s 7 then s
  else
    let s := if (getEmit s c).holdPending then enterHold s c (flag s (TTB_CH_CTL_HOLD_PROFILE c)) else s
    let e := getEmit s c
    emitNext (if e.held && leavesHold s c then putEmit s c { e with held := false, holdRest := none } else s) c

/-- The time base a RUN counts its period in: gPTP nanoseconds of a MAC, or RTIO cycles (R390). -/
def runClock (s : State) (base : Option Nat) : Nat :=
  match base with
  | some m => (getMac s m).gptp
  | none => rtioNow s

/-- The setpoint period of chain `c` in that time base. -/
def runPeriod (s : State) (c : Nat) (base : Option Nat) : Nat :=
  match base with
  | some _ => periodNs s c
  | none => periodNs s c / 2

/-- EMISSION_INSTANT: the next instant of a running chain has come (R390). -/
def runInstant (s : State) (c : Nat) : State :=
  let e := getEmit s c
  if e.run && decide (runClock s e.runGptp ≥ e.nextAt) then
    emissionInstant (putEmit s c { e with nextAt := e.nextAt + runPeriod s c e.runGptp }) c
  else s

/-- EMISSION_INSTANT. -/
def execEmissionInstant (c : Fin 4) (s : State) : Answer := whenReady s (fun s => runInstant s c)

/-- R396: a write of 1 to TTB_CHc_CTL.RESUME. -/
def chainResume (s : State) (c : Nat) : State := putEmit s c { getEmit s c with resumed := true }

/-! ### Pulses (R384, R401) -/

/-- STEP_PULSE: the pulse at work falls, or the next of the train starts, at its RTIO cycle. A channel that is not enabled
emits none of the pulses whose time comes (R417); the position register follows those emitted (R401). -/
def stepPulse (s : State) (n : Nat) : State :=
  let x := getStep s n
  if x.level then if rtioNow s ≥ x.fallAt then putStep s n { x with level := false } else s
  else
    let at_ := x.base + x.started * x.num / max 1 x.den
    if x.started < x.total ∧ rtioNow s ≥ at_ then
      if flag s (TTB_STEP_CFG_EN n) then
        putStep s n { x with level := true, started := x.started + 1, nPrev := x.nPrev + x.stride, fallAt := at_ + stepWidth s n }
      else putStep s n { x with started := x.started + 1 }
    else s

/-- STEP_PULSE. -/
def execStepPulse (n : Fin 8) (s : State) : Answer := whenReady s (fun s => stepPulse s n)

/-- R415, R561: a STEP train stops after its current pulse. -/
def stopTrain (s : State) (n : Nat) : State := let x := getStep s n; putStep s n { x with total := x.started }

/-- R415, R561: enabled TOUT balls whose HOLD_APPLY is 1 take HOLD_VAL, and every STEP train stops. -/
def holdOutputs (s : State) : State :=
  let m : BitVec 8 := BitVec.ofNat 8 (getF s TTB_OUT_CFG_TOUT_EN) &&& BitVec.ofNat 8 (getF s TTB_OUT_CFG_HOLD_APPLY)
  let v : BitVec 8 := BitVec.ofNat 8 (getF s TTB_OUT_CFG_HOLD_VAL)
  (List.range 8).foldl stopTrain { s with rtio := { s.rtio with tout := (s.rtio.tout &&& ~~~m) ||| (v &&& m) } }

/-- HOLD_N_ASSERT: the five responses of R415. -/
def holdAssert (s : State) : State :=
  let s := { s with rtio := { s.rtio with holdLow := true } }
  let s := (List.range 4).foldl (fun s c => enterHold s c (flag s (TTB_CH_CTL_HOLD_PROFILE c))) s
  setEvent (holdOutputs s) TTB_EVENT_HOLD_IN

/-- HOLD_N_ASSERT. -/
def execHoldNAssert (s : State) : Answer := whenReady s holdAssert

/-- HOLD_N_RELEASE (R416): no output and no chain changes. -/
def execHoldNRelease (s : State) : Answer :=
  whenReady s (fun s => { s with rtio := { s.rtio with holdLow := false } })

/-! ### Ethernet (R402 to R406) -/

/-- TEMPLATE_WORD_WRITE (R410): a write to ETH_TPL_DATA, whose value the register already holds, stores the
word unless its template is enabled. -/
def templateStore (s : State) : State :=
  let w := getF s ETH_TPL_SEL_WORD
  if flag s (ETH_TPL_CFG_EN (w / 512)) then setEvent s ETH_EVENT_TPL_BUSY
  else { s with rtio := { s.rtio with templates := smPut 0 s.rtio.templates w (getReg s ETH_TPL_DATA_DATA.key) } }

/-- What an unlisted word of a gate control list reads as: every gate open, the end of the list. -/
def gateReset : W32 := 0xFF

/-- QBV_ENTRY_WRITE. -/
def qbvEntryWrite (s : State) (m : Nat) : State :=
  let x := getMac s m
  putMac s m { x with store := smPut gateReset x.store (getF s (ETH_MAC_QBV_SEL_ENTRY m)) (getReg s (ETH_MAC_QBV_DATA_GATES m).key) }

/-- Base time of MAC `m`'s list in gPTP nanoseconds. -/
def qbvBase (s : State) (m : Nat) : Nat := getF s (ETH_MAC_QBV_BASE_LO_NS m) + 2 ^ 32 * getF s (ETH_MAC_QBV_BASE_HI_NS m)

/-- Cycle time of MAC `m`'s list, at the nearest end of its range when it lies outside (DEDUCED). -/
def qbvCycle (s : State) (m : Nat) : Nat := min 1000000000 (max 1000 (getF s (ETH_MAC_QBV_CYCLE_NS m)))

/-- QBV_SWAP (R405): the stored list waits for the first cycle start after the write, which `activeFrom`
then names. -/
def qbvSwap (s : State) (m : Nat) : State :=
  let x := getMac s m
  let b := qbvBase s m
  let c := qbvCycle s m
  putMac s m { x with swapArmed := true, activeFrom := if x.gptp < b then b else b + ((x.gptp - b) / c + 1) * c }

/-- QBV_CYCLE_START: the armed list takes effect. -/
def qbvCycleStart (s : State) (m : Nat) : State :=
  let x := getMac s m
  if x.swapArmed && decide (x.gptp ≥ x.activeFrom) then putMac s m { x with active := x.store, swapArmed := false } else s

/-- QBV_CYCLE_START. -/
def execQbvCycleStart (m : Fin 2) (s : State) : Answer := whenReady s (fun s => qbvCycleStart s m)

/-- The gate list from entry `i`, as gates and nanoseconds, up to the end of the cycle; the last state lasts
until then. -/
def gateList (active : SMap W32) : Nat → Nat → Nat → Nat → List (Nat × Nat)
  | 0, _, left, last => [(last, left)]
  | f + 1, i, left, last =>
    let w := smGet gateReset active i
    let n := 8 * fieldOf w 31 8
    if n = 0 ∨ i ≥ 256 then [(if i = 0 then 0xFF else last, left)]
    else if n ≥ left then [(fieldOf w 7 0, left)]
    else (fieldOf w 7 0, n) :: gateList active f (i + 1) (left - n) (fieldOf w 7 0)

/-- Nanoseconds for which the gate of class `k` stays open from `p` nanoseconds into the list; 0 when it is
closed there. -/
def openFor (k : Nat) : List (Nat × Nat) → Nat → Nat
  | [], _ => 0
  | (g, n) :: r, p =>
    if p ≥ n then openFor k r (p - n)
    else if bitOf g k then (n - p) + (if bitOf (match r with | (g', _) :: _ => g' | [] => 0) k then openFor k r 0 else 0) else 0

/-- The part of a run of gate states after its first `t` nanoseconds. -/
def gatesAfter : List (Nat × Nat) → Nat → List (Nat × Nat)
  | [], _ => []
  | (g, n) :: r, t => if t ≥ n then gatesAfter r (t - n) else (g, n - t) :: r

/-- The first `t` nanoseconds of a run of gate states. -/
def gatesUntil : List (Nat × Nat) → Nat → List (Nat × Nat)
  | [], _ => []
  | (g, n) :: r, t => if t ≤ n then [(g, t)] else (g, n) :: gatesUntil r (t - n)

/-- The gate states of MAC `m` from now on, for more than a frame's time: open until the base time, then the active list
cycle by cycle, and from its cycle start on a list that waits for it (R405). -/
def gateTimeline (s : State) (m : Nat) : List (Nat × Nat) :=
  let x := getMac s m
  let b := qbvBase s m
  let c := qbvCycle s m
  let cycles (l : SMap W32) : List (Nat × Nat) := (List.replicate 16 (gateList l 256 0 c 0xFF)).flatten
  let now := if x.gptp < b then (0xFF, b - x.gptp) :: cycles x.active else gatesAfter (cycles x.active) ((x.gptp - b) % c)
  if !x.swapArmed then now
  else if x.gptp < x.activeFrom then gatesUntil now (x.activeFrom - x.gptp) ++ cycles x.store
  else gatesAfter (cycles x.store) ((x.gptp - x.activeFrom) % c)

/-- A frame of `ns10` tenths of a nanosecond may start on MAC `m` now: it ends before its gate closes. -/
def gateAllows (s : State) (m k ns10 : Nat) : Bool :=
  !(flag s (ETH_MAC_CTL_QBV_EN m)) || decide (10 * openFor k (gateTimeline s m) 0 ≥ ns10)

/-- Tenths of a nanosecond a byte takes (R402); SPEED 3 acts as 2. -/
def byteTime (s : State) (m : Nat) : Nat :=
  match getF s (ETH_MAC_CTL_SPEED m) with
  | 0 => 80
  | 1 => 32
  | _ => 8

/-- One bit of the reflected CRC-32 of IEEE 802.3. -/
def fcsBit (c : W32) : W32 := if c.getLsbD 0 then (c >>> 1) ^^^ 0xEDB88320 else c >>> 1

/-- The frame check sequence the MAC adds (R407; PRESUMED: IEEE 802.3). -/
def fcs (l : List Byte) : List Byte :=
  natLE 4 (~~~(l.foldl (fun c b => iter fcsBit 8 (c ^^^ b.zeroExtend 32)) (0xFFFFFFFF : W32))).toNat

/-- The first waiting frame of the highest class whose gate lets it start (PRESUMED: strict priority of IEEE
802.1Q between classes; queue order within one). -/
def nextFrame (s : State) (m : Nat) (q : List Frame) : Option (Nat × Frame) :=
  ((List.range 8).map (fun k => 7 - k)).findSome? (fun k =>
    match findIdxFrom (fun f => decide (f.cls = k)) q 0 with
    | some (i, f) => if gateAllows s m k (byteTime s m * (f.bytes.length + 12)) then some (i, f) else none
    | none => none)

/-- FRAME_TRANSMIT: MAC `m` is on and idle; a frame starts, or the waiting frames go on waiting for their
gates (R405, R410). -/
def frameTransmit (s : State) (m : Nat) : State :=
  let x := getMac s m
  if !(flag s (ETH_MAC_CTL_EN m)) || x.txq.isEmpty || decide (100 * s.now < x.busyUntil) || reinitOn s 7 then s
  else
    match nextFrame s m x.txq with
    | some (i, f) =>
      let s := putMac s m { x with
        txq := x.txq.eraseIdx i, busyUntil := 100 * s.now + byteTime s m * (f.bytes.length + 24) }
      let s := incF (incF s (if m = 0 then ETH_TX0_COUNT else ETH_TX1_COUNT)) ETH_TPL_SENT_COUNT
      let s := { s with rtio := { s.rtio with tplSent := smPut 0 s.rtio.tplSent f.tpl (smGet 0 s.rtio.tplSent f.tpl + 1) } }
      let s := if f.waited then incF s ETH_GATE_LATE_COUNT else s
      { s with out := { s.out with frames := (m, f.bytes ++ fcs f.bytes) :: s.out.frames } }
    | none => putMac s m { x with txq := x.txq.map (fun f => { f with waited := true }) }

/-- FRAME_TRANSMIT. -/
def execFrameTransmit (m : Fin 2) (s : State) : Answer := whenReady s (fun s => frameTransmit s m)

/-! ### Capture (R411 to R414) -/

/-- The CSI-2 data types of R411, by their codes (PRESUMED: MIPI CSI-2). -/
def csiSupported (dt : Nat) : Bool := [0x1E, 0x24, 0x2A, 0x2B, 0x2C, 0x2D, 0x2E].contains dt || decide (0x30 ≤ dt ∧ dt ≤ 0x37)

/-- CSI_FRAME_START: channel `n` begins to receive a frame of its virtual channel and data type. -/
def csiFrameStart (s : State) (n vc dt : Nat) : State :=
  if flag s (CAP_CH_CFG_EN n) ∧ getF s (CAP_CH_CFG_VC n) = vc ∧ getF s (CAP_CH_CFG_DATATYPE n) = dt ∧ csiSupported dt ∧ !(reinitOn s 7) then
    { s with rtio := { s.rtio with receiving := smPut false s.rtio.receiving n true } }
  else s

/-- CSI_FRAME_START. -/
def execCsiFrameStart (n : Fin 4) (vc : Fin 4) (dataType : BitVec 6) (s : State) : Answer :=
  whenReady s (fun s => csiFrameStart s n vc dataType.toNat)

/-- R412: pixels packed `g` to a group, `b` low bits each after `g` high bytes, as 16-bit words. -/
def unpackRaw (g b : Nat) : Nat → List Byte → List Byte
  | 0, _ => []
  | f + 1, l =>
    let n := g + g * b / 8
    if l.isEmpty then []
    else if l.length < n then
      let k := 8 * l.length / (8 + b)
      let low := recNat l k (l.length - k)
      (List.range k).flatMap (fun i => natLE 2 (recNat l i 1 * 2 ^ b + low / 2 ^ (b * i) % 2 ^ b))
    else
      let low := recNat l g (g * b / 8)
      (List.range g).flatMap (fun i => natLE 2 (recNat l i 1 * 2 ^ b + low / 2 ^ (b * i) % 2 ^ b)) ++ unpackRaw g b f (l.drop n)

/-- R412: a received payload as it is stored. -/
def storedFrame (dt : Nat) (l : List Byte) : List Byte :=
  match dt with
  | 0x2B => unpackRaw 4 2 l.length l
  | 0x2C => unpackRaw 2 4 l.length l
  | 0x2D => unpackRaw 4 6 l.length l
  | _ => l

/-- FRAME_LANDING (R412 to R414): the payload received, and whether it had an uncorrectable header or a CRC
error. -/
def frameLanding (s : State) (n : Nat) (bytes : List Byte) (bad : Bool) : State :=
  if !(smGet false s.rtio.receiving n) || !(flag s (CAP_CH_CFG_EN n)) || reinitOn s 7 then s
  else
    let s := { s with rtio := { s.rtio with receiving := smPut false s.rtio.receiving n false } }
    let size := getF s (CAP_CH_SIZE_BYTES n)
    let l := storedFrame (getF s (CAP_CH_CFG_DATATYPE n)) bytes
    let buf := getF s (CAP_CH_FRAMES_COUNT n) % (getF s (CAP_CH_CFG_BUFFERS n) + 1)
    let at_ := getF s (CAP_CH_BASE_OFFSET n) / 256 * 256 + buf * size
    let bad := bad || decide (l.length > size)
    let s := (runOp (writeDev none (basinBase + at_) ((l.take size).take (basinSize - at_))) s).2
    let s := incF s (CAP_CH_FRAMES_COUNT n)
    let s := setF (setF s (CAP_CH_LAST_BUFFER n) buf) (CAP_CH_LAST_BAD n) (b2n bad)
    let v := (getAxis s (getF s (CAP_CH_CFG_STAMP_AXIS n))).value
    let s := setF (setF s (CAP_CH_STAMP_LO_VALUE n) v) (CAP_CH_STAMP_HI_VALUE n) (v / 2 ^ 32)
    if bad then incF s (CAP_CH_ERR_COUNT n) else s

end Sys2Proof.Machine
end

