-- ==== Sys2Proof/Machine/Timetable.lean ====
section
/-! DEFINITION. The timetable: axes and their sources (R365 to R371), entries (R372 to R380), actions
(R381 to R384), windows (R385, R386) and deadlines (R387 to R389). -/

namespace Sys2Proof.Machine

/-! ### Axes (R365 to R371) -/

/-- SOURCE of axis `a`. -/
def axisSource (s : State) (a : Nat) : Nat := getF s (TTB_AX_CFG_SOURCE a)
/-- CHANNEL of axis `a`. -/
def axisChannel (s : State) (a : Nat) : Nat := getF s (TTB_AX_CFG_CHANNEL a)

/-- The modulus M of axis `a`, in units of 2^-16 (R366). -/
def axisMod (s : State) (a : Nat) : Nat :=
  let w := getF s (TTB_AX_WRAP_LO_WRAP a) + 2 ^ 32 * getF s (TTB_AX_WRAP_HI_WRAP a)
  if axisSource s a = 4 then 2 ^ 32 else if w = 0 then 2 ^ 64 else w * 2 ^ 16

/-- The signed difference x − y modulo `m`, in the range −m/2 < d ≤ m/2 (R367). -/
def signedDiff (m x y : Nat) : Int :=
  let r := (x + m - y % m) % m
  if 2 * r ≤ m then (r : Int) else (r : Int) - (m : Int)

/-- A field of an entry's 256 bits (R372). -/
def entField (b : BitVec 256) (hi lo : Nat) : Nat := bitsOf b.toNat hi lo

/-- R379: a reserved ACTION or MODE. -/
def entryReserved (b : BitVec 256) : Bool :=
  let action := entField b 134 132
  decide (action = 7) || (decide (action = 2) && decide (entField b 101 100 = 3))

/-- The entry may fire now (R375, R380, R561). -/
def entryMayFire (s : State) (e : Entry) : Bool :=
  flag s TTB_CTL_TT_EN && !(reinitOn s 7) && !(entryReserved e.bits) &&
    (!(bitOf e.bits.toNat 135) ||
      match getWindow s (entField e.bits 138 136) with
      | some n => decide (e.firedOpening ≠ some n)
      | none => false)

/-- R374: the axis stands where a fired entry is armed again; `d` is its signed difference from TRIGGER. -/
def entryRearms (e : Entry) (d : Int) : Bool :=
  let h : Int := (entField e.bits 95 64 : Nat)
  match entField e.bits 131 130 with
  | 1 => decide (d ≤ -h)
  | 2 => decide (d ≥ h)
  | _ => decide (d ≥ h) || decide (d ≤ -h)

/-- R373: a move of `d` from signed difference `p` crosses TRIGGER in a direction DIR takes. 'Below' and
'above' are judged along the move (DEDUCED): passing the point half a wrap away is no crossing. -/
def entryCrossed (dir : Nat) (p d : Int) : Bool :=
  (decide (d > 0) && decide (p < 0) && decide (p + d ≥ 0) && (decide (dir = 1) || decide (dir = 3))) ||
    (decide (d < 0) && decide (p ≥ 0) && decide (p + d < 0) && (decide (dir = 2) || decide (dir = 3)))

/-- What a move of axis `a` by `d` from `old` to `new` does to one entry: the entry after it, and whether it
fired (R373 to R375). -/
def entryMove (s : State) (a old new : Nat) (d : Int) (e : Entry) : Entry × Bool :=
  if entField e.bits 129 128 ≠ a ∨ entField e.bits 131 130 = 0 then (e, false)
  else
    let m := axisMod s a
    let trig := entField e.bits 63 0
    let fires := e.armed && entryCrossed (entField e.bits 131 130) (signedDiff m old trig) d && entryMayFire s e
    let e := if fires then { e with
        armed := false
        firedOpening := if bitOf e.bits.toNat 135 then getWindow s (entField e.bits 138 136) else e.firedOpening } else e
    ({ e with armed := e.armed || entryRearms e (signedDiff m new trig) }, fires)

/-- Insert a fired entry by its index. -/
def firedInsert (f : Fired) : List Fired → List Fired
  | [] => [f]
  | g :: r => if f.idx < g.idx then f :: g :: r else g :: firedInsert f r

/-- R376: the entries that fire in RTIO cycle `t`, from one axis or several, act in ascending index, at most 16 a cycle; the
rest wait for a later cycle. Entries of an earlier cycle that wait go first. -/
def enqueueFired (s : State) (l : List Fired) : State :=
  let t := rtioNow s
  let mine (f : Fired) : Bool := decide (f.cycle = t)
  let r := s.rtio
  let all := (r.acting.filter mine ++ r.deferred.filter mine ++ l).foldl (fun q f => firedInsert { f with slot := t } q) []
  let older := r.deferred.filter (fun f => !(mine f))
  let before_ := r.acting.filter (fun f => !(mine f))
  let used := (if r.actCycle = t then r.actCount else 0) + before_.countP (fun f => decide (f.slot = t))
  let room := if older.isEmpty then 16 - used else 0
  addF { s with rtio := { r with
      acting := before_ ++ all.take room, deferred := older ++ all.drop room
      actCycle := t, actCount := if r.actCycle = t then r.actCount else 0 } } TTB_FIRED_COUNT l.length

/-- Axis `a` takes a new value, and the entries it crosses fire (R366, R367, R373). It holds its value while
RTIO is reinitialised (R561). -/
def moveAxis (s : State) (a v : Nat) : State :=
  let m := axisMod s a
  let x := getAxis s a
  let new := v % m
  let d := signedDiff m new x.value
  if d = 0 ∨ reinitOn s 7 then s
  else
    let moved := s.rtio.entries.map (fun p => (p.1, entryMove s a x.value new d p.2))
    let entries := moved.foldl (fun t p => smPut Entry.reset t p.1 p.2.1) s.rtio.entries
    let fired := (moved.filter (fun p => p.2.2)).map (fun p => (⟨p.1, p.2.1.bits, s.writes, rtioNow s, rtioNow s⟩ : Fired))
    let s := putAxis { s with rtio := { s.rtio with entries := entries } } a ⟨new, decide (d > 0), true⟩
    if fired.isEmpty then s else enqueueFired s fired

/-- R369: TTB_AXa_LOAD into the axis; nothing fires, and every entry on the axis is armed. The load is a change of the
axis, so its sign is the direction when it is not zero (R367). -/
def loadAxis (s : State) (a : Nat) : State :=
  if reinitOn s 7 then s
  else
    let v := getF s (TTB_AX_LOAD_LO_VALUE a) + 2 ^ 32 * getF s (TTB_AX_LOAD_HI_VALUE a)
    let entries := s.rtio.entries.foldl (fun t p =>
      if entField p.2.bits 129 128 = a then smPut Entry.reset t p.1 { p.2 with armed := true } else t) s.rtio.entries
    let x := getAxis s a
    let d := signedDiff (axisMod s a) (v % axisMod s a) x.value
    putAxis { s with rtio := { s.rtio with entries := entries } } a
      { x with value := v % axisMod s a, up := if d = 0 then x.up else decide (d > 0) }

/-- The axes that follow channel `n` of source `src`. -/
def axesOn (s : State) (src n : Nat) : List Nat :=
  (List.range 4).filter (fun a => decide (axisSource s a = src) && decide (axisChannel s a = n))

/-- ENC_Z_EDGE (R369). -/
def encZEdge (s : State) (n : Nat) : State :=
  (axesOn s 1 n).foldl (fun s a => if flag s (TTB_AX_CFG_Z_LOAD a) then loadAxis s a else s) s

/-- ENC_Z_EDGE. -/
def execEncZEdge (n : Fin 8) (s : State) : Answer := whenReady s (fun s => encZEdge s n)

/-- The place of a level pair in the quadrature cycle; A leads B upwards (PRESUMED). -/
def quadPhase (ab : Nat) : Nat :=
  match ab with
  | 0 => 0
  | 2 => 1
  | 3 => 2
  | _ => 3

/-- Axis `a` moves by one count, up or down, INVERT reversing it (R365). -/
def countAxis (up : Bool) (s : State) (a : Nat) : State :=
  let m := axisMod s a
  let i := getF s (TTB_AX_INCR_INCR a) % m
  let v := (getAxis s a).value
  moveAxis s a (if xor up (flag s (TTB_AX_CFG_INVERT a)) then v + i else v + m - i)

/-- ENCODER_SAMPLE: the levels of A and B at a sample (R365, R368). -/
def encoderSample (s : State) (n : Nat) (a b : Bool) : State :=
  let old := smGet 0 s.rtio.enc n
  let new := 2 * b2n a + b2n b
  let s := { s with rtio := { s.rtio with enc := smPut 0 s.rtio.enc n new } }
  let axes := axesOn s 1 n
  match (quadPhase new + 4 - quadPhase old) % 4 with
  | 0 => s
  | 1 => axes.foldl (countAxis true) s
  | 3 => axes.foldl (countAxis false) s
  | _ => if axes.isEmpty || reinitOn s 7 then s else setEvent (incF s TTB_QERR_COUNT) TTB_EVENT_QERR

/-- ENCODER_SAMPLE. -/
def execEncoderSample (n : Fin 8) (a b : Bool) (s : State) : Answer := whenReady s (fun s => encoderSample s n a b)

/-- SSI_PERIOD of axis `a` in microseconds. -/
def ssiPeriod (s : State) (a : Nat) : Nat := max 1 (getF s (TTB_AX_CFG_SSI_PERIOD a))

/-- SSI_READ: a serial encoder read of axis `a` starts, one in every SSI_PERIOD (R365, R701). -/
def ssiRead (s : State) (a : Nat) : State :=
  let last := smGet 0 s.rtio.ssiAt a
  if axisSource s a = 2 ∧ axisChannel s a < 4 ∧ (last = 0 ∨ s.now + 1 ≥ last + 100 * ssiPeriod s a) then
    { s with rtio := { s.rtio with
        ssiRun := smPut false s.rtio.ssiRun a true, ssiAt := smPut 0 s.rtio.ssiAt a (s.now + 1) } }
  else s

/-- SSI_READ. -/
def execSsiRead (a : Fin 4) (s : State) : Answer := whenReady s (fun s => ssiRead s a)

/-- The binary number an `n`-bit Gray code stands for. -/
def grayToBinary (n x : Nat) : Nat :=
  (List.range n).foldl (fun acc i =>
    let b := n - 1 - i
    acc + (if xor (bitOf x b) (bitOf acc (b + 1)) then 2 ^ b else 0)) 0

/-- SSI_READ_DONE: the last of SSI_BITS bits is taken (R365); SSI_BITS acts as 8 below and as 48 above its
range (DEDUCED). -/
def ssiReadDone (s : State) (a : Nat) (raw : Nat) : State :=
  if !(smGet false s.rtio.ssiRun a) then s
  else
    let s := { s with rtio := { s.rtio with ssiRun := smPut false s.rtio.ssiRun a false } }
    if axisSource s a ≠ 2 then s
    else
      let n := min 48 (max 8 (getF s (TTB_AX_CFG_SSI_BITS a)))
      let x := raw % 2 ^ n
      let x := if flag s (TTB_AX_CFG_GRAY a) then grayToBinary n x else x
      moveAxis s a (x * getF s (TTB_AX_INCR_INCR a))

/-- SSI_READ_DONE. -/
def execSsiReadDone (a : Fin 4) (raw : BitVec 48) (s : State) : Answer := whenReady s (fun s => ssiReadDone s a raw.toNat)

/-- Mains input `n`. -/
def getMains (s : State) (n : Nat) : Mains := smGet Mains.reset s.rtio.mains n
/-- Replace mains input `n`. -/
def putMains (s : State) (n : Nat) (x : Mains) : State :=
  { s with rtio := { s.rtio with mains := smPut Mains.reset s.rtio.mains n x } }

/-- The mains loop of input `n` is locked (R370). -/
def mainsLocked (s : State) (n : Nat) : Bool := decide ((getMains s n).good > Config.mainsLock.val)

/-- R370: the axes of a source and channel begin to hold. -/
def unlockAxes (s : State) (src n : Nat) : State := if (axesOn s src n).isEmpty then s else setEvent s TTB_EVENT_UNLOCK

/-- MAINS_LOOP_UNLOCK (R370). -/
def mainsUnlock (s : State) (n : Nat) : State :=
  if mainsLocked s n then unlockAxes (putMains s n { getMains s n with good := 0 }) 4 n else s

/-- MAINS_LOOP_UNLOCK. -/
def execMainsLoopUnlock (n : Fin 2) (s : State) : Answer := whenReady s (fun s => mainsUnlock s n)

/-- The mains phase now, in units of 2^-16: 65,536.0 a cycle from the last rising zero crossing at the last
period (R365). -/
def mainsPhase (s : State) (x : Mains) : Nat :=
  match x.lastEdge with
  | some t => min (2 ^ 32 - 1) ((rtioNow s - 5 * t) * 2 ^ 32 / (5 * max 1 x.period))
  | none => 0

/-- MAINS_EDGE (R365, R370, R704): a rising edge. One within 100 µs of the edge before is ignored; a period
of 45 Hz to 65 Hz counts towards lock, and any other ends it. -/
def mainsEdge (s : State) (n : Nat) : State :=
  let x := getMains s n
  match x.lastEdge with
  | none => putMains s n { x with lastEdge := some s.now }
  | some t =>
    let p := s.now - t
    if p < 10000 then s
    else if 65 * p < 100000000 ∨ 45 * p > 100000000 then
      let s := mainsUnlock s n
      putMains s n ⟨some s.now, p, 0⟩
    else
      let s := putMains s n ⟨some s.now, p, x.good + 1⟩
      if mainsLocked s n then (axesOn s 4 n).foldl (fun s a => moveAxis s a 0) s else s

/-- MAINS_EDGE. -/
def execMainsEdge (n : Fin 2) (s : State) : Answer := whenReady s (fun s => mainsEdge s n)

/-- R365: the network-time axes of MAC `m` take its gPTP time while it is locked. -/
def followNet (s : State) (m : Nat) : State :=
  if flag s (ETH_PTP_STAT_LOCK m) then (axesOn s 3 m).foldl (fun s a => moveAxis s a ((getMac s m).gptp * 2 ^ 16)) s else s

/-- R365: the mains axes of input `n` take its phase while its loop is locked. -/
def followMains (s : State) (n : Nat) : State :=
  if mainsLocked s n then (axesOn s 4 n).foldl (fun s a => moveAxis s a (mainsPhase s (getMains s n))) s else s

/-- GPTP_LOCK_LOSS (R404, R370). -/
def gptpLockLoss (s : State) (m : Nat) : State :=
  let s := putMac s m { getMac s m with goodSyncs := 0 }
  if flag s (ETH_PTP_STAT_LOCK m) then unlockAxes (setF s (ETH_PTP_STAT_LOCK m) 0) 3 m else s

/-- GPTP_LOCK_LOSS. -/
def execGptpLockLoss (m : Fin 2) (s : State) : Answer := whenReady s (fun s => gptpLockLoss s m)

/-- A slave has measured its offset from its master, once in a synchronisation interval: its servo disciplines its time,
and LOCK follows the last 8 offsets (R403, R404). -/
def measured (s : State) (m : Nat) (offset : Int) : State :=
  let x := getMac s m
  let s := putMac s m { x with gptp := Config.servo x.gptp offset }
  if offset.natAbs > 100 then gptpLockLoss s m
  else
    let g := min 8 (x.goodSyncs + 1)
    let s := putMac s m { getMac s m with goodSyncs := g }
    followNet (if g = 8 then setF s (ETH_PTP_STAT_LOCK m) 1 else s) m

/-- GPTP_EVENT_MESSAGE (R403): an event message passes MAC `m`, which takes its timestamp at 2 ns resolution. A slave measures
its offset from a Sync, less the peer delay, which is half of what the round trip of a delay request took besides. -/
def gptpMessage (s : State) (m : Nat) (event : GptpEvent) : State :=
  if !(flag s (ETH_MAC_CTL_EN m)) then s
  else
    let x := { getMac s m with stamp := (getMac s m).gptp / 2 * 2 }
    match event with
    | .sync origin =>
      let s := putMac s m x
      if flag s (ETH_MAC_CTL_GPTP_SLAVE m) then measured s m ((x.stamp : Int) - (origin.toNat : Int) - (x.peerDelay : Int)) else s
    | .delayRequest => putMac s m { x with reqSent := some x.stamp }
    | .delayAnswer received answered =>
      match x.reqSent with
      | some t => putMac s m { x with reqSent := none, peerDelay := ((x.stamp - t) - (answered.toNat - received.toNat)) / 2 }
      | none => putMac s m x

/-- GPTP_EVENT_MESSAGE. -/
def execGptpEventMessage (m : Fin 2) (event : GptpEvent) (s : State) : Answer := whenReady s (fun s => gptpMessage s m event)

/-- One RTIO cycle of the free-time axes: 2.0 a cycle, giving the nanoseconds since ready (R365). -/
def freeCycle (s : State) : State :=
  (List.range 4).foldl (fun s a => if axisSource s a = 5 then moveAxis s a ((rtioNow s - 5 * s.readyAt) * 2 ^ 17) else s) s

/-- One RTIO cycle, with `n` more to come in the tick: 2 ns of every gPTP time, and what follows the clocks. -/
def rtioCycle (s : State) (n : Nat) : State :=
  let s := newCycle { s with rtio := { s.rtio with back := n } }
  let s := (List.range 2).foldl (fun s m => let x := getMac s m; followNet (putMac s m { x with gptp := x.gptp + 2 }) m) s
  freeCycle ((List.range 2).foldl followMains s)

/-- One reference tick of the RTIO region: five RTIO cycles. -/
def rtioTick (s : State) : State := [4, 3, 2, 1, 0].foldl rtioCycle s

/-! ### Entries (R372 to R380) -/

/-- The entry's bits as TTB_ENT_DATA holds them. -/
def entData (s : State) : BitVec 256 :=
  BitVec.ofNat 256 ((List.range 8).foldl (fun x k => x + getF s (TTB_ENT_DATA_DATA k) * 2 ^ (32 * k)) 0)

/-- TTB_ENTRY_WRITE (R378, R379). -/
def ttbEntryWrite (s : State) : State :=
  let b := entData s
  let s := putEntry s (getF s TTB_ENT_SEL_INDEX) ⟨b, true, none⟩
  if entryReserved b then setEvent s TTB_EVENT_ENT_BAD else s

/-- TTB_ENTRY_READ. -/
def ttbEntryRead (s : State) : State :=
  let b := (getEntry s (getF s TTB_ENT_SEL_INDEX)).bits.toNat
  (List.range 8).foldl (fun s k => setF s (TTB_ENT_DATA_DATA k) (b / 2 ^ (32 * k))) s

/-! ### Windows (R385, R386) -/

/-- R622: armed changes that wait for window `w` in Timed mode note its opening. -/
def armWindow (s : State) (w : Nat) : State :=
  (List.range 5).foldl (fun s r =>
    let c := getClk s r
    if c.armed ∧ c.winAt = none ∧ bitsOf c.cfg 11 9 = w ∧ timedMode s then putClk s r { c with winAt := some s.now } else s) s

/-- Open window `w`; an open one is unchanged. -/
def openWindow (s : State) (w : Nat) : State :=
  match getWindow s w with
  | some _ => s
  | none =>
    let s := armWindow s w
    { s with rtio := { s.rtio with
        openings := s.rtio.openings + 1
        windows := smPut none s.rtio.windows w (some (s.rtio.openings + 1))
        winSince := smPut 0 s.rtio.winSince w s.now } }

/-- Close window `w`. -/
def closeWindow (s : State) (w : Nat) : State :=
  { s with rtio := { s.rtio with windows := smPut none s.rtio.windows w none } }

/-- WINDOW_TIMEOUT (R386). -/
def windowTimeout (s : State) (w : Nat) : State :=
  let n := getF s TTB_WIN_MAX_CYCLES
  if (getWindow s w).isSome ∧ n ≠ 0 ∧ rtioNow s ≥ 5 * smGet 0 s.rtio.winSince w + n then
    setEvent (closeWindow s w) TTB_EVENT_WIN_TIMEOUT
  else s

/-- WINDOW_TIMEOUT. -/
def execWindowTimeout (w : Fin 8) (s : State) : Answer := whenReady s (fun s => windowTimeout s w)

/-! ### Actions (R381) -/

/-- A field of an entry's ARG. -/
def argField (f : Fired) (hi lo : Nat) : Nat := entField f.bits (96 + hi) (96 + lo)

/-- The oldest fired entry acts, when its action is `action` and `wants` takes its ARG; nothing acts while
RTIO is reinitialised (R376, R561). -/
def actHead (s : State) (action : Nat) (wants : Fired → Bool) (run : State → Fired → State) : State :=
  match s.rtio.acting with
  | [] => s
  | f :: rest =>
    if entField f.bits 134 132 = action ∧ wants f ∧ !(reinitOn s 7) then
      run { s with rtio := { s.rtio with
        acting := rest
        actCycle := max s.rtio.actCycle f.slot
        actCount := if f.slot < s.rtio.actCycle then s.rtio.actCount else if f.slot = s.rtio.actCycle then s.rtio.actCount + 1 else 1 } } f
    else s

/-- DEFERRED_ENTRY_ACT (R376): in the next cycle up to 16 delayed entries act. Each counts once in TTB_DEFER. -/
def deferredAct (s : State) : State :=
  if !s.rtio.acting.isEmpty || s.rtio.deferred.isEmpty || reinitOn s 7 then s
  else
    let t := max (s.rtio.actCycle + 1) (rtioNow s)
    let l := (s.rtio.deferred.take 16).map (fun f => { f with slot := t })
    addF { s with rtio := { s.rtio with acting := l, deferred := s.rtio.deferred.drop 16 } } TTB_DEFER_COUNT l.length

/-- DEFERRED_ENTRY_ACT. -/
def execDeferredEntryAct (s : State) : Answer := whenReady s deferredAct

/-- A DOORBELL action acts only on a context whose submission ring is local (R381, R427). -/
def actDoorbell (s : State) (f : Fired) : State :=
  let k := argField f 2 0
  if ringLocal s k then ringTail s k (argField f 14 3) else setEvent s HIF_EVENT_DB_BAD

/-- CAPTURE drives the enabled FSYNC balls of the mask high for WIDTH cycles from this firing (R382, R383). -/
def actCapture (s : State) (f : Fired) : State :=
  let until_ := rtioNow s + max 1 (argField f 31 16)
  (List.range 4).foldl (fun s n =>
    if bitOf (argField f 3 0) n && bitOf (getF s TTB_OUT_CFG_FSYNC_EN) n then
      { s with rtio := { s.rtio with fsync := smPut 0 s.rtio.fsync n until_ } }
    else s) s

/-- ACTION_CAPTURE. -/
def execActionCapture (s : State) : Answer := whenReady s (fun s => actHead s 1 (fun _ => true) actCapture)

/-- FSYNC_END. -/
def fsyncEnd (s : State) (n : Nat) : State :=
  let t := smGet 0 s.rtio.fsync n
  if t ≠ 0 ∧ rtioNow s ≥ t then { s with rtio := { s.rtio with fsync := smPut 0 s.rtio.fsync n 0 } } else s

/-- FSYNC_END. -/
def execFsyncEnd (n : Fin 4) (s : State) : Answer := whenReady s (fun s => fsyncEnd s n)

/-- Do `g` for each chain of the mask. -/
def eachChain (f : Fired) (hi lo : Nat) (g : State → Nat → State) (s : State) : State :=
  (List.range 4).foldl (fun s c => if bitOf (argField f hi lo) c then g s c else s) s

/-- ACTION_EMIT_ONE (R390). -/
def execActionEmitOne (s : State) : Answer :=
  whenReady s (fun s => actHead s 2 (fun f => decide (argField f 5 4 = 0)) (fun s f => eachChain f 3 0 emissionInstant s))

/-- A RUN of chain `c` starts, or its period restarts (R390). -/
def startRun (f : Fired) (s : State) (c : Nat) : State :=
  let a := entField f.bits 129 128
  let base := if axisSource s a = 3 ∧ axisChannel s a < 2 then some (axisChannel s a) else none
  let e := getEmit s c
  emissionInstant (putEmit s c { e with run := true, runGptp := base, nextAt := runClock s base + runPeriod s c base }) c

/-- ACTION_EMIT_RUN. -/
def execActionEmitRun (s : State) : Answer :=
  whenReady s (fun s => actHead s 2 (fun f => decide (argField f 5 4 = 1)) (fun s f => eachChain f 3 0 (startRun f) s))

/-- ACTION_EMIT_STOP. -/
def execActionEmitStop (s : State) : Answer :=
  whenReady s (fun s => actHead s 2 (fun f => decide (argField f 5 4 = 2)) (fun s f =>
    eachChain f 3 0 (fun s c => putEmit s c { getEmit s c with run := false }) s))

/-- OUTPUT drives an enabled TOUT ball, except while HOLD_N is low (R383, R416). -/
def actOutput (s : State) (f : Fired) : State :=
  let n := argField f 2 0
  if bitOf (getF s TTB_OUT_CFG_TOUT_EN) n && !s.rtio.holdLow then
    { s with rtio := { s.rtio with tout := BitVec.ofNat 8 (setBitsOf s.rtio.tout.toNat n n (argField f 3 3)) } }
  else s

/-- ACTION_OUTPUT. -/
def execActionOutput (s : State) : Answer := whenReady s (fun s => actHead s 3 (fun _ => true) actOutput)

/-- STEPS on an enabled, unbound channel (R383, R384, R416). -/
def actSteps (s : State) (f : Fired) : State :=
  let n := argField f 2 0
  if flag s (TTB_STEP_CFG_EN n) ∧ !(flag s (TTB_STEP_CFG_BIND n)) ∧ !s.rtio.holdLow then
    let w := stepWidth s n
    let s := putStep s n { getStep s n with dir := decide (argField f 3 3 = 1) }
    startTrain s n (rtioNow s + w) (argField f 19 4) (max (2 * w) (getF s (TTB_STEP_CFG_PERIOD n))) 1 0
  else s

/-- ACTION_STEPS. -/
def execActionSteps (s : State) : Answer := whenReady s (fun s => actHead s 4 (fun _ => true) actSteps)

/-! ### Deadlines (R387 to R389) -/

/-- The elements up to and including the first that `p` accepts. -/
def takeThrough {α : Type} (p : α → Bool) : List α → List α
  | [] => []
  | x :: xs => if p x then [x] else x :: takeThrough p xs

/-- R389: every job of context `k` up to ring position `pos` that has not started completes LATE; those not
yet fetched do so at their fetch. A position that is neither in flight nor presented lies ahead of them all. -/
def abortLate (s : State) (k pos : Nat) : State :=
  let js := jobsOf s k
  let at_ (j : Job) := decide (j.pos = pos)
  let fail (s : State) (l : List Job) := l.foldl (fun s j => if j.unstarted then endJob s k j.sub 3 none 0 else s) s
  let c := getCtx s k
  if js.any at_ then fail s (takeThrough at_ js)
  else
    let n := (takeThrough (fun p : Present => decide (p.pos = pos)) c.presented).length
    putCtx (fail s js) k { c with presented := (c.presented.take n).map (fun p => { p with late := true }) ++ c.presented.drop n }

/-- CHECK (R387, R388). -/
def actCheck (s : State) (f : Fired) : State :=
  let k := argField f 2 0
  let pos := argField f 14 3
  let key := k * 4096 + pos
  let n := smGet 0 s.written key / 2 ^ 32
  let base := max s.rtio.ttEnBase (smGet 0 s.rtio.checkBase key)
  let s := { s with rtio := { s.rtio with checkBase := smPut 0 s.rtio.checkBase key f.writes } }
  if base < n ∧ n ≤ f.writes then s
  else
    let s := setEvent (incF s TTB_CHECK_MISS_COUNT) TTB_EVENT_CHECK_MISS
    let s := eachChain f 19 16 lateChain s
    if bitOf (argField f 20 20) 0 then abortLate s k pos else s

/-- ACTION_CHECK. -/
def execActionCheck (s : State) : Answer := whenReady s (fun s => actHead s 5 (fun _ => true) actCheck)

/-- ACTION_WINDOW_OPEN. -/
def execActionWindowOpen (s : State) : Answer :=
  whenReady s (fun s => actHead s 6 (fun f => decide (argField f 3 3 = 1)) (fun s f => openWindow s (argField f 2 0)))

/-- ACTION_WINDOW_CLOSE. -/
def execActionWindowClose (s : State) : Answer :=
  whenReady s (fun s => actHead s 6 (fun f => decide (argField f 3 3 = 0)) (fun s f => closeWindow s (argField f 2 0)))

end Sys2Proof.Machine
end

