-- ==== Sys2Proof/Machine/Recovery.lean ====
section
/-! DEFINITION. Error records written (R551 to R556), recovery of a region (R558 to R561), error injection
(R581), the PCIe link (R419, R652, R723), the patrol (R275) and the HBM's
own reports (R279, R280). -/

namespace Sys2Proof.Machine

/-! ### Recovery of a region (R558 to R561) -/

/-- Do `f` to each job of region `r` that runs or is moored. -/
def failRegionJobs (s : State) (r : Nat) (seq : W32) : State :=
  (regionJobs s r).foldl (fun s j => endJob s j.ctx j.sub 5 none seq) s

/-- R558 step 3 in a CORE region: every unit's state; SRAM and registers stand. -/
def resetCore (s : State) (c : Nat) : State :=
  let x := getCore s c
  putCore s c { Core.reset with inject := x.inject }

/-- R560: in PLAN the bricks and WLD_GEN stand; trajectories, roadmaps and queues go, without hold. -/
def resetPlan (s : State) : State :=
  (List.range 4).foldl (fun s c =>
    let s := flushChain s c
    putChain s c { getChain s c with roadNodes := [], roadEdges := [] }) s

/-- R561: at the beginning of an RTIO reinitialisation. Actions fired and not yet acted go (DEDUCED). -/
def resetRtio (s : State) : State :=
  let s := holdOutputs s
  let s := (List.range 2).foldl (fun s m => putMac s m { getMac s m with txq := [] }) s
  { s with rtio := { s.rtio with acting := [], deferred := [], receiving := [], ssiRun := [] } }

/-- R561: at its end every window is closed, every entry is armed, and every chain enters hold at its first
emission instant. -/
def endRtioReinit (s : State) : State :=
  let entries := s.rtio.entries.foldl (fun t p => smPut Entry.reset t p.1 { p.2 with armed := true }) s.rtio.entries
  let s := { s with rtio := { s.rtio with entries := entries, windows := [], winSince := [] } }
  (List.range 4).foldl (fun s c => putEmit s c { getEmit s c with holdPending := true }) s

/-- The units of region `r` lose their state, with every transfer in flight in its crossings (R558, R612). -/
def resetRegion (s : State) (r : Nat) : State :=
  let s := { s with ferry := s.ferry.filter (fun p => decide (p.1 % 16 ≠ r) && decide (p.1 / 16 ≠ r)) }
  if r < 4 then resetCore s r else if r = 4 then resetPlan s else if r = 7 then resetRtio s else s

/-- A REGION error of source `src` in region `r` (R547, R558): admission stops, the record is written, the
units are reset, and the region's jobs end REGION_FAIL. The fourth step is taken before the third, so that
a PLAN job is not counted as flushed. -/
def regionError (s : State) (src r detail : Nat) : State :=
  let cls := promote s r 2
  let e : ErrInfo := ⟨src, 2, r, detail, none, none⟩
  if cls = 3 then (reportPlain s e 3).2
  else
    let s := setF s ERR_REGION_STAT_REINIT (getF s ERR_REGION_STAT_REINIT ||| 2 ^ r)
    let (seq, s) := reportPlain s e 2
    resetRegion (failRegionJobs s r seq) r

/-- REGION_REINIT_DONE (R558 step 5, R547). -/
def reinitDone (s : State) (r : Nat) : State :=
  if !(reinitOn s r) then s
  else
    let s := setF s ERR_REGION_STAT_REINIT (getF s ERR_REGION_STAT_REINIT - 2 ^ r)
    let s := incF { s with reinitAt := smPut none s.reinitAt r (some s.now) } ERR_REINITS_COUNT
    if r = 7 then endRtioReinit s else s

/-- REGION_REINIT_DONE. -/
def execRegionReinitDone (r : Fin 9) (s : State) : Answer := whenReady s (fun s => reinitDone s r)

/-! ### The error ring (R551 to R556) -/

/-- Host bus address of the mirror's position (R555). -/
def errMirrorAddr (s : State) (pos : Nat) : Nat :=
  getF s ERR_MIRROR_LO_ADDR * 4096 + getF s ERR_MIRROR_HI_ADDR * 2 ^ 32 + 32 * pos

/-- R555: a record's mirror write; one that the link cannot take waits. -/
def mirrorRecord (s : State) (pos : Nat) (bytes : List Byte) : State :=
  if !(flag s ERR_CTL_MIRROR) then s
  else if flag s HIF_STAT_LINK_UP then hostWrite s (errMirrorAddr s pos) bytes
  else { s with errMirror := s.errMirror ++ [(errMirrorAddr s pos, bytes, s.now)] }

/-- ERROR_RECORD_WRITE: the oldest waiting record is written when the ring has room, and vector 16 follows
(R551, R552). While it waits for room RING_FULL is set, also when the driver has cleared it (R554). A ring placed past the basin
loses the bytes that lie there. -/
def errorRecordWrite (s : State) : State :=
  match s.errWait with
  | [] => s
  | e :: rest =>
    let n := errRingSize s
    let t := getF s ERR_RING_PTR_TAIL
    if (t + 1) % n = getF s ERR_RING_PTR_HEAD % n then (if flag s ERR_EVENT_RING_FULL then s else setEvent s ERR_EVENT_RING_FULL)
    else
      let bytes := withPhase e.bytes 3 (flag s ERR_RING_PTR_PHASE)
      let off := getF s ERR_RING_BASE_OFFSET * 4096 + 32 * t
      let s := (runOp (writeDev none (basinBase + off) (bytes.take (basinSize - off))) { s with errWait := rest }).2
      let s := setF s ERR_RING_PTR_TAIL ((t + 1) % n)
      let s := if (t + 1) % n = 0 then setF s ERR_RING_PTR_PHASE (1 - getF s ERR_RING_PTR_PHASE) else s
      sendMsix (mirrorRecord s t bytes) 16

/-- ERROR_RECORD_WRITE. -/
def execErrorRecordWrite (s : State) : Answer := whenReadyMem s errorRecordWrite

/-- A waiting mirror write is dropped and counted (R555). -/
def loseErrMirror (s : State) : State := setEvent (incF s ERR_MIRROR_DROP_COUNT) ERR_EVENT_MIRROR_DROP

/-- ERR_MIRROR_DROP (R555): the oldest waiting mirror write is dropped, not before it has waited 9 µs. -/
def errMirrorDrop (s : State) : State :=
  match s.errMirror with
  | [] => s
  | (_, _, t) :: rest => if s.now < t + 900 then s else loseErrMirror { s with errMirror := rest }

/-- ERR_MIRROR_DROP. -/
def execErrMirrorDrop (s : State) : Answer := whenReady s errMirrorDrop

/-! ### Injection (R581) -/

/-- ERR_INJECT: a write of 1 to GO. SOURCE other than 2 and 8 acts as 1; a unit without SRAM has nothing for
an SRAM injection to act on, so that nothing stays pending (DEDUCED). -/
def errInject (s : State) : State :=
  if s.inject.isSome then s
  else
    let src := match getF s ERR_INJECT_SOURCE with
      | 2 => 2
      | 8 => 8
      | _ => 1
    let u := getF s ERR_INJECT_UNIT
    if (src = 8 ∧ u > 8) ∨ (src ≠ 8 ∧ u > 5) then s else { s with inject := some (src, u), injectAt := none }

/-- ERR_INJECT_ACT: the injection acts once no window of TEST_DEFER is open and, for a memory, a granule has
been written. -/
def errInjectAct (s : State) : State :=
  match s.inject with
  | none => s
  | some (src, u) =>
    if !(testAllowed s) then s
    else if src = 8 then { s with inject := none, parityFlip := natInsert u s.parityFlip }
    else
      match s.injectAt with
      | none => s
      | some g => { s with inject := none, injectAt := none, latent := smPut 0 s.latent g src }

/-- ERR_INJECT_ACT. -/
def execErrInjectAct (s : State) : Answer := whenReady s errInjectAct

/-! ### PCIe (R419, R420, R652, R723) -/

/-- HOST_ACCESS_TIMEOUT (R723): a held access that the link has not taken for 50 ms ends as PCIE_UE, and its job
completes ECC. DETAIL shows a completion timeout (PRESUMED: bit 14 of AER's uncorrectable status). -/
def hostTimeout (s : State) (k : Nat) (sub : W32) : State :=
  match findJob s k sub with
  | none => s
  | some j =>
    match j.hostWait with
    | some (a, t) =>
      if !(flag s HIF_STAT_LINK_UP) ∧ s.now ≥ t + 5000000 ∧ !j.isDone then
        let (q, s) := reportPlain s ⟨6, 1, 6, 0x4000, some a, some (k, sub)⟩ 1
        endJob s k sub 9 none q
      else s
    | none => s

/-- HOST_ACCESS_TIMEOUT. -/
def execHostAccessTimeout (k : Fin 8) (sub : W32) (s : State) : Answer := whenReady s (fun s => hostTimeout s k sub)

/-- PCIE_CE: DETAIL is the AER correctable status (R548). -/
def execPcieCe (status : W32) (s : State) : Answer :=
  whenReady s (fun s => (reportPlain s ⟨5, 0, 6, status.toNat, none, none⟩ 0).2)

/-- The link goes down (R40, R652). -/
def linkDown (s : State) : State := setF (setF (setF s HIF_STAT_LINK_UP 0) HIF_STAT_SPEED 0) HIF_STAT_WIDTH 0

/-- PCIE_LINK_DOWN. -/
def execPcieLinkDown (s : State) : Answer := whenReady s linkDown

/-- A mirror write that has waited for the link: performed, or dropped when it has waited longer than 11 µs (R453, R555). -/
def mirrorOrDrop (drop : State → State) (s : State) (p : Nat × List Byte × Nat) : State :=
  if s.now ≤ p.2.2 + 1100 then hostWrite s p.1 p.2.1 else drop s

/-- The mirror writes that wait for the link, oldest first (R453, R555). -/
def flushMirrors (s : State) : State :=
  let s := (List.range 8).foldl (fun s k =>
    let c := getCtx s k
    putCtx (c.mirrorWait.foldl (mirrorOrDrop loseMirror) s) k { c with mirrorWait := [] }) s
  { s.errMirror.foldl (mirrorOrDrop loseErrMirror) s with errMirror := [] }

/-- PCIE_LINK_UP: at one of the five speeds and with 1, 2, 4 or 8 lanes (R420); messages and mirror writes that waited go
out. -/
def linkUp (s : State) (speed width : Nat) : State :=
  let s := setF (setF (setF s HIF_STAT_LINK_UP 1) HIF_STAT_SPEED speed) HIF_STAT_WIDTH width
  flushMsix (flushMirrors s)

/-- PCIE_LINK_UP. -/
def execPcieLinkUp (speed : Fin 5) (width : Fin 4) (s : State) : Answer :=
  whenReadyMem s (fun s => linkUp s (speed + 1) (2 ^ width.val))

/-- A word of the configuration space (R419), by its number. Words 4 to 9 hold BAR0, BAR2 and BAR4, each 64 bits wide and not
prefetchable, whose address is a multiple of its size (R422; PRESUMED: PCI Express). Words beyond these are the
implementation's. -/
def configWord (n : Nat) : W32 :=
  match n with
  | 0 => 0x4A161F3D
  | 2 => 0x120000B1
  | 4 => Config.configWord 4 &&& 0xFF000000 ||| 4
  | 6 => Config.configWord 6 &&& 0xFFFF0000 ||| 4
  | 8 => Config.configWord 8 &&& 0xFFF00000 ||| 4
  | 11 => 0x00011F3D
  | _ => Config.configWord n

/-- PCIE_CONFIG_REQUEST (R652): answered with Retry Status until ready, where `out.cfg` holds no word. -/
def configRequest (s : State) (n : Nat) : State :=
  match s.phase with
  | .ready => if flag s HIF_STAT_LINK_UP then { s with out := { s.out with cfg := some (configWord n) } } else s
  | .starting .. | .refclkHold .. => { s with out := { s.out with cfg := none } }
  | _ => s

/-- PCIE_CONFIG_REQUEST. -/
def execPcieConfigRequest (word : BitVec 10) (s : State) : Answer := keep s (configRequest s word.toNat)

/-! ### Memories (R275, R279, R280) -/

/-- SCRUB_PATROL_READ: the patrol reads a granule of the basin or of a core pool, which affects no job (R275,
R550). -/
def patrolRead (s : State) (a : Nat) : State :=
  match memKind a with
  | some (.pool _) | some .basin => if flag s BSN_SCRUB_CTL_SCRUB_EN then (eccRead s none (a / 8 * 8)).2 else s
  | _ => s

/-- SCRUB_PATROL_READ; outside the populated ranges there is nothing to read. -/
def execScrubPatrolRead (addr : BitVec 40) (s : State) : Answer :=
  if populated addr.toNat then whenReady s (fun s => patrolRead s addr.toNat) else .fault .unpopulated

/-- HBM_REFRESH (R279): `delayed` says that it delayed an access. -/
def execHbmRefresh (delayed : Bool) (s : State) : Answer :=
  whenReady s (fun s => if delayed then incF s BSN_REFRESH_STALL_COUNT else s)

/-- HBM_HOT (R280): a stack reports its temperature in units of 1/16 °C. -/
def hbmHot (s : State) (st : Nat) (temp : Int) : State :=
  if temp ≥ 1360 then setF s BSN_HBM_STAT_HOT (getF s BSN_HBM_STAT_HOT ||| 2 ^ st) else s

/-- HBM_HOT. -/
def execHbmHot (st : Fin 2) (temp : BitVec 16) (s : State) : Answer := whenReady s (fun s => hbmHot s st temp.toInt)

end Sys2Proof.Machine
end

