-- ==== Sys2Proof/Machine/Crossing.lean ====
section
/-! DEFINITION. Ferry crossings (R24, R610 to R614): the delivery of a transfer, and the transfers that the RTIO region sends
to HOST and to BASIN. -/

namespace Sys2Proof.Machine

/-- A region's frequency ÷ 12.5 MHz (R603, R608, R609). -/
def regionMult (s : State) (r : Nat) : Nat :=
  if r < 5 then max 1 (getF s (CLK_RGN_STAT_CUR r))
  else if r = 5 then 96 else if r = 6 then 80 else if r = 7 then 40 else 4

/-- R610: the picosecond, rounded down, of the first receiving edge at or after t + 12 ns + T_s + T_r. -/
def ferryDelivery (s : State) (src dst t : Nat) : Nat :=
  let ns := regionMult s src
  let nr := regionMult s dst
  ceilDiv ((t + 12000) * ns * nr + 80000 * nr + 80000 * ns) (80000 * ns) * 80000 / nr

/-- Transfers that wait in the receive slots of a crossing (R612). -/
def slotsTaken (s : State) (src dst : Nat) : Nat := smGet 0 s.ferry (src * 16 + dst)

/-- The crossing launches nothing: its sender is stopped (R620), or its four slots are full (R612). -/
def launchHeld (s : State) (src dst : Nat) : Bool := (getClk s src).stopped || decide (4 ≤ slotsTaken s src dst)

/-- A transfer delivered with its parity right, or not: a mismatch is a CROSS_PARITY error in the receiving region, and what
the transfer carried, `act`, is lost (R613; DESIGN CHOICE). An armed flip is used up (R581). -/
def deliver (s : State) (src dst : Nat) (parityOk : Bool) (act : State → State) : State :=
  let flip := s.parityFlip.contains dst
  let s := { s with parityFlip := natErase dst s.parityFlip }
  if xor (!parityOk) flip then regionError s 8 dst (src + 16 * dst) else act s

/-- What passes from region `src` to region `dst` does so through their crossing (R24): not while the crossing launches
nothing, nor while the receiver is stopped and accepts nothing. -/
def crossing (s : State) (src dst : Nat) (act : State → State) : State :=
  if launchHeld s src dst || (getClk s dst).stopped then s else deliver s src dst true act

/-- FERRY_DELIVERY: a transfer of a unit's own work, launched at `t` picoseconds, is delivered, with its parity (R612, R613).
While a SHORT_STOP holds the receiver it waits in a slot. -/
def deliverFerry (s : State) (src dst t : Nat) (parityOk : Bool) : State :=
  if src = dst ∨ launchHeld s src dst then s
  else
    let at_ := if (getClk s src).stretched || (getClk s dst).stretched then t + (Config.stretchedFerry src dst t).val
      else ferryDelivery s src dst t
    let s := { s with out := { s.out with ferry := some (src, dst, at_) } }
    let s := if (getClk s dst).stopped then { s with ferry := smPut 0 s.ferry (src * 16 + dst) (slotsTaken s src dst + 1) } else s
    deliver s src dst parityOk id

/-- FERRY_DELIVERY. -/
def execFerryDelivery (src dst : Fin 9) (launchPs : Nat) (parityOk : Bool) (s : State) : Answer :=
  whenReady s (fun s => deliverFerry s src dst launchPs parityOk)

/-- ACTION_DOORBELL: from RTIO into HOST. -/
def execActionDoorbell (s : State) : Answer :=
  whenReady s (fun s => actHead s 0 (fun _ => true) (fun s f => crossing s 7 6 (fun s => actDoorbell s f)))

/-- FRAME_LANDING: from RTIO into BASIN. -/
def execFrameLanding (n : Fin 4) (bytes : List Byte) (bad : Bool) (s : State) : Answer :=
  whenReadyMem s (fun s => crossing s 7 5 (fun s => frameLanding s n bytes bad))

end Sys2Proof.Machine
end

