-- ==== Sys2Proof/Machine/Ed25519.lean ====
section
/-! DEFINITION. Ed25519 verification under RFC 8032, which R477 and R478 name without restating it
(PRESUMED: the public standard), on natural numbers modulo the field prime. -/

namespace Sys2Proof.Machine

/-- The field prime 2^255 − 19. -/
def edP : Nat := 2 ^ 255 - 19

/-- The order of the base point. -/
def edL : Nat := 2 ^ 252 + 27742317777372353535851937790883648493

/-- `b^e mod m`, over the low `n` bits of `e`. -/
def powMod (m : Nat) : Nat → Nat → Nat → Nat
  | 0, _, _ => 1 % m
  | n + 1, b, e =>
    let r := powMod m n (b * b % m) (e / 2)
    if e % 2 = 1 then b * r % m else r

/-- Inverse modulo the field prime. -/
def edInv (x : Nat) : Nat := powMod edP 256 (x % edP) (edP - 2)

/-- The curve constant d. -/
def edD : Nat := (edP - 121665 * edInv 121666 % edP) % edP

/-- A point in extended coordinates (X, Y, Z, T). -/
abbrev EdPoint := Nat × Nat × Nat × Nat

/-- Point addition. -/
def edAdd (p q : EdPoint) : EdPoint :=
  let (x1, y1, z1, t1) := p
  let (x2, y2, z2, t2) := q
  let a := (y1 + edP - x1) * (y2 + edP - x2) % edP
  let b := (y1 + x1) * (y2 + x2) % edP
  let c := 2 * t1 * t2 * edD % edP
  let d := 2 * z1 * z2 % edP
  let e := (b + edP - a) % edP
  let f := (d + edP - c) % edP
  let g := (d + c) % edP
  let h := (b + a) % edP
  (e * f % edP, g * h % edP, f * g % edP, e * h % edP)

/-- The neutral point. -/
def edZero : EdPoint := (0, 1, 1, 0)

/-- Multiple of a point by the low `n` bits of a scalar. -/
def edMul : Nat → Nat → EdPoint → EdPoint
  | 0, _, _ => edZero
  | n + 1, k, p =>
    let r := edMul n (k / 2) (edAdd p p)
    if k % 2 = 1 then edAdd p r else r

/-- The x coordinate for a y coordinate and a sign bit; none when there is none. -/
def edX (y sign : Nat) : Option Nat :=
  if y ≥ edP then none
  else
    let u := (y * y + edP - 1) % edP
    let v := (edD * (y * y % edP) + 1) % edP
    let x2 := u * edInv v % edP
    if x2 = 0 then (if sign = 1 then none else some 0)
    else
      let r := powMod edP 256 x2 ((edP + 3) / 8)
      let r := if r * r % edP = x2 then r else r * powMod edP 256 2 ((edP - 1) / 4) % edP
      if r * r % edP ≠ x2 then none
      else if r % 2 = sign then some r else some (edP - r)

/-- Decode a 32-byte point. -/
def edDecode (b : List Byte) : Option EdPoint :=
  let n := leNat b
  let y := n % 2 ^ 255
  match edX y (n / 2 ^ 255 % 2) with
  | none => none
  | some x => some (x, y, 1, x * y % edP)

/-- The base point. -/
def edBase : EdPoint :=
  let y := 4 * edInv 5 % edP
  match edX y 0 with
  | some x => (x, y, 1, x * y % edP)
  | none => edZero

/-- Two points are the same. -/
def edEq (p q : EdPoint) : Bool :=
  decide (p.1 * q.2.2.1 % edP = q.1 * p.2.2.1 % edP) && decide (p.2.1 * q.2.2.1 % edP = q.2.1 * p.2.2.1 % edP)

/-- The 64-byte signature of the message verifies under the 32-byte public key (R478). -/
def ed25519Verify (pk sig msg : List Byte) : Bool :=
  let rb := sig.take 32
  let s := leNat ((sig.drop 32).take 32)
  match edDecode pk, edDecode rb with
  | some a, some r =>
    if s ≥ edL then false
    else
      let h := leNat (sha512 (rb ++ pk ++ msg)) % edL
      edEq (edMul 253 s edBase) (edAdd r (edMul 253 h a))
  | _, _ => false

end Sys2Proof.Machine
end

