-- ==== Sys2Proof/Machine/Image.lean ====
section
/-! DEFINITION. Plan images: their layout and checks (R468 to R480), the cache of verified images (R481,
R482), and what a section's steps need (R64, R722). -/

namespace Sys2Proof.Machine

/-! ### Layout (R468 to R475) -/

/-- Header fields of an image's bytes (R468). -/
structure ImageHeader where
  signed : Bool
  size : Nat
  declOff : Nat
  sectOff : Nat
  sectCount : Nat
  tensorCount : Nat
  tensorOff : Nat
  geyOff : Nat
  geySize : Nat
  deriving DecidableEq, Repr

/-- The header an image's first 64 bytes spell. -/
def headerOf (b : List Byte) : ImageHeader :=
  ⟨bitOf (recNat b 6 1) 0, recNat b 8 4, recNat b 12 4, recNat b 16 4, recNat b 20 2, recNat b 22 2, recNat b 24 4,
    recNat b 28 4, recNat b 32 4⟩

/-- Code 1: MAGIC and VERSION. -/
def magicOk (b : List Byte) : Bool := decide (recNat b 0 4 = 0x3153424E) && decide (recNat b 4 2 = 1)

/-- Code 2: HDR_CRC. -/
def headerCrcOk (b : List Byte) : Bool :=
  decide ((crc32c (b.take 40 ++ zeros 4 ++ (b.drop 44).take 20)).toNat = recNat b 40 4)

/-- Code 3 on the header alone: reserved bits, ranges, and offsets (R468). -/
def headerOk (b : List Byte) : Bool :=
  let h := headerOf b
  decide (recNat b 6 1 < 2) && zeroAt b 7 8 && zeroAt b 44 64 &&
    decide (256 ≤ h.size) && decide (h.size ≤ 16777216) && decide (h.size % 64 = 0) &&
    decide (1 ≤ h.sectCount) && decide (h.sectCount ≤ 64) && decide (h.tensorCount ≤ 1024) &&
    [h.declOff, h.sectOff, h.tensorOff, h.geyOff].all (fun o => decide (o % 64 = 0)) &&
    (decide (h.tensorCount = 0) == decide (h.tensorOff = 0)) && (decide (h.geyOff = 0) == decide (h.geySize = 0))

/-- STEP_OFF and STEPS of each section (R471). -/
def sectionsOf (b : List Byte) (h : ImageHeader) : List (Nat × Nat) :=
  (List.range h.sectCount).map (fun i => (recNat b (h.sectOff + 16 * i) 4, recNat b (h.sectOff + 16 * i + 4) 4))

/-- Code 3 on the section table (R471). -/
def sectionsOk (b : List Byte) (h : ImageHeader) : Bool :=
  (sectionsOf b h).zipIdx.all (fun p => decide (p.1.1 % 32 = 0) && decide (1 ≤ p.1.2) && decide (p.1.2 ≤ 16777216) &&
    zeroAt b (h.sectOff + 16 * p.2 + 8) (h.sectOff + 16 * p.2 + 16))

/-- Two parts of an image do not overlap. -/
def apart (p q : Nat × Nat) : Bool := decide (p.1 + p.2 ≤ q.1) || decide (q.1 + q.2 ≤ p.1)

/-- No two parts of the list overlap. -/
def allApart : List (Nat × Nat) → Bool
  | [] => true
  | p :: r => r.all (apart p) && allApart r

/-- The end of an image's body: its size, without the signature block. -/
def ImageHeader.top (h : ImageHeader) : Nat := if h.signed then h.size - 128 else h.size

/-- The parts of an image, as offset and extent. -/
def partsOf (b : List Byte) (h : ImageHeader) : List (Nat × Nat) :=
  [(h.declOff, 64), (h.sectOff, 16 * h.sectCount)] ++ (if h.tensorCount = 0 then [] else [(h.tensorOff, 32 * h.tensorCount)]) ++
    (if h.geyOff = 0 then [] else [(h.geyOff, h.geySize)]) ++ (sectionsOf b h).map (fun p => (p.1, 32 * p.2))

/-- Code 3 on the parts: within the image, outside the header and the signature block, and apart. The
section table itself is judged first, since the sections' extents stand in it. -/
def partsOk (b : List Byte) (h : ImageHeader) : Bool :=
  decide (64 ≤ h.sectOff) && decide (h.sectOff + 16 * h.sectCount ≤ h.top) && sectionsOk b h &&
    (partsOf b h).all (fun p => decide (64 ≤ p.1) && decide (p.1 + p.2 ≤ h.top)) && allApart (partsOf b h)

/-- The declaration at an offset (R469). -/
def declOf (b : List Byte) (o : Nat) : Decl :=
  ⟨recNat b o 4, recNat b (o + 4) 4, recNat b (o + 8) 1, recNat b (o + 9) 1, recNat b (o + 10) 1, recNat b (o + 11) 1,
    recNat b (o + 12) 2, recNat b (o + 14) 2, recNat b (o + 16) 2, recNat b (o + 18) 2, recNat b (o + 20) 4, recNat b (o + 24) 4⟩

/-- Code 4 on the declaration (R469). -/
def declOk (b : List Byte) (o : Nat) : Bool :=
  let d := declOf b o
  decide (d.poolBase % 65536 = 0) && decide (d.poolBytes % 65536 = 0) && decide (d.poolBase + d.poolBytes ≤ poolSize) &&
    decide (d.arrays < 16) && decide (d.slots ≤ 32) && decide (d.rowcal ≤ 64) &&
    decide (d.geyBase ≤ 1023) && decide (d.geyBase + d.geySteps ≤ 1024) &&
    decide (d.geyTbase % 8 = 0) && decide (d.geyTbase + d.geyTbytes ≤ 4096) && decide (d.wetBytes ≤ 5 * 2 ^ 20) &&
    zeroAt b (o + 34) (o + 64)

/-- The tensor declaration at an offset (R472). -/
def tensorOf (b : List Byte) (o : Nat) : Tensor :=
  ⟨recNat b o 4, recNat b (o + 4) 1, recNat b (o + 5) 1, recNat b (o + 6) 1,
    (List.range (recNat b (o + 7) 1)).map (fun k => recNat b (o + 8 + 4 * k) 4), recNat b (o + 24) 8⟩

/-- Code 4 on a tensor declaration (R472). -/
def tensorOk (b : List Byte) (o args : Nat) : Bool :=
  let rank := recNat b (o + 7) 1
  decide (recNat b (o + 4) 1 ≤ 9) && decide (recNat b (o + 5) 1 ≤ 2) && decide (recNat b (o + 6) 1 < args) &&
    decide (1 ≤ rank) && decide (rank ≤ 4) && zeroAt b (o + 8 + 4 * rank) (o + 24)

/-- Functions of a Geyser block: identifier and ENTRY (R474). -/
def geyFuncs (b : List Byte) (o : Nat) : List (Nat × Nat) :=
  (List.range (recNat b (o + 4) 1)).map (fun i => (recNat b (o + 16 + 4 * i) 1, recNat b (o + 17 + 4 * i) 2))

/-- Step words of a Geyser block. -/
def geyWordsOf (b : List Byte) (o : Nat) : List W32 :=
  let base := o + 16 + 4 * recNat b (o + 4) 1
  (List.range (recNat b o 2)).map (fun i => BitVec.ofNat 32 (recNat b (base + 4 * i) 4))

/-- Table bytes of a Geyser block. -/
def geyTableOf (b : List Byte) (o : Nat) : List Byte :=
  (b.drop (o + 16 + 4 * recNat b (o + 4) 1 + 4 * recNat b o 2)).take (recNat b (o + 2) 2)

/-- No identifier is declared twice. -/
def idsOnce : List (Nat × Nat) → Bool
  | [] => true
  | p :: r => r.all (fun q => decide (q.1 ≠ p.1)) && idsOnce r

/-- Code 4 on the Geyser block (R256, R474). -/
def geyOk (b : List Byte) (h : ImageHeader) (d : Decl) : Bool :=
  if h.geyOff = 0 then decide (d.geySteps = 0) && decide (d.geyTbytes = 0)
  else
    let o := h.geyOff
    let fs := geyFuncs b o
    decide (16 ≤ h.geySize) && zeroAt b (o + 5) (o + 16) && decide (recNat b o 2 = d.geySteps) &&
      decide (recNat b (o + 2) 2 = d.geyTbytes) && decide (h.geySize = 16 + 4 * fs.length + 4 * d.geySteps + d.geyTbytes) &&
      fs.all (fun p => decide (16 ≤ p.1) && decide (p.1 ≤ 63) && decide (p.2 < d.geySteps)) && idsOnce fs &&
      (geyWordsOf b o).all (fun w => decide (fieldOf w 31 28 = 0))

/-- Code 4: the declaration, every tensor declaration and the Geyser block. -/
def contentsOk (b : List Byte) (h : ImageHeader) : Bool :=
  declOk b h.declOff &&
    (List.range h.tensorCount).all (fun i => tensorOk b (h.tensorOff + 32 * i) (declOf b h.declOff).args) &&
    geyOk b h (declOf b h.declOff)

/-- Image digest (R476). -/
def imageDigest (b : List Byte) (h : ImageHeader) : List Byte := sha256 (b.take h.top)

/-- What the device holds of an image. -/
def imageOf (b : List Byte) (h : ImageHeader) : Image :=
  { digest := imageDigest b h, decl := declOf b h.declOff,
    tensors := (List.range h.tensorCount).map (fun i => tensorOf b (h.tensorOff + 32 * i)),
    funcs := if h.geyOff = 0 then [] else geyFuncs b h.geyOff,
    geyWords := if h.geyOff = 0 then [] else geyWordsOf b h.geyOff,
    geyTable := if h.geyOff = 0 then [] else geyTableOf b h.geyOff }

/-! ### Signatures (R477 to R479) -/

/-- The SHA-256 of the key is an unrevoked fused image-key hash (R478). -/
def keyTrusted (s : State) (pk : List Byte) : Bool :=
  (List.range 4).any (fun i => decide (slotState s i = 1) && decide ((getSlotFuses s i).hash = sha256 pk))

/-- Codes 6 to 8: the first signature check that fails (R477 to R479). -/
def signatureBad (s : State) (b : List Byte) (h : ImageHeader) : Option Nat :=
  if !h.signed then (if s.sec.state = 2 then some 6 else none)
  else
    let block := b.drop h.top
    let pk := block.take 32
    if !(ed25519Verify pk ((block.drop 32).take 64) (b.take h.top)) then some 7
    else if !(keyTrusted s pk) then some 8
    else none

/-! ### What a section needs (R64, R722) -/

/-- FORMAT codes of the code formats that a step can round into. -/
def isCodeByte (n : Nat) : Bool := decide (4 ≤ n) && decide (n ≤ 6)

/-- Functions a step needs: bit 0 VEC_EN, 1 GEY_EN, 2 QNT_EN, 3 DMA_EN, 4 DIGEST_EN. -/
def stepNeeds (r : StepRec) : Nat :=
  match stepOp r with
  | 3 => if isCodeByte (recNat r 3 1) then 4 else 0
  | 4 => 1 + (if isCodeByte (recNat r 4 1) then 4 else 0)
  | 5 => 2
  | 6 | 12 => 4
  | 7 | 8 => 8 + 16 * (recNat r 22 1 % 2)
  | _ => 0

/-- Functions a section needs. -/
def sectionNeeds (l : List StepRec) : Nat := l.foldl (fun a r => a ||| stepNeeds r) 0

/-- The functions a job needs are on, on core `c` (R64, R485). -/
def coreEnabled (s : State) (c : Nat) (needs : Nat) : Bool :=
  flag s (CORE_CTL_ENABLE c) && (!(bitOf needs 0) || flag s (CORE_VEC_CTL_VEC_EN c)) &&
    (!(bitOf needs 1) || flag s (CORE_VEC_CTL_GEY_EN c)) && (!(bitOf needs 2) || flag s (CORE_QNT_CTL_QNT_EN c)) &&
    (!(bitOf needs 3) || flag s (CORE_DMA_CTL_DMA_EN c)) && (!(bitOf needs 4) || flag s BSN_CTL_DIGEST_EN)

/-! ### Reading and caching -/

/-- A piece of an image: where it lies, whether the host holds it, and the virtual range its leaf entry maps. -/
structure Placed where
  pa : Nat
  size : Nat
  host : Bool
  leaf : Nat × Nat
  deriving DecidableEq, Repr

/-- Read a range page by page: bytes, and where each piece lies. -/
def readPlaced (who : Option (Nat × W32)) (k va n : Nat) : Op (List Byte × List Placed) := do
  let parts ← gatherOp (fun (p : Nat × Nat) => do
    let (pa, h, level) ← translateLeaf who k p.1 false false
    let b ← if h then do hostGate who pa false; let s ← get; pure (hostRead s pa p.2) else readDev who pa p.2
    pure (b, (⟨pa, p.2, h, (p.1 % 2 ^ 48 / pageSize level * pageSize level, pageSize level)⟩ : Placed))) (rangePieces 4096 (n + 1) va n)
  pure ((parts.map Prod.fst).flatten, parts.map Prod.snd)

/-- A failed check of R480. -/
def imageBad {α : Type} (code : Nat) : Op α := failWith 6 (some (BitVec.ofNat 32 (0xFFFE0000 + code))) 0

/-- Check `ok`, under a code of R480. -/
def checkImage (ok : Bool) (code : Nat) : Op Unit := if ok then pure () else imageBad code

/-- The cache with an entry made the most recently used of at most 16 (R481, R482). -/
def cachePut (l : List CachedImage) (x : CachedImage) : List CachedImage :=
  let l := l.filter (fun y => !(decide (y.ctx = x.ctx) && decide (y.va = x.va))) ++ [x]
  l.drop (l.length - 16)

/-- The records of section `i`. -/
def readSection (who : Option (Nat × W32)) (k va off n : Nat) : Op (List StepRec) := do
  let b ← readVa who k (va + off) (32 * n) false
  pure ((List.range n).map (fun i => (b.drop (32 * i)).take 32))

/-- R480 to R482, R722: verify the image a RUN job names, or find it verified in the cache; answers the
image, the address and the count of the section's records, and its needs. -/
def admitImage (k : Nat) (sub : W32) (va sect : Nat) : Op (Image × Nat × Nat × Nat) := do
  let who := some (k, sub)
  let h0 ← readVa who k va 64 false
  checkImage (magicOk h0) 1
  match (← get).images.find? (fun c => decide (c.ctx = k) && decide (c.va = va)) with
  | some c =>
    checkImage (decide (sect < c.sections.length)) 5
    let (off, n) := c.sections.getD sect (0, 0)
    let known := smGet 0 c.needs sect
    let needs ← if known = 0 then do pure (sectionNeeds (← readSection who k va off n)) else pure (known - 1)
    modify (fun s => { s with images := cachePut s.images { c with needs := smPut 0 c.needs sect (needs + 1) } })
    pure (c.image, va + off, n, needs)
  | none =>
    checkImage (headerCrcOk h0) 2
    checkImage (headerOk h0) 3
    let h := headerOf h0
    let (b, places) ← readPlaced who k va h.size
    checkImage (partsOk b h) 3
    checkImage (contentsOk b h) 4
    checkImage (decide (sect < h.sectCount)) 5
    match signatureBad (← get) b h with
    | some code => imageBad code
    | none =>
      let sections := sectionsOf b h
      let (off, n) := sections.getD sect (0, 0)
      let steps := (List.range n).map (fun i => (b.drop (off + 32 * i)).take 32)
      let needs := sectionNeeds steps
      let im := imageOf b h
      if places.all (fun p => !p.host) then
        let entry : CachedImage :=
          ⟨k, va, im, sections, places.map (fun p => (p.pa, p.size)), places.map Placed.leaf, smPut 0 [] sect (needs + 1)⟩
        modify (fun s => { s with images := cachePut s.images entry })
      pure (im, va + off, n, needs)

end Sys2Proof.Machine
end

