-- ==== Sys2Proof/Machine/Security.lean ====
section
/-! DEFINITION. Life cycle (R664 to R669), key slots (R670 to R673), tokens (R674, R675) and the fuse
operations they start. -/

namespace Sys2Proof.Machine

/-- SEC_STAT.BUSY (R668). -/
def secBusy (s : State) : Bool := s.sec.op.isSome || s.sec.tokenBusy

/-- R668: a write while BUSY is ignored. -/
def secIgnored (s : State) : State := setEvent s SEC_EVENT_CMD_IGNORED

/-- Begin a fuse operation. -/
def startFuse (s : State) (op : FuseOp) (token : Bool) : State :=
  { s with sec := { s.sec with op := some op, opFromToken := token } }

/-- The slot is ACTIVE. -/
def slotActive (s : State) (i : Nat) : Bool := decide (slotState s i = 1)

/-- R667: the fuse bits of a transition from the latched state; none when it is refused. -/
def transitionBits (s : State) (target : Nat) : Option (BitVec 4) :=
  if target = 4 then some 0xF
  else if s.sec.state = 0 ∧ target = 1 then some 0x1
  else if s.sec.state = 1 ∧ target = 2 ∧ (List.range 4).any (slotActive s) then some 0x3
  else none

/-- LC_TRANSITION: a write to SEC_LC_CMD with GO at 1 (R667, R668). -/
def lcTransition (s : State) (key target : Nat) : State :=
  if secBusy s then secIgnored s
  else if key ≠ 0x4C43 then s
  else match transitionBits s target with
    | some bits => startFuse (setF s SEC_LC_STAT_RESULT 0) (.lc bits) false
    | none => setF s SEC_LC_STAT_RESULT 4

/-- The hash SEC_KEY_DATA holds. -/
def keyData (s : State) : List Byte := (List.range 8).flatMap (fun i => natLE 4 (getF s (SEC_KEY_DATA_HASH i)))

/-- KEY_PROGRAM (R671). -/
def keyProgram (s : State) (slot : Nat) : State :=
  if (s.sec.state = 0 ∨ s.sec.state = 1) ∧ slotState s slot = 0 ∧ !(allZero (keyData s)) then
    startFuse (setF s SEC_KEY_STAT_RESULT 0) (.key slot (keyData s)) false
  else setF s SEC_KEY_STAT_RESULT 4

/-- The hash words a slot reads: zero for an ERASED slot and in VOID (R669, R670). -/
def slotHash (s : State) (slot : Nat) : List Byte :=
  let k := getSlotFuses s slot
  if k.erased ∨ s.sec.state = 4 then zeros 32 else k.hash

/-- KEY_READ. -/
def keyRead (s : State) (slot : Nat) : State :=
  let h := slotHash s slot
  let s := (List.range 8).foldl (fun s i => setF s (SEC_KEY_DATA_HASH i) (recNat h (4 * i) 4)) s
  setF s SEC_KEY_STAT_RESULT 1

/-- KEY_REVOKE through the command acts only in OPEN (R672). -/
def keyRevoke (s : State) (slot : Nat) : State :=
  if s.sec.state = 1 then startFuse (setF s SEC_KEY_STAT_RESULT 0) (.revoke slot) false else setF s SEC_KEY_STAT_RESULT 4

/-- A write to SEC_KEY_CMD (R668, R671): `run` acts when KEY is right and no operation runs. -/
def keyCmd (s : State) (key : Nat) (run : State → State) : State :=
  if secBusy s then secIgnored s else if key = 0x4B59 then run s else s

/-- Change the fuses of a slot. -/
def Sec.putSlot (x : Sec) (i : Nat) (k : KeySlot) : Sec := { x with slots := smPut KeySlot.empty x.slots i k }

/-- The slot's fuses with those of a hash blown: a fuse blown before stays. -/
def Sec.blowHash (x : Sec) (i : Nat) (h : List Byte) : KeySlot :=
  let k := smGet KeySlot.empty x.slots i
  { k with hash := List.zipWith (· ||| ·) k.hash h }

/-- What a fuse operation that verifies has blown (R665). -/
def blowFuse (x : Sec) : FuseOp → Sec
  | .lc bits => { x with lc := x.lc ||| bits }
  | .key i h => x.putSlot i { x.blowHash i h with valid := true }
  | .revoke i => x.putSlot i { smGet KeySlot.empty x.slots i with revoked := true }

/-- What a fuse operation that does not verify has blown all the same (R665): of the fuses a transition or a hash had to blow
some, freely, but not all of a transition's. -/
def partFuse (x : Sec) (part : BitVec 256) : FuseOp → Sec
  | .lc bits =>
    let b := bits &&& part.truncate 4
    if x.lc ||| b = x.lc ||| bits then x else { x with lc := x.lc ||| b }
  | .key i h => x.putSlot i (x.blowHash i (List.zipWith (· &&& ·) h (natLE 32 part.toNat)))
  | .revoke _ => x

/-- FUSE_OP_DONE (R665, R673): the fuses read blown, or FUSE_FAIL is set. A slot's new state makes every
cached image invalid (R482). -/
def fuseOpDone (s : State) (ok : Bool) : State :=
  match s.sec.op with
  | none => s
  | some op =>
    let token := s.sec.opFromToken
    let s := { s with sec := { s.sec with op := none, opFromToken := false } }
    if !ok then setEvent { s with sec := partFuse s.sec (Config.partBlown s.now) op } SEC_EVENT_FUSE_FAIL
    else
      let s := { s with sec := blowFuse s.sec op }
      match op with
      | .lc _ => if token then s else setF s SEC_LC_STAT_RESULT 1
      | _ => let s := { s with images := [] }; if token then s else setF s SEC_KEY_STAT_RESULT 1

/-- FUSE_OP_DONE: the one command that blows fuses. -/
def execFuseOpDone (ok : Bool) (s : State) : Answer :=
  if isReady s then
    .next { fuseOpDone (newCycle s) ok with pending := s.pending, now := s.now, raised := s.raised, mem := s.mem, host := s.host }
  else .next s

/-! ### Tokens (R674, R675) -/

/-- TOKEN_CHECK: a write of 1 to SEC_TOKEN_CMD.GO. -/
def tokenCheck (s : State) : State :=
  if secBusy s then secIgnored s
  else { setF s SEC_TOKEN_STAT_RESULT 0 with sec := { s.sec with tokenBusy := true } }

/-- The result code of a token's bytes (R674, R675); the checks are taken in the order of their codes. -/
def tokenResult (s : State) (b : List Byte) : Nat :=
  let kind := recNat b 4 1
  let slot := recNat b 5 1
  let formatOk := decide (recNat b 0 4 = 0x4E4B4F54) && (decide (kind = 1 ∧ slot = 0) || decide (kind = 2 ∧ slot < 4)) &&
    decide (recNat b 6 2 = 0) && decide (b.length = 128)
  if !formatOk then 2
  else if recNat b 8 8 ≠ s.sec.uid.toNat then 3
  else if !(decide (s.sec.state = 2) || (decide (kind = 2) && decide (s.sec.state = 1))) then 4
  else if !(keyTrusted s ((b.drop 32).take 32)) then 5
  else if !(ed25519Verify ((b.drop 32).take 32) ((b.drop 64).take 64) (b.take 32)) then 6
  else if kind = 2 ∧ s.sec.state = 2 ∧ !((List.range 4).any (fun i => decide (i ≠ slot) && slotActive s i)) then 7
  else 1

/-- TOKEN_CHECK_DONE: the result, and the fuse operation an accepted token starts. -/
def tokenCheckDone (s : State) : State :=
  if !s.sec.tokenBusy then s
  else
    let off := getF s SEC_TOKEN_OFF_OFFSET * 64
    let (r, s) := runOp (readDev none (basinBase + off) (min 128 (basinSize - off))) s
    let b := match r with
      | .ok b => b
      | .error _ => []
    let code := tokenResult s b
    let s := { setF s SEC_TOKEN_STAT_RESULT code with sec := { s.sec with tokenBusy := false } }
    if code ≠ 1 then s
    else if recNat b 4 1 = 1 then startFuse s (.lc 0x4) true
    else startFuse s (.revoke (recNat b 5 1)) true

/-- TOKEN_CHECK_DONE. -/
def execTokenCheckDone (s : State) : Answer := whenReady s tokenCheckDone

end Sys2Proof.Machine
end

