-- ==== Sys2Proof/Machine/Berths.lean ====
section
/-! DEFINITION. Berths, the flash and the start watchdog (R84 to R92). The manual gives no layout of a
berth's header, signature or confirmation record: Config holds them. -/

namespace Sys2Proof.Machine

/-- Base of a berth's span: 1 is berth A, 2 berth B, coded as GLB_BERTH_STAT.ACTIVE. -/
def berthBase (b : Nat) : Nat := if b = 2 then 0x4000000 else 0
/-- Size of a span. -/
def berthSpan : Nat := 0x4000000
/-- Offset of the state sector in a span. -/
def stateSector : Nat := 0x3FFF000

/-- The most a berth's content takes: 60 MiB, from the base of its span. -/
def contentLimit : Nat := 0x3C00000

/-- The bytes of a berth's content that are not erased, by offset. -/
def berthBytes (s : State) (b : Nat) : List (Nat × Byte) :=
  (s.flash.bytes.filter (fun p => decide (berthBase b ≤ p.1) && decide (p.1 < berthBase b + contentLimit))).map
    (fun p => (p.1 - berthBase b, p.2))

/-- The berth holds a confirmation record. -/
def confirmed (s : State) (b : Nat) : Bool := if b = 2 then s.flash.confirmedB else if b = 1 then s.flash.confirmedA else false

/-- The berth's required signature passes (R479): in SEALED it must be signed; elsewhere an unsigned berth is
accepted; in VOID none is (R669). -/
def berthSigned (s : State) (b : Nat) : Bool :=
  match Config.berthSignature (berthBytes s b) with
  | some (h, ok) => ok && (List.range 4).any (fun i => slotActive s i && decide ((getSlotFuses s i).hash = h)) && decide (s.sec.state ≠ 4)
  | none => decide (s.sec.state ≠ 2) && decide (s.sec.state ≠ 4)

/-- A check of a berth: 1 passes, 2 CRC fails, 3 signature fails (GLB_BERTH_STAT.RESULT). -/
def berthCheck (s : State) (b : Nat) : Nat :=
  if !(Config.berthHeaderOk (berthBytes s b)) then 2 else if !(berthSigned s b) then 3 else 1

/-- The backup's decision: active berth, previous berth, trial mark (R654). -/
def decision (s : State) : Nat × Nat × Bool :=
  let d := bkWord s 16 4
  (bitsOf d 1 0, bitsOf d 3 2, bitOf d 4)

/-- Record a berth decision in the backup (R655, R659). -/
def recordDecision (s : State) (active previous : Nat) (trial : Bool) : State :=
  backupUpdate s [(16, natLE 4 (active + 4 * previous + 16 * b2n trial))]

/-- The berth that is not active; berth A when none is. -/
def inactiveBerth (s : State) : Nat := if getF s GLB_BERTH_STAT_ACTIVE = 1 then 2 else 1

/-- BERTH_COMMIT (R88). -/
def berthCommit (s : State) : State :=
  let b := inactiveBerth s
  let r := berthCheck s b
  let s := setF s GLB_BERTH_STAT_RESULT r
  let s := if r = 1 then recordDecision s b (getF s GLB_BERTH_STAT_ACTIVE) true else s
  setEvent s GLB_EVENT_BERTH_DONE

/-- A confirmation record in a berth's state sector (R90). -/
def writeConfirmation (s : State) (b : Nat) : State :=
  let rec_ := (List.range 32).map Config.confirmByte
  { s with flash := { s.flash with
      bytes := smWrite 0xFF s.flash.bytes (berthBase b + stateSector) rec_
      confirmedA := s.flash.confirmedA || decide (b = 1), confirmedB := s.flash.confirmedB || decide (b = 2) } }

/-- BERTH_CONFIRM (R90): while the start watchdog runs. RESULT then shows 1, done, and the running berth's decision stands in
the backup also after a COMMIT of the other berth (DESIGN CHOICE, log entry 111). -/
def berthConfirm (s : State) : State :=
  match s.flash.wdog with
  | none | some 0 => s
  | some (_ + 1) =>
    let b := getF s GLB_BERTH_STAT_ACTIVE
    let s := writeConfirmation { s with flash := { s.flash with wdog := none } } b
    let s := recordDecision s b (getF s GLB_BERTH_STAT_PREVIOUS) false
    setF (setF s GLB_BERTH_STAT_TRIAL 0) GLB_BERTH_STAT_RESULT 1

/-- BERTH_RETURN_PREV (R92). -/
def berthReturnPrev (s : State) : State :=
  let p := getF s GLB_BERTH_STAT_PREVIOUS
  if confirmed s p then setF (recordDecision s p (getF s GLB_BERTH_STAT_ACTIVE) false) GLB_BERTH_STAT_RESULT 1
  else setF s GLB_BERTH_STAT_RESULT 4

/-- START_WATCHDOG_EXPIRY (R91): the trial berth is abandoned and a cold start begins from the previous one,
itself on trial when it holds no confirmation record (R85). The backup then names the abandoned berth as the previous one; where
there was none, it names no active berth, and the cold start chooses as with a lost backup (DESIGN CHOICE, log entry 111). -/
def watchdogExpiry (s : State) : State :=
  let active := getF s GLB_BERTH_STAT_ACTIVE
  let previous := getF s GLB_BERTH_STAT_PREVIOUS
  let s := recordDecision s previous active (!(confirmed s previous))
  beginStart { s with flash := { s.flash with wdog := none } } false (2 ^ 2)

/-- START_WATCHDOG_EXPIRY: the watchdog also counts through a warm start (R650). -/
def execStartWatchdogExpiry (s : State) : Answer :=
  match s.phase, s.flash.wdog with
  | .inReset _, _ => .next s
  | _, some 0 => keep s (watchdogExpiry s)
  | _, _ => .next s

/-- One reference tick, half an AON cycle, of the start watchdog (R90). -/
def watchdogTick (s : State) : State :=
  match s.flash.wdog with
  | some (n + 1) => { s with flash := { s.flash with wdog := some n } }
  | _ => s

/-! ### Flash operations (R87) -/

/-- Bytes a flash operation touches: a word, or a 64 KiB block. -/
def xspiRange (op addr : Nat) : Nat × Nat := if op = 2 then (addr / 65536 * 65536, 65536) else (addr, 4)

/-- Begin operation OP at ADDR; a write of GO while one runs is ignored (DESIGN CHOICE). Programming and erasing
in the active berth's span is refused, as is an OP the table does not list. -/
def xspiGo (s : State) : State :=
  let op := getF s GLB_XSPI_CMD_OP
  let addr := getF s GLB_XSPI_ADDR_ADDR
  let a := getF s GLB_BERTH_STAT_ACTIVE
  let (lo, n) := xspiRange op addr
  let touches := decide (a ≠ 0) && decide (lo < berthBase a + berthSpan) && decide (berthBase a < lo + n)
  if s.flash.xspiOp.isSome then s
  else if op > 2 ∨ (op ≠ 0 ∧ touches) then setF s GLB_XSPI_STAT_ERROR 1
  else { s with flash := { s.flash with xspiOp := some (op, addr, getReg s GLB_XSPI_DATA_DATA.key) } }

/-- A flash byte. -/
def flashByte (s : State) (a : Nat) : Byte := smGet 0xFF s.flash.bytes a

/-- The confirmation records left by an erase or a programming of `n` bytes from `a`: one that shares a byte with them is lost
(DESIGN CHOICE, log entry 20). -/
def eraseConfirmations (s : State) (a n : Nat) : State :=
  let hit (b : Nat) := decide (a < berthBase b + stateSector + 32) && decide (berthBase b + stateSector < a + n)
  { s with flash := { s.flash with confirmedA := s.flash.confirmedA && !(hit 1), confirmedB := s.flash.confirmedB && !(hit 2) } }

/-- What a flash operation that succeeds does; programming clears bits only (PRESUMED: NOR flash). -/
def xspiEffect (s : State) (op addr : Nat) (w : W32) : State :=
  match op with
  | 0 => putReg s GLB_XSPI_DATA_DATA.key (BitVec.ofNat 32 (leNat ((List.range 4).map (fun i => flashByte s (addr + i)))))
  | 1 =>
    let l := (List.range 4).map (fun i => flashByte s (addr + i) &&& BitVec.ofNat 8 (w.toNat / 2 ^ (8 * i)))
    eraseConfirmations { s with flash := { s.flash with bytes := smWrite 0xFF s.flash.bytes addr l } } addr 4
  | _ =>
    let a := addr / 65536 * 65536
    eraseConfirmations { s with flash := { s.flash with
      bytes := s.flash.bytes.filter (fun p => decide (p.1 < a) || decide (a + 65536 ≤ p.1)) } } a 65536

/-- XSPI_OP_DONE: BUSY clears with ERROR showing the outcome. -/
def xspiOpDone (s : State) (ok : Bool) : State :=
  match s.flash.xspiOp with
  | none => s
  | some (op, addr, w) =>
    let s := setF { s with flash := { s.flash with xspiOp := none } } GLB_XSPI_STAT_ERROR (b2n (!ok))
    if ok then xspiEffect s op addr w else s

/-- XSPI_OP_DONE. -/
def execXspiOpDone (ok : Bool) (s : State) : Answer := whenReady s (fun s => xspiOpDone s ok)

end Sys2Proof.Machine
end

