-- ==== Sys2Proof/Machine/Supply.lean ====
section
/-! DEFINITION. VDD_CORE over PMBus (R634 to R637), the RTC and the crystal (R661, R708), and the operating
points they follow (R607, R608). -/

namespace Sys2Proof.Machine

/-! ### Operating points (R607) -/

/-- Frequency ÷ 12.5 MHz of operating point `op` in region `r`; in PLAN, OP14 and OP15 act as OP13. -/
def opMult (r op : Nat) : Nat :=
  if op ≤ 12 then 32 + 4 * op else if op = 13 ∨ r = 4 then 88 else if op = 14 then 96 else 104

/-- VDD_CORE level in millivolts at a frequency ÷ 12.5 MHz; between two points the higher one's (DEDUCED). -/
def levelMv (m : Nat) : Nat :=
  if m ≤ 48 then 650 else if m ≤ 64 then 690 else if m ≤ 80 then 720 else if m ≤ 88 then 750 else if m ≤ 96 then 800 else 850

/-- R635: the VDD_CORE target in millivolts. -/
def vcoreTarget (s : State) : Nat :=
  if flag s PWR_VCORE_CTL_AUTO then
    levelMv (((List.range 5).map (fun r => max (getF s (CLK_RGN_STAT_CUR r)) (opMult r (getF s (CLK_RGN_CFG_OP r))))).foldl max 0)
  else 650 + 5 * min 40 (getF s PWR_VCORE_CTL_FIXED)

/-- R636: a target in the linear format VOUT_MODE names: the nearest code, ties to even. -/
def voutCode (mode mv : Nat) : Nat := (qRne (qScale2 (qFrac (mv : Int) 1000) (-(toSigned 5 (mode % 32))))).toNat % 65536

/-- R636, R637: send VOUT_COMMAND; VOK falls. -/
def sendVout (s : State) : State :=
  let c := voutCode s.pmb.voutMode (getF s PWR_VCORE_TARGET)
  let s := incF (setF s PWR_STAT_VOK 0) PWR_CNT_VREQ_COUNT
  { s with pmb := { s.pmb with sentAt := some s.now, code := c }, out := { s.out with vout := c :: s.out.vout } }

/-- R635, R636: while EN is 1 the target follows, and each change of it is sent. -/
def followTarget (s : State) : State :=
  let t := vcoreTarget s
  if flag s PWR_PMB_CFG_EN ∧ getF s PWR_VCORE_TARGET ≠ t then sendVout (setF s PWR_VCORE_TARGET t) else s

/-- R636: EN has changed to 1: VOUT_MODE is read and the target sent. -/
def pmbEnabled (s : State) (voutMode : Nat) : State :=
  sendVout (setF { s with pmb := { s.pmb with voutMode := voutMode } } PWR_VCORE_TARGET (vcoreTarget s))

/-- PMB_ENABLE: PWR_PMB_CFG.EN changes to 1 with ADDR; `voutMode` is what the regulator answers. -/
def pmbEnable (s : State) (addr voutMode : Nat) : State :=
  if flag s PWR_PMB_CFG_EN then s
  else pmbEnabled (setF (setF (notePass s PWR_PMB_CFG_EN.key) PWR_PMB_CFG_ADDR addr) PWR_PMB_CFG_EN 1) voutMode

/-- VOUT_POLL (R637): a READ_VOUT in millivolts. -/
def voutPoll (s : State) (mv : Nat) : State :=
  if !(flag s PWR_PMB_CFG_EN) then s
  else
    let s := { setF s PWR_VCORE_READ mv with pmb := { s.pmb with pollAt := s.now } }
    let t := getF s PWR_VCORE_TARGET
    if mv ≤ t + 10 ∧ t ≤ mv + 10 then setF s PWR_STAT_VOK 1 else s

/-- VOUT_POLL. -/
def execVoutPoll (readMv : BitVec 10) (s : State) : Answer := whenReady s (fun s => voutPoll s readMv.toNat)

/-- PMB_RETRY (R637): VOK has not risen within 2 ms of the command. -/
def pmbRetry (s : State) : State :=
  match s.pmb.sentAt with
  | some t =>
    if flag s PWR_PMB_CFG_EN ∧ !(flag s PWR_STAT_VOK) ∧ s.now ≥ t + 200000 then
      incF (sendVout (setEvent s PWR_EVENT_PMB_FAIL)) PWR_CNT_PMB_RETRY_COUNT
    else s
  | none => s

/-- PMB_RETRY. -/
def execPmbRetry (s : State) : Answer := whenReady s pmbRetry

/-! ### RTC (R661) -/

/-- RTC_LOAD. -/
def rtcLoad (s : State) : State :=
  let v := getF s PWR_RTC_LOAD_LO_COUNT + 2 ^ 32 * getF s PWR_RTC_LOAD_HI_COUNT
  { s with backup := { s.backup with rtc := v, rtcFrac := 0, rtcValid := true } }

/-- XTAL_STOP: the crystal stops and the RTC stands still. -/
def execXtalStop (s : State) : Answer := keep s { s with backup := { s.backup with xtal := false } }

/-- XTAL_START. -/
def execXtalStart (s : State) : Answer := keep s { s with backup := { s.backup with xtal := true } }

/-- One reference tick of the RTC: 32,768 periods a second are 1,024 in 3,125,000 ticks (R661). -/
def rtcTick (s : State) : State :=
  if s.backup.xtal then
    let f := s.backup.rtcFrac + 1024
    if f ≥ 3125000 then
      { s with backup := { s.backup with rtcFrac := f - 3125000, rtc := (s.backup.rtc + 1) % 2 ^ 48 } }
    else { s with backup := { s.backup with rtcFrac := f } }
  else s

end Sys2Proof.Machine
end

