-- ==== Sys2Proof/Machine/Clocks.lean ====
section
/-! DEFINITION. Frequency changes (R618 to R627), the monitors (R615 to R617) and the adaptive controller
(R618, R619). -/

namespace Sys2Proof.Machine

/-! ### Ferry boundaries (R605) -/

/-- The first ferry boundary at or after tick `t`. -/
def boundaryFrom (s : State) (t : Nat) : Nat := s.readyAt + alignUp (t - s.readyAt) 8

/-- The last ferry boundary at or before now. -/
def boundaryNow (s : State) : Nat := s.readyAt + (s.now - s.readyAt) / 8 * 8

/-! ### Changes (R620 to R626) -/

/-- FREQ_CHANGE_GO (R622 to R624). -/
def freqGo (s : State) (r : Nat) : State :=
  let c := getClk s r
  if c.armed || c.changing then setEvent s CLK_EVENT_CHG_IGNORED
  else putClk s r { c with armed := true, goAt := s.now, winAt := none, cfg := (getReg s (CLK_RGN_CFG_OP r).key).toNat % 4096 }

/-- A glide or stop has ended; a change of the driver's is counted (R626), a step of the adaptive controller
is not (DEDUCED). -/
def endChange (s : State) (r : Nat) : State :=
  let c := getClk s r
  let s := putClk s r { c with changing := false, stopped := false, adaptive := false, step := 0 }
  if c.adaptive then s else setEvent (incF s CLK_CNT_CHANGES_COUNT) CLK_EVENT_CHANGE_DONE

/-- A glide of region `r` toward `target` begins at a ferry boundary (R621). -/
def beginGlide (s : State) (r target at_ : Nat) (adaptive : Bool) : State :=
  let s := putClk s r { getClk s r with
    armed := false, changing := true, stopped := false, target := target, startAt := at_, step := 0, adaptive := adaptive }
  if getF s (CLK_RGN_STAT_CUR r) = target then endChange s r else s

/-- A job of region `r` is about to moor or to cast off (R625). -/
def mooringBusy (s : State) (r : Nat) : Bool :=
  s.jobs.any (fun j => decide (j.unit = r) && !j.isDone && (!j.pendingMoors.isEmpty || j.castWait.isSome))

/-- The tick from which an armed change may start: 160 ns after the opening of its window in Timed mode, or
after its GO in Adaptive mode (R622, R623). -/
def changeDue (s : State) (c : ClkRegion) : Option Nat :=
  if timedMode s then c.winAt.map (fun t => boundaryFrom s (t + 16)) else some (boundaryFrom s (c.goAt + 16))

/-- FREQ_CHANGE_START. -/
def freqStart (s : State) (r : Nat) : State :=
  let c := getClk s r
  match changeDue s c with
  | some t =>
    let target := opMult r (bitsOf c.cfg 3 0)
    if !c.armed || decide (s.now < t) then s
    else if bitOf c.cfg 8 then beginGlide s r target (boundaryNow s) false
    else if mooringBusy s r then s
    else putClk s r { c with armed := false, changing := true, stopped := true, target := target, startAt := boundaryNow s, adaptive := false }
  | none => s

/-- FREQ_CHANGE_START. -/
def execFreqChangeStart (r : Fin 5) (s : State) : Answer := whenReady s (fun s => freqStart s r)

/-- GLIDE_STEP: step k takes effect at ferry boundary ceil(25k ÷ 2) after the start (R621). -/
def glideStep (s : State) (r : Nat) : State :=
  let c := getClk s r
  let k := c.step + 1
  if !c.changing || c.stopped || decide (s.now < c.startAt + 8 * ceilDiv (25 * k) 2) then s
  else
    let cur := getF s (CLK_RGN_STAT_CUR r)
    let new := if cur < c.target then cur + 1 else cur - 1
    let s := setF (putClk s r { c with step := k }) (CLK_RGN_STAT_CUR r) new
    followTarget (if new = c.target then endChange s r else s)

/-- GLIDE_STEP. -/
def execGlideStep (r : Fin 5) (s : State) : Answer := whenReady s (fun s => glideStep s r)

/-- SHORT_STOP_END: the 40th ferry boundary after the stop (R620); the transfers that waited in the region's
slots are accepted. -/
def shortStopEnd (s : State) (r : Nat) : State :=
  let c := getClk s r
  if !c.stopped || decide (s.now < c.startAt + 320) then s
  else
    let s := setF s (CLK_RGN_STAT_CUR r) c.target
    followTarget (endChange { s with ferry := s.ferry.filter (fun p => decide (p.1 % 16 ≠ r)) } r)

/-! ### The adaptive controller (R618, R619) -/

/-- A window named in CLK_CTL.DEFER is open. -/
def stepDeferred (s : State) : Bool :=
  (List.range 8).any (fun w => (getWindow s w).isSome && bitOf (getF s CLK_CTL_DEFER) w)

/-- The next lower operating point, not below MIN_OP. -/
def lowerPoint (s : State) (r : Nat) : Option Nat :=
  let cur := getF s (CLK_RGN_STAT_CUR r)
  let floor := opMult r (getF s (CLK_RGN_CFG_MIN_OP r))
  (((List.range 16).map (opMult r)).filter (fun m => decide (m < cur) && decide (floor ≤ m))).max?

/-- The next higher operating point, not above OP. -/
def higherPoint (s : State) (r : Nat) : Option Nat :=
  let cur := getF s (CLK_RGN_STAT_CUR r)
  let ceil := opMult r (getF s (CLK_RGN_CFG_OP r))
  (((List.range 16).map (opMult r)).filter (fun m => decide (cur < m) && decide (m ≤ ceil))).min?

/-- The controller may start a step in region `r` now. -/
def stepFree (s : State) (r : Nat) : Bool :=
  let c := getClk s r
  !(timedMode s) && !c.armed && !c.changing && !(stepDeferred s)

/-- A step down that is due starts when it may. -/
def stepDown (s : State) (r : Nat) : State :=
  if stepFree s r && (getClk s r).downDue then
    let s := putClk s r { getClk s r with downDue := false, calmSince := s.now }
    match lowerPoint s r with
    | some m => beginGlide s r m (boundaryFrom s s.now) true
    | none => s
  else s

/-- A canary failure or a high temperature in Adaptive mode: a step down falls due in a core or in PLAN. -/
def wantDown (s : State) (r : Nat) : State :=
  if timedMode s ∨ r ≥ 5 then s else stepDown (putClk s r { getClk s r with downDue := true, calmSince := s.now }) r

/-- The temperature of region `r` lies below THERM_HI − 5 °C. -/
def coolEnough (s : State) (r : Nat) : Bool :=
  decide (toSigned 16 (getF s (CLK_TEMP_TEMP r)) < 16 * ((getF s CLK_THERM_CFG_THERM_HI : Nat) - 5 : Int))

/-- ADAPTIVE_STEP: a step down that waited, or a step up after 1 ms of good margin. -/
def adaptiveStep (s : State) (r : Nat) : State :=
  let c := getClk s r
  if c.downDue then stepDown s r
  else if stepFree s r ∧ s.now ≥ c.calmSince + 100000 ∧ coolEnough s r then
    let s := putClk s r { c with calmSince := s.now }
    match higherPoint s r with
    | some m => beginGlide s r m (boundaryFrom s s.now) true
    | none => s
  else s

/-- ADAPTIVE_STEP. -/
def execAdaptiveStep (r : Fin 5) (s : State) : Answer := whenReady s (fun s => adaptiveStep s r)

/-! ### Monitors (R616) -/

/-- DROOP_TRIP. -/
def droopTrip (s : State) (r : Nat) : State :=
  let s := incF s CLK_CNT_DROOP_COUNT
  if timedMode s then regionError s 10 r r
  else if (getClk s r).stretched then s
  else setEvent (incF (putClk s r { getClk s r with stretched := true }) CLK_CNT_STRETCH_COUNT) CLK_EVENT_STRETCH

/-- DROOP_TRIP. -/
def execDroopTrip (r : Fin 8) (s : State) : Answer := whenReady s (fun s => droopTrip s r)

/-- DROOP_CLEAR: the region holds its clock to the next ferry boundary and resumes aligned. -/
def execDroopClear (r : Fin 8) (s : State) : Answer :=
  whenReady s (fun s => putClk s r { getClk s r with stretched := false })

/-- CANARY_FAIL. -/
def canaryFail (s : State) (r : Nat) : State := wantDown (setEvent (incF s CLK_CNT_CANARY_COUNT) CLK_EVENT_CANARY) r

/-- CANARY_FAIL. -/
def execCanaryFail (r : Fin 8) (s : State) : Answer := whenReady s (fun s => canaryFail s r)

/-- The sensor of region `r` reports; a reading near THERM_HI ends the good margin (R615, R618). -/
def setTemp (s : State) (r temp : Nat) : State :=
  let s := setF s (CLK_TEMP_TEMP r) temp
  if coolEnough s r ∨ r ≥ 5 then s else putClk s r { getClk s r with calmSince := s.now }

/-- The reading `temp`, in units of 1/16 °C, is at or above `limit` °C. -/
def atLimit (temp limit : Nat) : Bool := decide (toSigned 16 temp ≥ 16 * (limit : Int))

/-- THERM_HI: the event is set when a reading reaches the threshold that the last one did not (DEDUCED). -/
def thermHi (s : State) (r temp : Nat) : State :=
  let hi := getF s CLK_THERM_CFG_THERM_HI
  let was := atLimit (getF s (CLK_TEMP_TEMP r)) hi
  let s := setTemp s r temp
  if atLimit temp hi then wantDown (if was then s else setEvent s CLK_EVENT_THERM_HI) r else s

/-- THERM_HI. -/
def execThermHi (r : Fin 8) (temp : BitVec 16) (s : State) : Answer := whenReady s (fun s => thermHi s r temp.toNat)

/-- THERM_TRIP: TRIP, and ALERT_N driven low; a reading there is at or above THERM_HI too. -/
def thermTrip (s : State) (r temp : Nat) : State :=
  let limit := getF s CLK_THERM_CFG_THERM_TRIP
  let was := atLimit (getF s (CLK_TEMP_TEMP r)) limit
  let s := thermHi s r temp
  if atLimit temp limit then
    let s := { s with out := { s.out with alertLow := true } }
    if was then s else setEvent s CLK_EVENT_TRIP
  else s

/-- THERM_TRIP. -/
def execThermTrip (r : Fin 8) (temp : BitVec 16) (s : State) : Answer := whenReady s (fun s => thermTrip s r temp.toNat)

/-- The generator of region `r` is no longer locked. -/
def unlockGen (s : State) (r : Nat) : State :=
  setF s CLK_STAT_LOCKED (setBitsOf (getF s CLK_STAT_LOCKED) r r 0)

/-- GENERATOR_UNLOCK: UNLOCK is set and a DROOP error raised; a generator may also lose lock while a start has
begun, as all do when REFCLK is absent (R709). -/
def execGeneratorUnlock (r : Fin 8) (s : State) : Answer :=
  match s.phase with
  | .ready => keep s (regionError (setEvent (unlockGen (newCycle s) r) CLK_EVENT_UNLOCK) 10 r r)
  | .starting .. => keep s (unlockGen s r)
  | _ => .next s

end Sys2Proof.Machine
end

