-- ==== Sys2Proof/Machine/Seq.lean ====
section
/-! DEFINITION. The frame of every sequencer step (R490 to R497): which record the core's sequencer
stands at, what a step command does when it matches, and how a step reaches the core pool, the flags and
the core. -/

namespace Sys2Proof.Machine

/-- What a step works with: its job and core, its index and record, the job's seed, image and arguments, and where it
stands as an issued step: its issue number, its cycle and how far it has come. -/
structure Env where
  k : Nat
  sub : W32
  c : Nat
  idx : Nat
  r : StepRec
  seed : W64
  image : Image
  args : List Nat
  nsteps : Nat
  no : Nat
  cycle : Nat
  progress : Nat

/-- The job a step works for. -/
def Env.who (e : Env) : Option (Nat × W32) := some (e.k, e.sub)

/-- The declaration of the job's image. -/
def Env.decl (e : Env) : Decl := e.image.decl

/-- The RUN job at work on core `c`; a stopped region does no work (R629). -/
def coreJob (s : State) (c : Nat) : Option (Job × RunState) :=
  match if (getClk s c).stopped then none else (getCore s c).running with
  | none => none
  | some (k, sub) =>
    match findJob s k sub with
    | none => none
    | some j =>
      match j.run with
      | some r => if j.phase = .running ∧ r.saved = none then some (j, r) else none
      | none => none

/-- R497: the step breaks a rule: FAULT_ABORT with the step's index in DETAIL. -/
def stepBad {α : Type} (e : Env) : Op α := failWith 6 (some (BitVec.ofNat 32 e.idx)) 0

/-- R497: go on only when a check holds. -/
def guardOp (e : Env) (ok : Bool) : Op Unit := if ok then pure () else stepBad e

/-- Change the run state of a job. -/
def updRun (s : State) (k : Nat) (sub : W32) (f : RunState → RunState) : State :=
  updJob s k sub (fun j => { j with run := j.run.map f })

/-- The records of a block, 32 bytes each. -/
def recordsOf : Nat → List Byte → List StepRec
  | 0, _ => []
  | n + 1, b => b.take 32 :: recordsOf n (b.drop 32)

/-- R496: the block of 64 records that holds the next step, read through the translation when the sequencer enters it.
Answers the step's record. -/
def fetchStep (j : Job) (r : RunState) : Op StepRec := do
  let n := r.pc / 64
  match r.block with
  | some (m, recs) => if m = n then pure (recs.getD (r.pc % 64) []) else load n
  | none => load n
where
  load (n : Nat) : Op StepRec := do
    let count := min 64 (r.nsteps - 64 * n)
    let b ← readVa (some (j.ctx, j.sub)) j.ctx (r.stepsVa + 2048 * n) (32 * count) false
    let recs := recordsOf count b
    modify (fun s => updRun s j.ctx j.sub (fun r => { r with block := some (n, recs) }))
    pure (recs.getD (r.pc % 64) [])

/-- What a step of a job on its core works with. -/
def envFor (j : Job) (r : RunState) (c : Nat) (q : Issued) : Env :=
  ⟨j.ctx, j.sub, c, q.idx, q.r, j.desc.seed, r.image, r.args, r.nsteps, q.no, q.cycle, q.progress⟩

/-- A step command of core `c`: when the core's job stands at a record the command accepts, do `f` with it, and
otherwise `other`. A section that runs out ends its job (R497). -/
def withStep (s : State) (c : Nat) (accepts : StepRec → Bool) (f : State → Env → State) (other : State → State := id) : State :=
  match coreJob s c with
  | none => s
  | some (j, r) =>
    if r.pc ≥ r.nsteps then endJob s j.ctx j.sub 6 (some (BitVec.ofNat 32 r.nsteps)) 0
    else
      match runOp (fetchStep j r) s with
      | (.error st, s') => stopJob s' j.ctx j.sub st
      | (.ok rec, s') =>
        if !(accepts rec) then other s'
        else
          let x := getCore s' c
          f (updRun (putCore s' c { x with seqStep := r.pc }) j.ctx j.sub (fun r => { r with stepAt := r.pc }))
            (envFor j r c ⟨x.issued, r.pc, rec, x.time.clock, 0⟩)

/-- The step is done or issued: the next one follows. The tick since which a DMA step still waits for the host stays. -/
def nextStep (s : State) (k : Nat) (sub : W32) : State :=
  updJob s k sub (fun j => { j with run := j.run.map (fun r => { r with pc := r.pc + 1, waitFrom := 0 }) })

/-- No access of the job to host memory waits any more. -/
def endHostWait (s : State) (k : Nat) (sub : W32) : State := updJob s k sub (fun j => { j with hostWait := none })

/-- A step's work stopped; a failing status without a DETAIL shows the step's index (R447). -/
def stopStep (s : State) (e : Env) (st : Stop) : State :=
  match st with
  | .fail status d q => stopJob s e.k e.sub (.fail status (some (d.getD (BitVec.ofNat 32 e.idx))) q)
  | _ => stopJob s e.k e.sub st

/-- Do the work of a step the sequencer performs itself, and go on to the next step. -/
def finishStep (s : State) (e : Env) (op : Op Unit) : State :=
  match runOp op s with
  | (.ok _, s') => nextStep s' e.k e.sub
  | (.error st, s') => stopStep s' e st

/-! ### The class queues (R492, R493) -/

/-- The class of a step: 0 LOAD, 1 ARRAY, 2 READOUT, 3 LANE, 4 GEY, 5 DMA; none for a step the sequencer performs
itself (R492, R494, R719). -/
def stepClass (r : StepRec) : Option Nat :=
  match stepOp r with
  | 0 => some 0
  | 1 | 2 => some 1
  | 3 => some 2
  | 4 | 6 => some 3
  | 5 => some 4
  | 7 | 8 | 11 => some 5
  | 12 => some (if bitOf (recNat r 2 1) 0 then 3 else 2)
  | _ => none

/-- The slots a STREAM adds into, or a DRAIN or caldera SURVEY reads: mask of arrays, edge, first slot and
count. -/
def slotUse (r : StepRec) : List (Nat × Bool × Nat × Nat) :=
  match stepOp r with
  | 2 => (recNat r 1 1, bitOf (recNat r 2 1) 0, recNat r 9 1, recNat r 8 1) ::
      (if bitOf (recNat r 2 1) 1 then [(8, bitOf (recNat r 2 1) 0, recNat r 17 1, recNat r 16 1)] else [])
  | 3 => [(recNat r 1 1, bitOf (recNat r 2 1) 0, recNat r 4 1, recNat r 5 1)]
  | 12 => [(recNat r 1 1, bitOf (recNat r 2 1) 1, recNat r 4 1, recNat r 5 1)]
  | _ => []

/-- Two steps use a common slot. -/
def slotsMeet (r t : StepRec) : Bool :=
  (slotUse r).any (fun a => (slotUse t).any (fun b =>
    decide (a.1 &&& b.1 ≠ 0) && decide (a.2.1 = b.2.1) &&
    decide (a.2.2.1 < b.2.2.1 + b.2.2.2) && decide (b.2.2.1 < a.2.2.1 + a.2.2.2)))

/-- R189: a SWAP issued before has still to copy a full plane that the LOAD_TILE would overwrite. -/
def loadWaits (x : Core) (q : Issued) (r : StepRec) : Bool :=
  decide (stepOp q.r = 1) &&
    (maskList 4 (recNat q.r 1 1 &&& recNat r 1 1)).any (fun a => !(bitOf q.progress a) && smGet false x.shadowFull a)

/-- The step cannot take effect yet, behind the issued steps `before` that are not done: one of its own class (R493); an
ARRAY or READOUT step that uses its slots (R171, R172); for a LOAD_TILE a SWAP that must copy first (R189); for a SIGNAL any
(R490). -/
def mustWait (x : Core) (before : List Issued) (r : StepRec) : Bool :=
  before.any (fun q => decide (stepClass q.r = stepClass r) ||
    (decide (stepClass q.r ≠ stepClass r) && slotsMeet q.r r) || (decide (stepOp r = 0) && loadWaits x q r)) ||
  (decide (stepOp r = 11) && !before.isEmpty)

/-- Do the work of an issued step. When it is done it leaves the queue, and a DMA step no longer waits for the host. -/
def performStep (work : Env → Op Bool) (e : Env) (q : Issued) : Op Unit := do
  modify (fun s => updRun s e.k e.sub (fun r => { r with stepAt := q.idx }))
  let done ← tryCatch (work { e with idx := q.idx, r := q.r, no := q.no, cycle := q.cycle, progress := q.progress }) (fun st =>
    throw (match st with
      | .fail a none n => .fail a (some (BitVec.ofNat 32 q.idx)) n
      | st => st))
  if done then
    modify (fun s =>
      let x := getCore s e.c
      let s := putCore s e.c { x with queue := x.queue.filter (fun p => decide (p.no ≠ q.no)) }
      if stepClass q.r = some 5 then endHostWait s e.k e.sub else s)

/-- The oldest issued step of the classes `mine` that nothing before it keeps waiting and that is `ready`. -/
def actable (x : Core) (mine : Nat → Bool) (ready : Issued → Bool) : Option Issued :=
  x.queue.find? (fun q => (match stepClass q.r with | some m => mine m | none => false) &&
    !(mustWait x (x.queue.takeWhile (fun p => decide (p.no ≠ q.no))) q.r) && ready q)

/-- Let issued steps act, oldest first, as long as one can and `n` allows. -/
def runQueue (mine : Nat → Bool) (ready : State → Env → Issued → Bool) (work : Env → Op Bool) (e : Env) : Nat → Op Unit
  | 0 => pure ()
  | n + 1 => do
    let s ← get
    match actable (getCore s e.c) mine (ready s e) with
    | none => pure ()
    | some q =>
      performStep work e q
      runQueue mine ready work e n

/-- Let the issued steps of some classes act. Each acts once but a SWAP, which may act for each array. -/
def pumpQueue (mine : Nat → Bool) (ready : State → Env → Issued → Bool) (work : Env → Op Bool) (s : State) (e : Env) : State :=
  match runOp (runQueue mine ready work e (4 * (getCore s e.c).queue.length)) s with
  | (.ok _, s') => s'
  | (.error st, s') => stopStep s' e st

/-- The issued steps of a class that are not done. -/
def queuedOf (x : Core) (m : Option Nat) : Nat := x.queue.countP (fun q => decide (stepClass q.r = m))

/-- R493: the step issues: it joins its class queue, one cycle passes, and the sequencer goes on. -/
def issueStep (s : State) (e : Env) : State :=
  let x := getCore s e.c
  nextStep (putCore s e.c { x with
    queue := x.queue ++ [⟨e.no, e.idx, e.r, e.cycle, 0⟩], issued := x.issued + 1,
    time := { x.time with clock := x.time.clock + 1 } }) e.k e.sub

/-- R493: a step command of a class. When the core's job stands at a record the row accepts, the step issues, unless its
class queue of 8 is full; then the steps of the classes `mine` act as far as nothing makes them wait. A row whose step has
issued already lets it try again. -/
def classStep (s : State) (c : Nat) (accepts : StepRec → Bool) (mine : Nat → Bool) (ready : State → Env → Issued → Bool)
    (work : Env → Op Bool) : State :=
  let retry (s : State) : State :=
    match coreJob s c, (getCore s c).queue.find? (fun q => accepts q.r) with
    | some (j, r), some q => pumpQueue mine ready work s (envFor j r c q)
    | _, _ => s
  withStep s c accepts (fun s e =>
    if queuedOf (getCore s c) (stepClass e.r) ≥ 8 then retry s else pumpQueue mine ready work (issueStep s e) e) retry

/-- A LANE, GEY or DMA step command; the issued steps of its row act. -/
def doStep (s : State) (c : Nat) (accepts : StepRec → Bool) (op : Env → Op Unit) (ready : State → Env → Issued → Bool := fun _ _ _ => true) :
    State :=
  classStep s c accepts (fun m => decide (3 ≤ m)) (fun s e q => accepts q.r && ready s e q) (fun e => do op e; pure true)

/-- How far an issued step has come. -/
def Env.note (e : Env) (progress : Nat) : Op Unit := modify (fun s =>
  let x := getCore s e.c
  putCore s e.c { x with queue := x.queue.map (fun q => if q.no = e.no then { q with progress := progress } else q) })

/-! ### Fields of the record -/

/-- A little-endian field of the record. -/
def Env.f (e : Env) (lo n : Nat) : Nat := recNat e.r lo n

/-- A signed byte of the record. -/
def Env.i8 (e : Env) (lo : Nat) : Int := toSigned 8 (e.f lo 1)

/-- R490: only the listed bytes may be non-zero. -/
def Env.uses (e : Env) (used : List Nat) : Op Unit := guardOp e (onlyUses e.r used)

/-- R497: the ARRAYS field names declared arrays; answers them. -/
def Env.arrays (e : Env) : Op (List Nat) := do
  let m := e.f 1 1
  guardOp e (decide (m ≠ 0) && decide (m < 16) && decide (m &&& e.decl.arrays = m))
  pure (maskList 4 m)

/-- R497: slots `s` to `s + n − 1` are declared. -/
def Env.slots (e : Env) (s n : Nat) : Op Unit := guardOp e (decide (1 ≤ n) && decide (s + n ≤ e.decl.slots))

/-- A FORMAT field. TAB4 expands only through a weight header and is moved only by copies, so elsewhere
its code is taken as reserved (DEDUCED). -/
def Env.fmt (e : Env) (lo : Nat) : Op Fmt :=
  match fmtOfCode (e.f lo 1) with
  | some f => if f = .tab4 then stepBad e else pure f
  | none => stepBad e

/-- CORE_NUM.FTZ of the core (R116). -/
def Env.ftz (e : Env) : Op Bool := do pure (flag (← get) (CORE_NUM_FTZ e.c))

/-! ### The core pool (R263, R497) -/

/-- R497: every byte lies in the declared pool range. -/
def Env.range (e : Env) (off n : Nat) : Op Unit :=
  guardOp e (decide (n = 0) || (decide (e.decl.poolBase ≤ off) && decide (off + n ≤ e.decl.poolBase + e.decl.poolBytes)))

/-- Read pool bytes. -/
def Env.read (e : Env) (off n : Nat) : Op (List Byte) := do
  e.range off n
  readDev e.who (poolBase e.c + off) n

/-- Write pool bytes. -/
def Env.write (e : Env) (off : Nat) (l : List Byte) : Op Unit := do
  e.range off l.length
  writeDev e.who (poolBase e.c + off) l

/-- Decode `n` elements of a format at a pool offset. -/
def Env.values (e : Env) (f : Fmt) (off n : Nat) : Op (List Val) := do
  let b ← e.read off (elemBytes f n)
  let z ← e.ftz
  pure ((unpackElems f n b).map (decode f z))

/-! ### Flags and the core -/

/-- Raise flags for the job in a cycle of their own (R67, R136, R137). -/
def Env.raise (e : Env) (fl : Flags) : Op Unit := modify (fun s => if fl = 0 then s else raiseFlags (newCycle s) e.c e.who fl)

/-- Change the core. -/
def Env.core (e : Env) (f : Core → Core) : Op Unit := modify (fun s => putCore s e.c (f (getCore s e.c)))

/-- The quantiser's counters (R215, R218): codes written, saturations, draws. -/
def Env.countQuant (e : Env) (out sat draws : Nat) : Op Unit := modify (fun s =>
  addF (addF (addF s (CORE_QNT_OUT_COUNT e.c) out) (CORE_QNT_SAT_COUNT e.c) sat) (CORE_QNT_DRAWS_COUNT e.c) draws)

/-- R497, R217: the stream id of the tensor a step uses. -/
def Env.sid (e : Env) (tensor : Nat) : Op W32 :=
  match e.image.tensors[tensor]? with
  | some t => pure (BitVec.ofNat 32 t.sid)
  | none => stepBad e

end Sys2Proof.Machine
end

