-- ==== Sys2Proof/Machine/Tile.lean ====
section
/-! DEFINITION. Weight tiles and streams: LOAD_TILE (R184, R190, R196 to R209), SWAP (R185 to R188) and
STREAM (R142 to R158, R172 to R183, R281 to R285, R580). Each is the whole effect of its step; when a
step takes effect is in ArraySteps. -/

namespace Sys2Proof.Machine

/-! ### LOAD_TILE -/

/-- The format is carried in three pieces (R148, R174). -/
def Fmt.isSplit (f : Fmt) : Bool := decide (f = .tp32) || decide (f = .fp32)

/-- The format takes group scales (R200). -/
def Fmt.isGrouped (f : Fmt) : Bool := f.isCode || decide (f = .tab4)

/-- R197, R198: the exact weight a code of the tile expands to. `h` is the expansion header. -/
def expandWeight (f : Fmt) (h : List Byte) (ftz : Bool) (q : Nat) : Val :=
  let x := toSigned 6 (recNat h 2 1 % 64)
  let v (t : Int) (x : Int) : Val := valOf (qDyadic t x)
  match f with
  | .int8 => v (toSigned 8 q - toSigned 8 (recNat h 1 1)) x
  | .int4 => v (toSigned 4 q - toSigned 4 (recNat h 1 1)) x
  | .tab4 => v (toSigned 9 (recNat h (16 + 2 * q) 2 % 512)) x
  | .bell4 => v (bell4Times128.getD q 0) (x - 7)
  | _ => decode f ftz q

/-- R174, R175: the piece of a weight that array `a` holds in a split tile. A non-finite weight stands in
A0 alone (DEDUCED, so that R177 holds for it). -/
def weightPiece (a : Nat) (v : Val) : Val :=
  match v with
  | .fin q => valOf ((splitPieces q).getD a qZero)
  | _ => if a = 0 then v else .zero false

/-- Rows of 512. -/
def rowsOf {α : Type} : Nat → List α → List (List α)
  | 0, _ => []
  | n + 1, l => l.take 512 :: rowsOf n (l.drop 512)

/-- Weights per scale group (R196, R201). -/
def groupSize (g : Nat) : Nat := if g = 1 then 32 else if g = 2 then 64 else if g = 3 then 128 else 0

/-- The plane that array `a` loads from pool offset `src` under header `h` (R196 to R206). -/
def loadPlane (e : Env) (h : List Byte) (f : Fmt) (a src : Nat) : Op Plane := do
  let z ← e.ftz
  let b ← e.read src (elemBytes f 65536)
  let ws := (unpackElems f 65536 b).map (expandWeight f h z)
  let ws := if f.isSplit then ws.map (weightPiece a) else ws
  let g := if f.isGrouped then groupSize (recNat h 3 1) else 0
  let scales ← if g = 0 then pure [] else do
    let l ← e.read (recNat h 4 4) (1024 * (128 / g))
    pure ((unpackElems .tp16 (512 * (128 / g)) l).map (decode .tp16 z))
  pure ⟨recNat h 0 1, rowsOf 128 ws, g, rowsOf (if g = 0 then 0 else 128 / g) scales⟩

/-- The rescale table of an array (R208): 512 south entries, then 128 east entries. -/
def tableOf (b : List Byte) : List W64 := (List.range 640).map (fun i => BitVec.ofNat 64 (recNat b (8 * i) 8))

/-- R184: the cycles a tile takes to load; 128 for a reserved FORMAT or GROUP. -/
def loadCycles (f : Option Fmt) : Nat :=
  match f with
  | some .tp8 | some .int8 => 64
  | some .int4 | some .bell4 | some .tab4 => 32
  | some .tp32 | some .fp32 => 256
  | _ => 128

/-- R184, R189, R209: a tile of `n` cycles loads into array `a` from the cycle in which the load path is free and the last
SWAP of the array copies; with `table`, so does its rescale table, at 512 bytes per cycle. -/
def CoreTime.loads (t : CoreTime) (issue a n : Nat) (table : Bool) : CoreTime :=
  let start := max issue (max (smGet 0 t.load a) (smGet 0 t.copied a))
  { t with load := smPut 0 t.load a (start + n), table := if table then smPut 0 t.table a (start + 10) else t.table }

/-- A tile whose header has a reserved FORMAT or GROUP: every weight is zero (R199); a reserved GROUP is still a GROUP
other than 0 (R207). -/
def reservedPlane (h : List Byte) : Plane := { Plane.zero with fmt := recNat h 0 1, group := if recNat h 3 1 ≤ 3 then 0 else recNat h 3 1 }

/-- LOAD_TILE's whole effect. -/
def loadTile (e : Env) : Op Unit := do
  e.uses ([1] ++ bytesOf 4 19)
  let arrays ← e.arrays
  let rescale := e.f 16 4
  let h ← e.read (e.f 12 4) 64
  let split := match fmtOfCode (recNat h 0 1) with | some f => f.isSplit | none => false
  guardOp e (!split || decide (e.f 1 1 = 0b0111))
  let src (a : Nat) := e.f 4 4 + (if split then 0 else a * e.f 8 4)
  let f := if recNat h 3 1 ≤ 3 then fmtOfCode (recNat h 0 1) else none
  match f with
  | some f =>
    if f.isGrouped && decide (recNat h 3 1 ≠ 0) && !(flag (← get) (CORE_QNT_CTL_GRP_EN e.c)) then
      failWith 1 (some (BitVec.ofNat 32 e.idx)) 0
    eachOp (fun a => do
      let p ← loadPlane e h f a (src a)
      e.core (fun x => { x with planes := smPut Plane.zero x.planes (4 + a) p })) arrays
  | none =>
    modify (fun s => incF s (CORE_WEXP_BAD_COUNT e.c))
    e.raise fINV
    eachOp (fun a => e.core (fun x => { x with planes := smPut Plane.zero x.planes (4 + a) (reservedPlane h) })) arrays
  if rescale ≠ 0 then
    eachOp (fun a => do
      let b ← e.read (rescale + 5120 * a) 5120
      e.core (fun x => { x with tables := smPut [] x.tables a (tableOf b) })) arrays
  eachOp (fun a => e.core (fun x => { x with
    shadowFull := smPut false x.shadowFull a true, time := x.time.loads e.cycle a (loadCycles f) (decide (rescale ≠ 0)) })) arrays

/-! ### SWAP -/

/-- The arrays of a waiting SWAP that can copy now: named, not yet copied, with a full shadow plane. The spec gives one
shadow plane for each array and does not say whether the arrays of one SWAP copy together; each copies as soon as its own
plane is full (DESIGN CHOICE, log entry 104). -/
def swapReady (x : Core) (q : Issued) : List Nat :=
  (maskList 4 (recNat q.r 1 1)).filter (fun a => !(bitOf q.progress a) && smGet false x.shadowFull a)

/-- R187, R188, R191: the cycle the token of a SWAP waits from: every vector before it has entered. -/
def CoreTime.tokenFrom (t : CoreTime) (issue : Nat) (arrays : List Nat) : Nat :=
  arrays.foldl (fun m a => max m (smGet 0 t.stream a)) issue

/-- SWAP's effect so far as its shadow planes are full (R185, R188); it is done once every array it names has copied.
Each array counts the cycles for which its own plane held the stream. -/
def swapTiles (e : Env) : Op Bool := do
  e.uses [1]
  let arrays ← e.arrays
  let x := getCore (← get) e.c
  let from_ := x.time.tokenFrom e.cycle arrays
  let ready := swapReady x ⟨e.no, e.idx, e.r, e.cycle, e.progress⟩
  eachOp (fun a => do
    let at_ := max from_ (smGet 0 x.time.load a)
    modify (fun s => addF s (CORE_ARR_SWAP_WAIT_COUNT e.c a) (at_ - from_))
    e.core (fun x => { x with
      planes := smPut Plane.zero x.planes a (smGet Plane.zero x.planes (4 + a)),
      shadowFull := smPut false x.shadowFull a false, time := { x.time with copied := smPut 0 x.time.copied a at_ } })) ready
  let mask := ready.foldl (fun m a => m ||| 2 ^ a) e.progress
  if arrays.all (bitOf mask) then
    e.core (fun x =>
      let at_ := arrays.foldl (fun m a => max m (smGet 0 x.time.copied a)) from_
      { x with time := { x.time with stream := arrays.foldl (fun m a => smPut 0 m a at_) x.time.stream } })
    pure true
  else
    e.note mask
    pure false

/-! ### Vectors of a skewed tensor (R281 to R285) -/

/-- Bytes of a slice: 64 for 8-bit and 16-bit formats, 128 for 32-bit formats. -/
def sliceBytes (f : Fmt) : Nat := if f.bits = 32 then 128 else 64

/-- Row or column groups of a vector. -/
def groupsIn (transpose : Bool) : Nat := if transpose then 16 else 4

/-- Bytes `n` vectors of a skewed tensor occupy. -/
def skewBytes (f : Fmt) (transpose : Bool) (n : Nat) : Nat :=
  (n + groupsIn transpose - 1) * (groupsIn transpose * sliceBytes f)

/-- Where slice `g` of vector `v` starts, from the line base. -/
def sliceAt (f : Fmt) (transpose : Bool) (v g : Nat) : Nat :=
  (v + g) * (groupsIn transpose * sliceBytes f) + g * sliceBytes f

/-- The words of vector `v`, from the tensor's bytes. -/
def skewedWords (f : Fmt) (transpose : Bool) (b : List Byte) (v : Nat) : List Nat :=
  (List.range (groupsIn transpose)).flatMap (fun g => unpackElems f 32 ((b.drop (sliceAt f transpose v g)).take (sliceBytes f)))

/-- The vectors of the skewed tensor at a line base. -/
def readVectors (e : Env) (f : Fmt) (transpose : Bool) (base n : Nat) : Op (List (List Val)) := do
  let b ← e.read base (skewBytes f transpose n)
  let z ← e.ftz
  pure ((List.range n).map (fun v => (skewedWords f transpose b v).map (decode f z)))

/-! ### Products of a stream -/

/-- Piece `p` (from 1) of an activation (R174, R175); a non-finite one acts in pass 1 alone. -/
def actPiece (f : Fmt) (p : Nat) (v : Val) : Val :=
  if !f.isSplit then v
  else match v with
    | .fin q => valOf ((splitPieces q).getD (p - 1) qZero)
    | _ => if p = 1 then v else .zero false

/-- One vector as it enters the arrays: its slot, its pass and its operands. -/
structure Entering where
  slot : Nat
  pass : Nat
  xs : List Val
  deriving DecidableEq, Repr

/-- The vectors in the order in which they enter: all of pass 1, then all of pass 2, and so on (R175). -/
def entering (f : Fmt) (passes slot : Nat) (vs : List (List Val)) : List Entering :=
  (List.range passes).flatMap (fun p => vs.zipIdx.map (fun v => ⟨slot + v.2, p + 1, v.1.map (actPiece f (p + 1))⟩))

/-- Weights of row `r` of a plane. -/
def planeRow (p : Plane) (r : Nat) : List Val :=
  match p.rows[r]? with
  | some l => l
  | none => List.replicate 512 (.zero false)

/-- The scale of row `r` and column `n` (R201, R202); none for a tile without groups. -/
def planeScale (p : Plane) (r n : Nat) : Option Val :=
  if p.group = 0 then none else some ((p.scales.getD (r / p.group) []).getD n (.zero false))

/-- A product acts: a non-finite operand acts in pass 1 only, and in a split tile in A0 only. -/
def productActs (p : Plane) (a pass : Nat) (x w : Val) : Bool :=
  (x.isFinite && w.isFinite) ||
    (decide (pass = 1) && !(decide (p.fmt = 8 ∨ p.fmt = 9) && decide (a ≥ 1)))

/-- The product of an activation with the weight at row `r` and column `n`. -/
def cellProduct (p : Plane) (a pass r n : Nat) (x w : Val) : Product :=
  if productActs p a pass x w then productOf x w (planeScale p r n) else .nothing

/-- The products of group `g` of an entering vector, one list for each caldera of the edge: 32 rows of every column in
normal mode, 32 columns of every row in transpose mode (R143, R153, R180, R181). -/
def groupProducts (p : Plane) (a : Nat) (transpose : Bool) (v : Entering) (g : Nat) : List (List Product) :=
  let part := (v.xs.zipIdx.drop (32 * g)).take 32
  if transpose then
    (List.range 128).map (fun r => (part.zip (((planeRow p r).drop (32 * g)).take 32)).map (fun q =>
      cellProduct p a v.pass r q.1.2 q.1.1 q.2))
  else
    part.foldr (fun x acc => List.zipWith (fun w l => cellProduct p a v.pass x.2 w.2 x.1 w.1 :: l) (planeRow p x.2).zipIdx acc)
      (List.replicate 512 [])

/-- One vector into the calderas of a slot, group by group (R143, R156, R180), with the flags of each group and whether a
caldera newly set OVF there (R160). -/
def addVector (p : Plane) (a : Nat) (transpose : Bool) (v : Entering) (cells : List Cell) : List Cell × List (Flags × Bool) :=
  (List.range (groupsIn transpose)).foldl (fun acc g =>
    let l := List.zipWith Cell.addGroup acc.1 (groupProducts p a transpose v g)
    (l.map Prod.fst, acc.2 ++ [(l.foldl (fun f q => f ||| q.2) 0, (acc.1.zip l).any (fun q => !q.1.ovf && q.2.1.ovf))])) (cells, [])

/-- The tile takes no part in transpose mode: it was loaded with a GROUP (R207). -/
def Plane.barred (p : Plane) (transpose : Bool) : Bool := transpose && decide (p.group ≠ 0)

/-! ### The armed injection (R580) -/

/-- The product adds something to its caldera. -/
def Product.adds : Product → Bool
  | .value n r _ => decide (n ≠ 0) || decide (r ≠ 0)
  | _ => false

/-- The first cycle in which entering vectors add into the array's calderas, and there the lowest caldera
with its vector and products. A vector enters every cycle, in transpose mode every second cycle, and reaches group g
after g cycles. -/
def firstAddition (p : Plane) (a : Nat) (transpose : Bool) (vs : List Entering) : Option (Nat × Entering × List Product) :=
  let groups := groupsIn transpose
  let every := if transpose then 2 else 1
  let cycles := List.range (every * vs.length + groups)
  let reached (t g : Nat) : Option (Nat × Entering × List Product) :=
    if g ≤ t ∧ (t - g) % every = 0 then
      match vs[(t - g) / every]? with
      | some v => (groupProducts p a transpose v g).zipIdx.findSome? (fun q => if q.1.any Product.adds then some (q.2, v, q.1) else none)
      | none => none
    else none
  cycles.findSome? (fun t => (List.range groups).foldl (fun best g =>
    match best, reached t g with
    | none, y => y
    | some b, some y => if y.1 < b.1 then some y else some b
    | some b, none => some b) none)

/-- What the flip of bit 300 adds to the caldera's integer: the bit as it stands after the addition of
that cycle decides the sign. -/
def flipDelta (cells : List Cell) (q : Nat × Entering × List Product) : BitVec 640 :=
  let c := ((cells.getD q.1 Cell.zero).addGroup q.2.2).1
  if c.c.getLsbD 300 then -(BitVec.ofNat 640 (2 ^ 300)) else BitVec.ofNat 640 (2 ^ 300)

/-- The injection armed for array `a` acts on the stream. -/
def injectFlip (e : Env) (a : Nat) (transpose : Bool) (vs : List Entering) : Op (Option (Nat × Nat × BitVec 640)) := do
  let x := getCore (← get) e.c
  if x.inject ≠ some a then pure none
  else
    let p := smGet Plane.zero x.planes a
    match if p.barred transpose then none else firstAddition p a transpose vs with
    | none => pure none
    | some q =>
      e.core (fun x => { x with inject := none })
      pure (some (q.2.1.slot, q.1, flipDelta (slotCells x a transpose q.2.1.slot) q))

/-! ### The fumarole lane's waits (R153 to R158) -/

/-- Products that leave the window, by group, of one vector in one array. -/
def fumCounts (p : Plane) (a : Nat) (transpose : Bool) (v : Entering) : List Nat :=
  if p.barred transpose then []
  else (List.range (groupsIn transpose)).map (fun g =>
    ((groupProducts p a transpose v g).map (fun l => match windowFloor l with
      | some lo => l.countP (Product.leaves lo)
      | none => 0)).foldl (· + ·) 0)

/-- One cycle of a lane: what is due arrives, and 4 products are added (R157). The spec does not say whether a product that
enters in a cycle can be among the 4 of that cycle; here it can (DESIGN CHOICE, log entry 102). -/
def Lane.cycle (l : Lane) : Lane := ⟨l.waiting + l.due.headD 0 - 4, l.due.drop 1⟩

/-- `n` cycles of a lane that no vector feeds. -/
def Lane.run (l : Lane) (n : Nat) : Lane :=
  let m := iter Lane.cycle (min n l.due.length) l
  { m with waiting := m.waiting - 4 * (n - l.due.length) }

/-- A vector enters: its products arrive group by group. -/
def Lane.feed (l : Lane) (counts : List Nat) : Lane :=
  let n := max l.due.length counts.length
  { l with due := (List.range n).map (fun i => l.due.getD i 0 + counts.getD i 0) }

/-- A stream as it runs: the lanes of its arrays, the cycles used, the stalls each array has caused, and the cycles in
which vectors entered, newest first. -/
structure StreamRun where
  lanes : List Lane
  used : Nat
  stalls : List Nat
  ins : List Nat
  deriving DecidableEq, Repr

/-- The cycles of a stream: `todo` holds what each vector still to enter sends to the lane of each array, `idle` the
cycles the last vector still holds the stream (R144, R158, R182). -/
def fumRun (every : Nat) : Nat → List (List (List Nat)) → Nat → StreamRun → StreamRun
  | 0, _, _, r => r
  | _ + 1, [], idle, r => { r with lanes := iter (List.map Lane.cycle) idle r.lanes, used := r.used + idle }
  | n + 1, v :: vs, idle, r =>
    let crowded := r.lanes.map (fun l => decide (l.waiting > 256))
    let enters := decide (idle = 0) && !(crowded.any id)
    fumRun every n (if enters then vs else v :: vs) (if enters then every - 1 else idle - 1)
      { lanes := (if enters then List.zipWith Lane.feed r.lanes v else r.lanes).map Lane.cycle
        used := r.used + 1
        stalls := if idle = 0 then List.zipWith (fun a b => a + b2n b) r.stalls crowded else r.stalls
        ins := if enters then r.used :: r.ins else r.ins }

/-- R172: the cycle the readouts of an array's slots let a stream into `n` slots from `slot` begin. -/
def CoreTime.slotsFree (t : CoreTime) (a : Nat) (east : Bool) (slot n : Nat) : Nat :=
  (List.range n).foldl (fun m i => max m (smGet 0 t.slot (slotKey a east (slot + i)))) 0

/-- A stream in the core's time (R144, R158, R172): it begins when the stream before it has entered and every readout of
its slots is finished; each array counts the cycles it alone would have waited, and its fumarole stalls. Answers the cycle
each vector enters in. -/
def timeStream (e : Env) (arrays : List Nat) (transpose : Bool) (slot n : Nat) (vs : List Entering) : Op (List Nat) := do
  let x := getCore (← get) e.c
  let from_ := x.time.tokenFrom e.cycle arrays
  let free (a : Nat) := max from_ (x.time.slotsFree a transpose slot n)
  let begin_ := arrays.foldl (fun m a => max m (free a)) from_
  let todo := vs.map (fun v => arrays.map (fun a => fumCounts (smGet Plane.zero x.planes a) a transpose v))
  let lanes := arrays.map (fun a => (smGet Lane.empty x.time.lanes a).run (begin_ - smGet 0 x.time.stream a))
  let held := (lanes.map (fun l => l.waiting + l.due.foldl (· + ·) 0)).foldl (· + ·) 0
  let total := (todo.flatten.flatten).foldl (· + ·) 0
  let r := fumRun (if transpose then 2 else 1) (2 * todo.length + total + held + 16) todo 0 ⟨lanes, 0, arrays.map (fun _ => 0), []⟩
  eachOp (fun (p : Nat × Nat × Lane) => do
    modify (fun s => addF (addF s (CORE_ARR_DRAIN_WAIT_COUNT e.c p.1) (free p.1 - from_)) (CORE_ARR_FUM_STALL_COUNT e.c p.1) p.2.1)
    e.core (fun x => { x with time := { x.time with
      stream := smPut 0 x.time.stream p.1 (begin_ + r.used), lanes := smPut Lane.empty x.time.lanes p.1 p.2.2 } }))
    (arrays.zip (r.stalls.zip r.lanes))
  pure (r.ins.reverse.map (fun i => begin_ + i))

/-! ### STREAM -/

/-- Add the entering vectors into the slots of one array; answers what each vector's groups raise. -/
def streamArray (e : Env) (transpose : Bool) (vs : List Entering) (a : Nat) : Op (List (List (Flags × Bool))) := do
  let flip ← injectFlip e a transpose vs
  let fls ← gatherOp (fun (v : Entering) => do
    let x := getCore (← get) e.c
    let p := smGet Plane.zero x.planes a
    let cells := slotCells x a transpose v.slot
    if p.barred transpose then
      e.core (fun x => putSlot x a true v.slot (cells.map (fun c => { c with nar := true })))
      pure [(fINV, false)]
    else
      let (out, fl) := addVector p a transpose v cells
      e.core (fun x => putSlot x a transpose v.slot out)
      pure fl) vs
  match flip with
  | some (slot, i, d) => e.core (fun x =>
      let cells := slotCells x a transpose slot
      putSlot x a transpose slot (setAt cells i (let c := cells.getD i Cell.zero; { c with c := c.c + d })))
  | none => pure ()
  pure fls

/-- What a stream raises by cycle, in all its arrays together: a vector reaches group g after g cycles (R67, R145). -/
def flagCycles (ins : List Nat) (fls : List (List (List (Flags × Bool)))) : List (Flags × Bool) :=
  let m := (fls.flatMap (fun l => (ins.zip l).flatMap (fun p => p.2.zipIdx.map (fun q => (p.1 + q.2, q.1))))).foldl
    (fun (m : SMap (Flags × Bool)) q =>
      let old := smGet (0, false) m q.1
      smPut (0, false) m q.1 (old.1 ||| q.2.1, old.2 || q.2.2)) []
  m.map Prod.snd

/-- One stream: its vectors go into every array it names (R143, R144, R182). A stream of FORMAT 8 or 9 runs
CORE_NUM.PASSES passes; R490 says so of a split tile and is silent on another tile: the passes run there too, since
R174 gives the activation its pieces whatever the tile (DESIGN CHOICE, log entry 103). -/
def streamInto (e : Env) (arrays : List Nat) (f : Fmt) (transpose : Bool) (lines n slot : Nat) : Op Unit := do
  let vecs ← readVectors e f transpose lines n
  let p := getF (← get) (CORE_NUM_PASSES e.c)
  let vs := entering f (if f.isSplit then (if p = 0 then 3 else p) else 1) slot vecs
  let ins ← timeStream e arrays transpose slot n vs
  let fls ← gatherOp (streamArray e transpose vs) arrays
  eachOp (fun (f : Flags × Bool) => do
    e.raise f.1
    modify (fun s => noteOvf (newCycle s) e.c f.2)) (flagCycles ins fls)
  if transpose then
    eachOp (fun a => modify (fun s => addF s (CORE_ARR_EAST_WAIT_COUNT e.c a) vs.length)) arrays

/-- A STREAM field names a format that has a skewed layout (R281, R721). -/
def Env.streamFmt (e : Env) (lo : Nat) : Op Fmt := do
  let f ← e.fmt lo
  guardOp e (!f.is4)
  pure f

/-- STREAM's whole effect. -/
def streamTiles (e : Env) : Op Unit := do
  e.uses ([1, 2, 3] ++ bytesOf 4 9 ++ bytesOf 12 18)
  guardOp e (decide (e.f 2 1 < 4))
  let arrays ← e.arrays
  let transpose := bitOf (e.f 2 1) 0
  let second := bitOf (e.f 2 1) 1
  let f ← e.streamFmt 3
  guardOp e (decide (e.f 8 1 ≤ 32))
  e.slots (e.f 9 1) (e.f 8 1)
  e.range (e.f 4 4) (skewBytes f transpose (e.f 8 1))
  if second then
    let g ← e.streamFmt 18
    guardOp e (!(arrays.contains 3) && bitOf e.decl.arrays 3 && !g.isSplit && decide (e.f 16 1 ≤ 32))
    e.slots (e.f 17 1) (e.f 16 1)
    e.range (e.f 12 4) (skewBytes g transpose (e.f 16 1))
    streamInto e arrays f transpose (e.f 4 4) (e.f 8 1) (e.f 9 1)
    streamInto e [3] g transpose (e.f 12 4) (e.f 16 1) (e.f 17 1)
  else streamInto e arrays f transpose (e.f 4 4) (e.f 8 1) (e.f 9 1)

/-- RES_INJECT_ARM (R580): CORE_RES_INJECT.ARM arms a flip on the array CORE_RES_INJECT.ARRAY names. -/
def resInjectArm (s : State) (c : Nat) : State :=
  putCore s c { getCore s c with inject := some (getF s (CORE_RES_INJECT_ARRAY c)) }

end Sys2Proof.Machine
end

