-- ==== Sys2Proof/Machine/Drain.lean ====
section
/-! DEFINITION. Reading calderas: DRAIN (R131, R132, R139, R140, R166 to R173, R491) and SURVEY (R221 to
R227), and the commands of the LOAD, ARRAY and READOUT steps (R492, R493). -/

namespace Sys2Proof.Machine

/-! ### The value a readout forms -/

/-- Side flags of a readout (R131, R132). -/
structure Side where
  nar : Bool
  ovf : Bool
  pinf : Bool
  ninf : Bool
  deriving DecidableEq, Repr

/-- Some side flag is set. -/
def Side.any (x : Side) : Bool := x.nar || x.ovf || x.pinf || x.ninf

/-- R131: the word and the flags of a readout under side flags. -/
def Side.result (f : Fmt) (x : Side) : Nat × Flags :=
  let nan := nanWord f
  if x.nar then (nan, if f.isCode then fINV else 0)
  else if x.ovf then (nan, fOVF)
  else if x.pinf && x.ninf then (nan, fINV)
  else (convert f false (.inf x.ninf)).1 |> fun w => (w, if f.isIeee then 0 else fINV)

/-- Steps 1 to 3 of R173: the exact sum of the calderas, their side flags, and c × scale + bias. A NaR
scale or bias sets NAR (R132). -/
def readoutValue (cells : List Cell) (scale bias : Val) : Side × Q :=
  let c := qDyadic (cells.map Cell.int).sum (-300)
  let bad := !(scale.isFinite && bias.isFinite)
  (⟨cells.any Cell.nar || bad, cells.any Cell.ovf, cells.any Cell.pinf, cells.any Cell.ninf⟩,
   qAdd (qMul c scale.q) bias.q)

/-- SCALE, BIAS and QSCALE of an entry of a rescale table (R208); an entry never loaded reads zero. -/
def tableEntry (x : Core) (a : Nat) (i : Nat) : Val × Val × Val :=
  let w := ((smGet [] x.tables a).getD i 0).toNat
  (decodeTp 16 (w % 2 ^ 16), decodeTp 16 (w / 2 ^ 16 % 2 ^ 16), decodeTp 16 (w / 2 ^ 32 % 2 ^ 16))

/-- 1 as an operand. -/
def oneVal : Val := .fin (qInt 1)

/-- The entry of column or row `n` that a readout of array `a` uses; 1, 0 and 1 when rescale is off
(R173, R491). -/
def rescaleFor (x : Core) (on : Bool) (a : Nat) (east : Bool) (n : Nat) : Val × Val × Val :=
  if on then tableEntry x a (if east then 512 + n else n) else (oneVal, .zero false, oneVal)

/-! ### DRAIN -/

/-- Write elements of which some are not written (R167); half a byte of a 4-bit pair is kept. -/
def writeSome (e : Env) (f : Fmt) (off : Nat) (ws : List (Option Nat)) : Op Unit :=
  if ws.all Option.isSome then e.write off (packElems f (ws.map (fun w => w.getD 0)))
  else eachOp (fun (p : Option Nat × Nat) =>
    match p.1 with
    | none => pure ()
    | some w =>
      if f.is4 then do
        let at_ := off + p.2 / 2
        let old := recNat (← e.read at_ 1) 0 1
        e.write at_ [BitVec.ofNat 8 (if p.2 % 2 = 0 then old / 16 * 16 + w % 16 else old % 16 + 16 * (w % 16))]
      else e.write (off + p.2 * f.bytes) (natLE f.bytes w)) ws.zipIdx

/-- What one element of a DRAIN gives: its word, its flags, and whether its code saturated. -/
structure Drained where
  word : Nat
  fl : Flags
  sat : Bool
  deriving DecidableEq, Repr

/-- Steps 3 and 4 of R173 for one element; `u` is its draw. -/
def drainElem (f : Fmt) (ftz : Bool) (mode : Nat) (z : Int) (cells : List Cell) (t : Val × Val × Val) (u : W32) : Drained :=
  let (side, v) := readoutValue cells t.1 t.2.1
  if side.any then
    let (w, fl) := side.result f
    ⟨w, fl ||| (if isNonFinite f w then fNF else 0), false⟩
  else if f.isCode then let (w, fl, sat) := quantise f mode z t.2.2 (valOf v) u; ⟨w, fl, sat⟩
  else let (w, fl) := convert f ftz (valOf v); ⟨w, fl ||| (if isNonFinite f w then fNF else 0), false⟩

/-- The fields of a DRAIN. -/
structure DrainReq where
  units : List (List Nat)
  east : Bool
  rescale : Bool
  f : Fmt
  slot : Nat
  mode : Nat
  z : Int
  dst : Nat
  sid : W32
  vbase : Nat
  ebase : Nat
  estride : Nat
  deriving DecidableEq, Repr

/-- The first of the arrays of a unit whose caldera in column `n` has a residue mismatch. -/
def badArray (u : List (Nat × List Cell)) (n : Nat) : Option Nat :=
  (u.find? (fun p => !(p.2.getD n Cell.zero).residueOk)).map Prod.fst

/-- One cycle of a DRAIN: columns 64 i to 64 i + 63 of slot SLOT + j, in every unit (an array, or A0 to A2
together). The columns whose residues match are written, and their calderas are empty from then on (R162, R167, R173).
Answers the first mismatch. -/
def drainCycle (e : Env) (d : DrainReq) (j i : Nat) : Op (Option (Nat × Nat)) := do
  let s ← get
  let x := getCore s e.c
  let z ← e.ftz
  let width := edgeWidth d.east
  let cols := (List.range 64).map (fun n => 64 * i + n)
  let slots := d.units.map (fun u => u.map (fun a => (a, slotCells x a d.east (d.slot + j))))
  let idx (k n : Nat) : Nat := d.ebase + j * d.estride + width * k + n
  let elem (k n : Nat) (u : List (Nat × List Cell)) : Option Drained :=
    if (badArray u n).isSome then none
    else some (drainElem d.f z d.mode d.z (u.map (fun p => p.2.getD n Cell.zero))
      (rescaleFor x d.rescale ((u.map Prod.fst).headD 0) d.east n)
      (if d.f.isCode && decide (d.mode = 1) then keyedU32 e.seed d.sid (idx k n % 2 ^ 48) else 0))
  let outs := slots.zipIdx.map (fun p => cols.map (fun n => elem p.2 n p.1))
  eachOp (fun (p : List (Option Drained) × Nat) =>
    writeSome e d.f (d.dst + (j * width * d.units.length + width * p.2 + 64 * i) * d.f.bits / 8) (p.1.map (fun o => o.map Drained.word)))
    outs.zipIdx
  eachOp (fun (u : List (Nat × List Cell)) => eachOp (fun (p : Nat × List Cell) => e.core (fun x =>
    clearCells x p.1 d.east (d.slot + j) (fun n => decide (64 * i ≤ n ∧ n < 64 * i + 64) && (badArray u n).isNone))) u) slots
  let done := outs.flatten.filterMap id
  if d.f.isCode then
    e.countQuant done.length (done.countP Drained.sat) (if d.mode = 1 then done.length else 0)
  let firstNf := cols.findSome? (fun n => (slots.zip outs).findSome? (fun p =>
    match p.2.getD (n - 64 * i) none with
    | some o => if o.fl &&& fNF ≠ 0 then some (nfWord n (d.slot + j) ((p.1.map Prod.fst).headD 0) (d.vbase + j) d.east) else none
    | none => none))
  modify (fun s => loadNfPos s e.c firstNf)
  e.raise (done.foldl (fun a o => a ||| o.fl) 0)
  pure (cols.findSome? (fun n => (slots.findSome? (fun u => badArray u n)).map (fun a => (n, a))))

/-- The cycles of one slot in order (R170); a mismatch ends the job (R167). -/
def drainSlot (e : Env) (d : DrainReq) (j : Nat) : Op Unit :=
  eachOp (fun i => do
    match ← drainCycle e d j i with
    | none => pure ()
    | some (n, a) =>
      let (q, s) := residueError (← get) e.c (e.k, e.sub) n (d.slot + j) a d.east
      set s
      failWith 8 (some (BitVec.ofNat 32 e.idx)) q) (List.range (edgeWidth d.east / 64))

/-- R171: the cycle from which every product bound for the calderas of an array has been added: the last vector has
reached its last group, and the fumarole lane is empty. -/
def CoreTime.settled (t : CoreTime) (a : Nat) (east : Bool) : Nat :=
  let l := smGet Lane.empty t.lanes a
  let n := max (groupsIn east) l.due.length
  smGet 0 t.stream a + n + ((l.run n).waiting + 3) / 4

/-- A readout of `n` slots from `slot` in the core's time (R169 to R171, R209, R221): it begins once the converters are free
and the calderas are settled, waits for a load into its table, which CORE_TBL_WAIT counts, and takes 8 cycles for a slot of
the south edge and 2 for one of the east edge. The arrays of a unit read together. -/
def timeReadout (e : Env) (units : List (List Nat)) (east : Bool) (slot n : Nat) : Op Unit :=
  eachOp (fun (u : List Nat) => do
    let t := (getCore (← get) e.c).time
    let ready := u.foldl (fun m a => max m (max (smGet 0 t.read a) (t.settled a east))) e.cycle
    let start := u.foldl (fun m a => max m (smGet 0 t.table a)) ready
    let per := if east then 2 else 8
    modify (fun s => addF s (CORE_TBL_WAIT_COUNT e.c) (start - ready))
    eachOp (fun a => e.core (fun x => { x with time := { x.time with
      read := smPut 0 x.time.read a (start + per * n),
      slot := (List.range n).foldl (fun m j => smPut 0 m (slotKey a east (slot + j)) (start + per * (j + 1))) x.time.slot } })) u) units

/-- DRAIN's whole effect (R170 to R173, R491). -/
def drainStep (e : Env) : Op Unit := do
  e.uses (bytesOf 1 25)
  guardOp e (decide (e.f 2 1 < 8))
  let arrays ← e.arrays
  let east := bitOf (e.f 2 1) 0
  let split := bitOf (e.f 2 1) 1
  guardOp e (!split || decide (e.f 1 1 = 0b0111))
  let f ← e.fmt 3
  guardOp e (decide (e.f 5 1 ≤ 32))
  e.slots (e.f 4 1) (e.f 5 1)
  let z := e.i8 7
  if f.isCode then
    guardOp e (decide (e.f 6 1 ≤ 2) && (decide (f = .bell4) || (decide (f.intRange.1 ≤ z) && decide (z ≤ f.intRange.2))))
  let sid ← if f.isCode && decide (e.f 6 1 = 1) then e.sid (e.f 12 2) else pure 0
  let units := if split then [[0, 1, 2]] else arrays.map (fun a => [a])
  e.range (e.f 8 4) (e.f 5 1 * edgeWidth east * units.length * f.bits / 8)
  let d : DrainReq := ⟨units, east, bitOf (e.f 2 1) 2, f, e.f 4 1, e.f 6 1, z, e.f 8 4, sid, e.f 14 2, e.f 16 6, e.f 22 4⟩
  timeReadout e units east (e.f 4 1) (e.f 5 1)
  eachOp (drainSlot e d) (List.range (e.f 5 1))

/-! ### SURVEY -/

/-- A survey's channels, histogram and base exponent, after one more value of channel `ch`. -/
def surveySee (h : Int) (acc : SMap Channel × SMap Nat) (ch : Nat) (v : Val) : SMap Channel × SMap Nat :=
  let c0 : Channel := ⟨qZero, 0⟩
  (smPut c0 acc.1 ch ((smGet c0 acc.1 ch).see v),
   match histBin h v with
   | some b => smPut 0 acc.2 b (smGet 0 acc.2 b + 1)
   | none => acc.2)

/-- The records and histogram of a survey of `n` channels (R226). -/
def surveyBytes (f : Fmt) (tp16 hist : Bool) (n : Nat) (acc : SMap Channel × SMap Nat) : List Byte :=
  (List.range n).flatMap (fun i =>
    let c := smGet ⟨qZero, 0⟩ acc.1 i
    channelRecord (chooseScale f tp16 c.max) c) ++
  (if hist then histBytes ((List.range 64).map (smGet 0 acc.2)) else [])

/-- TARGET of a survey is a code format (R225). -/
def Env.codeTarget (e : Env) : Op Fmt := do
  let f ← e.fmt 3
  guardOp e f.isCode
  pure f

/-- A core-pool SURVEY's whole effect (R222 to R226). -/
def surveyPool (e : Env) : Op Unit := do
  e.uses (bytesOf 1 21)
  guardOp e (decide (e.f 2 1 < 128))
  let f ← e.codeTarget
  let g ← e.fmt 7
  let _ ← e.sid (e.f 20 2)
  let dim := match e.image.tensors[e.f 20 2]? with
    | some t => t.dims.getLastD 0
    | none => 0
  let hist := bitOf (e.f 2 1) 2
  let n := min dim 512
  e.range (e.f 16 4) (16 * n + (if hist then 256 else 0))
  let vs ← e.values g (e.f 8 4) (e.f 12 4)
  let acc := vs.zipIdx.foldl (fun a p => surveySee (e.i8 6) a (p.2 % dim % 512) p.1) ([], [])
  e.write (e.f 16 4) (surveyBytes f (bitOf (e.f 2 1) 3) hist n acc)
  modify (fun s => incF s (CORE_SURV_RUNS_COUNT e.c))

/-- What a survey sees of one column of a slot: a value with a side flag is non-finite (R223). -/
def surveyVal (cells : List Cell) (t : Val × Val × Val) : Val :=
  let (side, v) := readoutValue cells t.1 t.2.1
  if side.any then .nan false else valOf v

/-- A caldera SURVEY's whole effect (R221, R223 to R227). -/
def surveyCaldera (e : Env) : Op Unit := do
  e.uses (bytesOf 1 21)
  guardOp e (decide (e.f 2 1 < 128))
  let fl := e.f 2 1
  let east := bitOf fl 1
  let split := bitOf fl 5
  let arrays ← e.arrays
  guardOp e (if split then decide (e.f 1 1 = 0b0111) else decide (arrays.length = 1))
  let f ← e.codeTarget
  guardOp e (decide (e.f 5 1 ≤ 32))
  e.slots (e.f 4 1) (e.f 5 1)
  let w := edgeWidth east
  e.range (e.f 16 4) (16 * w + (if bitOf fl 2 then 256 else 0))
  timeReadout e [arrays] east (e.f 4 1) (e.f 5 1)
  let x := getCore (← get) e.c
  let a0 := arrays.headD 0
  let slots := (List.range (e.f 5 1)).map (fun j => (e.f 4 1 + j, arrays.map (fun a => (a, slotCells x a east (e.f 4 1 + j)))))
  let bad := slots.findSome? (fun p => (List.range w).findSome? (fun n =>
    (badArray p.2 n).map (fun a => (n, p.1, a))))
  match bad with
  | some (n, i, a) =>
    let (q, s) := residueError (← get) e.c (e.k, e.sub) n i a east
    set s
    failWith 8 (some (BitVec.ofNat 32 e.idx)) q
  | none =>
    let acc := slots.foldl (fun acc p => (List.range w).foldl (fun acc n =>
      surveySee (e.i8 6) acc n (surveyVal (p.2.map (fun q => q.2.getD n Cell.zero)) (rescaleFor x (!(bitOf fl 6)) a0 east n))) acc) ([], [])
    e.write (e.f 16 4) (surveyBytes f (bitOf fl 3) (bitOf fl 2) w acc)
    if bitOf fl 4 then
      e.core (fun x =>
        let t := smGet [] x.tables a0
        let t := if t.isEmpty then List.replicate 640 (0 : W64) else t
        let off := if east then 512 else 0
        let t := (List.range w).foldl (fun t n =>
          let c := smGet ⟨qZero, 0⟩ acc.1 n
          setAt t (off + n) (BitVec.ofNat 64 (setBitsOf (t.getD (off + n) 0).toNat 47 32 (chooseScale f (bitOf fl 3) c.max)))) t
        { x with tables := smPut [] x.tables a0 t })
    modify (fun s => incF s (CORE_SURV_RUNS_COUNT e.c))

/-! ### The commands of the LOAD, ARRAY and READOUT steps -/

/-- The effect of a LOAD, ARRAY or READOUT step. -/
def performTile (e : Env) : Op Bool :=
  match stepOp e.r with
  | 0 => do loadTile e; pure true
  | 1 => swapTiles e
  | 2 => do streamTiles e; pure true
  | 3 => do drainStep e; pure true
  | _ => do surveyCaldera e; pure true

/-- A SWAP waits until a shadow plane it names is full (R188); one that breaks R490 or R497 does not wait. -/
def tileReady (s : State) (e : Env) (q : Issued) : Bool :=
  decide (stepOp q.r ≠ 1) || !(swapReady (getCore s e.c) q).isEmpty ||
    !(onlyUses q.r [1] && decide (recNat q.r 1 1 ≠ 0) && decide (recNat q.r 1 1 < 16) &&
      decide (recNat q.r 1 1 &&& e.decl.arrays = recNat q.r 1 1))

/-- A LOAD, ARRAY or READOUT step of core `c` issues, and the issued steps of these classes act as far as they can (R493). -/
def tileCmd (s : State) (c : Nat) (accepts : StepRec → Bool) : State :=
  classStep s c accepts (fun m => decide (m ≤ 2)) tileReady performTile

/-- STEP_LOAD_TILE. -/
def execStepLoadTile (c : Fin 4) (s : State) : Answer :=
  whenReadyMem s (fun s => tileCmd s c (fun r => decide (stepOp r = 0)))
/-- STEP_SWAP. -/
def execStepSwap (c : Fin 4) (s : State) : Answer :=
  whenReadyMem s (fun s => tileCmd s c (fun r => decide (stepOp r = 1)))
/-- STEP_STREAM. -/
def execStepStream (c : Fin 4) (s : State) : Answer :=
  whenReadyMem s (fun s => tileCmd s c (fun r => decide (stepOp r = 2) && !(bitOf (recNat r 2 1) 0)))
/-- STEP_STREAM_TRANSPOSE. -/
def execStepStreamTranspose (c : Fin 4) (s : State) : Answer :=
  whenReadyMem s (fun s => tileCmd s c (fun r => decide (stepOp r = 2) && bitOf (recNat r 2 1) 0))
/-- STEP_DRAIN. -/
def execStepDrain (c : Fin 4) (s : State) : Answer :=
  whenReadyMem s (fun s => tileCmd s c (fun r => decide (stepOp r = 3)))
/-- STEP_SURVEY_CALDERA. -/
def execStepSurveyCaldera (c : Fin 4) (s : State) : Answer :=
  whenReadyMem s (fun s => tileCmd s c (fun r => decide (stepOp r = 12) && !(bitOf (recNat r 2 1) 0)))
/-- STEP_SURVEY_POOL. -/
def execStepSurveyPool (c : Fin 4) (s : State) : Answer :=
  whenReadyMem s (fun s => doStep s c (fun r => decide (stepOp r = 12) && bitOf (recNat r 2 1) 0) surveyPool)

end Sys2Proof.Machine
end

