-- ==== Sys2Proof/Machine/Dma.lean ====
section
/-! DEFINITION. The skewing DMA (R281 to R291, R519, R520, R721), COPY and FILL jobs (R438, R446), the
digests they feed (R291, R498) and the manifest record (R593 to R598). -/

namespace Sys2Proof.Machine

/-! ### Where elements lie -/

/-- A range of bytes cut at the 512-byte boundaries of its address (R519). -/
def bursts (a n : Nat) : List (Nat × Nat) := rangePieces 512 (n + 1) a n

/-- How a side of a transfer lays its elements: in order, or in a skewed layout of a format (R282 to
R284). -/
inductive Layout where
  | linear (width : Nat)
  | skewed (f : Fmt) (transpose : Bool)
  deriving DecidableEq, Repr

/-- Byte offset of element `i` from the base. -/
def Layout.offset (l : Layout) (i : Nat) : Nat :=
  match l with
  | .linear w => i * w
  | .skewed f t =>
    let n := 32 * groupsIn t
    sliceAt f t (i / n) (i % n / 32) + i % 32 * f.bytes

/-- Bytes the side holds for `count` elements in `v` vectors. -/
def Layout.bytes (l : Layout) (count v : Nat) : Nat :=
  match l with
  | .linear w => count * w
  | .skewed f t => skewBytes f t v

/-- The element at byte offset `o` of a skewed layout of `v` vectors, when there is one below `count`. -/
def skewElem (f : Fmt) (t : Bool) (v count o : Nat) : Option Nat :=
  let line := groupsIn t * sliceBytes f
  let j := o / line
  let g := o % line / sliceBytes f
  let k := o % sliceBytes f / f.bytes
  if k < 32 ∧ g ≤ j ∧ j - g < v then
    let i := (j - g) * (32 * groupsIn t) + 32 * g + k
    if i < count then some i else none
  else none

/-- The elements whose first byte lies at offsets [a, b) (R520), rising. -/
def Layout.within (l : Layout) (count v a b : Nat) : List Nat :=
  match l with
  | .linear w => (List.range (min count (ceilDiv b w) - ceilDiv a w)).map (fun i => ceilDiv a w + i)
  | .skewed f t =>
    ((List.range (ceilDiv b f.bytes - ceilDiv a f.bytes)).filterMap (fun i =>
      skewElem f t v count ((ceilDiv a f.bytes + i) * f.bytes))).foldl (fun l i => natInsert i l) []

/-- Elements at byte offsets, joined into runs of consecutive elements of width `w`. -/
def joinRuns {α : Type} (w : Nat) : List (Nat × α) → List (Nat × List α)
  | [] => []
  | (a, x) :: r =>
    match joinRuns w r with
    | (b, ys) :: t => if b = a + w then (a, x :: ys) :: t else (a, [x]) :: (b, ys) :: t
    | [] => [(a, [x])]

/-! ### A transfer -/

/-- A DMA or STORE transfer: its formats, whether it converts, the layouts and bases of its two sides,
the elements it moves (bytes for a 4-bit copy), its vectors and its COUNT. -/
structure Xfer where
  sf : Fmt
  df : Fmt
  store : Bool
  src : Layout
  dst : Layout
  srcBase : Nat
  dstBase : Nat
  n : Nat
  v : Nat
  count : Nat
  digest : Bool
  tensor : Nat
  ebase : Nat
  deriving DecidableEq, Repr

/-- The transfer converts (R288). -/
def Xfer.converts (x : Xfer) : Bool := decide (x.sf ≠ x.df)

/-- Bytes of one moved element at the source and at the destination. -/
def Xfer.widths (x : Xfer) : Nat × Nat := (max x.sf.bytes 1, max x.df.bytes 1)

/-- The side outside the core pool, whose address cuts the bursts (R519). -/
def Xfer.ext (x : Xfer) : Layout × Nat := if x.store then (x.dst, x.dstBase) else (x.src, x.srcBase)

/-- The bursts of a transfer, as offsets from the outer side's base. -/
def Xfer.bursts (x : Xfer) : List (Nat × Nat) :=
  (Machine.bursts x.ext.2 (x.ext.1.bytes x.n x.v)).map (fun p => (p.1 - x.ext.2, p.2))

/-- Read a run of the source. -/
def Xfer.readAt (e : Env) (x : Xfer) (off n : Nat) : Op (List Byte) :=
  if x.store then e.read (x.srcBase + off) n else readVa e.who e.k (x.srcBase + off) n false

/-- Write a run of the destination. -/
def Xfer.writeAt (e : Env) (x : Xfer) (off : Nat) (l : List Byte) : Op Unit :=
  if x.store then writeVa e.who e.k (x.dstBase + off) l false true (poolBase e.c + e.decl.poolBase, e.decl.poolBytes)
  else e.write (x.dstBase + off) l

/-- A moved word as the destination holds it, with its flags (R288). -/
def Xfer.word (x : Xfer) (ftz : Bool) (w : Nat) : Nat × Flags :=
  if x.converts then convert x.df ftz (decode x.sf ftz w) else (w, 0)

/-- The digested elements of a moved element: index, bits and word (R291, R721). -/
def Xfer.digested (x : Xfer) (p : Nat × Nat) : List (Nat × Option Nat) :=
  let key (i : Nat) := x.tensor * 2 ^ 52 + x.ebase + i
  if x.df.is4 then
    (key (2 * p.1), some (4 * 2 ^ 32 + p.2 % 16)) ::
      (if 2 * p.1 + 1 < x.count then [(key (2 * p.1 + 1), some (4 * 2 ^ 32 + p.2 / 16))] else [])
  else [(key p.1, some (x.df.bits * 2 ^ 32 + p.2))]

/-- One burst (R287 to R291, R520). -/
def Xfer.burst (e : Env) (x : Xfer) (p : Nat × Nat) : Op Unit := do
  let (sw, dw) := x.widths
  let es := x.ext.1.within x.n x.v p.1 (p.1 + p.2)
  let parts ← gatherOp (fun (r : Nat × List Nat) => do
    let b ← x.readAt e r.1 (sw * r.2.length)
    pure (r.2.zipIdx.map (fun q => (q.1, recNat b (sw * q.2) sw)))) (joinRuns sw (es.map (fun i => (x.src.offset i, i))))
  let ftz ← e.ftz
  let out := parts.flatten.map (fun q => (q.1, x.word ftz q.2))
  eachOp (fun (r : Nat × List Nat) => x.writeAt e r.1 (r.2.flatMap (natLE dw)))
    (joinRuns dw (out.map (fun q => (x.dst.offset q.1, q.2.1))))
  if x.digest then
    modify (fun s => updRun s e.k e.sub (fun r => { r with
      cover := (out.flatMap (fun q => x.digested (q.1, q.2.1))).foldl (fun m q => smPut none m q.1 q.2) r.cover }))
  if x.converts then modify (fun s => addF s (CORE_DMA_CONV_COUNT e.c) out.length)
  let nf := x.store && !x.df.is4 && out.any (fun q => isNonFinite x.df q.2.1)
  e.raise (out.foldl (fun a q => a ||| q.2.2) (if nf then fNF else 0))

/-- Byte offsets of a skewed destination that hold no element, as runs of element widths (R282 to R286). -/
def zeroRuns (f : Fmt) (t : Bool) (v n : Nat) : List (Nat × List Nat) :=
  joinRuns f.bytes (((List.range (skewBytes f t v / f.bytes)).filter (fun i => (skewElem f t v n (i * f.bytes)).isNone)).map (fun i =>
    (i * f.bytes, 0)))

/-- A whole transfer, from the first burst not yet done (R290). The zero slices of a skewed destination, which hold no
element, are written with the first burst (R286, R520). -/
def Xfer.run (e : Env) (x : Xfer) : Op Unit := do
  match x.dst with
  | .linear _ => pure ()
  | .skewed f t => if e.progress = 0 then eachOp (fun r => x.writeAt e r.1 (zeros (f.bytes * r.2.length))) (zeroRuns f t x.v x.n)
  eachOp (fun (p : (Nat × Nat) × Nat) => do
    x.burst e p.1
    e.note (p.2 + 1)) (x.bursts.zipIdx.drop e.progress)

/-- R473: an external operand's address. -/
def Env.extAddr (e : Env) (x : Ext) : Op Nat := do
  guardOp e (x.ok && decide (x.arg < e.decl.args))
  pure ((e.args.getD x.arg 0 + x.off) % 2 ^ 48)

/-- A DMA or STORE step's whole effect (R286 to R291, R490, R497). -/
def transferStep (store : Bool) (e : Env) : Op Unit := do
  e.uses (bytesOf 1 22 ++ bytesOf 24 31)
  let layout := e.f 1 1
  guardOp e (if store then decide (layout = 0 ∨ layout = 3) else decide (layout ≤ 3))
  guardOp e (decide (e.f 22 1 < (if store then 4 else 2)))
  match fmtOfCode (e.f 2 1), fmtOfCode (e.f 3 1) with
  | some sf, some df =>
    guardOp e (decide (sf = df) || !(sf.is4 || df.is4))
    guardOp e (!sf.is4 || decide (layout = 0))
    let count := e.f 16 4
    let v := e.f 20 2
    let transpose := if store then bitOf (e.f 22 1) 1 else decide (layout = 2)
    guardOp e (decide (layout = 0) || (decide (v ≠ 0) && decide (count ≤ v * (32 * groupsIn transpose))))
    let ext ← e.extAddr (extAt e.r (if store then 8 else 4))
    let pool := e.f (if store then 4 else 12) 4
    let digest := bitOf (e.f 22 1) 0
    if digest then
      let _ ← e.sid (e.f 24 2)
    let n := if sf.is4 then (count + 1) / 2 else count
    let src := if layout = 3 then Layout.skewed sf transpose else .linear (max sf.bytes 1)
    let dst := if layout = 1 ∨ layout = 2 then Layout.skewed df transpose else .linear (max df.bytes 1)
    let x : Xfer := ⟨sf, df, store, src, dst, if store then pool else ext, if store then ext else pool, n, v, count,
      digest, e.f 24 2, e.f 26 6⟩
    e.range pool ((if store then src else dst).bytes n v)
    x.run e
  | _, _ => stepBad e

/-! ### Open digests (R292) -/

/-- The tensors a job digests, by number, and 1 for a DIGEST copy that has begun: the digests it holds open. -/
def Job.openDigests (j : Job) : List Nat :=
  if j.isDone then []
  else match j.run with
    | some r => (r.cover.map (fun p => p.1 / 2 ^ 52)).eraseDups
    | none => if j.digestData.isEmpty then [] else [0]

/-- Digests open device-wide. -/
def openDigests (s : State) : Nat := (s.jobs.map (fun j => j.openDigests.length)).foldl (· + ·) 0

/-- R292: a marked transfer that would open a thirty-third digest waits. -/
def digestRoom (s : State) (e : Env) (q : Issued) : Bool :=
  !(bitOf (recNat q.r 22 1) 0) || decide (openDigests s < 32) ||
    (match findJob s e.k e.sub with
      | some j => j.openDigests.contains (recNat q.r 24 2)
      | none => true)

/-- A DMA or STORE step command. -/
def dmaCmd (s : State) (c : Nat) (accepts : StepRec → Bool) (store : Bool) : State :=
  doStep s c accepts (transferStep store) digestRoom

/-- The record is a DMA step of a layout, or of a reserved one. -/
def isDma (layout : Nat) (r : StepRec) : Bool := decide (stepOp r = 8) && (decide (recNat r 1 1 = layout) || decide (recNat r 1 1 > 3))

/-- The record is a STORE step of a layout, or of a reserved one. -/
def isStore (layout : Nat) (r : StepRec) : Bool :=
  decide (stepOp r = 7) && (decide (recNat r 1 1 = layout) || !(decide (recNat r 1 1 = 0) || decide (recNat r 1 1 = 3)))

/-- STEP_STORE_LINEAR. -/
def execStepStoreLinear (c : Fin 4) (s : State) : Answer := whenReadyMem s (fun s => dmaCmd s c (isStore 0) true)
/-- STEP_STORE_UNSKEW. -/
def execStepStoreUnskew (c : Fin 4) (s : State) : Answer := whenReadyMem s (fun s => dmaCmd s c (isStore 3) true)
/-- STEP_DMA_LINEAR. -/
def execStepDmaLinear (c : Fin 4) (s : State) : Answer := whenReadyMem s (fun s => dmaCmd s c (isDma 0) false)
/-- STEP_DMA_SKEW. -/
def execStepDmaSkew (c : Fin 4) (s : State) : Answer := whenReadyMem s (fun s => dmaCmd s c (isDma 1) false)
/-- STEP_DMA_SKEW_T. -/
def execStepDmaSkewT (c : Fin 4) (s : State) : Answer := whenReadyMem s (fun s => dmaCmd s c (isDma 2) false)
/-- STEP_DMA_UNSKEW. -/
def execStepDmaUnskew (c : Fin 4) (s : State) : Answer := whenReadyMem s (fun s => dmaCmd s c (isDma 3) false)

/-! ### Digests and the manifest -/

/-- Digested words in order, as the bytes a tensor of their format holds (R101, R498). -/
def digestBytes : List (Nat × Nat) → List Byte
  | [] => []
  | [(b, x)] => natLE (max (b / 8) 1) x
  | (b, x) :: (c, y) :: r =>
    if b = 4 ∧ c = 4 then BitVec.ofNat 8 (x % 16 + 16 * (y % 16)) :: digestBytes r
    else natLE (max (b / 8) 1) x ++ digestBytes ((c, y) :: r)

/-- R498: the digest of tensor `t`; none where no DIGEST transfer covers it. -/
def tensorDigest (cover : SMap (Option Nat)) (t : Nat) : Option (List Byte) :=
  let ws := (smSlice cover (t * 2 ^ 52) (2 ^ 52)).filterMap (fun p => p.2.map (fun w => (w / 2 ^ 32, w % 2 ^ 32)))
  if ws.isEmpty then none else some (sha256 (digestBytes ws))

/-- Jastan B1's conformance id (R598). -/
def conformance : Nat := 0x4A1607B1

/-- R594 to R597: a manifest record. `ins` and `outs` are the digests in declaration order, none for an
uncovered tensor. -/
def manifestBytes (kind num unit gey : Nat) (seed : W64) (sub : W32) (image : List Byte) (ins outs : List (Option (List Byte))) : List Byte :=
  let dig (d : Option (List Byte)) := d.getD (zeros 32)
  let digest := sha256 (natLE 4 conformance ++ natLE 2 gey ++ image ++ natLE 8 seed.toNat ++ ins.flatMap dig ++ outs.flatMap dig)
  let uncovered := ins.any Option.isNone || outs.any Option.isNone
  natLE 4 0x464E414D ++ natLE 2 1 ++ natLE 1 (b2n uncovered) ++ natLE 1 kind ++ natLE 4 conformance ++ natLE 2 gey ++
    natLE 2 ins.length ++ natLE 2 outs.length ++ natLE 1 num ++ natLE 1 unit ++ natLE 8 seed.toNat ++ natLE 4 sub.toNat ++
    image ++ digest ++ sha256 (outs.flatMap dig)

/-- CORE_GEY_VER.ROM, the same in every core (R585). -/
def geyVer (s : State) : Nat := getF s (CORE_GEY_VER_ROM 0)

/-- The manifest of a RUN job. -/
def runManifest (s : State) (j : Job) (r : RunState) : List Byte :=
  let digests (role : Nat) := r.image.tensors.zipIdx.filterMap (fun p => if p.1.role = role then some (tensorDigest r.cover p.2) else none)
  let passes := getF s (CORE_NUM_PASSES r.core)
  manifestBytes 1 (b2n (flag s (CORE_NUM_FTZ r.core)) + 2 * (if passes = 0 then 3 else passes)) r.core (geyVer s) j.desc.seed j.sub
    r.image.digest (digests 1) (digests 2)

/-- The job succeeds: its manifest is written before it is done (R593, R460). A fault there moors the job (R514), and
any other stop of the write stops it as it stops an access of its own. -/
def succeed (s : State) (j : Job) : State :=
  let k := j.ctx
  let finish (s : State) := endJob s k j.sub 0 none 0
  let bytes := match j.desc.body, j.run with
    | .run .., some r => some (runManifest s j r)
    | .copy _ _ _ true, _ => some (manifestBytes 2 0 6 (geyVer s) j.desc.seed j.sub (zeros 32) []
        [some (sha256 (j.digestData.reverse))])
    | _, _ => none
  match bytes with
  | none => finish s
  | some b =>
    if !j.desc.manifest || decide (j.desc.report = 0) then finish s
    else
      match runOp (writeVa (some (k, j.sub)) k j.desc.report b false true (0, 0)) s with
      | (.ok _, s') => finish (updJob s' k j.sub (fun y => { y with wrote := true }))
      | (.error st, s') => stopJob s' k j.sub st

/-! ### COPY and FILL -/

/-- A copy channel is free (R446): a moored job keeps its channel. -/
def copyFree (s : State) : Bool :=
  decide ((s.jobs.filter (fun j => decide (j.desc.body.performer = 1) && j.isHeld)).length < 4)

/-- One burst of a COPY or FILL of `n` bytes at offset `off`. -/
def copyBurst (k : Nat) (sub : W32) (b : JobBody) (off n : Nat) : Op Unit := do
  let who := some (k, sub)
  match b with
  | .copy src dst _ d =>
    let l ← readVa who k (src + off) n false
    writeVa who k (dst + off) l false true (0, 0)
    if d then modify (fun s => updJob s k sub (fun j => { j with digestData := l.reverse ++ j.digestData }))
  | .fill dst _ p =>
    let l := (List.range n).map (fun i => BitVec.ofNat 8 (p.toNat / 2 ^ (8 * ((off + i) % 8))))
    writeVa who k (dst + off) l false true (0, 0)
  | _ => pure ()
  modify (fun s => updJob s k sub (fun j => { j with progress := off + n, hostWait := none }))

/-- Destination and length of a COPY or FILL. -/
def JobBody.copyRange : JobBody → Nat × Nat
  | .copy _ dst len _ => (dst, len)
  | .fill dst len _ => (dst, len)
  | _ => (0, 0)

/-- The body is a COPY with DIGEST. -/
def JobBody.isDigest : JobBody → Bool
  | .copy _ _ _ d => d
  | _ => false

/-- A COPY or FILL job at work, from the first byte not yet written (R519, R520); a DIGEST copy waits for
room in the digest engine (R292). -/
def copyWork (s : State) (j : Job) : State :=
  match pointMoor s j with
  | some s => s
  | none =>
    let (dst, len) := j.desc.body.copyRange
    if j.desc.body.isDigest && j.digestData.isEmpty && decide (openDigests s ≥ 32) then s else
    let todo := bursts (dst + j.progress) (len - j.progress)
    match runOp (eachOp (fun p => copyBurst j.ctx j.sub j.desc.body (p.1 - dst) p.2) todo) s with
    | (.ok _, s') =>
      match findJob s' j.ctx j.sub with
      | some j' => succeed s' j'
      | none => s'
    | (.error st, s') => stopJob s' j.ctx j.sub st

/-- The body is a COPY. -/
def JobBody.isCopy : JobBody → Bool
  | .copy .. => true
  | _ => false

/-- The body is a FILL. -/
def JobBody.isFill : JobBody → Bool
  | .fill .. => true
  | _ => false

/-- JOB_COPY. -/
def execJobCopy (k : Fin 8) (sub : W32) (s : State) : Answer :=
  whenReadyMem s (fun s => performJob s k sub JobBody.isCopy (copyFree s) copyWork)
/-- JOB_FILL. -/
def execJobFill (k : Fin 8) (sub : W32) (s : State) : Answer :=
  whenReadyMem s (fun s => performJob s k sub JobBody.isFill (copyFree s) copyWork)

end Sys2Proof.Machine
end

