-- ==== Sys2Proof/Machine/Lanes.lean ====
section
/-! DEFINITION. Vector lanes and row calderas: the VEC steps (R229 to R241) and the QUANT step (R211 to
R219, R719). -/

namespace Sys2Proof.Machine

/-! ### Lane values -/

/-- The internal format a step names: FP32 or TP32. -/
def laneFmt (fp32 : Bool) : Fmt := if fp32 then .fp32 else .tp32

/-- A finite non-zero value below the smallest normal FP32 value (R108). -/
def isTiny32 (v : Val) : Bool :=
  match v with
  | .fin q => qLt (qAbs q) (qDyadic 1 (-126))
  | _ => false

/-- R230: decode an element into the internal format. A value tiny for an FP32 lane is a zero of its sign,
with no flag (R115, R118). R128's table of conversions gives a BF16 subnormal UNF and INX in FP32; the corner of chapter 6
says that an FP32 lane makes a zero of its sign of it with no flag, and that a TP32 lane holds it exactly, which TP32
cannot below 2^-120: an FP32 lane takes the corner here, and a TP32 lane rounds (DESIGN CHOICE, log entry 101). -/
def laneIn (f i : Fmt) (ftz : Bool) (w : Nat) : Val × Flags :=
  let v := decode f ftz w
  if f = i then (v, 0)
  else if decide (i = .fp32) && isTiny32 v then (.zero v.isNeg, 0)
  else let (w, fl) := convert i false v; (decode i false w, fl)

/-- A value as the internal format holds it: a tapered zero has no sign (R94). -/
def laneNorm (fp32 : Bool) (v : Val) : Val :=
  match v with
  | .zero n => .zero (n && fp32)
  | v => v

/-- R118, R230: a result tiny for an FP32 lane becomes zero of its sign. -/
def laneFlush (fp32 : Bool) (r : Val × Flags) : Val × Flags :=
  if fp32 && isTiny32 r.1 then (.zero r.1.isNeg, r.2 ||| fUNF ||| fINX) else r

/-- How two values compare (R121 to R123): less, equal, greater, or unordered. -/
inductive Rel where
  | lt | eq | gt | un
  deriving DecidableEq, Repr

/-- The comparison of two values of one format. -/
def compareVals (a b : Val) : Rel :=
  match a, b with
  | .nan _, _ | _, .nan _ => .un
  | .inf m, .inf n => if m = n then .eq else if m then .lt else .gt
  | .inf m, _ => if m then .lt else .gt
  | _, .inf n => if n then .gt else .lt
  | x, y => if qLt x.q y.q then .lt else if qEq x.q y.q then .eq else .gt

/-- PRED of a CMP (R490): 0 lt, 1 le, 2 eq, 3 ne, 4 gt, 5 ge. -/
def predHolds (p : Nat) (r : Rel) : Bool :=
  match p with
  | 0 => r = .lt
  | 1 => r = .lt || r = .eq
  | 2 => r = .eq
  | 3 => r ≠ .eq
  | 4 => r = .gt
  | _ => r = .gt || r = .eq

/-- R124, R125: the larger (or smaller) of two values; −0 lies below +0, and a NaR or NaN wins. -/
def pickVal (max : Bool) (a b : Val) : Val :=
  match compareVals a b with
  | .un => .nan false
  | .lt => if max then b else a
  | .gt => if max then a else b
  | .eq => if a.isNeg == max then b else a

/-- Some operand is a signalling NaN (R99). -/
def anySig (l : List Val) : Flags := if l.any (fun v => decide (v = .nan true)) then fINV else 0

/-- The lane operations that write elements, by OPERATION code 0 to 11 (R231). `n` is SCALE2's N and `p`
is CMP's PRED. -/
def laneOp (op : Nat) (fp32 : Bool) (p : Nat) (n : Int) (a b c : Val) : Val × Flags :=
  let r : Val × Flags := match op with
    | 0 => vAdd a b
    | 1 => vAdd a b.neg
    | 2 => vMul a b
    | 3 => let (m, f) := vMul a b; let (r, g) := vAdd (laneNorm fp32 m) c; (r, f ||| g)
    | 4 => (pickVal false a b, anySig [a, b])
    | 5 => (pickVal true a b, anySig [a, b])
    | 6 => (match a with | .fin q => .fin (qAbs q) | .zero _ => .zero false | .inf _ => .inf false | v => v, anySig [a])
    | 7 => (a.neg, anySig [a])
    | 8 => (if predHolds p (compareVals a b) then oneVal else .zero false, anySig [a, b])
    | 9 => (if decide (compareVals c (.zero false) = .eq) then b else a, anySig [a, b, c])
    | 10 => vMul a (.fin (qDyadic 1 n))
    | _ => (a, anySig [a])
  let v : Val := match r.1 with
    | .nan _ => .nan false
    | v => laneNorm fp32 v
  if op ≤ 3 ∨ op = 10 then laneFlush fp32 (v, r.2) else (v, r.2)

/-! ### VEC steps that write elements -/

/-- How many operands an operation reads (R231). -/
def laneArity (op : Nat) : Nat := if op = 3 ∨ op = 9 then 3 else if op ≤ 2 ∨ op = 4 ∨ op = 5 ∨ op = 8 then 2 else 1

/-- Batches of `w` elements, as first element and length. -/
def batchesOf (w n : Nat) : List (Nat × Nat) := (List.range ((n + w - 1) / w)).map (fun i => (w * i, min w (n - w * i)))

/-- R229, R519, R719: batches of 256 elements, one for each lane. -/
def batches (n : Nat) : List (Nat × Nat) := batchesOf 256 n

/-- Read a batch of an operand and decode it into the internal format. -/
def laneBatch (e : Env) (f i : Fmt) (off : Nat) (b : Nat × Nat) : Op (List (Val × Flags)) := do
  let l ← e.read (off + elemBytes f b.1) (elemBytes f b.2)
  let z ← e.ftz
  pure ((unpackElems f b.2 l).map (laneIn f i z))

/-- Store results in OUT_FORMAT (R230, R720) and count the codes. Answers the flags of each. -/
def laneStore (e : Env) (f : Fmt) (off : Nat) (vs : List Val) : Op (List Flags) := do
  let z ← e.ftz
  let out := vs.map (storeVal f z)
  e.write off (packElems f (out.map Prod.fst))
  if f.isCode then e.countQuant out.length (out.countP (fun o => o.2.2)) 0
  pure (out.map (fun o => o.2.1))

/-- The union of flags. -/
def unionFlags (l : List Flags) : Flags := l.foldl (fun a f => a ||| f) 0

/-- The fields every VEC step shares: OPERATION, the reserved bits, and PRED. -/
def vecFields (e : Env) : Op Unit := do
  e.uses (bytesOf 1 29)
  guardOp e (decide (e.f 1 1 ≤ 13) && decide (e.f 2 1 ≤ 1) && decide (e.f 6 1 ≤ 5))

/-- A VEC step that writes elements (R230, R231). -/
def vecStep (e : Env) : Op Unit := do
  vecFields e
  let op := e.f 1 1
  let fp32 := bitOf (e.f 2 1) 0
  let n := toSigned 16 (e.f 28 2)
  guardOp e (decide (op ≠ 10) || (decide (-255 ≤ n) && decide (n ≤ 255)))
  let fin ← e.fmt 3
  let fout ← e.fmt 4
  let count := e.f 24 4
  let srcs := [e.f 8 4, e.f 12 4, e.f 16 4].take (laneArity op)
  eachOp (fun a => e.range a (elemBytes fin count)) srcs
  e.range (e.f 20 4) (elemBytes fout count)
  eachOp (fun b => do
    let ins ← gatherOp (fun a => laneBatch e fin (laneFmt fp32) a b) srcs
    let at_ (i j : Nat) : Val := ((ins.getD i []).getD j (.zero false, 0)).1
    let rs := (List.range b.2).map (fun j => laneOp op fp32 (e.f 6 1) n (at_ 0 j) (at_ 1 j) (at_ 2 j))
    let fl ← laneStore e fout (e.f 20 4 + elemBytes fout b.1) (rs.map Prod.fst)
    e.raise (unionFlags (fl ++ ins.flatten.map Prod.snd ++ rs.map Prod.snd))) (batches count)

/-! ### Row calderas (R233 to R241) -/

/-- R234, R236: one element into a row caldera. -/
def RowCal.add (r : RowCal) (v : Val) : RowCal × Flags :=
  let m := match r.max with
    | none => match v with | .nan _ => .nan false | v => v
    | some m => pickVal true m v
  let r := { r with max := some m, count := min (r.count + 1) (2 ^ 32 - 1) }
  match v with
  | .fin q => ({ r with sum := r.sum.addValue q, sq := r.sq.addValue (qMul q q) }, 0)
  | .zero _ => (r, 0)
  | v =>
    let p := specialProduct v oneVal
    let q := specialProduct v v
    ({ r with sum := r.sum.mark p, sq := r.sq.mark q }, p.flags ||| q.flags)

/-- ROWADD's whole effect (R234 to R237), 64 elements in a cycle (R235). -/
def rowAdd (e : Env) : Op Unit := do
  vecFields e
  let row := e.f 5 1
  guardOp e (decide (row < e.decl.rowcal))
  let fin ← e.fmt 3
  let count := e.f 24 4
  e.range (e.f 8 4) (elemBytes fin count)
  eachOp (fun b => do
    let ins ← laneBatch e fin (laneFmt (bitOf (e.f 2 1) 0)) (e.f 8 4) b
    let old := smGet RowCal.empty (getCore (← get) e.c).rowcals row
    let (new, fl) := ins.foldl (fun (acc : RowCal × Flags) p => let (r, f) := acc.1.add p.1; (r, acc.2 ||| f ||| p.2)) (old, 0)
    e.core (fun x => { x with rowcals := smPut RowCal.empty x.rowcals row new })
    e.raise fl
    modify (fun s => noteOvf (newCycle s) e.c ((!old.sum.ovf && new.sum.ovf) || (!old.sq.ovf && new.sq.ovf)))) (batchesOf 64 count)

/-- The side flags of an accumulator. -/
def Cell.side (c : Cell) : Side := ⟨c.nar, c.ovf, c.pinf, c.ninf⟩

/-- Both accumulators' side flags. -/
def Side.or (a b : Side) : Side := ⟨a.nar || b.nar, a.ovf || b.ovf, a.pinf || b.pinf, a.ninf || b.ninf⟩

/-- The four values of a readout: MAX, SUM, MEAN and VAR, each a word with its flags (R238, R239). -/
def rowReadout (f : Fmt) (r : RowCal) : List (Nat × Flags) :=
  let nan := (nanWord f, fINV)
  let out (sd : Side) (v : Q) : Nat × Flags := if sd.any then sd.result f else convert f false (valOf v)
  if r.count = 0 then [nan, ((convert f false (.zero false)).1, 0), nan, nan]
  else
    let s := r.sum.value
    let q := r.sq.value
    let n := qInt r.count
    [convert f false (r.max.getD (.nan false)), out r.sum.side s, out r.sum.side (qDiv s n),
     out (r.sum.side.or r.sq.side) (qDiv (qSub (qMul n q) (qMul s s)) (qMul n n))]

/-- ROWREAD's whole effect (R238 to R240). -/
def rowRead (e : Env) : Op Unit := do
  vecFields e
  let row := e.f 5 1
  guardOp e (decide (row < e.decl.rowcal))
  let dst := e.f 20 4
  e.range dst 16
  let r := smGet RowCal.empty (getCore (← get) e.c).rowcals row
  if !(r.sum.residueOk && r.sq.residueOk) then
    let (q, s) := rowResidueError (← get) e.c (e.k, e.sub) row
    set s
    failWith 8 (some (BitVec.ofNat 32 e.idx)) q
  let out := rowReadout (laneFmt (bitOf (e.f 2 1) 0)) r
  e.write dst (out.flatMap (fun o => natLE 4 o.1))
  eachOp (fun (o : Nat × Flags) => e.raise o.2) out
  e.core (fun x => { x with rowcals := smPut RowCal.empty x.rowcals row RowCal.empty })
  modify (fun s => incF s (CORE_ROW_READS_COUNT e.c))

/-! ### QUANT -/

/-- QUANT's whole effect (R211 to R219, R719). -/
def quantStep (e : Env) : Op Unit := do
  e.uses ([1, 2, 3, 4] ++ bytesOf 6 27)
  let mode := e.f 2 1
  let f ← e.fmt 1
  let z := e.i8 3
  guardOp e (f.isCode && decide (mode ≤ 2) &&
    (decide (f = .bell4) || (decide (f.intRange.1 ≤ z) && decide (z ≤ f.intRange.2))))
  let fin ← e.fmt 4
  let count := e.f 16 4
  e.range (e.f 8 4) (elemBytes fin count)
  e.range (e.f 12 4) (elemBytes f count)
  let sid ← if mode = 1 then e.sid (e.f 20 2) else pure 0
  let qs := decodeTp 16 (e.f 6 2)
  eachOp (fun b => do
    let l ← e.read (e.f 8 4 + elemBytes fin b.1) (elemBytes fin b.2)
    let ftz ← e.ftz
    let out := (unpackElems fin b.2 l).zipIdx.map (fun p =>
      let v := decode fin ftz p.1
      let u := if mode = 1 then keyedU32 e.seed sid ((e.f 22 6 + b.1 + p.2) % 2 ^ 48) else 0
      quantise f mode z qs v u)
    e.write (e.f 12 4 + elemBytes f b.1) (packElems f (out.map Prod.fst))
    e.countQuant out.length (out.countP (fun o => o.2.2)) (if mode = 1 then out.length else 0)
    e.raise (unionFlags (out.map (fun o => o.2.1)))) (batches count)

/-! ### Commands -/

/-- The record is a VEC step of an operation, or of a reserved one. -/
def isVec (op : Nat) (r : StepRec) : Bool := decide (stepOp r = 4) && (decide (recNat r 1 1 = op) || decide (recNat r 1 1 > 13))

/-- VEC_ADD. -/
def execVecAdd (c : Fin 4) (s : State) : Answer := whenReadyMem s (fun s => doStep s c (isVec 0) vecStep)
/-- VEC_SUB. -/
def execVecSub (c : Fin 4) (s : State) : Answer := whenReadyMem s (fun s => doStep s c (isVec 1) vecStep)
/-- VEC_MUL. -/
def execVecMul (c : Fin 4) (s : State) : Answer := whenReadyMem s (fun s => doStep s c (isVec 2) vecStep)
/-- VEC_FMA. -/
def execVecFma (c : Fin 4) (s : State) : Answer := whenReadyMem s (fun s => doStep s c (isVec 3) vecStep)
/-- VEC_MIN. -/
def execVecMin (c : Fin 4) (s : State) : Answer := whenReadyMem s (fun s => doStep s c (isVec 4) vecStep)
/-- VEC_MAX. -/
def execVecMax (c : Fin 4) (s : State) : Answer := whenReadyMem s (fun s => doStep s c (isVec 5) vecStep)
/-- VEC_ABS. -/
def execVecAbs (c : Fin 4) (s : State) : Answer := whenReadyMem s (fun s => doStep s c (isVec 6) vecStep)
/-- VEC_NEG. -/
def execVecNeg (c : Fin 4) (s : State) : Answer := whenReadyMem s (fun s => doStep s c (isVec 7) vecStep)
/-- VEC_CMP. -/
def execVecCmp (c : Fin 4) (s : State) : Answer := whenReadyMem s (fun s => doStep s c (isVec 8) vecStep)
/-- VEC_SEL. -/
def execVecSel (c : Fin 4) (s : State) : Answer := whenReadyMem s (fun s => doStep s c (isVec 9) vecStep)
/-- VEC_SCALE2. -/
def execVecScale2 (c : Fin 4) (s : State) : Answer := whenReadyMem s (fun s => doStep s c (isVec 10) vecStep)
/-- VEC_CVT. -/
def execVecCvt (c : Fin 4) (s : State) : Answer := whenReadyMem s (fun s => doStep s c (isVec 11) vecStep)
/-- VEC_ROWADD. -/
def execVecRowadd (c : Fin 4) (s : State) : Answer := whenReadyMem s (fun s => doStep s c (isVec 12) rowAdd)
/-- VEC_ROWREAD. -/
def execVecRowread (c : Fin 4) (s : State) : Answer := whenReadyMem s (fun s => doStep s c (isVec 13) rowRead)
/-- STEP_QUANT. -/
def execStepQuant (c : Fin 4) (s : State) : Answer :=
  whenReadyMem s (fun s => doStep s c (fun r => decide (stepOp r = 6)) quantStep)

end Sys2Proof.Machine
end

