-- ==== Sys2Proof/Machine/Geyser.lean ====
section
/-! DEFINITION. The Geyser unit: microprogram steps (R255 to R258), piecewise-linear tables (R248, R249),
the special arguments (R254) and the bounds of the built-in functions (R251 to R253), arbitration (R242 to R245), and the GEY step (R250, R720). -/

namespace Sys2Proof.Machine

/-! ### The working format (R250) -/

/-- Round into the working format: 32 significant bits, exponents −510 to 511. What lies beyond it is the
free choice of Config. -/
def roundWork (v : Val) : Val :=
  match v with
  | .fin q =>
    let p := qLog2 (qAbs q)
    let neg := decide (q.num < 0)
    let sg (x : Q) : Val := .fin (if neg then qNeg x else x)
    if p < -510 then (if Config.geyserUnder then .zero neg else sg (qDyadic 1 (-510)))
    else
      let m := qRne (qScale2 (qAbs q) (31 - p))
      let r := qDyadic m (p - 31)
      if qLe (qDyadic 1 512) r then
        (if Config.geyserOver = 0 then .inf neg else if Config.geyserOver = 1 then .nan false else sg (qDyadic (2 ^ 32 - 1) 480))
      else sg r
  | v => v

/-- The integer a register holds (R256). -/
def heldInt (v : Val) : Int :=
  match v with
  | .fin q => if qEq q (qInt (qFloor q)) then qFloor q else Config.geyserInt q.num q.denPred
  | .zero _ => 0
  | .inf n => Config.geyserInt (if n then -1 else 1) 0
  | .nan _ => Config.geyserInt 0 0

/-- Nearest integer, ties even, as a value; a value that is not finite stays as it is. -/
def nearestInt (v : Val) : Val :=
  match v with
  | .fin q => valOf (qInt (qRne q))
  | .zero n => .zero n
  | v => v

/-- T[k]: the FP32 word at byte 4k of the table store; none outside it (R256, R257). -/
def tableWord (x : Core) (k : Nat) : Option Val :=
  if k < 1024 then some (decodeIeee .fp32 false (leNat ((List.range 4).map (fun i => smGet 0 x.geyTable (4 * k + i))))) else none

/-- What a microprogram step does: new registers with the flags of its operations, the program's end with its result,
or a bad step. -/
inductive GeyOut where
  | regs (g : SMap Val) (fl : Flags)
  | ended (v : Val)
  | bad
  deriving DecidableEq, Repr

/-- A working register. -/
def gReg (g : SMap Val) (i : Nat) : Val := smGet (.zero false) g i
/-- Set a working register. -/
def gSet (g : SMap Val) (i : Nat) (v : Val) : SMap Val := smPut (.zero false) g i v

/-- A value a step writes: rounded into the working format, a NaN quiet. -/
def workVal (v : Val) : Val :=
  match roundWork v with
  | .nan _ => .nan false
  | v => v

/-- R256, R257: one microprogram step. A signalling NaN that enters a step raises INV, and so does an invalid sum or
product (R99, R128). -/
def geyStep (x : Core) (op dst sa sb imm : Nat) (g : SMap Val) : GeyOut :=
  let a := gReg g sa
  let b := gReg g sb
  let put (v : Val) (fl : Flags) : GeyOut := .regs (gSet g dst (workVal v)) fl
  match op with
  | 0 =>
    match tableWord x imm, tableWord x (imm + 1), tableWord x (imm + 2) with
    | some t0, some t1, some t2 =>
      let (m, f0) := vMul a t0
      let n := nearestInt m
      let (p, f1) := vMul n t1
      let (q, f2) := vMul n t2
      let (u, f3) := vAdd a p.neg
      let (v, f4) := vAdd u q.neg
      .regs (gSet (gSet g dst (workVal v)) 15 (workVal n)) (f0 ||| f1 ||| f2 ||| f3 ||| f4)
    | _, _, _ => .bad
  | 1 =>
    let j := heldInt a
    let j := if j < 0 then 0 else min j.toNat 1023
    match tableWord x (imm + j) with
    | some t => put t (anySig [a, t])
    | none => .bad
  | 2 =>
    match tableWord x imm with
    | some t =>
      let (m, f) := vMul (gReg g dst) a
      let (v, h) := vAdd m t
      put v (f ||| h)
    | none => .bad
  | 3 => let (v, f) := vMul a b; put v f
  | 4 => let (v, f) := vAdd a b; put v f
  | 5 => put (if decide (compareVals (gReg g 14) (.zero false) = .lt) then a else b) (anySig [gReg g 14, a, b])
  | 6 =>
    match tableWord x imm, tableWord x (imm + 1) with
    | some lo, some hi =>
      put (if decide (compareVals a lo = .lt) then lo else if decide (compareVals a hi = .gt) then hi else a) (anySig [a, lo, hi])
    | _, _ => .bad
  | 7 => put (match a with | .fin q => .fin (qScale2 q (heldInt b)) | v => v) (anySig [a, b])
  | 8 => .ended (gReg g 1)
  | _ => .bad

/-- Run a loaded program from a step-store address, with the flags of its steps; none when it ends badly (R257, R258). -/
def geyRun (x : Core) : Nat → Nat → SMap Val → Flags → Option (Val × Flags)
  | 0, _, _, _ => none
  | f + 1, p, g, fl =>
    if p ≥ 1024 then none
    else
      let w := (smGet 0 x.geySteps p).toNat
      match geyStep x (bitsOf w 3 0) (bitsOf w 7 4) (bitsOf w 11 8) (bitsOf w 15 12) (bitsOf w 27 16) g with
      | .regs g h => geyRun x f (p + 1) g (fl ||| h)
      | .ended v => some (v, fl)
      | .bad => none

/-- The registers a program starts with: its argument in G0 (R256). -/
def geyStart (v : Val) : SMap Val :=
  (List.range 15).foldl (fun g i => gSet g (i + 1) (decodeIeee .fp32 false (Config.geyserInit (i + 1) % 2 ^ 32))) (gSet [] 0 v)

/-! ### Functions -/

/-- R254: the result and flags of a special argument of identifiers 0 to 9; none for one it does not list. -/
def geySpecial (id : Nat) (fp32 : Bool) (v : Val) : Option (Val × Flags) :=
  let one : Val := oneVal
  match v with
  | .nan s => some (.nan false, if s then fINV else 0)
  | .zero n =>
    if id = 1 then some (if fp32 then .inf true else .nan false, fINV)
    else if id = 2 ∨ id = 3 then some (if fp32 then .inf n else .nan false, fINV)
    else none
  | .inf n =>
    match id with
    | 0 => some (if n then .zero false else .inf false, 0)
    | 1 => if n then some (.nan false, fINV) else some (.inf false, 0)
    | 2 => some (.zero n, 0)
    | 3 => if n then some (.nan false, fINV) else some (.zero false, 0)
    | 4 | 5 => some (if n then one.neg else one, 0)
    | 6 => some (if n then .zero false else one, 0)
    | _ => some (if n then .zero true else .inf false, 0)
  | .fin q => if (id = 1 ∨ id = 3) ∧ q.num < 0 then some (.nan false, fINV) else none

/-- The exact value of a built-in function at a finite argument that R254 does not list, enclosed (R251). -/
def romExact (id : Nat) (x : Q) : Iv :=
  match id with
  | 0 => ivExp2 x
  | 1 => ivLog2 x
  | 2 => ivExact (qDiv (qInt 1) x)
  | 3 => ivRsqrt x
  | 4 => ivErf (ivExact x)
  | 5 => ivTanh x
  | 6 => ivSigmoid (ivExact x)
  | 7 =>
    let t := ivDiv (ivExact (qAbs x)) (ivSqrt (ivExact (qInt 2)))
    let half := ivExact (qScale2 x (-1))
    if x.num ≥ 0 then ivMul half (ivAdd (ivExact (qInt 1)) (ivErfPos t))
    else if qLe (qInt 12) t.lo then
      ⟨(ivMul half (ivExp (ivExact (qNeg (qLimit (qMul t.lo t.lo) 4000))))).lo, qZero⟩
    else ivMul half (ivSub (ivExact (qInt 1)) (ivErfPos t))
  | 8 =>
    let cube := ivExact (qAdd x (qMul (qFrac 44715 1000000) (qMul x (qMul x x))))
    ivMul (ivExact x) (ivSigmoid (ivScale2 (ivMul (ivSqrt (ivDiv (ivExact (qInt 2)) ivPi)) cube) 1))
  | _ => ivMul (ivExact x) (ivSigmoid (ivExact (qMul (qFrac 1702 1000) x)))

/-- The bounds of R251, in ulp. -/
def romUlps (id : Nat) : Nat := if id = 2 ∨ id = 3 then 1 else if id ≥ 7 then 3 else 2

/-- A result of a built-in function that its bound admits; log2 has a second bound near 1 (R251, R253). A result of 0 is held
to the bound with the ulp R252 gives the code 0 (DEDUCED, log entry 107). -/
def romAdmits (id : Nat) (i : Fmt) (x : Q) (iv : Iv) (r : Val) : Bool :=
  r.isFinite && (withinUlp i (romUlps id) iv r.q ||
    (decide (id = 1) && qLe (qFrac 1 2) x && qLe x (qInt 2) && withinAbs (qDyadic 1 (-24)) iv r.q))

/-- The working value that the ROM ends with, before the final rounding (R250): a free value of 32 significant bits. -/
def romWork (id : Nat) (fp32 : Bool) (arg : Nat) : Val :=
  let (neg, m, e) := Config.geyserRom id fp32 arg
  if m.toNat = 0 then .zero (neg && fp32)
  else roundWork (.fin (let q := qDyadic m.toNat e; if neg then qNeg q else q))

/-- R250 to R254: a built-in function at a finite argument: beyond the format's range the exact value is rounded; within it the
device's working value is rounded once, and lies within the bound. Where the free working value would not, the exact value
rounded stands for it, so that every result the device may give and no other is possible (log entry 43). -/
def romValue (id : Nat) (i : Fmt) (v : Val) : Val × Flags :=
  let exact := romExact id v.q
  let nearest := convert i false (valOf exact.lo)
  let free := convert i false (romWork id (decide (i = .fp32)) (convert i false v).1)
  let (w, f) := if !(beyondRange i exact) && romAdmits id i v.q exact (decode i false free.1) then free else nearest
  (decode i false w, f)

/-- A result in the internal format, with its flags and whether a step was bad. -/
abbrev GeyResult := Val × Flags × Bool

/-- A bad step's result (R258). -/
def geyBad : GeyResult := (.nan false, fINV, true)

/-- R249: the piecewise-linear table at a table-store offset. -/
def pwl (x : Core) (i : Fmt) (segments off : Nat) (v : Val) : GeyResult :=
  let word (at_ : Nat) : Val := decodeIeee .fp32 false (leNat ((List.range 4).map (fun b => smGet 0 x.geyTable (at_ + b))))
  match v with
  | .nan s => (.nan false, if s then fINV else 0, false)
  | _ =>
    if off + 8 + 8 * segments > 4096 then geyBad
    else
      let lo := word off
      let inv := word (off + 4)
      let t := (vMul (vAdd v lo.neg).1 inv).1
      let seg : Int := match t with
        | .fin q => (qFloor q)
        | .inf false => (segments : Int)
        | _ => 0
      let n := if seg < 0 then 0 else min seg.toNat (segments - 1)
      let lane (w : Val) : Val × Flags :=
        match w with
        | .nan s => (.nan s, 0)
        | .inf g => if i = .tp32 then (.nan false, fINV) else (.inf g, 0)
        | w => (w, 0)
      let (a, fa) := lane (word (off + 8 + 8 * n))
      let (b, fb) := lane (word (off + 12 + 8 * n))
      let (r, fr) := laneOp 3 (decide (i = .fp32)) 0 0 b v a
      let (w, fw) := convert i false r
      (decode i false w, fa ||| fb ||| fr ||| fw ||| anySig [lo, inv], false)

/-- R249 to R258: one function on one value, in the internal format. -/
def geyValue (x : Core) (im : Image) (id : Nat) (i : Fmt) (table : Nat) (v : Val) : GeyResult :=
  let fp32 := decide (i = .fp32)
  if id ≤ 9 then
    match geySpecial id fp32 v with
    | some (r, f) => (r, f, false)
    | none => let (r, f) := romValue id i v; (r, f, false)
  else if id = 10 then pwl x i 16 table v
  else if id = 11 then pwl x i 32 table v
  else
    match im.funcs.find? (fun p => decide (p.1 = id)) with
    | none => geyBad
    | some (_, entry) =>
      let sig := if v = .nan true then fINV else 0
      match geyRun x 1024 (im.decl.geyBase + entry) (geyStart v) 0 with
      | some (r, g) => let (w, f) := convert i false r; (decode i false w, f ||| g ||| sig, false)
      | none => (.nan false, fINV, true)

/-! ### Arbitration (R242 to R245) -/

/-- Batches of lane group `g`, which has `n` elements: pieces of at most `b` (R229, R244). -/
def groupBatches (b g n : Nat) : List (List Nat) :=
  (batchesOf b n).map (fun p => (List.range p.2).map (fun i => 64 * g + p.1 + i))

/-- Arbitration's state: pending batches by group, each the numbers of its elements; the group each Geyser last served away
from home (4 for none), stalls by group, results by Geyser, the elements accepted in the cycle under way, and those of the
cycles before it, newest first. -/
structure Arb where
  pend : List (List (List Nat))
  last : List Nat
  waits : List Nat
  served : List Nat
  now : List Nat
  before : List (List Nat)
  deriving DecidableEq, Repr

/-- Geyser `g` accepts the first pending batch of group `h`. -/
def Arb.accept (a : Arb) (g h : Nat) : Arb :=
  { a with
    served := setAt a.served g (a.served.getD g 0 + ((a.pend.getD h []).headD []).length)
    now := a.now ++ (a.pend.getD h []).headD []
    pend := setAt a.pend h ((a.pend.getD h []).drop 1)
    last := if g = h then a.last else setAt a.last g h }

/-- One cycle's two rounds (R243). -/
def Arb.cycle (a : Arb) : Arb :=
  let home := (List.range 4).filter (fun g => !(a.pend.getD g []).isEmpty)
  let a := home.foldl (fun a g => a.accept g g) a
  let a := ((List.range 4).filter (fun g => !(home.contains g))).foldl (fun a g =>
    let l := a.last.getD g 4
    let start := if l = 4 then g else l
    match ((List.range 4).map (fun i => (start + 1 + i) % 4)).find? (fun h => decide (h ≠ g) && !(a.pend.getD h []).isEmpty) with
    | some h => a.accept g h
    | none => a) a
  { a with now := [], before := a.now :: a.before, waits := a.waits.zipIdx.map (fun p => p.1 + b2n (!(a.pend.getD p.2 []).isEmpty)) }

/-- Cycles until no batch is pending. -/
def Arb.run : Nat → Arb → Arb
  | 0, a => a
  | n + 1, a => if a.pend.all List.isEmpty then a else Arb.run n a.cycle

/-- Serve one batch of elements, of which 64 go to each lane group: each cycle raises the flags of the elements it accepts and
GEY_BADSTEP for a bad step among them, and waits and results are counted (R67, R243 to R245). -/
def arbitrate (e : Env) (perBatch : Nat) (fls : List (Flags × Bool)) : Op Unit := do
  let x := getCore (← get) e.c
  let pend := (List.range 4).map (fun g => groupBatches perBatch g (min 64 (fls.length - 64 * g)))
  let last := (List.range 4).map (fun g => (smGet Geyser.reset x.geysers g).lastServed)
  let a := Arb.run 64 ⟨pend, last, [0, 0, 0, 0], [0, 0, 0, 0], [], []⟩
  eachOp (fun l => do
    e.raise (unionFlags (l.map (fun i => (fls.getD i (0, false)).1)))
    if l.any (fun i => (fls.getD i (0, false)).2) then
      modify (fun s => setEvent (newCycle s) (CORE_VEC_EVENT_GEY_BADSTEP e.c))) a.before.reverse
  eachOp (fun g => do
    e.core (fun x => { x with geysers := smPut Geyser.reset x.geysers g { smGet Geyser.reset x.geysers g with lastServed := a.last.getD g 4 } })
    modify (fun s => addF (addF s (CORE_GEY_WAIT_COUNT e.c g) (a.waits.getD g 0)) (CORE_GEY_SERVED_COUNT e.c g) (a.served.getD g 0)))
    (List.range 4)

/-! ### The GEY step -/

/-- R259, R475: an image's step words and table bytes go into the stores of its core. -/
def loadGeyser (x : Core) (im : Image) : Core :=
  { x with
    geySteps := smWrite 0 x.geySteps im.decl.geyBase im.geyWords
    geyTable := smWrite 0 x.geyTable im.decl.geyTbase im.geyTable }

/-- GEY's whole effect (R243 to R254, R720). -/
def geyserStep (e : Env) : Op Unit := do
  e.uses ([1, 2, 3, 4] ++ bytesOf 6 19)
  let id := e.f 1 1
  guardOp e (decide (e.f 2 1 ≤ 1) && (decide (id ≤ 11) || (decide (16 ≤ id) && e.image.funcs.any (fun p => decide (p.1 = id)))))
  let i := laneFmt (bitOf (e.f 2 1) 0)
  let fin ← e.fmt 3
  let fout ← e.fmt 4
  let count := e.f 16 4
  e.range (e.f 8 4) (elemBytes fin count)
  e.range (e.f 12 4) (elemBytes fout count)
  e.core (fun x => loadGeyser x e.image)
  eachOp (fun b => do
    let ins ← laneBatch e fin i (e.f 8 4) b
    let x := getCore (← get) e.c
    let rs := ins.map (fun p => geyValue x e.image id i (e.f 6 2) p.1)
    let fl ← laneStore e fout (e.f 12 4 + elemBytes fout b.1) (rs.map Prod.fst)
    arbitrate e (if id = 10 ∨ id = 11 then 32 else 8) ((List.range b.2).map (fun i =>
      let r := rs.getD i (.zero false, 0, false)
      (fl.getD i 0 ||| (ins.getD i (.zero false, 0)).2 ||| r.2.1, r.2.2)))) (batches count)

/-- STEP_GEY. -/
def execStepGey (c : Fin 4) (s : State) : Answer :=
  whenReadyMem s (fun s => doStep s c (fun r => decide (stepOp r = 5)) geyserStep)

/-! ### Single microprogram steps -/

/-- One microprogram step on the working registers of Geyser `g` of core `c`. A bad step ends the program:
its result is NaN, INV is raised and GEY_BADSTEP set (R257, R258). -/
def geyMicro (s : State) (c g op dst sa sb imm : Nat) : State :=
  let x := getCore s c
  let y := smGet Geyser.reset x.geysers g
  let put (s : State) (y : Geyser) : State :=
    let x := getCore s c
    putCore s c { x with geysers := smPut Geyser.reset x.geysers g y }
  match geyStep x op dst sa sb imm y.g with
  | .regs r fl => raiseFlags (put s { y with g := r, result := none }) c x.running fl
  | .ended v => put s { y with result := some v }
  | .bad => raiseFlags (setEvent (put s { y with result := some (.nan false) }) (CORE_VEC_EVENT_GEY_BADSTEP c)) c x.running fINV

/-- GEY_RREDUCE. -/
def execGeyRreduce (c g : Fin 4) (dst sa : Fin 16) (imm : BitVec 12) (s : State) : Answer :=
  whenReady s (fun s => geyMicro s c g 0 dst sa 0 imm.toNat)
/-- GEY_LOOKUP. -/
def execGeyLookup (c g : Fin 4) (dst sa : Fin 16) (imm : BitVec 12) (s : State) : Answer :=
  whenReady s (fun s => geyMicro s c g 1 dst sa 0 imm.toNat)
/-- GEY_HORNER. -/
def execGeyHorner (c g : Fin 4) (dst sa : Fin 16) (imm : BitVec 12) (s : State) : Answer :=
  whenReady s (fun s => geyMicro s c g 2 dst sa 0 imm.toNat)
/-- GEY_MUL. -/
def execGeyMul (c g : Fin 4) (dst sa sb : Fin 16) (s : State) : Answer := whenReady s (fun s => geyMicro s c g 3 dst sa sb 0)
/-- GEY_ADD. -/
def execGeyAdd (c g : Fin 4) (dst sa sb : Fin 16) (s : State) : Answer := whenReady s (fun s => geyMicro s c g 4 dst sa sb 0)
/-- GEY_SELECT. -/
def execGeySelect (c g : Fin 4) (dst sa sb : Fin 16) (s : State) : Answer := whenReady s (fun s => geyMicro s c g 5 dst sa sb 0)
/-- GEY_CLAMP. -/
def execGeyClamp (c g : Fin 4) (dst sa : Fin 16) (imm : BitVec 12) (s : State) : Answer :=
  whenReady s (fun s => geyMicro s c g 6 dst sa 0 imm.toNat)
/-- GEY_EXPADJ. -/
def execGeyExpadj (c g : Fin 4) (dst sa sb : Fin 16) (s : State) : Answer := whenReady s (fun s => geyMicro s c g 7 dst sa sb 0)
/-- GEY_END. -/
def execGeyEnd (c g : Fin 4) (s : State) : Answer := whenReady s (fun s => geyMicro s c g 8 0 0 0 0)

end Sys2Proof.Machine
end

