-- ==== Sys2Proof/Machine/Run.lean ====
section
/-! DEFINITION. RUN jobs: admission (R480 to R489, R542) and the steps the sequencer performs itself
(R490 to R500). -/

namespace Sys2Proof.Machine

/-! ### Placement (R485 to R489) -/

/-- Where a RUN job can go now. -/
inductive Placement where
  | at (c : Nat)
  | wait
  | noFit (code : Nat)
  deriving DecidableEq, Repr

/-- Two ranges, as base and size, overlap. -/
def overlap (a n b m : Nat) : Bool := decide (0 < n) && decide (0 < m) && decide (a < b + m) && decide (b < a + n)

/-- The pool ranges of two images overlap. -/
def poolClash (x y : Image) : Bool := overlap x.decl.poolBase x.decl.poolBytes y.decl.poolBase y.decl.poolBytes

/-- The Geyser ranges of two images overlap, and are not one shared store (R487). -/
def geyClash (x y : Image) : Bool :=
  !(decide (x.digest = y.digest) && decide (x.decl.geyBase = y.decl.geyBase) && decide (x.decl.geyTbase = y.decl.geyTbase)) &&
    (overlap x.decl.geyBase x.decl.geySteps y.decl.geyBase y.decl.geySteps ||
     overlap x.decl.geyTbase x.decl.geyTbytes y.decl.geyTbase y.decl.geyTbytes)

/-- A job is admitted STRICT: ADMIT of its context is 0. -/
def isStrict (s : State) (k : Nat) : Bool := !(flag s (HIF_CTX_CTL_ADMIT k))

/-- Core `c` is allowed by UNITS and eligible (R485). -/
def coreEligible (s : State) (units : Nat) (im : Image) (c : Nat) : Bool :=
  (decide (units = 0) || bitOf units c) &&
    decide (im.decl.arrays &&& getF s (CORE_CTL_ARR_EN c) = im.decl.arrays)

/-- Core `c` has room for one more SHARE job (R486). -/
def shareRoom (s : State) (c : Nat) : Bool :=
  let x := getCore s c
  regionOpen s c && decide (x.resident.length < 4) && !(x.resident.any (fun p => isStrict s p.1))

/-- Where a job of context `k` with image `im` and UNITS can be placed (R485 to R489). -/
def placement (s : State) (k units : Nat) (im : Image) : Placement :=
  let el := (List.range 4).filter (coreEligible s units im)
  if el.isEmpty then .noFit 1
  else if isStrict s k then
    match el.find? (fun c => regionOpen s c && (getCore s c).resident.isEmpty) with
    | some c => .at c
    | none => .wait
  else
    let room := el.filter (shareRoom s)
    if room.isEmpty then .wait
    else
      match room.find? (fun c => (residentImages s c).all (fun y => !(poolClash im y) && !(geyClash im y))) with
      | some c => .at c
      | none => .noFit (if room.any (fun c => (residentImages s c).any (poolClash im)) then 3 else 2)

/-- The running job of core `c` that a CRITICAL job with image `im` could pre-empt (R542). -/
def victimOn (s : State) (im : Image) (c : Nat) : Option Job :=
  match coreJob s c with
  | some (j, r) => if effClass s j ≠ 0 ∧ !(poolClash im r.image) ∧ !(geyClash im r.image) then some j else none
  | none => none

/-- The victim of a CRITICAL job: the lowest class, and among equals the lowest core (R542). -/
def chooseVictim (s : State) (units : Nat) (im : Image) : Option Job :=
  let vs := ((List.range 4).filter (coreEligible s units im)).filterMap (victimOn s im)
  let low := (vs.map (effClass s)).foldl max 0
  vs.find? (fun j => decide (effClass s j = low))

/-- A core a victim has left for the CRITICAL job; no resident job of it declares a pool or Geyser range that overlaps the
job's, so that no store of another job is loaded over (R259, R486, R542). -/
def preempted (s : State) (units : Nat) (im : Image) : Option Nat :=
  ((List.range 4).filter (coreEligible s units im)).find? (fun c =>
    regionOpen s c && (getCore s c).running.isNone && (residentImages s c).all (fun y => !(poolClash im y) && !(geyClash im y)) && (getCore s c).resident.any (fun p => match findJob s p.1 p.2 with
      | some v => decide (v.phase = .moored .preempt)
      | none => false))

/-! ### Admission -/

/-- The performer number of core `c`, for the order of R458. -/
def corePerformer (c : Nat) : Nat := 16 + c

/-- A placed job begins on its core when the turn is its own and the core is free: its stores are loaded
(R259, R475), every declared slot and row caldera is empty (R138), and no shadow plane is full (R188). -/
def takeTurn (s : State) (j : Job) : State :=
  match j.run with
  | some r =>
    if unitFree s j ∧ nextTurn s r.core = some (j.ctx, j.sub) then
      let s := putCore s r.core { loadGeyser (clearCore (getCore s r.core)) r.image with running := some (j.ctx, j.sub) }
      updRun s j.ctx j.sub (fun r => { r with ranSince := s.now })
    else s
  | none => s

/-- The job is placed on core `c`; a function it needs that is off there completes it DISABLED (R64). -/
def enterCore (s : State) (j : Job) (r : RunState) (c : Nat) : State :=
  if !(coreEnabled s c r.needs) then endJob s j.ctx j.sub 1 none 0
  else
    let s := takeJob s (corePerformer c) j c
    let s := putCore s c { getCore s c with resident := (getCore s c).resident ++ [(j.ctx, j.sub)] }
    let s := updRun { s with admits := s.admits + 1 } j.ctx j.sub (fun r => { r with core := c, admitNo := s.admits })
    match findJob s j.ctx j.sub with
    | some j => takeTurn s j
    | none => s

/-- Another waiting RUN job competes with one that would go to core `c`: it would go there too, or its
image is not checked yet and its UNITS allow the core (R458, R483). -/
def rivalFor (s : State) (c : Nat) (x : Job) : Bool :=
  mayStart s x && match x.desc.body, x.run with
    | .run .., some r => decide (placement s x.ctx x.desc.units r.image = .at c)
    | .run .., none => decide (x.desc.units = 0) || bitOf x.desc.units c
    | _, _ => false

/-- Another CRITICAL RUN job would take core `c` from its victim (R458, R542). -/
def rivalPre (s : State) (c : Nat) (x : Job) : Bool :=
  mayStart s x && decide (effClass s x = 0) && match x.run with
    | some r => decide (placement s x.ctx x.desc.units r.image = .wait) && decide (preempted s x.desc.units r.image = some c)
    | none => false

/-- Place a checked job, refuse it, or let it wait (R485 to R489, R542). -/
def placeRun (s : State) (j : Job) (r : RunState) : State :=
  match placement s j.ctx j.desc.units r.image with
  | .noFit code => endJob s j.ctx j.sub 2 (some (BitVec.ofNat 32 code)) 0
  | .at c => if isNext s (corePerformer c) j (rivalFor s c) then enterCore s j r c else s
  | .wait =>
    if effClass s j ≠ 0 then s
    else match preempted s j.desc.units r.image with
      | some c => if isNext s (corePerformer c) j (rivalPre s c) then enterCore s j r c else s
      | none =>
        match chooseVictim s j.desc.units r.image with
        | some v =>
          if s.jobs.any (fun x => x.pendingMoors.any (fun p => decide (p.1 = .preempt))) then s
          else requestMoor s v.ctx v.sub .preempt false
        | none => s

/-- The argument table (R473). -/
def readArgs (k : Nat) (sub : W32) (va n : Nat) : Op (List Nat) := do
  let b ← readVa (some (k, sub)) k va (8 * n) false
  pure ((List.range n).map (fun i => recNat b (8 * i) 6))

/-- Check the image a RUN job names and read its arguments (R480, R473). A fault moors the job at its start
(R514). -/
def checkRun (s : State) (j : Job) (image sect args : Nat) : State :=
  let k := j.ctx
  let op : Op RunState := do
    let (im, va, nsteps, needs) ← admitImage k j.sub image sect
    let l ← readArgs k j.sub args im.decl.args
    pure { core := 4, pc := 0, counters := [], nsteps := nsteps, stepsVa := va, image := im, needs := needs, args := l,
           cover := [], waitFrom := 0, saved := none, ranSince := 0, admitNo := 0, block := none, stepAt := 0 }
  match runOp op s with
  | (.ok r, s') =>
    let s' := updJob s' k j.sub (fun x => { x with run := some r, hostWait := none })
    match findJob s' k j.sub with
    | some j => placeRun s' j r
    | none => s'
  | (.error st, s') => stopJob s' k j.sub st

/-- JOB_RUN's whole effect. -/
def runJob (s : State) (k : Nat) (sub : W32) : State :=
  match findJob s k sub with
  | none => s
  | some j =>
    match j.desc.body with
    | .run image sect args =>
      if j.phase = .running then takeTurn s j
      else if mayStart s j then
        if !(commonEnabled s) then endJob s k sub 1 none 0
        else match j.run with
          | some r => placeRun s j r
          | none => checkRun s j image sect args
      else s
    | _ => s

/-- JOB_RUN. -/
def execJobRun (k : Fin 8) (sub : W32) (s : State) : Answer := whenReadyMem s (fun s => runJob s k sub)

/-! ### Steps the sequencer performs (R490 to R500) -/

/-- Steps issued and not done, among the classes of a WAIT's UNITS mask (R492). -/
def classesBusy (x : Core) (units : Nat) : Bool :=
  x.queue.any (fun q => match stepClass q.r with | some m => bitOf units m | none => false)

/-- The record has OP `op`. -/
def isOp (op : Nat) (r : StepRec) : Bool := decide (stepOp r = op)

/-- MOOR_POINT (R499, R500, R540): it passes, or the pending moorings that it satisfies take place, once
every earlier step is done. -/
def moorPoint (s : State) (c : Nat) : State :=
  withStep s c (isOp 9) (fun s e =>
    if !(onlyUses e.r [1]) || decide (e.f 1 1 ≥ 2) then stopStep s e (.fail 6 none 0)
    else
      match findJob s e.k e.sub with
      | none => s
      | some j =>
        let dry := bitOf (e.f 1 1) 0
        let now := j.pendingMoors.filter (fun p => !p.2 || dry)
        let left := j.pendingMoors.filter (fun p => p.2 && !dry)
        match now.head?, j.run with
        | some first, some r =>
          if !(getCore s c).queue.isEmpty then s
          else
            let why := if now.any (fun p => decide (p.1 = .moorJob)) then .moorJob else first.1
            moorRun s j { r with pc := r.pc + 1, waitFrom := 0 } why left none
        | _, _ => nextStep s e.k e.sub)

/-- STEP_MOOR_POINT. -/
def execStepMoorPoint (c : Fin 4) (s : State) : Answer := whenReadyMem s (fun s => moorPoint s c)

/-- The fields of a WAIT step are allowed (R490, R492). -/
def waitFieldsOk (r : StepRec) : Bool :=
  onlyUses r ([1, 2] ++ bytesOf 4 19) && decide (recNat r 1 1 < 64) && decide (recNat r 2 1 < 2)

/-- WAIT (R490, R492): it passes once the named classes are idle and, with WORD, the word reaches VALUE. A
WAIT that must wait keeps the tick it began at. -/
def waitStep (s : State) (c : Nat) : State :=
  withStep s c (isOp 10) (fun s e =>
    if !(waitFieldsOk e.r) then stopStep s e (.fail 6 none 0)
    else
      let unhold (s : State) : State := if classesBusy (getCore s c) 0x20 then s else endHostWait s e.k e.sub
      let stay (s : State) : State := updRun s e.k e.sub (fun r => { r with waitFrom := if r.waitFrom = 0 then s.now + 1 else r.waitFrom })
      if classesBusy (getCore s c) (e.f 1 1) then stay s
      else if e.f 2 1 = 0 then nextStep s e.k e.sub
      else
        let op : Op Bool := do
          let a ← e.extAddr (extAt e.r 4)
          let b ← readVa e.who e.k a 4 false
          pure (reaches (BitVec.ofNat 32 (recNat b 0 4)) (BitVec.ofNat 32 (e.f 12 4)))
        match runOp op s with
        | (.ok true, s') => nextStep (unhold s') e.k e.sub
        | (.ok false, s') => stay (unhold s')
        | (.error st, s') => stopStep s' e st)

/-- STEP_WAIT. -/
def execStepWait (c : Fin 4) (s : State) : Answer := whenReadyMem s (fun s => waitStep s c)

/-- The record of a step as the sequencer holds its block (R496). -/
def RunState.record (r : RunState) : Option StepRec :=
  match r.block with
  | some (n, recs) => if n = r.pc / 64 then recs[r.pc % 64]? else none
  | none => none

/-- R495: the TIMEOUT of the WAIT the sequencer stands at has elapsed. -/
def waitStepTimeout (s : State) (c : Nat) : State :=
  match coreJob s c with
  | some (j, r) =>
    match r.record with
    | some rec =>
      let t := recNat rec 16 4
      if isOp 10 rec ∧ waitFieldsOk rec ∧ t ≠ 0 ∧ r.waitFrom ≠ 0 ∧ s.now + 1 ≥ r.waitFrom + 100 * t then
        endJob s j.ctx j.sub 3 none 0
      else s
    | none => s
  | none => s

/-- STEP_WAIT_TIMEOUT. -/
def execStepWaitTimeout (c : Fin 4) (s : State) : Answer := whenReady s (fun s => waitStepTimeout s c)

/-- SIGNAL's whole effect. It is a DMA-class step, and waits behind every step issued before it (R490, R492). -/
def signalStep (e : Env) : Op Unit := do
  e.uses ([1] ++ bytesOf 4 19)
  guardOp e (decide (e.f 1 1 < 2))
  let a ← e.extAddr (extAt e.r 4)
  let n := if e.f 1 1 = 1 then 8 else 4
  writeVa e.who e.k a (natLE n (e.f 12 8)) false true (poolBase e.c + e.decl.poolBase, e.decl.poolBytes)

/-- STEP_SIGNAL. -/
def execStepSignal (c : Fin 4) (s : State) : Answer := whenReadyMem s (fun s => doStep s c (isOp 11) signalStep)

/-- FENCE (R490): it passes once every earlier step is done. -/
def fenceStep (s : State) (c : Nat) : State :=
  withStep s c (isOp 13) (fun s e => if !(getCore s c).queue.isEmpty then s else finishStep s e (e.uses []))

/-- STEP_FENCE. -/
def execStepFence (c : Fin 4) (s : State) : Answer := whenReadyMem s (fun s => fenceStep s c)

/-! ### JUMP -/

/-- The record is a JUMP of a condition, or of a reserved one. -/
def isJump (cond : Nat) (r : StepRec) : Bool := isOp 14 r && (decide (recNat r 1 1 = cond) || decide (recNat r 1 1 > 2))

/-- The fields of a JUMP are allowed (R490, R497); SET ignores TARGET. -/
def jumpOk (e : Env) : Bool :=
  onlyUses e.r ([1, 2] ++ bytesOf 4 11) && decide (e.f 1 1 ≤ 2) && decide (e.f 2 1 ≤ 7) &&
    (decide (e.f 1 1 = 2) || decide (e.f 4 4 < e.nsteps))

/-- JUMP's whole effect. -/
def jumpStep (s : State) (c : Nat) (cond : Nat) : State :=
  withStep s c (isJump cond) (fun s e =>
    if !(jumpOk e) then stopStep s e (.fail 6 none 0)
    else
      let n := e.f 2 1
      let go (s : State) : State := updRun s e.k e.sub (fun r => { r with pc := e.f 4 4, waitFrom := 0 })
      match e.f 1 1 with
      | 0 => go s
      | 1 =>
        let v := match coreJob s c with
          | some (_, r) => smGet 0 r.counters n - 1
          | none => 0
        let s := updRun s e.k e.sub (fun r => { r with counters := smPut 0 r.counters n v })
        if v ≠ 0 then go s else nextStep s e.k e.sub
      | _ => nextStep (updRun s e.k e.sub (fun r => { r with counters := smPut 0 r.counters n (BitVec.ofNat 32 (e.f 8 4)) })) e.k e.sub)

/-- JUMP_ALWAYS. -/
def execJumpAlways (c : Fin 4) (s : State) : Answer := whenReadyMem s (fun s => jumpStep s c 0)
/-- JUMP_DEC_NZ. -/
def execJumpDecNz (c : Fin 4) (s : State) : Answer := whenReadyMem s (fun s => jumpStep s c 1)
/-- JUMP_SET. -/
def execJumpSet (c : Fin 4) (s : State) : Answer := whenReadyMem s (fun s => jumpStep s c 2)

/-- END (R490): the job is done once every earlier step is done. -/
def endStep (s : State) (c : Nat) : State :=
  withStep s c (isOp 15) (fun s e =>
    if !(onlyUses e.r []) then stopStep s e (.fail 6 none 0)
    else if !(getCore s c).queue.isEmpty then s
    else match findJob s e.k e.sub with
      | some j => succeed s j
      | none => s)

/-- STEP_END. -/
def execStepEnd (c : Fin 4) (s : State) : Answer := whenReadyMem s (fun s => endStep s c)

end Sys2Proof.Machine
end

