-- ==== Sys2Proof/Machine/Selftest.lean ====
section
/-! DEFINITION. Self-tests (R543, R574 to R579). What a test finds in the silicon comes with the command: the
failure code, 0 for none, and the failing offset. -/

namespace Sys2Proof.Machine

/-- Two ranges share a byte. -/
def overlaps (a n b m : Nat) : Bool := decide (a < b + m) && decide (b < a + n)

/-- Some page of a context's range is mapped to bytes `base` to `base + len` of the basin. -/
def mapsInto (s : State) (k va n base len : Nat) : Bool :=
  (rangePieces 4096 (n + 1) va n).any (fun p =>
    match (runOp (translate none k p.1 false false) s).1 with
    | .ok (pa, h) => !h && overlaps pa p.2 (basinBase + base) len
    | .error _ => false)

/-- R576: a ring, fault ring or save area of an enabled context, the error ring, or a capture buffer of an
enabled channel lies in the basin range. -/
def basinInUse (s : State) (base len : Nat) : Bool :=
  (List.range 8).any (fun k => flag s (HIF_CTX_CTL_EN k) &&
    (mapsInto s k (sqVa s k 0) (64 * sqSize s k) base len || mapsInto s k (cqVa s k 0) (32 * cqSize s k) base len ||
      mapsInto s k (frVa s k) 2048 base len || mapsInto s k (saveArea s k 0).1 (64 * 2 ^ (saveArea s k 0).2) base len)) ||
  (flag s ERR_CTL_RING_EN && overlaps (getF s ERR_RING_BASE_OFFSET * 4096) (32 * errRingSize s) base len) ||
  (List.range 4).any (fun n => flag s (CAP_CH_CFG_EN n) &&
    overlaps (getF s (CAP_CH_BASE_OFFSET n) / 256 * 256) ((getF s (CAP_CH_CFG_BUFFERS n) + 1) * getF s (CAP_CH_SIZE_BYTES n)) base len)

/-- R576: the range of a destructive test is free. -/
def testRangeFree (s : State) (test unit base len : Nat) : Bool :=
  match test with
  | 0 => (residentImages s unit).all (fun im => !(overlaps im.decl.poolBase im.decl.poolBytes base len))
  | 1 => !(basinInUse s base len)
  | 2 => !(flag s PLN_CTL_PLAN_EN) && !(flag s WLD_CTL_WORLD_EN)
  | _ => true

/-- R577: device memory from `a` is zero, with valid check bits and no granule poisoned. -/
def zeroMemory (s : State) (a n : Nat) : State :=
  let out (x : Nat) : Bool := decide (x < a) || decide (a + n ≤ x)
  { dropImages s a n with
    mem := s.mem.filter (fun p => out p.1), poison := s.poison.filter out, latent := s.latent.filter (fun p => out p.1) }

/-- R577: what a destructive test leaves. The planner store then holds no queue, roadmap or hot brick. -/
def testDestroys (s : State) (test unit base len : Nat) : State :=
  match test with
  | 0 => zeroMemory s (poolBase unit + base) len
  | 1 => zeroMemory s (basinBase + base) len
  | 2 =>
    let s := zeroMemory s storeBase storeSize
    let s := (List.range 4).foldl (fun s c =>
      putChain s c { (getChain s c).dropLive with queue := [], roadNodes := [], roadEdges := [] }) s
    { s with world := { s.world with slots := [] } }
  | _ => s

/-- The jobs of unit `u` that must moor for a test: those that run there, tests apart (R543). -/
def testHolds (s : State) (u : Nat) : List Job :=
  s.jobs.filter (fun j => decide (j.unit = u) && decide (j.phase = .running) && !j.desc.body.neverMoors)

/-- R543, R576 to R579: the test asks for moorings, waits for them and for the deferring windows, and runs. -/
def testWork (failure off : Nat) (s : State) (j : Job) : State :=
  match j.desc.body with
  | .test test unit base len =>
    let held := testHolds s unit
    let s := held.foldl (fun s h => requestMoor s h.ctx h.sub .test false) s
    if !held.isEmpty || !(testAllowed s) then s
    else if !(testRangeFree s test unit base len) then endJob s j.ctx j.sub 6 (some 0xFFFC0001) 0
    else
      let s := testDestroys s test unit base len
      if failure = 0 then endJob s j.ctx j.sub 0 (some 0) 0
      else
        let addr := if test = 3 ∨ test = 4 ∨ test = 5 then none else some off
        let (q, s) := reportPlain s ⟨12, 1, unit, test + 256 * failure, addr, some (j.ctx, j.sub)⟩ 1
        endJob s j.ctx j.sub 11 (some (BitVec.ofNat 32 failure)) q
  | _ => s

/-- The body is a TEST of number `t`. -/
def JobBody.isTest (t : Nat) : JobBody → Bool
  | .test t' .. => decide (t' = t)
  | _ => false

/-- A TEST job of number `t`. -/
def testJob (s : State) (k : Nat) (sub : W32) (t : Nat) (failure : BitVec 8) (off : W32) : State :=
  performJob s k sub (JobBody.isTest t) true (testWork failure.toNat off.toNat)

/-- TEST_POOL_MBIST. -/
def execTestPoolMbist (k : Fin 8) (sub : W32) (failure : BitVec 8) (off : W32) (s : State) : Answer :=
  whenReadyMem s (fun s => testJob s k sub 0 failure off)
/-- TEST_BASIN_MBIST. -/
def execTestBasinMbist (k : Fin 8) (sub : W32) (failure : BitVec 8) (off : W32) (s : State) : Answer :=
  whenReadyMem s (fun s => testJob s k sub 1 failure off)
/-- TEST_STORE_MBIST. -/
def execTestStoreMbist (k : Fin 8) (sub : W32) (failure : BitVec 8) (off : W32) (s : State) : Answer :=
  whenReadyMem s (fun s => testJob s k sub 2 failure off)
/-- TEST_ARRAY_BIST. -/
def execTestArrayBist (k : Fin 8) (sub : W32) (failure : BitVec 8) (off : W32) (s : State) : Answer :=
  whenReady s (fun s => testJob s k sub 3 failure off)
/-- TEST_GEYSER_BIST. -/
def execTestGeyserBist (k : Fin 8) (sub : W32) (failure : BitVec 8) (off : W32) (s : State) : Answer :=
  whenReady s (fun s => testJob s k sub 4 failure off)
/-- TEST_COLLISION_BIST. -/
def execTestCollisionBist (k : Fin 8) (sub : W32) (failure : BitVec 8) (off : W32) (s : State) : Answer :=
  whenReady s (fun s => testJob s k sub 5 failure off)
/-- TEST_READ_CHECK. -/
def execTestReadCheck (k : Fin 8) (sub : W32) (failure : BitVec 8) (off : W32) (s : State) : Answer :=
  whenReady s (fun s => testJob s k sub 6 failure off)

end Sys2Proof.Machine
end

