-- ==== Sys2Proof/Machine/Register.lean ====
section
/-! DEFINITION. Register accesses: decoding, views, bit words, LIVE and DROP fields, sequence-clear
registers, latching reads, the stall timeout, the snapshot and configuration drift (R42 to R82, R718). -/

namespace Sys2Proof.Machine

/-! ### Decoding (R42 to R46, R55, R58) -/

/-- The register that index `idx` of a slot reaches; none for a slot R43 does not list. -/
def accessKey (slot idx : Nat) : Option Nat := if slotListed slot then some (regKey slot (idx % 2 ^ slotBits slot)) else none

/-- The register and the view a BAR0 offset names (R42). -/
def bar0Key (off : BitVec 24) : Option Nat := accessKey (bitsOf off.toNat 23 16) (bitsOf off.toNat 11 2)
/-- The view a BAR0 offset names: 0 plain, 1 set, 2 clear, 3 toggle. -/
def bar0View (off : BitVec 24) : Nat := bitsOf off.toNat 13 12
/-- The register a BAR4 offset names (R55). -/
def bar4Key (off : BitVec 20) : Option Nat := accessKey (bitsOf off.toNat 19 15) (bitsOf off.toNat 14 7)
/-- The bit a BAR4 offset names (R55). -/
def bar4Bit (off : BitVec 20) : Nat := bitsOf off.toNat 6 2

/-- What a view makes of a value (R51). -/
def viewResult (view : Nat) (old data : W32) : W32 :=
  match view with
  | 0 => data
  | 1 => old ||| data
  | 2 => old &&& ~~~data
  | _ => old ^^^ data

/-- R48: a write without all byte enables, or away from a 4-byte boundary, is ignored. -/
def badAccess (s : State) : State := setEvent (incF s GLB_CNT_BADACC_COUNT) GLB_EVENT_BAD_ACCESS

/-! ### LIVE and DROP (R59 to R65) -/

/-- The key is HIF_CTXk_CTL. -/
def isCtxCtl (key : Nat) : Bool := decide (288 ≤ key) && decide (key < 416) && decide (key % 16 = 0)

/-- The jobs that the unit of a register serves. GLB and the common fields of HIF and MMU serve every job, a
context's registers its jobs; a core its held jobs; BSN the held TEST jobs of unit BASIN; PLN the held jobs of PLAN but WORLD
jobs, and WLD the held WORLD and PLAN jobs. No job is admitted to any other block. -/
def touches (key : Nat) (j : Job) : Bool :=
  let i := key % 256
  match key / 256 with
  | 0x00 => true
  | 0x01 => decide (i < 32) || decide (j.ctx = (i - 32) / 16)
  | 0x02 => decide (i < 16) || decide (j.ctx = (i - 16) / 6)
  | 0x10 | 0x11 | 0x12 | 0x13 => j.isHeld && decide (j.unit = key / 256 - 0x10)
  | 0x08 => j.isHeld && decide (j.unit = 5)
  | 0x18 => j.isHeld && decide (j.unit = 4) && !j.desc.body.isWorld
  | 0x19 => j.isHeld && (j.desc.body.isWorld || j.desc.body.isPlan)
  | _ => false

/-- A write changes the field of a row. -/
def RegRow.changed (r : RegRow) (old new : W32) : Bool := decide (fieldOf old r.hi r.lo ≠ fieldOf new r.hi r.lo)

/-- A write changes a DROP field (R62). GLB_CTL.RUN drops only when it changes to 0; a context's EN is left to
R428 and R466. -/
def drops (key : Nat) (old new : W32) : Bool :=
  !(decide (key = GLB_CTL_RUN.key) && bitOf new.toNat 0) &&
    (regRows key).any (fun r => decide (r.ty = .rw) && decide (r.busy = .drop) && r.changed old new && !(isCtxCtl key && decide (r.lo = 0)))

/-- A write changes a LIVE field that can touch a job (R61, R65). -/
def disturbs (key : Nat) (old new : W32) : Bool :=
  (regRows key).any (fun r => decide (r.ty = .rw) && decide (r.busy = .live) && !r.quiet && r.changed old new)

/-- R62, R63: the block's work stops; a core with work discards its calderas. -/
def dropBlock (s : State) (key : Nat) : State :=
  let c := key / 256 - 0x10
  let core := decide (0x10 ≤ key / 256) && decide (key / 256 ≤ 0x13) && s.jobs.any (fun j => touches key j && !j.isDone)
  dropJobs (if core then putCore s c (clearCore (getCore s c)) else s) (touches key)

/-- What a change of a register does to work in progress. -/
def busyEffects (s : State) (key : Nat) (old new : W32) : State :=
  let s := if disturbs key old new then disturbJobs s (touches key) else s
  if drops key old new then dropBlock s key else s

/-! ### What follows a change, block by block -/

/-- Bit `b` falls from 1 to 0. -/
def falls (old new : W32) (b : Nat) : Bool := bitOf old.toNat b && !(bitOf new.toNat b)
/-- Bit `b` rises from 0 to 1. -/
def rises (old new : W32) (b : Nat) : Bool := bitOf new.toNat b && !(bitOf old.toNat b)
/-- Bits [hi:lo] differ. -/
def differs (old new : W32) (hi lo : Nat) : Bool := decide (fieldOf old hi lo ≠ fieldOf new hi lo)

/-- R510: a root register has changed, so the context's cached entries go. -/
def afterMmu (s : State) (i : Nat) : State :=
  if 16 ≤ i ∧ (i - 16) % 6 < 2 then { s with images := s.images.filter (fun c => decide (c.ctx ≠ (i - 16) / 6)) } else s

/-- R623: armed changes start from the mode change; R317: pinning follows the mode; R635: the VDD_CORE target
follows the configured points. -/
def afterClk (s : State) (i : Nat) (old new : W32) : State :=
  if i = 0 then
    let s := if rises old new 0 then
        (List.range 5).foldl (fun s r => let c := getClk s r; putClk s r { c with goAt := if c.armed then s.now else c.goAt, calmSince := s.now }) s
      else s
    repin s
  else if 8 ≤ i ∧ i < 28 ∧ i % 4 = 0 then followTarget s
  else s

/-- R634 to R636. -/
def afterPwr (s : State) (i : Nat) (old new : W32) : State :=
  if i = 5 then followTarget s
  else if i = 6 ∧ rises old new 0 then pmbEnabled s (Config.voutMode (fieldOf new 14 8)).toNat
  else if i = 6 ∧ falls old new 0 then { s with pmb := { s.pmb with sentAt := none } }
  else s

/-- R370, R371: an axis whose new source is unlocked holds its value and sets UNLOCK; the value stays below M. A serial read
under way on the old source does not move it. -/
def axisChanged (s : State) (a : Nat) : State :=
  let s := { s with rtio := { s.rtio with ssiRun := smPut false s.rtio.ssiRun a false } }
  let s := putAxis s a { getAxis s a with value := (getAxis s a).value % axisMod s a }
  let n := axisChannel s a
  if (axisSource s a = 3 ∧ n < 2 ∧ !(flag s (ETH_PTP_STAT_LOCK n))) ∨ (axisSource s a = 4 ∧ n < 2 ∧ !(mainsLocked s n)) then
    setEvent s TTB_EVENT_UNLOCK
  else s

/-- R417: a TOUT or FSYNC ball that is no longer enabled is low when it is enabled again. -/
def outputsChanged (s : State) : State :=
  let f := getF s TTB_OUT_CFG_FSYNC_EN
  { s with rtio := { s.rtio with
      tout := s.rtio.tout &&& BitVec.ofNat 8 (getF s TTB_OUT_CFG_TOUT_EN)
      fsync := s.rtio.fsync.filter (fun p => bitOf f p.1) } }

/-- R400: the next item of a STEP channel only loads it. -/
def stepLoads (s : State) (n : Nat) : State := putStep s n { getStep s n with load := true }

/-- R366, R371, R387, R400, R417. -/
def afterTtb (s : State) (i : Nat) (old new : W32) : State :=
  if i = 0 then
    if rises old new 0 then { s with rtio := { s.rtio with ttEnBase := s.writes } } else s
  else if 16 ≤ i ∧ i < 48 then
    if i % 8 = 0 then (if differs old new 2 0 || differs old new 6 4 then axisChanged s ((i - 16) / 8) else s)
    else if i % 8 = 2 ∨ i % 8 = 3 then
      let a := (i - 16) / 8
      putAxis s a { getAxis s a with value := (getAxis s a).value % axisMod s a }
    else s
  else if i = 52 then outputsChanged s
  else if 56 ≤ i ∧ i < 64 then
    let n := i - 56
    let s := if falls old new 0 then putStep s n { getStep s n with level := false, dir := false } else s
    if rises old new 1 || (bitOf new.toNat 1 && differs old new 6 2) then stepLoads s n else s
  else if 64 ≤ i ∧ i < 72 then (if flag s (TTB_STEP_CFG_BIND (i - 64)) then stepLoads s (i - 64) else s)
  else s

/-- R404: a MAC switched off queues nothing; a MAC that is no slave has LOCK at 0. -/
def afterEth (s : State) (i : Nat) (old new : W32) : State :=
  if i = 0 ∨ i = 16 then
    let m := i / 16
    let s := if falls old new 0 then putMac s m { getMac s m with txq := [] } else s
    if falls old new 0 || falls old new 3 then gptpLockLoss s m else s
  else s

/-- A capture channel switched off: its frame in reception does not land. -/
def afterCap (s : State) (i : Nat) (old new : W32) : State :=
  if i % 8 = 0 ∧ i < 32 ∧ falls old new 0 then
    { s with rtio := { s.rtio with receiving := smPut false s.rtio.receiving (i / 8) false } }
  else s

/-- R552, R556. -/
def afterErr (s : State) (i : Nat) (old new : W32) : State :=
  if i = 0 ∧ rises old new 0 then setF (setF (setF s ERR_RING_PTR_HEAD 0) ERR_RING_PTR_TAIL 0) ERR_RING_PTR_PHASE 1
  else if i = 0 ∧ falls old new 0 then { s with errWait := [] }
  else s

/-- FEED_EN at 0, and a change of a chain's PERIOD, discard live trajectories (R361). -/
def afterPln (s : State) (i : Nat) (old new : W32) : State :=
  if i = 0 ∧ falls old new 1 then (List.range 4).foldl (fun s c => putChain s c (getChain s c).dropLive) s
  else if 8 ≤ i ∧ i < 12 ∧ differs old new 2 0 then putChain s (i - 8) (getChain s (i - 8)).dropLive
  else s

/-- R314, R317, R318. -/
def afterWld (s : State) (i : Nat) (old new : W32) : State :=
  let s := if (i = 0 ∧ differs old new 3 2) ∨ (1 ≤ i ∧ i ≤ 3) then clearWorld s else s
  let s := if (i = 6 ∨ i = 7) ∧ envelopeSize s > 16384 then setEvent s WLD_EVENT_PIN_FULL else s
  repin s

/-- What follows a change of a register. -/
def afterChange (s : State) (key : Nat) (old new : W32) : State :=
  let i := key % 256
  match key / 256 with
  | 0x02 => afterMmu s i
  | 0x03 => afterClk s i old new
  | 0x04 => afterPwr s i old new
  | 0x05 => afterTtb s i old new
  | 0x06 => afterEth s i old new
  | 0x07 => afterCap s i old new
  | 0x09 => afterErr s i old new
  | 0x18 => afterPln s i old new
  | 0x19 => afterWld s i old new
  | _ => s

/-- A register's RW fields take new values (R59 to R62). -/
def changeReg (s : State) (key : Nat) (old new : W32) : State :=
  if new = old then s
  else
    let s := busyEffects s key old new
    let s := if (old ^^^ new) &&& crcMask key = 0 then s else notePass s key
    if isCtxCtl key then
      let k := (key - 288) / 16
      let s := putReg s key (withField new 0 0 (fieldOf old 0 0))
      if rises old new 0 then ctxEnable s k else if falls old new 0 then ctxDisable s k else s
    else afterChange (putReg s key new) key old new

/-! ### AC fields -/

/-- R70, R72: a write of 1 to GLB_SNAP.SNAP. -/
def glbSnap (s : State) : State := if s.snapAt.isSome then s else { s with snapAt := some (s.now + 200) }

/-- R82: a write of 1 to GLB_CFG_CTL.CAPTURE is served by the first pass that starts after it. -/
def cfgCapture (s : State) : State := { s with captureNext := true }

/-- R643: a write to PWR_CTL asks for a warm start 10 µs later. -/
def pwrWarm (s : State) (key : Nat) (warm : Bool) : State :=
  if key = 0x5752 ∧ warm ∧ s.warmAsked = none then { s with warmAsked := some s.now } else s

/-- The first of the listed actions whose bit is written as 1. -/
def firstAct (data : W32) (acts : List (Nat × (State → State))) (s : State) : State :=
  match acts.find? (fun p => bitOf data.toNat p.1) with
  | some p => p.2 s
  | none => s

/-- Each listed action whose bit is written as 1, in order. -/
def eachAct (data : W32) (acts : List (Nat × (State → State))) (s : State) : State :=
  acts.foldl (fun s p => if bitOf data.toNat p.1 then p.2 s else s) s

/-- SEC commands: a write while an operation runs is ignored (R668); WO fields are taken from a plain write only. -/
def secAct (s : State) (i : Nat) (data wo : W32) : State :=
  if i = 1 then
    if secBusy s then secIgnored s
    else if bitOf data.toNat 0 then lcTransition s (fieldOf wo 31 16) (fieldOf wo 3 1) else s
  else if i = 16 then
    let slot := fieldOf wo 1 0
    if secBusy s then secIgnored s
    else keyCmd s (fieldOf wo 31 16)
      (firstAct data [(2, fun s => keyProgram s slot), (3, fun s => keyRead s slot), (4, fun s => keyRevoke s slot)])
  else if i = 21 then
    if secBusy s then secIgnored s
    else if bitOf data.toNat 0 then tokenCheck s else s
  else s

/-- What a write does through a register's AC and WO fields: `data` is what it writes to AC fields, `wo` what it
writes to WO fields. -/
def act (s : State) (key : Nat) (data wo : W32) : State :=
  let i := key % 256
  match key / 256 with
  | 0x00 =>
    if i = 8 then eachAct data [(0, glbSnap)] s
    else if i = 16 then eachAct data [(1, cfgCapture)] s
    else if i = 32 then eachAct data [(0, berthCommit), (1, berthConfirm), (2, berthReturnPrev)] s
    else if i = 42 then eachAct data [(0, xspiGo)] s
    else s
  | 0x01 => if isCtxCtl key then eachAct data [(1, fun s => ctxFlush s ((key - 288) / 16))] s else s
  | 0x02 =>
    if i = 2 then eachAct data [(8, mmuInvalidate)] s
    else if i = 6 then
      let k := getF s MMU_CAST_CMD_CONTEXT
      firstAct data [(5, fun s => castCmd s k true), (4, fun s => castCmd s k false)] s
    else s
  | 0x03 => if 8 ≤ i ∧ i < 28 ∧ i % 4 = 1 then eachAct data [(0, fun s => freqGo s ((i - 8) / 4))] s else s
  | 0x04 =>
    if i = 0 then pwrWarm s (fieldOf wo 31 16) (bitOf wo.toNat 0)
    else if i = 14 then eachAct data [(0, rtcLoad)] s
    else s
  | 0x05 =>
    if i = 12 then eachAct data [(0, ttbEntryWrite), (1, ttbEntryRead)] s
    else if 16 ≤ i ∧ i < 48 ∧ i % 8 = 0 then eachAct data [(3, fun s => loadAxis s ((i - 16) / 8))] s
    else if 48 ≤ i ∧ i < 52 then eachAct data [(4, fun s => chainResume s (i - 48)), (5, fun s => flushChain s (i - 48))] s
    else s
  | 0x06 =>
    if i = 8 ∨ i = 24 then eachAct data [(0, fun s => qbvEntryWrite s (i / 16)), (1, fun s => qbvSwap s (i / 16))] s else s
  | 0x09 => if i = 28 then eachAct data [(0, errInject)] s else s
  | 0x0A => secAct s i data wo
  | 0x10 | 0x11 | 0x12 | 0x13 => if i = 8 then eachAct data [(0, fun s => resInjectArm s (key / 256 - 0x10))] s else s
  | _ => s

/-! ### Sequence-clear registers (R66 to R69) -/

/-- The position an event bit guards clears with it (R141 and the Effect columns of the VALID bits). -/
def afterClear (s : State) (key : Nat) : State :=
  let w := (getReg s key).toNat
  let slot := key / 256
  let c := slot - 0x10
  if 0x10 ≤ slot ∧ slot ≤ 0x13 then
    match key % 256 with
    | 4 => if bitOf w 4 then s else putReg s (CORE_NF_POS_ALL c).key 0
    | 6 => if bitOf w 0 then s else setF (setF s (CORE_RES_POS_VALID c) 0) (CORE_ROW_RES_POS_VALID c) 0
    | 50 => if bitOf w 1 then s else setF s (CORE_POOL_ERR_ADDR_VALID c) 0
    | _ => s
  else if key = BSN_EVENT_SRAM_UE.key then (if bitOf w 1 || bitOf w 3 then s else setF s BSN_ERR_ADDR_HI_VALID 0)
  else if key = PLN_EVENT_STORE_UE.key then (if bitOf w 1 then s else setF s PLN_STORE_ERR_ADDR_VALID 0)
  else s

/-- R68, R69: a plain write whose SEQ is the current one clears the event bits it names. -/
def sqWrite (s : State) (key : Nat) (data : W32) : State :=
  let w := getReg s key
  if fieldOf data 31 24 = fieldOf w 31 24 then afterClear (putReg s key (w &&& ~~~(data &&& 0xFFFFFF))) key else s

/-! ### Writes -/

/-- R669: in VOID a write of GLB_CTL.RUN is ignored. -/
def writable (s : State) (key : Nat) : W32 := if key = GLB_CTL_RUN.key ∧ s.sec.state = 4 then 0 else rwMask key

/-- A write of a register through a view (R51 to R54, R59). -/
def writeKey (s : State) (key view : Nat) (data : W32) : State :=
  if isSq key then (if view = 0 then sqWrite s key data else s)
  else
    let rw := writable s key
    let old := getReg s key
    let s := changeReg s key old ((old &&& ~~~rw) ||| (viewResult view old data &&& rw))
    let s := if key = ETH_TPL_DATA_DATA.key then templateStore s else s
    act s key (if view ≤ 1 then data &&& acMask key else 0) (if view = 0 then data else 0)

/-- A write through BAR0 (R42 to R48). -/
def bar0Write (s : State) (off : BitVec 24) (be : BitVec 4) (data : W32) : State :=
  if be ≠ 0xF ∨ bitsOf off.toNat 1 0 ≠ 0 then badAccess s
  else match bar0Key off with
    | some key => writeKey s key (bar0View off) data
    | none => s

/-- A write of a bit word in BAR4 (R57): a set or a clear of the one bit. -/
def bar4Write (s : State) (off : BitVec 20) (be : BitVec 4) (data : W32) : State :=
  if be ≠ 0xF ∨ bitsOf off.toNat 1 0 ≠ 0 then badAccess s
  else match bar4Key off with
    | some key => writeKey s key (if bitOf data.toNat 0 then 1 else 2) (BitVec.ofNat 32 (2 ^ bar4Bit off))
    | none => s

/-! ### Reads (R48, R718) -/

/-- R718: a read of a low half latches the high half. -/
def latchHigh (s : State) (key : Nat) : State :=
  if key = GLB_TICK_LO_TICK.key then putReg s GLB_TICK_HI_TICK.key (BitVec.ofNat 32 (glbTick s / 2 ^ 32))
  else if key = PWR_RTC_LO_COUNT.key then setF s PWR_RTC_HI_COUNT (s.backup.rtc / 2 ^ 32)
  else match (List.range 4).find? (fun a => decide (key = (TTB_AX_POS_LO_VALUE a).key)) with
    | some a => putReg s (TTB_AX_POS_HI_VALUE a).key (BitVec.ofNat 32 ((getAxis s a).value / 2 ^ 32))
    | none => match (List.range 2).find? (fun m => decide (key = (ETH_PTP_LO_NS m).key)) with
      | some m => putReg s (ETH_PTP_HI_NS m).key (BitVec.ofNat 32 ((getMac s m).gptp / 2 ^ 32))
      | none => s

/-- A read of a register: its value, and what it latches latched. -/
def readKey (s : State) (key : Nat) : W32 × State := (readReg s key, latchHigh s key)

/-- A read through BAR0; a slot or an index that is not listed reads zero (R43, R45). -/
def bar0Read (s : State) (off : BitVec 24) : W32 × State :=
  match bar0Key off with
  | some key => readKey s key
  | none => (0, s)

/-- A read through BAR4 (R56, R58): the addressed bit in bit 0; it counts as a read of the whole register. -/
def bar4Read (s : State) (off : BitVec 20) : W32 × State :=
  match bar4Key off with
  | some key => let (v, s) := readKey s key; (BitVec.ofNat 32 (b2n (bitOf v.toNat (bar4Bit off))), s)
  | none => (0, s)

/-! ### The stall timeout (R75, R76) -/

/-- What the ended access leaves where its answer is read: a host read returns all ones; a REGACC access has DONE and TIMEOUT
set, and all ones for a read (R75, R680, R681). -/
def timedOut (s : State) (off : BitVec 24) (kind : AccessKind) : State :=
  if kind.tap then
    let data := if kind.write then s.jtag.dr.toNat / 2 ^ 32 else 0xFFFFFFFF
    { s with jtag := { s.jtag with dr := BitVec.ofNat 64 (off.toNat + 2 ^ 24 * b2n kind.write + 3 * 2 ^ 25 + 2 ^ 32 * data) } }
  else if kind.write then s
  else { s with out := { s.out with rdata := 0xFFFFFFFF } }

/-- An access that has not completed for 50 µs is ended, with the three records of R76, unless it waits for a region in
SHORT_STOP (R628). -/
def regTimeout (s : State) (off : BitVec 24) (kind : AccessKind) : State :=
  if inStopped s (bitsOf off.toNat 23 16 * 256) then s else
  let s := setF (setF s GLB_TIMEOUT_ADDR_OFFSET off.toNat) GLB_TIMEOUT_ADDR_WRITE (b2n kind.write)
  let s := setEvent (incF s GLB_CNT_TIMEOUT_COUNT) GLB_EVENT_REG_TIMEOUT
  let s := timedOut s off kind
  (reportPlain s ⟨11, 0, 6, (getReg s GLB_TIMEOUT_ADDR_OFFSET.key).toNat, none, none⟩ 0).2

/-! ### Snapshot (R70 to R73) -/

/-- One run of counters copied into its holding registers. -/
def copyRun (s : State) (p : Nat × Nat × Nat × Nat) : State :=
  (List.range p.2.2.2).foldl (fun s n => putReg s (regKey p.1 (p.2.2.1 + n)) (getReg s (regKey p.1 (p.2.1 + n)))) s

/-- SNAPSHOT_COPY, at its tick or after it. -/
def snapshotCopy (s : State) : State :=
  match s.snapAt with
  | none => s
  | some t =>
    if s.now < t then s
    else
      let s := snapCopies.foldl copyRun { s with snapAt := none }
      let s := putReg s GLB_SNAP_TICK_LO_TICK.key (BitVec.ofNat 32 (glbTick s))
      let s := putReg s GLB_SNAP_TICK_HI_TICK.key (BitVec.ofNat 32 (glbTick s / 2 ^ 32))
      setEvent (incF s GLB_SNAP_COUNT_COUNT) GLB_EVENT_SNAP_DONE

/-- SNAPSHOT_COPY. -/
def execSnapshotCopy (s : State) : Answer := whenReady s snapshotCopy

/-! ### Configuration drift (R78 to R82) -/

/-- The configuration bits of a register as the pass that ends read them. -/
def passWord (s : State) (key : Nat) : W32 :=
  match s.passOld.find? (fun p => decide (p.1 = key)) with
  | some p => p.2
  | none => getReg s key &&& crcMask key

/-- R79: the pass's CRC-32C, over the listed slots, their indices, and the four bytes of each register. -/
def passCrc (s : State) : W32 :=
  ~~~(allSlots.foldl (fun c slot => (List.range (2 ^ slotBits slot)).foldl (fun c i =>
    (natLE 4 (passWord s (regKey slot i)).toNat).foldl crcByte c) c) (0xFFFFFFFF : W32))

/-- R549: the jobs a CFG_DRIFT error fails. -/
def driftFails (j : Job) : Bool :=
  j.isHeld && !j.desc.body.isNop && !j.desc.body.isFence && !j.desc.body.isWait

/-- R81, R548, R549: drift is recorded, and with DRIFT_FAIL the started jobs fail. -/
def cfgDrift (s : State) : State :=
  let fail := flag s ERR_CTL_DRIFT_FAIL
  let s := setEvent (incF s GLB_CNT_DRIFT_COUNT) GLB_EVENT_CFG_DRIFT
  let cls := if fail then 1 else 0
  let (seq, s) := reportPlain s ⟨9, cls, 6, (getReg s GLB_CFG_CRC_CRC.key).toNat, none, none⟩ cls
  if fail then s.jobs.foldl (fun s j => if driftFails j then endJob s j.ctx j.sub 10 none seq else s) s else s

/-- CFG_CRC_PASS_END (R80 to R82): the result is stored; the captures it serves load GLB_CFG_REF; the next pass
begins. -/
def cfgPassEnd (s : State) : State :=
  let crc := passCrc s
  let hold := s.captureNow || s.captureNext
  let ref := getReg s GLB_CFG_REF_REF.key
  let check := flag s GLB_CFG_CTL_CHECK
  let s := putReg s GLB_CFG_CRC_CRC.key crc
  let s := if s.captureNow then putReg s GLB_CFG_REF_REF.key crc else s
  let s := { s with captureNow := s.captureNext, captureNext := false, passStart := s.now, passOld := [] }
  if check ∧ !hold ∧ crc ≠ ref then cfgDrift s else s

/-- CFG_CRC_PASS_END. -/
def execCfgCrcPassEnd (s : State) : Answer := whenReady s cfgPassEnd

/-! ### MSI-X (R462) -/

/-- Bits of an MSI-X table word that hold: the low address bits and the reserved control bits read zero
(PRESUMED: PCI Express). -/
def msixBits (i : Nat) : W32 := if i % 4 = 0 then 0xFFFFFFFC else if i % 4 = 3 then 1 else 0xFFFFFFFF

/-- The byte lanes of a write, as a mask. -/
def laneMask (be : BitVec 4) : W32 :=
  BitVec.ofNat 32 ((List.range 4).foldl (fun a i => if be.getLsbD i then a + 255 * 256 ^ i else a) 0)

/-- A write of word `i` of the MSI-X table. An unmask sends what is pending. -/
def msixTableWrite (s : State) (i : Nat) (be : BitVec 4) (data : W32) : State :=
  let m := laneMask be &&& msixBits i
  flushMsix { s with msixTable := smPut (msixReset i) s.msixTable i ((msixWord s i &&& ~~~m) ||| (data &&& m)) }

/-! ### BAR2 (R422, R423, R430) -/

/-- The byte enables of a write whose offset is not a multiple of 4: it lacks the lower bytes of its word. -/
def laneEnables (off : Nat) (be : BitVec 4) : BitVec 4 := be &&& (0xF <<< (off % 4))

/-- A write of BAR2: TAIL or HEAD of a doorbell page, or a word of the MSI-X table; elsewhere it is ignored. -/
def bar2Write (s : State) (off : Nat) (be : BitVec 4) (data : W32) : State :=
  let be := laneEnables off be
  if off < 0x8000 then
    match off % 0x1000 / 4 with
    | 0 => tailWrite s (off / 0x1000) be data
    | 1 => headWrite s (off / 0x1000) be data
    | _ => s
  else if off < 0x8400 then msixTableWrite s ((off - 0x8000) / 4) be data
  else s

/-- A word of the MSI-X pending-bit array. -/
def pendingWord (s : State) (i : Nat) : W32 := BitVec.ofNat 32 (bitmap 32 (fun b => s.msixPending.contains (32 * i + b)))

/-- A read of BAR2: the MSI-X table at 0x8000 to 0x83FF and its pending bits at 0x9000 to 0x9007; all else reads zero, the
doorbell pages too. -/
def bar2Read (s : State) (off : Nat) : W32 :=
  if 0x8000 ≤ off ∧ off < 0x8400 then msixWord s ((off - 0x8000) / 4)
  else if 0x9000 ≤ off ∧ off < 0x9008 then pendingWord s ((off - 0x9000) / 4)
  else 0

end Sys2Proof.Machine
end

