-- ==== Sys2Proof/Machine/Tap.lean ====
section
/-! DEFINITION. The TAP (R679 to R682). What the boundary register drives is the board's: the model keeps the
instruction and the data register it selects. -/

namespace Sys2Proof.Machine

/-- The instruction is allowed by the life-cycle state and HOST_LOCK (R679, R680). -/
def tapAllows (s : State) (code : Nat) : Bool :=
  if code = 0x01 ∨ code = 0xFF then true
  else if s.sec.state = 4 then false
  else if code = 0x20 then debugOpen s && !(flag s DBG_CTL_HOST_LOCK)
  else if code = 0x21 then debugOpen s
  else true

/-- What the selected data register captures: the IDCODE, or the zero of BYPASS (PRESUMED: IEEE 1149.1). -/
def tapCapture (code : Nat) (dr : W64) : W64 :=
  if code = 0x01 then 0x0A164E3F else if code = 0xFF then 0 else dr

/-- Load an instruction the device has; one that is not allowed acts as BYPASS and is recorded (R679). -/
def tapLoad (s : State) (code : Nat) : State :=
  let ok := tapAllows s code
  let c := if ok then code else 0xFF
  let s := { newCycle s with jtag := ⟨BitVec.ofNat 8 c, tapCapture c s.jtag.dr, true⟩ }
  if !ok && isReady s then setEvent s DBG_EVENT_JTAG_DENIED else s

/-- JTAG_EXTEST. -/
def execJtagExtest (s : State) : Answer := keep s (tapLoad s 0x00)
/-- JTAG_IDCODE. -/
def execJtagIdcode (s : State) : Answer := keep s (tapLoad s 0x01)
/-- JTAG_SAMPLE_PRELOAD. -/
def execJtagSamplePreload (s : State) : Answer := keep s (tapLoad s 0x02)
/-- JTAG_CLAMP. -/
def execJtagClamp (s : State) : Answer := keep s (tapLoad s 0x03)
/-- JTAG_HIGHZ. -/
def execJtagHighz (s : State) : Answer := keep s (tapLoad s 0x04)

/-- JTAG_BYPASS: an instruction shifted in; one that R679 lists is itself, any other acts as BYPASS. -/
def tapShift (s : State) (code : Nat) : State :=
  tapLoad s (if code ≤ 4 ∨ code = 0x20 ∨ code = 0x21 then code else 0xFF)

/-- JTAG_BYPASS. -/
def execJtagBypass (code : BitVec 8) (s : State) : Answer := keep s (tapShift s code.toNat)

/-- JTAG_SCANDUMP (R682): the device stops and its state leaves on TDO. -/
def tapScan (s : State) : State :=
  let s := tapLoad s 0x21
  if s.jtag.ir = 0x21 then
    { s with phase := .scanned, out := { s.out with tdo := (List.range Config.scanLength).map Config.scanBit } }
  else s

/-- JTAG_SCANDUMP. -/
def execJtagScandump (s : State) : Answer := whenReady s tapScan

/-- TAP_RESET: Test-Logic-Reset selects IDCODE (PRESUMED: IEEE 1149.1) and clears TAP_ACTIVE. -/
def execTapReset (s : State) : Answer := keep s { s with jtag := ⟨0x01, 0x0A164E3F, false⟩ }

end Sys2Proof.Machine
end

