-- ==== Sys2Proof/Machine/Access.lean ====
section
/-! DEFINITION. The register path (R49, R50, R424, R628): every command that is an access to BAR0, BAR2 or BAR4, or one of
REGACC. Accesses are performed one at a time, in the order they arrive in; one into a region in SHORT_STOP waits until the
region restarts, and those after it wait behind it. -/

namespace Sys2Proof.Machine

/-! ### Where an access goes -/

/-- The block slot an access reaches; BAR2 belongs to HIF. -/
def Access.slot : Access → Nat
  | .write 0 off .. | .read 0 off _ => bitsOf off 23 16
  | .write 4 off .. | .read 4 off _ => bitsOf off 19 15
  | .regacc dr => bitsOf dr.toNat 23 16
  | _ => 1

/-- The access waits for a region in SHORT_STOP (R628). -/
def Access.stalls (a : Access) (s : State) : Bool := inStopped s (256 * a.slot)

/-! ### Performing an access -/

/-- A read of a BAR: its value, and what it latches latched. -/
def barRead (s : State) (bar off : Nat) : W32 × State :=
  match bar with
  | 0 => bar0Read s (BitVec.ofNat 24 off)
  | 4 => bar4Read s (BitVec.ofNat 20 off)
  | _ => (bar2Read s off, s)

/-- A write of a BAR. -/
def barWrite (s : State) (bar off : Nat) (be : BitVec 4) (data : W32) : State :=
  match bar with
  | 0 => bar0Write s (BitVec.ofNat 24 off) be data
  | 4 => bar4Write s (BitVec.ofNat 20 off) be data
  | _ => bar2Write s off be data

/-- The access of an Update-DR under REGACC, counted: a write with all byte enables, or a read, after which Capture-DR returns
the data with DONE set (R680, R681). -/
def regaccPerform (s : State) (dr : W64) : State :=
  let off : BitVec 24 := dr.truncate 24
  let data : W32 := BitVec.ofNat 32 (dr.toNat / 2 ^ 32)
  let (v, s) := if dr.getLsbD 24 then (data, bar0Write s off 0xF data) else bar0Read s off
  let s := incF s DBG_REGACC_COUNT
  { s with jtag := { s.jtag with dr := BitVec.ofNat 64 (dr.toNat % 2 ^ 25 + 2 ^ 25 + 2 ^ 32 * v.toNat) } }

/-- The access takes place. -/
def perform (a : Access) (s : State) : State :=
  match a with
  | .write bar off be data => barWrite s bar off be data
  | .read bar off high =>
    let (v, s) := barRead s bar off
    if high then { s with out := { s.out with rdataHi := v } } else { s with out := { s.out with rdata := v } }
  | .regacc dr => regaccPerform s dr

/-- The access passes from HOST into the region it reaches (R24) and has its effect. -/
def enter (s : State) (a : Access) (act : State → State) : State :=
  let r := slotRegion a.slot
  if r = 6 then act s else crossing s 6 r act

/-- An access whose effect is `act` arrives: it is performed, or waits in its turn (R50, R628). -/
def arrive (s : State) (a : Access) (act : State → State) : State :=
  if !s.accessQ.isEmpty || a.stalls s then { s with accessQ := s.accessQ ++ [a] } else enter s a act

/-- R49: an access of 32 bits, or two of the halves of one of 64 bits, the lower address first. -/
def arriveAll (s : State) (l : List Access) : State := l.foldl (fun s a => arrive (newCycle s) a (perform a)) s

/-- The accesses that waited are performed, up to one that still waits. -/
def drainAccesses : Nat → State → State
  | 0, s => s
  | n + 1, s =>
    match s.accessQ with
    | [] => s
    | a :: rest =>
      if a.stalls s || !(isReady s) then s
      else drainAccesses n (enter (newCycle { s with accessQ := rest }) a (perform a))

/-! ### Accesses to any register -/

/-- The accesses of a host write, of 32 or 64 bits. -/
def hostWrites (bar off : Nat) (be : BitVec 4) (data : HostData) : List Access :=
  .write bar off be data.low :: (data.upper.map (fun u => Access.write bar (off + 4) u.1 u.2)).toList

/-- The accesses of a host read, of 32 or 64 bits; the three BARs are BAR0, BAR2 and BAR4. -/
def hostReads (r : HostRead) : List Access :=
  let bar := 2 * r.bar.val
  .read bar r.off.toNat false :: (if r.wide then [.read bar (r.off.toNat + 4) true] else [])

/-- The BAR0 offset of a register in a view. -/
def regOff (key view : Nat) : Nat := key / 256 * 65536 + view * 4096 + key % 256 * 4

/-- REGISTER_WRITE. -/
def execRegisterWrite (off : BitVec 24) (be : BitVec 4) (data : HostData) (s : State) : Answer :=
  whenReadyMem s (fun s => arriveAll s (hostWrites 0 off.toNat be data))

/-- BIT_ALIAS_WRITE. -/
def execBitAliasWrite (off : BitVec 20) (be : BitVec 4) (data : HostData) (s : State) : Answer :=
  whenReadyMem s (fun s => arriveAll s (hostWrites 4 off.toNat be data))

/-- SQ_CLEAR_WRITE: a write that reaches a sequence-clear register. -/
def execSqClearWrite (off : BitVec 24) (be : BitVec 4) (data : HostData) (s : State) : Answer :=
  whenReadyMem s (fun s => arriveAll s (hostWrites 0 off.toNat be data))

/-- A host read. -/
def readArrives (r : HostRead) (s : State) : State := arriveAll s (hostReads r)

/-- A read of a register of BAR0. -/
def plainRead (key : Nat) : HostRead := ⟨0, BitVec.ofNat 24 (regOff key 0), false⟩

/-- GLB_TICK_LO_READ. -/
def execGlbTickLoRead (s : State) : Answer := whenReadyMem s (readArrives (plainRead GLB_TICK_LO_TICK.key))
/-- TTB_AX_POS_LO_READ: the read of an axis's position at its offset in a BAR, or of what else stands at another (log entry
114). -/
def execTtbAxPosLoRead (at_ : HostRead) (s : State) : Answer := whenReadyMem s (readArrives at_)
/-- ETH_PTP_LO_READ, at an offset in a BAR (log entry 114). -/
def execEthPtpLoRead (at_ : HostRead) (s : State) : Answer := whenReadyMem s (readArrives at_)
/-- PWR_RTC_LO_READ. -/
def execPwrRtcLoRead (s : State) : Answer := whenReadyMem s (readArrives (plainRead PWR_RTC_LO_COUNT.key))

/-- REG_TIMEOUT. -/
def execRegTimeout (off : BitVec 24) (kind : AccessKind) (s : State) : Answer := whenReady s (fun s => regTimeout s off kind)

/-- MSIX_TABLE_WRITE: a write of BAR2. -/
def execMsixTableWrite (off : BitVec 16) (be : BitVec 4) (data : W32) (s : State) : Answer :=
  whenReady s (fun s => arrive s (.write 2 off.toNat be data) (fun s => bar2Write s off.toNat be data))

/-- TAIL_DOORBELL: a write of offset 0x000 of a doorbell page. -/
def execTailDoorbell (k : Fin 8) (be : BitVec 4) (data : W32) (s : State) : Answer :=
  whenReady s (fun s => arrive s (.write 2 (0x1000 * k.val) be data) (fun s => tailWrite s k be data))

/-- HEAD_DOORBELL: a write of offset 0x004 of a doorbell page. -/
def execHeadDoorbell (k : Fin 8) (be : BitVec 4) (data : W32) (s : State) : Answer :=
  whenReady s (fun s => arrive s (.write 2 (0x1000 * k.val + 4) be data) (fun s => headWrite s k be data))

/-- JTAG_REGACC: the instruction, and the access of its Update-DR in the single sequence of R50. -/
def execJtagRegacc (dr : BitVec 64) (s : State) : Answer :=
  whenReadyMem s (fun s =>
    let s := tapLoad s 0x20
    if s.jtag.ir ≠ 0x20 then s
    else arrive { s with jtag := { s.jtag with dr := BitVec.ofNat 64 (dr.toNat % 2 ^ 25) } } (.regacc dr) (fun s => regaccPerform s dr))

/-- SHORT_STOP_END: the region restarts, and the accesses that waited for it are performed. -/
def execShortStopEnd (r : Fin 5) (s : State) : Answer :=
  whenReadyMem s (fun s => let t := shortStopEnd s r; drainAccesses t.accessQ.length t)

/-! ### Accesses with a row of their own

Each acts as a write of its register: of its AC bit through the set view, or a plain write where WO or RW fields go with it. -/

/-- A write of 1 to bits of a register through the set view. -/
def setBits (key mask : Nat) : Access := .write 0 (regOff key 1) 0xF (BitVec.ofNat 32 mask)

/-- A plain write of a register. -/
def plainWrite (key data : Nat) : Access := .write 0 (regOff key 0) 0xF (BitVec.ofNat 32 data)

/-- RES_INJECT_ARM. -/
def execResInjectArm (c : Fin 4) (s : State) : Answer :=
  whenReady s (fun s => arrive s (setBits (256 * (0x10 + c.val) + 8) 1) (fun s => resInjectArm s c))

/-- GLB_SNAP. -/
def execGlbSnap (s : State) : Answer := whenReady s (fun s => arrive s (setBits 0x008 1) glbSnap)

/-- CFG_CAPTURE. -/
def execCfgCapture (s : State) : Answer := whenReady s (fun s => arrive s (setBits 0x010 2) cfgCapture)

/-- BERTH_COMMIT. -/
def execBerthCommit (s : State) : Answer := whenReady s (fun s => arrive s (setBits 0x020 1) berthCommit)

/-- BERTH_CONFIRM. -/
def execBerthConfirm (s : State) : Answer := whenReady s (fun s => arrive s (setBits 0x020 2) berthConfirm)

/-- BERTH_RETURN_PREV. -/
def execBerthReturnPrev (s : State) : Answer := whenReady s (fun s => arrive s (setBits 0x020 4) berthReturnPrev)

/-- A write of GLB_XSPI_CMD with GO and an OP. -/
def xspiWrite (op : Nat) (s : State) : State :=
  arrive s (plainWrite 0x02A (1 + 2 * op)) (fun s => xspiGo (setF s GLB_XSPI_CMD_OP op))

/-- XSPI_READ_WORD. -/
def execXspiReadWord (s : State) : Answer := whenReady s (xspiWrite 0)
/-- XSPI_PROGRAM_WORD. -/
def execXspiProgramWord (s : State) : Answer := whenReady s (xspiWrite 1)
/-- XSPI_ERASE. -/
def execXspiErase (s : State) : Answer := whenReady s (xspiWrite 2)

/-- HIF_CTX_FLUSH. -/
def execHifCtxFlush (k : Fin 8) (s : State) : Answer :=
  whenReady s (fun s => arrive s (setBits (HIF_CTX_CTL_EN k).key 2) (fun s => ctxFlush s k))

/-- HIF_CTX_ENABLE. -/
def execHifCtxEnable (k : Fin 8) (s : State) : Answer :=
  whenReady s (fun s => arrive s (setBits (HIF_CTX_CTL_EN k).key 1) (fun s => ctxEnable s k))

/-- HIF_CTX_DISABLE: a write of 1 to EN through the clear view. -/
def execHifCtxDisable (k : Fin 8) (s : State) : Answer :=
  whenReady s (fun s => arrive s (.write 0 (regOff (HIF_CTX_CTL_EN k).key 2) 0xF 1) (fun s => ctxDisable s k))

/-- MMU_INVALIDATE. -/
def execMmuInvalidate (s : State) : Answer := whenReady s (fun s => arrive s (setBits 0x202 0x100) mmuInvalidate)

/-- MMU_ROOT_WRITE. -/
def execMmuRootWrite (k : Fin 8) (high : Bool) (data : W32) (s : State) : Answer :=
  whenReady s (fun s => arrive s (plainWrite (if high then (MMU_CTX_ROOT_HI_ADDR k).key else (MMU_CTX_ROOT_LO_ADDR k).key) data.toNat)
    (fun s => mmuRootWrite s k high data))

/-- A write of MMU_CAST_CMD that names context `k`. -/
def castWrite (k : Nat) (abort : Bool) (s : State) : State :=
  arrive s (plainWrite MMU_CAST_CMD_CONTEXT.key (k + (if abort then 0x20 else 0x10)))
    (fun s => castCmd (setF s MMU_CAST_CMD_CONTEXT k) k abort)

/-- CAST_RETRY. -/
def execCastRetry (k : Fin 8) (s : State) : Answer := whenReadyMem s (castWrite k false)
/-- CAST_ABORT. -/
def execCastAbort (k : Fin 8) (s : State) : Answer := whenReadyMem s (castWrite k true)

/-- ERR_INJECT. -/
def execErrInject (s : State) : Answer := whenReady s (fun s => arrive s (setBits 0x91C 1) errInject)

/-- AXIS_SET. -/
def execAxisSet (a : Fin 4) (s : State) : Answer :=
  whenReady s (fun s => arrive s (setBits (0x510 + 8 * a.val) 8) (fun s => loadAxis s a))

/-- TTB_ENTRY_WRITE. -/
def execTtbEntryWrite (s : State) : Answer := whenReady s (fun s => arrive s (setBits 0x50C 1) ttbEntryWrite)
/-- TTB_ENTRY_READ. -/
def execTtbEntryRead (s : State) : Answer := whenReady s (fun s => arrive s (setBits 0x50C 2) ttbEntryRead)

/-- CHAIN_RESUME. -/
def execChainResume (c : Fin 4) (s : State) : Answer :=
  whenReady s (fun s => arrive s (setBits (0x530 + c.val) 0x10) (fun s => chainResume s c))
/-- CHAIN_FLUSH (R398): the flush without hold. -/
def execChainFlush (c : Fin 4) (s : State) : Answer :=
  whenReady s (fun s => arrive s (setBits (0x530 + c.val) 0x20) (fun s => flushChain s c))

/-- QBV_ENTRY_WRITE. -/
def execQbvEntryWrite (m : Fin 2) (s : State) : Answer :=
  whenReady s (fun s => arrive s (setBits (0x608 + 16 * m.val) 1) (fun s => qbvEntryWrite s m))
/-- QBV_SWAP. -/
def execQbvSwap (m : Fin 2) (s : State) : Answer :=
  whenReady s (fun s => arrive s (setBits (0x608 + 16 * m.val) 2) (fun s => qbvSwap s m))

/-- TEMPLATE_WORD_WRITE. -/
def execTemplateWordWrite (data : W32) (s : State) : Answer :=
  whenReady s (fun s => arrive s (plainWrite ETH_TPL_DATA_DATA.key data.toNat) (fun s => templateStore (putReg s ETH_TPL_DATA_DATA.key data)))

/-- FREQ_CHANGE_GO. -/
def execFreqChangeGo (r : Fin 5) (s : State) : Answer :=
  whenReady s (fun s => arrive s (setBits (0x309 + 4 * r.val) 1) (fun s => freqGo s r))

/-- PMB_ENABLE. Where the write has to wait, the regulator answers what it answers to a plain write of EN. -/
def execPmbEnable (addr : BitVec 7) (voutMode : BitVec 8) (s : State) : Answer :=
  whenReady s (fun s => arrive s (plainWrite PWR_PMB_CFG_EN.key (1 + 256 * addr.toNat)) (fun s => pmbEnable s addr.toNat voutMode.toNat))

/-- RTC_LOAD. -/
def execRtcLoad (s : State) : Answer := whenReady s (fun s => arrive s (setBits 0x40E 1) rtcLoad)

/-- PWR_CTL_WARM: a plain write to PWR_CTL with WARM at 1. -/
def execPwrCtlWarm (key : BitVec 16) (s : State) : Answer :=
  whenReady s (fun s => arrive s (plainWrite 0x400 (1 + 65536 * key.toNat)) (fun s => pwrWarm s key.toNat true))

/-- LC_TRANSITION. -/
def execLcTransition (key : BitVec 16) (target : Fin 8) (s : State) : Answer :=
  whenReady s (fun s => arrive s (plainWrite 0xA01 (1 + 2 * target.val + 65536 * key.toNat)) (fun s => lcTransition s key.toNat target))

/-- A plain write of SEC_KEY_CMD with the bit of one command. -/
def keyWrite (key : BitVec 16) (slot : Fin 4) (b : Nat) (run : State → Nat → State) (s : State) : State :=
  arrive s (plainWrite 0xA10 (slot.val + 2 ^ b + 65536 * key.toNat)) (fun s => keyCmd s key.toNat (fun s => run s slot))

/-- KEY_PROGRAM. -/
def execKeyProgram (key : BitVec 16) (slot : Fin 4) (s : State) : Answer := whenReady s (keyWrite key slot 2 keyProgram)
/-- KEY_READ. -/
def execKeyRead (key : BitVec 16) (slot : Fin 4) (s : State) : Answer := whenReady s (keyWrite key slot 3 keyRead)
/-- KEY_REVOKE. -/
def execKeyRevoke (key : BitVec 16) (slot : Fin 4) (s : State) : Answer := whenReady s (keyWrite key slot 4 keyRevoke)

/-- TOKEN_CHECK. -/
def execTokenCheck (s : State) : Answer := whenReady s (fun s => arrive s (setBits 0xA15 1) tokenCheck)

end Sys2Proof.Machine
end

