-- ==== Sys2Proof/Machine/Starts.lean ====
section
/-! DEFINITION. Cold and warm starts, their triggers and the backup domain's supply (R631, R632, R639 to
R663, R676, R709). A start is two commands: the trigger, after which nothing else acts, and COLD_START or
WARM_START, which carries out its steps and declares ready. -/

namespace Sys2Proof.Machine

/-! ### Triggers -/

/-- PORST_N_RISE (R639): a cold start begins, by the fall of a main rail when that put the device into reset. -/
def porstRise (s : State) : State :=
  let cause := match s.phase with
    | .inReset true => 2
    | _ => 1
  beginStart { s with backup := { s.backup with mainOn := true } } false cause

/-- PORST_N_RISE. -/
def execPorstNRise (s : State) : Answer := keep s (porstRise s)

/-- PORST_N_FALL: reset, and the end of any start in progress. -/
def porstFall (s : State) : State :=
  match s.phase with
  | .inReset _ => s
  | _ => enterReset s false

/-- PORST_N_FALL. -/
def execPorstNFall (s : State) : Answer := keep s (porstFall s)

/-- BROWNOUT (R632, R653): a main rail is below tolerance; the device goes into reset and the backup domain draws
from VBAT. -/
def brownout (s : State) : State :=
  let t := match s.phase with
    | .inReset _ => s
    | _ => enterReset s true
  { t with backup := { t.backup with mainOn := false } }

/-- BROWNOUT. -/
def execBrownout (s : State) : Answer := keep s (brownout s)

/-- WRST_N_RISE (R640): the rising edge after a recognised low; ignored from the beginning of a start to ready. -/
def wrstRise (s : State) (lowNs : Nat) : State :=
  if isReady s ∧ lowNs ≥ 900 + Config.wrstNs.val then beginStart s true (2 ^ 3) else s

/-- WRST_N_RISE. -/
def execWrstNRise (lowNs : Nat) (s : State) : Answer := keep s (wrstRise s lowNs)

/-- R643: the warm start of a PWR_CTL write begins 10 µs after it. -/
def softWarmTick (s : State) : State :=
  match s.warmAsked with
  | some t => if isReady s ∧ s.now ≥ t + 900 + Config.softWarm.val then beginStart s true (2 ^ 5) else s
  | none => s

/-! ### What both starts reset -/

/-- The device with every region but AON reset and every register at its reset value (R650, R14). Kept: the
queue, time, memory outside the SRAMs, the fuses and the latched state, the backup domain, the berths,
what was sent outside, and the level of HOLD_N. -/
def resetAll (s : State) : State :=
  { State.reset with
    pending := s.pending, now := s.now, readyAt := s.now, passStart := s.now
    regs := [], mem := s.mem, host := s.host, poison := s.poison, latent := s.latent
    sec := { s.sec with op := none, tokenBusy := false, opFromToken := false }
    backup := s.backup, flash := { s.flash with xspiOp := none }
    rtio := { Rtio.reset with holdLow := s.rtio.holdLow }
    out := { s.out with alertLow := false } }

/-- Every SRAM zero-filled with valid check bits (R645, R649): memory outside HBM. -/
def zeroSrams (s : State) : State :=
  { s with
    mem := s.mem.filter (fun p => decide (memKind p.1 = some .hbm))
    poison := s.poison.filter (fun g => decide (memKind g = some .hbm))
    latent := s.latent.filter (fun p => decide (memKind p.1 = some .hbm)) }

/-- The status registers both starts set: locked generators, the cause, the time taken and PWR_STAT (R606, R644,
R657); PWR_RTC_HI is retained. -/
def startStatus (s old : State) (warm : Bool) (valid : Bool) (cause stepFail us prev : Nat) : State :=
  let s := setF s CLK_STAT_LOCKED 0x1FF
  let s := putReg s PWR_RESET_CAUSE_PORST.key (BitVec.ofNat 32 cause)
  let s := setF (setF (setF s PWR_STAT_BACKUP (b2n valid)) PWR_STAT_WARM (b2n warm)) PWR_STAT_STEP_FAIL stepFail
  let s := setF (setF s PWR_START_TIME_US us) PWR_PREV_SUMMARY_SUMMARY prev
  setF s PWR_RTC_HI_COUNT (getF old PWR_RTC_HI_COUNT)

/-! ### The load area and the script -/

/-- Base of the load area (R646). -/
def loadBase : Nat := 0x07FC000000

/-- The bytes the load area holds of the berth's content. -/
def loadArea (s : State) : List Byte := rawRead s loadBase s.flash.loaded

/-- The berth's configuration script, executed from the load area (R645 step 7, R649 step 6). -/
def runScript (s : State) : State :=
  let l := loadArea s
  let listed := ((List.range l.length).zip l).filter (fun p => decide (p.2 ≠ 0xFF))
  (Config.berthScript listed).foldl (fun s w => bar0Write (newCycle s) w.1 0xF w.2) s

/-! ### The loader (R84 to R86, R470, R669, R714) -/

/-- The loader accepts the berth. -/
def loadable (s : State) (b : Nat) : Bool :=
  let needs := Config.berthNeeds (berthBytes s b)
  Config.sfdpOk && decide (berthCheck s b = 1) && decide (needs.1 ≤ 0x1800000) && decide (needs.2 ≤ 1024)

/-- A berth's version, zero while its header CRC fails. -/
def versionOf (s : State) (b : Nat) : W32 :=
  if Config.berthHeaderOk (berthBytes s b) then Config.berthVersion (berthBytes s b) else 0

/-- R84, R85: the choice with no decision to follow: the berth loaded, the previous one and whether on trial. -/
def chooseBerth (s : State) : Nat × Nat × Bool :=
  let pick (b : Nat) := (b, 3 - b, !(confirmed s b))
  match loadable s 1, loadable s 2 with
  | false, false => (0, 0, false)
  | true, false => pick 1
  | false, true => pick 2
  | true, true =>
    if confirmed s 1 ≠ confirmed s 2 then pick (if confirmed s 1 then 1 else 2)
    else pick (if (versionOf s 2).toNat > (versionOf s 1).toNat then 2 else 1)

/-- R84, R86: the berth a cold start loads. A valid backup that names no berth is as a lost one; a berth that
fails gives way to the other, which is on trial when it holds no confirmation record. -/
def pickBerth (s : State) (valid : Bool) : Nat × Nat × Bool :=
  let d := decision s
  if !valid ∨ d.1 = 0 ∨ d.1 = 3 then chooseBerth s
  else if loadable s d.1 then d
  else
    let other := 3 - d.1
    if loadable s other then (other, d.1, !(confirmed s other)) else (0, 0, false)

/-- Step 6: the berth's content in the load area, and GLB_BERTH_STAT. -/
def loadBerth (s : State) (p : Nat × Nat × Bool) : State :=
  let s := putReg (putReg s GLB_BERTH_VER_A_VERSION.key (versionOf s 1)) GLB_BERTH_VER_B_VERSION.key (versionOf s 2)
  if p.1 = 0 then s
  else
    let l := smRead 0xFF s.flash.bytes (berthBase p.1) (Config.berthLength (berthBytes s p.1)).val
    let s := rawWrite s loadBase l
    let s := { s with flash := { s.flash with
      loaded := l.length, loadCrc := crc32c l, wdog := if p.2.2 then some 200000000 else none } }
    setF (setF (setF s GLB_BERTH_STAT_ACTIVE p.1) GLB_BERTH_STAT_PREVIOUS p.2.1) GLB_BERTH_STAT_TRIAL (b2n p.2.2)

/-! ### Cold start (R645 to R648, R657 to R660, R676) -/

/-- R658: an invalid backup is cleared, with the witness at LOST and RTC_VALID cleared. -/
def clearBackup (s : State) : State := { s with backup := { s.backup with store := [], witness := false, rtcValid := false } }

/-- The ERASED fuse of every key slot is blown (R676). -/
def eraseSlots (m : SMap KeySlot) : SMap KeySlot :=
  (List.range 4).foldl (fun m i => smPut KeySlot.empty m i { smGet KeySlot.empty m i with erased := true }) m

/-- R676: the ERASED fuses, the retention SRAM, both berth spans, and ERASED_ALL. -/
def eraseReturned (s : State) : State :=
  let s := clearBackup { s with sec := { s.sec with slots := eraseSlots s.sec.slots, erasedAll := true } }
  { s with flash := { s.flash with
    bytes := s.flash.bytes.filter (fun p => decide (0x8000000 ≤ p.1)), confirmedA := false, confirmedB := false } }

/-- Memory after the self-tests of a cold start: zero, but a memory whose test failed is left as its test leaves it, the SRAMs
in step 4 and HBM in step 5 (R645, R648). -/
def testedMem (s : State) (fail : Nat) : SMap Byte :=
  if fail = 0 then []
  else (Config.testLeft s.now).filter (fun p => (memKind p.1).any (fun k => decide (k = .hbm) == decide (fail = 5)))

/-- Steps 1 to 5: the backup sampled once, the life cycle read and latched, memory zeroed, HBM trained, and the
store updated. Answers the cause and whether the backup was valid. -/
def coldSteps (s : State) (cause fail us : Nat) : Bool × State :=
  let valid := backupValid s
  let prev := if valid then bkWord s 24 2 else 0
  let t := resetAll (if valid then s else clearBackup s)
  let t := { t with mem := testedMem s fail, poison := [], latent := [], sec := { t.sec with state := lcState s.sec.lc } }
  let t := { t with flash := { t.flash with wdog := none, loaded := 0, loadCrc := 0 } }
  let cause := if valid then cause else cause ||| 2 ^ 6
  let t := startStatus t s false valid cause fail us prev
  let t := if fail = 0 then backupUpdate (setF t BSN_HBM_STAT_TRAINED 3) [(64, trainingBytes)] else t
  (valid, backupUpdate t [(20, natLE 4 cause), (24, natLE 4 0)])

/-- COLD_START. A self-test or training step that fails (4 or 5) ends the start at ready with no berth (R648); where no
berth loads there is no script, and every function stays disabled (R86). -/
def coldStart (s : State) (cause stepFail us : Nat) : State :=
  let fail := if stepFail = 4 ∨ stepFail = 5 then stepFail else 0
  let (valid, t) := coldSteps s cause fail us
  if fail ≠ 0 then t
  else if t.sec.state = 3 ∧ !t.sec.erasedAll then
    let t := eraseReturned t
    let t := putReg t PWR_RESET_CAUSE_PORST.key (getReg t PWR_RESET_CAUSE_PORST.key ||| 0x40)
    setF (setF t PWR_STAT_BACKUP 0) PWR_PREV_SUMMARY_SUMMARY 0
  else
    let p := pickBerth t valid
    let t := loadBerth t p
    if p.1 = 0 then t else runScript t

/-- The fuses after a cold start from `s` that came to `t`: an erasing start alone blows some (R676). -/
def coldFuses (s t : State) : Sec :=
  let erases := t.sec.erasedAll && !s.sec.erasedAll
  { t.sec with lc := s.sec.lc, uid := s.sec.uid, erasedAll := s.sec.erasedAll || erases, slots := if erases then eraseSlots s.sec.slots else s.sec.slots }

/-- COLD_START. -/
def execColdStart (stepFail : BitVec 4) (us : W32) (s : State) : Answer :=
  match s.phase with
  | .starting false cause =>
    let t := coldStart s cause stepFail.toNat us.toNat
    .next { t with
      pending := s.pending, now := s.now, raised := s.raised, sec := coldFuses s t, mem := smNorm 0 t.mem, host := s.host }
  | _ => .next s

/-! ### Warm start (R649 to R651) -/

/-- The registers a warm start keeps: ERR_SUMMARY and ERR_FATAL0 to 7 (R565) and, of GLB_BERTH_STAT, the loaded berth (R89). -/
def keptRegs (s old : State) : State :=
  let keep (s : State) (key : Nat) := putReg s key (getReg old key)
  let s := keep s ERR_SUMMARY_CLASSES.key
  let s := (List.range 8).foldl (fun s i => keep s (ERR_FATAL_RECORD i).key) s
  let s := keep s GLB_BERTH_STAT_ACTIVE.key
  setF s GLB_BERTH_STAT_RESULT 0

/-- Steps 1 to 7: every region but AON reset, the SRAMs zeroed, the load area checked, the script executed. A
load-area mismatch begins a cold start instead (R651). -/
def warmStart (s : State) (cause us : Nat) : State :=
  let t := keptRegs (zeroSrams (resetAll s)) s
  let t := setF (startStatus t s true true cause 0 us (getF s PWR_PREV_SUMMARY_SUMMARY)) BSN_HBM_STAT_TRAINED 3
  let t := backupUpdate t [(20, natLE 4 cause)]
  if getF s GLB_BERTH_STAT_ACTIVE ≠ 0 then
    if crc32c (loadArea t) ≠ t.flash.loadCrc then beginStart t false (cause ||| 2 ^ 7) else runScript t
  else t

/-- R709: no generator is locked, for want of REFCLK. -/
def noRefclk (s : State) : Bool := decide (getF s CLK_STAT_LOCKED % 256 = 0)

/-- WARM_START: the backup must be valid, or the start becomes a cold one (R642); with no REFCLK it holds at its
step 2. -/
def beginWarm (s : State) (cause us : Nat) : State :=
  if !(backupValid s) then beginStart s false cause
  else if noRefclk s then { s with phase := .refclkHold cause us s.now, backup := { s.backup with refclk := false } }
  else warmStart s cause us

/-- WARM_START. -/
def execWarmStart (us : W32) (s : State) : Answer :=
  match s.phase with
  | .starting true cause => commit s (beginWarm s cause us.toNat)
  | _ => .next s

/-- REFCLK_RETURN: a held warm start goes on to ready; the hold counts in its time. -/
def execRefclkReturn (s : State) : Answer :=
  let t := { s with backup := { s.backup with refclk := true } }
  match s.phase with
  | .refclkHold cause us since => commit s (warmStart t cause (us + (s.now - since) / 100))
  | _ => keep s t

/-! ### The backup supply -/

/-- BACKUP_SUPPLY_DROP (R656): the witness reads LOST below its threshold, and below 1.40 V the store and the RTC
hold nothing the manual defines. -/
def supplyDrop (s : State) (mv : Nat) : State :=
  let s := if mv < 1750 + Config.witnessMv.val then { s with backup := { s.backup with witness := false } } else s
  if mv < 1400 then
    { s with backup := { s.backup with
      store := putBytes [] [(0, (List.range 2048).map Config.lostByte)], rtc := Config.lostRtc.toNat, rtcFrac := 0 } }
  else s

/-- BACKUP_SUPPLY_DROP. -/
def execBackupSupplyDrop (mv : BitVec 12) (s : State) : Answer := keep s (supplyDrop s mv.toNat)

end Sys2Proof.Machine
end

