-- ==== Sys2Proof/Machine/Dispatch.lean ====
section
/-! DEFINITION. One arm for each command of the device: a direct call of its meaning. -/

namespace Sys2Proof.Machine

/-- The effect of a command on everything but the queue. -/
def exec (i : Instr) (s : State) : Host.Outcome State Fault Refusal :=
  match i with
  | .registerWrite off be data => Sys2Proof.Machine.execRegisterWrite off be data s
  | .bitAliasWrite off be data => Sys2Proof.Machine.execBitAliasWrite off be data s
  | .sqClearWrite off be data => Sys2Proof.Machine.execSqClearWrite off be data s
  | .glbTickLoRead => Sys2Proof.Machine.execGlbTickLoRead s
  | .ttbAxPosLoRead at_ => Sys2Proof.Machine.execTtbAxPosLoRead at_ s
  | .ethPtpLoRead at_ => Sys2Proof.Machine.execEthPtpLoRead at_ s
  | .pwrRtcLoRead => Sys2Proof.Machine.execPwrRtcLoRead s
  | .regTimeout off kind => Sys2Proof.Machine.execRegTimeout off kind s
  | .glbSnap => Sys2Proof.Machine.execGlbSnap s
  | .snapshotCopy => Sys2Proof.Machine.execSnapshotCopy s
  | .cfgCapture => Sys2Proof.Machine.execCfgCapture s
  | .cfgCrcPassEnd => Sys2Proof.Machine.execCfgCrcPassEnd s
  | .berthCommit => Sys2Proof.Machine.execBerthCommit s
  | .berthConfirm => Sys2Proof.Machine.execBerthConfirm s
  | .berthReturnPrev => Sys2Proof.Machine.execBerthReturnPrev s
  | .startWatchdogExpiry => Sys2Proof.Machine.execStartWatchdogExpiry s
  | .xspiReadWord => Sys2Proof.Machine.execXspiReadWord s
  | .xspiProgramWord => Sys2Proof.Machine.execXspiProgramWord s
  | .xspiErase => Sys2Proof.Machine.execXspiErase s
  | .xspiOpDone ok => Sys2Proof.Machine.execXspiOpDone ok s
  | .resInjectArm c => Sys2Proof.Machine.execResInjectArm c s
  | .tailDoorbell k be data => Sys2Proof.Machine.execTailDoorbell k be data s
  | .headDoorbell k be data => Sys2Proof.Machine.execHeadDoorbell k be data s
  | .descriptorFetch k => Sys2Proof.Machine.execDescriptorFetch k s
  | .jobNop k sub => Sys2Proof.Machine.execJobNop k sub s
  | .jobRun k sub => Sys2Proof.Machine.execJobRun k sub s
  | .jobCopy k sub => Sys2Proof.Machine.execJobCopy k sub s
  | .jobFill k sub => Sys2Proof.Machine.execJobFill k sub s
  | .jobFence k sub => Sys2Proof.Machine.execJobFence k sub s
  | .jobWaitSeq k sub => Sys2Proof.Machine.execJobWaitSeq k sub s
  | .jobWaitPos k sub => Sys2Proof.Machine.execJobWaitPos k sub s
  | .jobWaitLanding k sub => Sys2Proof.Machine.execJobWaitLanding k sub s
  | .jobWaitGen k sub => Sys2Proof.Machine.execJobWaitGen k sub s
  | .jobWaitTimeout k sub => Sys2Proof.Machine.execJobWaitTimeout k sub s
  | .jobWorld k sub => Sys2Proof.Machine.execJobWorld k sub s
  | .planTree k sub => Sys2Proof.Machine.execPlanTree k sub s
  | .planRoadmapGrow k sub => Sys2Proof.Machine.execPlanRoadmapGrow k sub s
  | .planRoadmapQuery k sub => Sys2Proof.Machine.execPlanRoadmapQuery k sub s
  | .planRepair k sub => Sys2Proof.Machine.execPlanRepair k sub s
  | .planLoadChain k sub => Sys2Proof.Machine.execPlanLoadChain k sub s
  | .testPoolMbist k sub failure off => Sys2Proof.Machine.execTestPoolMbist k sub failure off s
  | .testBasinMbist k sub failure off => Sys2Proof.Machine.execTestBasinMbist k sub failure off s
  | .testStoreMbist k sub failure off => Sys2Proof.Machine.execTestStoreMbist k sub failure off s
  | .testArrayBist k sub failure off => Sys2Proof.Machine.execTestArrayBist k sub failure off s
  | .testGeyserBist k sub failure off => Sys2Proof.Machine.execTestGeyserBist k sub failure off s
  | .testCollisionBist k sub failure off => Sys2Proof.Machine.execTestCollisionBist k sub failure off s
  | .testReadCheck k sub failure off => Sys2Proof.Machine.execTestReadCheck k sub failure off s
  | .jobMoor k sub => Sys2Proof.Machine.execJobMoor k sub s
  | .completionWrite k => Sys2Proof.Machine.execCompletionWrite k s
  | .irqCoalesceTimeout k => Sys2Proof.Machine.execIrqCoalesceTimeout k s
  | .completionMirrorDrop k => Sys2Proof.Machine.execCompletionMirrorDrop k s
  | .hifCtxFlush k => Sys2Proof.Machine.execHifCtxFlush k s
  | .hifCtxEnable k => Sys2Proof.Machine.execHifCtxEnable k s
  | .hifCtxDisable k => Sys2Proof.Machine.execHifCtxDisable k s
  | .stepLoadTile c => Sys2Proof.Machine.execStepLoadTile c s
  | .stepSwap c => Sys2Proof.Machine.execStepSwap c s
  | .stepStream c => Sys2Proof.Machine.execStepStream c s
  | .stepStreamTranspose c => Sys2Proof.Machine.execStepStreamTranspose c s
  | .stepDrain c => Sys2Proof.Machine.execStepDrain c s
  | .vecAdd c => Sys2Proof.Machine.execVecAdd c s
  | .vecSub c => Sys2Proof.Machine.execVecSub c s
  | .vecMul c => Sys2Proof.Machine.execVecMul c s
  | .vecFma c => Sys2Proof.Machine.execVecFma c s
  | .vecMin c => Sys2Proof.Machine.execVecMin c s
  | .vecMax c => Sys2Proof.Machine.execVecMax c s
  | .vecAbs c => Sys2Proof.Machine.execVecAbs c s
  | .vecNeg c => Sys2Proof.Machine.execVecNeg c s
  | .vecCmp c => Sys2Proof.Machine.execVecCmp c s
  | .vecSel c => Sys2Proof.Machine.execVecSel c s
  | .vecScale2 c => Sys2Proof.Machine.execVecScale2 c s
  | .vecCvt c => Sys2Proof.Machine.execVecCvt c s
  | .vecRowadd c => Sys2Proof.Machine.execVecRowadd c s
  | .vecRowread c => Sys2Proof.Machine.execVecRowread c s
  | .stepGey c => Sys2Proof.Machine.execStepGey c s
  | .geyRreduce c g dst sa imm => Sys2Proof.Machine.execGeyRreduce c g dst sa imm s
  | .geyLookup c g dst sa imm => Sys2Proof.Machine.execGeyLookup c g dst sa imm s
  | .geyHorner c g dst sa imm => Sys2Proof.Machine.execGeyHorner c g dst sa imm s
  | .geyMul c g dst sa sb => Sys2Proof.Machine.execGeyMul c g dst sa sb s
  | .geyAdd c g dst sa sb => Sys2Proof.Machine.execGeyAdd c g dst sa sb s
  | .geySelect c g dst sa sb => Sys2Proof.Machine.execGeySelect c g dst sa sb s
  | .geyClamp c g dst sa imm => Sys2Proof.Machine.execGeyClamp c g dst sa imm s
  | .geyExpadj c g dst sa sb => Sys2Proof.Machine.execGeyExpadj c g dst sa sb s
  | .geyEnd c g => Sys2Proof.Machine.execGeyEnd c g s
  | .stepQuant c => Sys2Proof.Machine.execStepQuant c s
  | .stepStoreLinear c => Sys2Proof.Machine.execStepStoreLinear c s
  | .stepStoreUnskew c => Sys2Proof.Machine.execStepStoreUnskew c s
  | .stepDmaLinear c => Sys2Proof.Machine.execStepDmaLinear c s
  | .stepDmaSkew c => Sys2Proof.Machine.execStepDmaSkew c s
  | .stepDmaSkewT c => Sys2Proof.Machine.execStepDmaSkewT c s
  | .stepDmaUnskew c => Sys2Proof.Machine.execStepDmaUnskew c s
  | .stepMoorPoint c => Sys2Proof.Machine.execStepMoorPoint c s
  | .stepWait c => Sys2Proof.Machine.execStepWait c s
  | .stepWaitTimeout c => Sys2Proof.Machine.execStepWaitTimeout c s
  | .stepSignal c => Sys2Proof.Machine.execStepSignal c s
  | .stepSurveyCaldera c => Sys2Proof.Machine.execStepSurveyCaldera c s
  | .stepSurveyPool c => Sys2Proof.Machine.execStepSurveyPool c s
  | .stepFence c => Sys2Proof.Machine.execStepFence c s
  | .jumpAlways c => Sys2Proof.Machine.execJumpAlways c s
  | .jumpDecNz c => Sys2Proof.Machine.execJumpDecNz c s
  | .jumpSet c => Sys2Proof.Machine.execJumpSet c s
  | .stepEnd c => Sys2Proof.Machine.execStepEnd c s
  | .faultRecordWrite k => Sys2Proof.Machine.execFaultRecordWrite k s
  | .mmuInvalidate => Sys2Proof.Machine.execMmuInvalidate s
  | .mmuRootWrite k high data => Sys2Proof.Machine.execMmuRootWrite k high data s
  | .castRetry k => Sys2Proof.Machine.execCastRetry k s
  | .castAbort k => Sys2Proof.Machine.execCastAbort k s
  | .castOffAuto k sub => Sys2Proof.Machine.execCastOffAuto k sub s
  | .quantumExpiry c => Sys2Proof.Machine.execQuantumExpiry c s
  | .errorRecordWrite => Sys2Proof.Machine.execErrorRecordWrite s
  | .errMirrorDrop => Sys2Proof.Machine.execErrMirrorDrop s
  | .errInject => Sys2Proof.Machine.execErrInject s
  | .errInjectAct => Sys2Proof.Machine.execErrInjectAct s
  | .ferryDelivery src dst launchPs parityOk => Sys2Proof.Machine.execFerryDelivery src dst launchPs parityOk s
  | .regionReinitDone r => Sys2Proof.Machine.execRegionReinitDone r s
  | .hostAccessTimeout k sub => Sys2Proof.Machine.execHostAccessTimeout k sub s
  | .pcieCe status => Sys2Proof.Machine.execPcieCe status s
  | .pcieLinkDown => Sys2Proof.Machine.execPcieLinkDown s
  | .pcieLinkUp speed width => Sys2Proof.Machine.execPcieLinkUp speed width s
  | .pcieConfigRequest word => Sys2Proof.Machine.execPcieConfigRequest word s
  | .scrubPatrolRead addr => Sys2Proof.Machine.execScrubPatrolRead addr s
  | .hbmRefresh delayed => Sys2Proof.Machine.execHbmRefresh delayed s
  | .hbmHot st temp => Sys2Proof.Machine.execHbmHot st temp s
  | .encoderSample n a b => Sys2Proof.Machine.execEncoderSample n a b s
  | .encZEdge n => Sys2Proof.Machine.execEncZEdge n s
  | .axisSet a => Sys2Proof.Machine.execAxisSet a s
  | .ssiRead a => Sys2Proof.Machine.execSsiRead a s
  | .ssiReadDone a raw => Sys2Proof.Machine.execSsiReadDone a raw s
  | .mainsEdge n => Sys2Proof.Machine.execMainsEdge n s
  | .gptpEventMessage m event => Sys2Proof.Machine.execGptpEventMessage m event s
  | .actionDoorbell => Sys2Proof.Machine.execActionDoorbell s
  | .actionCapture => Sys2Proof.Machine.execActionCapture s
  | .fsyncEnd n => Sys2Proof.Machine.execFsyncEnd n s
  | .actionEmitOne => Sys2Proof.Machine.execActionEmitOne s
  | .actionEmitRun => Sys2Proof.Machine.execActionEmitRun s
  | .actionEmitStop => Sys2Proof.Machine.execActionEmitStop s
  | .actionOutput => Sys2Proof.Machine.execActionOutput s
  | .actionSteps => Sys2Proof.Machine.execActionSteps s
  | .actionCheck => Sys2Proof.Machine.execActionCheck s
  | .actionWindowOpen => Sys2Proof.Machine.execActionWindowOpen s
  | .actionWindowClose => Sys2Proof.Machine.execActionWindowClose s
  | .deferredEntryAct => Sys2Proof.Machine.execDeferredEntryAct s
  | .windowTimeout w => Sys2Proof.Machine.execWindowTimeout w s
  | .ttbEntryWrite => Sys2Proof.Machine.execTtbEntryWrite s
  | .ttbEntryRead => Sys2Proof.Machine.execTtbEntryRead s
  | .emissionInstant c => Sys2Proof.Machine.execEmissionInstant c s
  | .frameTransmit m => Sys2Proof.Machine.execFrameTransmit m s
  | .qbvEntryWrite m => Sys2Proof.Machine.execQbvEntryWrite m s
  | .qbvSwap m => Sys2Proof.Machine.execQbvSwap m s
  | .qbvCycleStart m => Sys2Proof.Machine.execQbvCycleStart m s
  | .templateWordWrite data => Sys2Proof.Machine.execTemplateWordWrite data s
  | .chainResume c => Sys2Proof.Machine.execChainResume c s
  | .chainFlush c => Sys2Proof.Machine.execChainFlush c s
  | .feederCommit c => Sys2Proof.Machine.execFeederCommit c s
  | .frameLanding n bytes bad => Sys2Proof.Machine.execFrameLanding n bytes bad s
  | .holdNAssert => Sys2Proof.Machine.execHoldNAssert s
  | .holdNRelease => Sys2Proof.Machine.execHoldNRelease s
  | .freqChangeGo r => Sys2Proof.Machine.execFreqChangeGo r s
  | .freqChangeStart r => Sys2Proof.Machine.execFreqChangeStart r s
  | .glideStep r => Sys2Proof.Machine.execGlideStep r s
  | .shortStopEnd r => Sys2Proof.Machine.execShortStopEnd r s
  | .droopTrip r => Sys2Proof.Machine.execDroopTrip r s
  | .droopClear r => Sys2Proof.Machine.execDroopClear r s
  | .canaryFail r => Sys2Proof.Machine.execCanaryFail r s
  | .thermHi r temp => Sys2Proof.Machine.execThermHi r temp s
  | .thermTrip r temp => Sys2Proof.Machine.execThermTrip r temp s
  | .generatorUnlock r => Sys2Proof.Machine.execGeneratorUnlock r s
  | .adaptiveStep r => Sys2Proof.Machine.execAdaptiveStep r s
  | .pmbEnable addr voutMode => Sys2Proof.Machine.execPmbEnable addr voutMode s
  | .voutPoll readMv => Sys2Proof.Machine.execVoutPoll readMv s
  | .pmbRetry => Sys2Proof.Machine.execPmbRetry s
  | .rtcLoad => Sys2Proof.Machine.execRtcLoad s
  | .pwrCtlWarm key => Sys2Proof.Machine.execPwrCtlWarm key s
  | .porstNRise => Sys2Proof.Machine.execPorstNRise s
  | .brownout => Sys2Proof.Machine.execBrownout s
  | .wrstNRise lowNs => Sys2Proof.Machine.execWrstNRise lowNs s
  | .coldStart stepFail us => Sys2Proof.Machine.execColdStart stepFail us s
  | .warmStart us => Sys2Proof.Machine.execWarmStart us s
  | .lcTransition key target => Sys2Proof.Machine.execLcTransition key target s
  | .keyProgram key slot => Sys2Proof.Machine.execKeyProgram key slot s
  | .keyRead key slot => Sys2Proof.Machine.execKeyRead key slot s
  | .keyRevoke key slot => Sys2Proof.Machine.execKeyRevoke key slot s
  | .fuseOpDone ok => Sys2Proof.Machine.execFuseOpDone ok s
  | .tokenCheck => Sys2Proof.Machine.execTokenCheck s
  | .tokenCheckDone => Sys2Proof.Machine.execTokenCheckDone s
  | .jtagExtest => Sys2Proof.Machine.execJtagExtest s
  | .jtagIdcode => Sys2Proof.Machine.execJtagIdcode s
  | .jtagSamplePreload => Sys2Proof.Machine.execJtagSamplePreload s
  | .jtagClamp => Sys2Proof.Machine.execJtagClamp s
  | .jtagHighz => Sys2Proof.Machine.execJtagHighz s
  | .jtagBypass code => Sys2Proof.Machine.execJtagBypass code s
  | .jtagRegacc dr => Sys2Proof.Machine.execJtagRegacc dr s
  | .jtagScandump => Sys2Proof.Machine.execJtagScandump s
  | .porstNFall => Sys2Proof.Machine.execPorstNFall s
  | .backupSupplyDrop mv => Sys2Proof.Machine.execBackupSupplyDrop mv s
  | .xtalStop => Sys2Proof.Machine.execXtalStop s
  | .xtalStart => Sys2Proof.Machine.execXtalStart s
  | .refclkReturn => Sys2Proof.Machine.execRefclkReturn s
  | .mainsLoopUnlock n => Sys2Proof.Machine.execMainsLoopUnlock n s
  | .gptpLockLoss m => Sys2Proof.Machine.execGptpLockLoss m s
  | .stepPulse n => Sys2Proof.Machine.execStepPulse n s
  | .csiFrameStart n vc dataType => Sys2Proof.Machine.execCsiFrameStart n vc dataType s
  | .tapReset => Sys2Proof.Machine.execTapReset s
  | .msixTableWrite off be data => Sys2Proof.Machine.execMsixTableWrite off be data s

end Sys2Proof.Machine
end

