-- ==== Sys2Proof/Machine/Tick.lean ====
section
/-! DEFINITION. One reference tick of 10 ns (R70): what happens by itself as time passes. -/

namespace Sys2Proof.Machine

/-- The core's cycles go on while it runs (R603, R608): CUR × 12.5 MHz are CUR ÷ 8 cycles to a tick. -/
def coreTick (s : State) (c : Nat) : State :=
  let x := getCore s c
  let m := getF s (CLK_RGN_STAT_CUR c)
  if x.running.isNone || (getClk s c).stopped then s
  else putCore s c { x with time := { x.time with clock := x.time.clock + (m * s.now / 8 - m * (s.now - 1) / 8) } }

/-- The counters of cycles in which a unit waits for another that the model does not time against it (R266, R268, R292, R331,
R363, R467). -/
def waitCounters : List RField :=
  (List.range 4).map CORE_POOL_CONFLICT_COUNT ++ (List.range 8).map BSN_PORT_CONFLICT_COUNT ++
    [BSN_DIGEST_WAIT_COUNT, WLD_PORT_WAIT_COUNT, PLN_CE_FULL_COUNT, HIF_PCIE_WAIT_COUNT]

/-- Each of them grows by the cycles of the tick in which its unit waited, a free value. -/
def waitTick (s : State) : State := waitCounters.foldl (fun s f => addF s f (Config.waitCycles s.now f.key).val) s

/-- A bit upset of a memory, where one falls in this tick (R271, R272, R277): an upset of a granule that has one flipped bit
already leaves an error that cannot be corrected. -/
def upsetTick (s : State) : State :=
  match Config.upset s.now with
  | some (a, two) =>
    let g := a / 8 * 8
    if populated a then { s with latent := smPut 0 s.latent g (min 2 (smGet 0 s.latent g + 1 + two.val)) } else s
  | none => s

/-- What passes in a tick only while the device is ready: RTIO, the cores and the counters of waiting. -/
def readyTick (s : State) : State :=
  if isReady s then waitTick ((List.range 4).foldl coreTick (rtioTick s)) else s

/-- One reference tick: time, the upsets, what runs while the device is ready, the RTC, the start watchdog, and the warm start
of a PWR_CTL write. -/
def tick (s : State) : State := softWarmTick (watchdogTick (rtcTick (readyTick (upsetTick { s with now := s.now + 1 }))))

end Sys2Proof.Machine
end

