-- ==== Sys2Proof/Safety.lean ====
section
/-! DEFINITION. The terms claims are stated in: what a safe state is, and what a command leaves alone. -/

namespace Sys2Proof.Machine

/-- Device memory and host memory are in their one canonical form. -/
def Canonical (s : State) : Prop := smWf 0 s.mem = true ∧ smWf 0 s.host = true

/-- Every byte of device and host memory reads as before. -/
def SameBytes (s t : State) : Prop := (∀ a, memByte t a = memByte s a) ∧ ∀ a, hostByte t a = hostByte s a

/-- Nothing but the registers with the listed keys differs. -/
def OnlyRegs (keys : List Nat) (s t : State) : Prop :=
  t = { s with regs := t.regs } ∧ ∀ k, k ∉ keys → getReg t k = getReg s k

/-- Nothing but the registers with the listed keys, and the interrupt messages sent and pending, differs. -/
def OnlyEvents (keys : List Nat) (s t : State) : Prop :=
  t = { s with regs := t.regs, msixPending := t.msixPending, out := { s.out with msix := t.out.msix } } ∧
    ∀ k, k ∉ keys → getReg t k = getReg s k

/-- The registers with other keys than the listed ones read as before. -/
def RegsBut (keys : List Nat) (s t : State) : Prop := ∀ k, k ∉ keys → getReg t k = getReg s k

/-- One event: its bit is 1, SEQ has grown by one modulo 256, and every other bit below SEQ is as before. -/
def Raised (f : RField) (s t : State) : Prop :=
  bitOf (getReg t f.key).toNat f.lo = true ∧
  fieldOf (getReg t f.key) 31 24 = (fieldOf (getReg s f.key) 31 24 + 1) % 256 ∧
  ∀ b, b < 24 → b ≠ f.lo → bitOf (getReg t f.key).toNat b = bitOf (getReg s f.key).toNat b

/-- A counter has grown by `n`, modulo its width. -/
def Counted (f : RField) (n : Nat) (s t : State) : Prop := getF t f = (getF s f + n) % 2 ^ (f.hi - f.lo + 1)

/-- Nothing of the time, the queue, the memories, the fuses or the phase differs. -/
def SameFrame (s t : State) : Prop :=
  t.pending = s.pending ∧ t.now = s.now ∧ SameBytes s t ∧ t.phase = s.phase ∧ t.sec.lc = s.sec.lc ∧ t.sec.slots = s.sec.slots

/-- Transfers from region `src` to region `dst` pass: the sender launches, a slot is free, the receiver runs, and no parity
flip is armed there (R24, R612, R613, R620). -/
def CrossingFree (s : State) (src dst : Nat) : Prop :=
  launchHeld s src dst = false ∧ (getClk s dst).stopped = false ∧ s.parityFlip.contains dst = false

/-- An access to a register of block `slot` is performed at once: none waits before it, the block's region is not in
SHORT_STOP, and the crossing from HOST into it passes (R24, R50, R628). -/
def PathFree (s : State) (slot : Nat) : Prop :=
  s.accessQ = [] ∧ inStopped s (256 * slot) = false ∧ (slotRegion slot ≠ 6 → CrossingFree s 6 (slotRegion slot))

/-- The job runs, or may start now: its unit's region runs, and its own ring, the functions it needs, the turn of its unit
(`turn`) and its region allow it (R442, R445, R456 to R458, R64, R558, R620). -/
def JobReady (s : State) (j : Job) (turn : Bool) : Prop :=
  (getClk s j.desc.body.unit).stopped = false ∧
    (j.phase = .running ∨ (mayStart s j = true ∧ commonEnabled s = true ∧ kindEnabled s j.desc.body = true ∧ turn = true ∧
      regionOpen s j.desc.body.unit = true))

/-- The state in which a ready job works: it has taken its unit, when it did not run already. -/
def working (s : State) (j : Job) : State :=
  if j.phase = .running then s else takeJob s j.desc.body.performer j j.desc.body.unit

/-- Job `sub` of context `k` is done with a status. -/
def DoneWith (t : State) (k : Nat) (sub : W32) (status : Nat) : Prop :=
  ∃ x, findJob t k sub = some x ∧ x.phase = .done ∧ x.status = status

/-- Job `sub` of context `k` is done with a status and a DETAIL. -/
def DoneDetail (t : State) (k : Nat) (sub : W32) (status : Nat) (detail : W32) : Prop :=
  ∃ x, findJob t k sub = some x ∧ x.phase = .done ∧ x.status = status ∧ x.detail = detail

/-- The sequencer of core `c` stands at a step that `accepts`, and has entered its block: `e` is what the step works
with, and `s'` the state it works in (R490, R496). -/
def StandsAt (s : State) (c : Nat) (accepts : StepRec → Bool) (e : Env) (s' : State) : Prop :=
  ∃ j r rec s1, coreJob s c = some (j, r) ∧ r.pc < r.nsteps ∧ runOp (fetchStep j r) s = (.ok rec, s1) ∧ accepts rec = true ∧
    s' = updRun (putCore s1 c { getCore s1 c with seqStep := r.pc }) j.ctx j.sub (fun r => { r with stepAt := r.pc }) ∧
    e = envFor j r c ⟨(getCore s1 c).issued, r.pc, rec, (getCore s1 c).time.clock, 0⟩

/-- The step the sequencer stands at, as it joins its class queue (R493). -/
def Env.issued (e : Env) : Issued := ⟨e.no, e.idx, e.r, e.cycle, 0⟩

/-- The state a step of a class works in once it has issued: the sequencer has gone on to the next step, and the completion
record would name this one (R447, R493). -/
def acting (e : Env) (s : State) : State := updRun (issueStep s e) e.k e.sub (fun r => { r with stepAt := e.idx })

/-- An issued step whose work came to `u` is done: it has left its queue, a DMA step waits no longer for the host, and memory,
registers, cores, contexts and the world are else as its work left them. -/
def StepDone (e : Env) (u t : State) : Prop :=
  t.jobs = (if stepClass e.r = some 5 then endHostWait u e.k e.sub else u).jobs ∧ t.regs = u.regs ∧
    getCore t e.c = { getCore u e.c with queue := (getCore u e.c).queue.filter (fun p => decide (p.no ≠ e.no)) } ∧
    (∀ i, i ≠ e.c → getCore t i = getCore u i) ∧ t.world = u.world ∧ t.ctxs = u.ctxs ∧ SameBytes u t

/-- A step that the sequencer performs itself is passed: its job stands at the next step, and nothing of `u` else differs. -/
def StepPassed (e : Env) (u t : State) : Prop :=
  t.jobs = (nextStep u e.k e.sub).jobs ∧ t.regs = u.regs ∧ t.cores = u.cores ∧ t.world = u.world ∧ t.ctxs = u.ctxs ∧ SameBytes u t

/-- No issued step of core `c` that `mine` and `ready` allow can act now. -/
def Stuck (s : State) (c : Nat) (mine : Nat → Bool) (ready : Issued → Bool) : Prop := actable (getCore s c) mine ready = none

/-- The RUN job `sub` of context `k` stands at step `n` with these counters. -/
def StandsAtStep (t : State) (k : Nat) (sub : W32) (n : Nat) (counters : SMap W32) : Prop :=
  ∃ x r, findJob t k sub = some x ∧ x.run = some r ∧ r.pc = n ∧ r.counters = counters

/-- The commands that reach a pin, a supply, a start, the TAP or the configuration space: those alone can act while
the device is not ready (R632, R639 to R643, R652, R656, R679, R709). -/
def actsBeforeReady : Instr → Bool
  | .startWatchdogExpiry | .generatorUnlock _ | .pcieConfigRequest _ | .porstNRise | .porstNFall | .brownout
  | .wrstNRise _ | .coldStart .. | .warmStart _ | .refclkReturn | .backupSupplyDrop _ | .xtalStop | .xtalStart
  | .jtagExtest | .jtagIdcode | .jtagSamplePreload | .jtagClamp | .jtagHighz | .jtagBypass _ | .tapReset => true
  | _ => false

end Sys2Proof.Machine
end

