-- ==== Sys2Proof/Certificates/Slice0/Obligations.lean ====
section
/-! DEFINITION. The statements for the provers. Terms such as `Raised`, `Counted` and `OnlyRegs` are Safety's. -/

open Sys2Proof Sys2Proof.Machine

/-! ### The whole block -/

/-- A step on a non-empty queue is the command at its front, acting on the state with the queue's rest. -/
def Obligations.StepRunsFrontCommand : Prop :=
  ∀ (c : Instr) (rest : List Instr) (s : State), s.pending = c :: rest → step s = exec c { s with pending := rest }

/-- A step on an empty queue is one reference tick: it goes on, time grows by one, the queue stays empty, and
memory and fuses stay. That an empty queue is a tick is the model's choice (log entry 1). -/
def Obligations.StepOnEmptyQueueIsOneTick : Prop :=
  ∀ s : State, s.pending = [] → ∃ t, step s = .next t ∧ t.now = s.now + 1 ∧ t.pending = [] ∧
    SameBytes s t ∧ t.sec.lc = s.sec.lc ∧ t.sec.slots = s.sec.slots

/-- From every state with canonical memories, every step that goes on leaves them canonical. -/
def Obligations.CanonicalMemoryKeptByEveryStep : Prop :=
  ∀ s t : State, Canonical s → step s = .next t → Canonical t

/-- The state after reset: canonical memories, an empty queue, ready, no job in flight, no access waiting, life cycle TEST, and
every register outside the start's own at its table value.
It rests on choices of the model, log entries 5, 7 and 8. -/
def Obligations.ResetStateMeetsCanonical : Prop :=
  Canonical State.reset ∧ State.reset.pending = [] ∧ isReady State.reset = true ∧ State.reset.jobs = [] ∧
    State.reset.accessQ = [] ∧ State.reset.raised = [] ∧ lcState State.reset.sec.lc = 0 ∧
    ∀ k, k ∉ [0x301, 0x403, 0x801] → getReg State.reset k = regReset k

/-- Fuses only blow: no step clears a life-cycle fuse, a VALID, REVOKED or ERASED fuse of a key slot, or
ERASED_ALL, and none changes the unique identifier. -/
def Obligations.FusesOnlyBlow : Prop :=
  ∀ s t : State, step s = .next t →
    (∀ i, s.sec.lc.getLsbD i = true → t.sec.lc.getLsbD i = true) ∧
    (∀ i, ((getSlotFuses s i).valid = true → (getSlotFuses t i).valid = true) ∧
      ((getSlotFuses s i).revoked = true → (getSlotFuses t i).revoked = true) ∧
      ((getSlotFuses s i).erased = true → (getSlotFuses t i).erased = true)) ∧
    (s.sec.erasedAll = true → t.sec.erasedAll = true) ∧ t.sec.uid = s.sec.uid

/-- No command touches the queue or the time: those change only as steps take commands and ticks pass. No step leaves a mark
of the events of its cycles, so that the next one begins a cycle of its own (R67). -/
def Obligations.CommandsLeaveQueueAndTime : Prop :=
  (∀ (i : Instr) (s t : State), exec i s = .next t → t.pending = s.pending ∧ t.now = s.now) ∧
  ∀ s t : State, step s = .next t → t.raised = s.raised

/-- Every command answers a next state in every state, but the patrol read of an address where R261 populates no
memory, which faults. -/
def Obligations.OnlyPatrolOutsideMemoryStops : Prop :=
  (∀ (i : Instr) (s : State), (∀ a, i = .scrubPatrolRead a → populated a.toNat = true) → ∃ t, exec i s = .next t) ∧
  ∀ (a : BitVec 40) (s : State), s.phase = .ready → populated a.toNat = false →
    exec (.scrubPatrolRead a) s = .fault .unpopulated

/-- While the device is not ready, a command changes nothing unless it reaches a pin, a supply, a start, the TAP or
the configuration space.
It rests on choices of the model, log entries 3 and 4. -/
def Obligations.NothingActsBeforeReady : Prop :=
  ∀ (i : Instr) (s : State), s.phase ≠ .ready → actsBeforeReady i = false →
    (∀ a, i = .scrubPatrolRead a → populated a.toNat = true) → exec i s = .next s

/-! ### Registers -/

/-- Writes of the registers that hold only RW bits and touch no work, GLB_SCRATCH (4), GLB_CFG_REF (17) and
GLB_XSPI_DATA (41), at every offset that reaches them. In BAR0 the block decodes six index bits, bits [15:14] are
ignored, and the four views write, set, clear and toggle; in BAR4 the addressed bit takes bit 0 of the data. Nothing else
changes. A 64-bit write is two of 32 bits: here it writes GLB_XSPI_ADDR (40) with its lower half and GLB_XSPI_DATA with its
upper half. -/
def Obligations.WritesThroughViewsAndBitWords : Prop :=
  (∀ (s : State) (off : BitVec 24) (data : W32) (n : Nat), s.phase = .ready → Canonical s → s.accessQ = [] →
    bitsOf off.toNat 23 16 = 0 → bitsOf off.toNat 1 0 = 0 → bitsOf off.toNat 11 2 % 64 = n → (n = 4 ∨ n = 17 ∨ n = 41) →
    ∃ t, exec (.registerWrite off 0xF ⟨data, none⟩) s = .next t ∧ OnlyRegs [n] s t ∧
      (bitsOf off.toNat 13 12 = 0 → getReg t n = data) ∧
      (bitsOf off.toNat 13 12 = 1 → getReg t n = getReg s n ||| data) ∧
      (bitsOf off.toNat 13 12 = 2 → getReg t n = getReg s n &&& ~~~data) ∧
      (bitsOf off.toNat 13 12 = 3 → getReg t n = getReg s n ^^^ data)) ∧
  (∀ (s : State) (off : BitVec 20) (data : W32) (n : Nat), s.phase = .ready → Canonical s → s.accessQ = [] →
    bitsOf off.toNat 19 15 = 0 → bitsOf off.toNat 1 0 = 0 → bitsOf off.toNat 14 7 % 64 = n → (n = 4 ∨ n = 17 ∨ n = 41) →
    ∃ t, exec (.bitAliasWrite off 0xF ⟨data, none⟩) s = .next t ∧ OnlyRegs [n] s t ∧
      ∀ b, b < 32 → (getReg t n).getLsbD b = if b = bitsOf off.toNat 6 2 then data.getLsbD 0 else (getReg s n).getLsbD b) ∧
  (∀ (s : State) (off : BitVec 24) (lower upper : W32), s.phase = .ready → Canonical s → s.accessQ = [] →
    bitsOf off.toNat 23 16 = 0 → bitsOf off.toNat 1 0 = 0 → bitsOf off.toNat 11 2 % 64 = 40 → bitsOf off.toNat 13 12 = 0 →
    ∃ t, exec (.registerWrite off 0xF ⟨lower, some (0xF, upper)⟩) s = .next t ∧ OnlyRegs [40, 41] s t ∧
      getF t GLB_XSPI_ADDR_ADDR = lower.toNat % 2 ^ 27 ∧ getReg t 41 = upper)

/-- Register writes that are not 32 bits wide and aligned are ignored, in all three windows: nothing changes but
GLB_EVENT (3), whose BAD_ACCESS is set, and GLB_CNT_BADACC (21), which counts.
It rests on choices of the model, log entry 36. -/
def Obligations.BadAccessIgnoredAndCounted : Prop :=
  ∀ (s : State) (be : BitVec 4) (data : W32), s.phase = .ready → Canonical s →
    (∀ off : BitVec 24, (be ≠ 0xF ∨ bitsOf off.toNat 1 0 ≠ 0) → PathFree s (bitsOf off.toNat 23 16) →
      ∀ i ∈ [Instr.registerWrite off be ⟨data, none⟩, .sqClearWrite off be ⟨data, none⟩],
        ∃ t, exec i s = .next t ∧ Raised GLB_EVENT_BAD_ACCESS s t ∧
          Counted GLB_CNT_BADACC_COUNT 1 s t ∧ OnlyEvents [3, 21] s t) ∧
    (∀ off : BitVec 20, (be ≠ 0xF ∨ bitsOf off.toNat 1 0 ≠ 0) → PathFree s (bitsOf off.toNat 19 15) →
      ∃ t, exec (.bitAliasWrite off be ⟨data, none⟩) s = .next t ∧ Raised GLB_EVENT_BAD_ACCESS s t ∧
        Counted GLB_CNT_BADACC_COUNT 1 s t ∧ OnlyEvents [3, 21] s t)

/-- Writes that reach a sequence-clear register leave its SEQ unchanged (R69): plain, set, clear and toggle writes of
BAR0 and bit words of BAR4 alike. -/
def Obligations.WritesLeaveSeqUnchanged : Prop :=
  ∀ (s : State) (data : W32), s.phase = .ready →
    (∀ (off : BitVec 24) (key : Nat), bitsOf off.toNat 1 0 = 0 → bar0Key off = some key → isSq key = true →
      PathFree s (bitsOf off.toNat 23 16) →
      ∀ i ∈ [Instr.sqClearWrite off 0xF ⟨data, none⟩, .registerWrite off 0xF ⟨data, none⟩],
        ∃ t, exec i s = .next t ∧ fieldOf (getReg t key) 31 24 = fieldOf (getReg s key) 31 24) ∧
    (∀ (off : BitVec 20) (key : Nat), bitsOf off.toNat 1 0 = 0 → bar4Key off = some key → isSq key = true →
      PathFree s (bitsOf off.toNat 19 15) →
      ∃ t, exec (.bitAliasWrite off 0xF ⟨data, none⟩) s = .next t ∧ fieldOf (getReg t key) 31 24 = fieldOf (getReg s key) 31 24)

/-- A plain write that carries the current SEQ clears the event bits written as 1 and no other; a plain write with
another SEQ, and a write through another view, changes nothing at all. Beside the register only the position
registers whose VALID an event bit guards may change.
It rests on choices of the model, log entry 3. -/
def Obligations.SequenceClearNeedsCurrentSeq : Prop :=
  ∀ (s : State) (off : BitVec 24) (data : W32) (key : Nat), s.phase = .ready → Canonical s →
    bitsOf off.toNat 1 0 = 0 → bar0Key off = some key → isSq key = true → PathFree s (bitsOf off.toNat 23 16) →
    (bitsOf off.toNat 13 12 = 0 → fieldOf data 31 24 = fieldOf (getReg s key) 31 24 →
      ∃ t, exec (.sqClearWrite off 0xF ⟨data, none⟩) s = .next t ∧
        getReg t key = getReg s key &&& ~~~(data &&& 0xFFFFFF) ∧
        OnlyRegs (key :: BSN_ERR_ADDR_HI_VALID.key :: PLN_STORE_ERR_ADDR_VALID.key ::
          [0, 1, 2, 3].flatMap (fun c => [(CORE_NF_POS_ALL c).key, (CORE_RES_POS_VALID c).key,
            (CORE_ROW_RES_POS_VALID c).key, (CORE_POOL_ERR_ADDR_VALID c).key])) s t) ∧
    (bitsOf off.toNat 13 12 = 0 → fieldOf data 31 24 ≠ fieldOf (getReg s key) 31 24 →
      exec (.sqClearWrite off 0xF ⟨data, none⟩) s = .next s) ∧
    (bitsOf off.toNat 13 12 ≠ 0 → exec (.sqClearWrite off 0xF ⟨data, none⟩) s = .next s)

/-- The reads of the four low halves. A read that names an offset of BAR0 or BAR4 reaches the register at every offset that decodes
to it: BAR0 answers the register, and BAR4 its addressed bit in bit 0; either latches the high half of the same value, and a
64-bit read of BAR0 answers that as its upper word. GLB_TICK_LO_READ and PWR_RTC_LO_READ are the 32-bit reads of their register
in BAR0. Nothing else changes.
It rests on choices of the model, log entry 114. -/
def Obligations.LowReadsLatchHighHalves : Prop :=
  ∀ s : State, s.phase = .ready → Canonical s →
    let only (hi : RField) (t : State) : Prop := RegsBut [hi.key] s t ∧
      t = { s with regs := t.regs, out := { s.out with rdata := t.out.rdata, rdataHi := t.out.rdataHi } }
    let high (v : Nat) (hi : RField) : Nat := v / 2 ^ 32 % 2 ^ (hi.hi + 1)
    let latches (i : HostRead → Instr) (lo : Nat) (hi : RField) (v : Nat) : Prop :=
      PathFree s (lo / 256) →
      (∀ (off : BitVec 24) (wide : Bool), bar0Key off = some lo → ∃ t, exec (i ⟨0, off, wide⟩) s = .next t ∧
        t.out.rdata = readReg s lo ∧ getF t hi = high v hi ∧ (wide = true → t.out.rdataHi = readReg t hi.key) ∧
        (wide = false → t.out.rdataHi = s.out.rdataHi) ∧ only hi t) ∧
      (∀ off : BitVec 24, bar4Key (off.truncate 20) = some lo → ∃ t, exec (i ⟨2, off, false⟩) s = .next t ∧
        t.out.rdata = BitVec.ofNat 32 (b2n ((readReg s lo).getLsbD (bitsOf off.toNat 6 2))) ∧
        getF t hi = high v hi ∧ t.out.rdataHi = s.out.rdataHi ∧ only hi t)
    let reads (i : Instr) (lo : Nat) (hi : RField) (v : Nat) : Prop :=
      PathFree s (lo / 256) → ∃ t, exec i s = .next t ∧ t.out.rdata = readReg s lo ∧ getF t hi = high v hi ∧
        t.out.rdataHi = s.out.rdataHi ∧ only hi t
    (∀ i ∈ [Instr.ttbAxPosLoRead, .ethPtpLoRead],
      latches i 12 GLB_TICK_HI_TICK (glbTick s) ∧
      (∀ a : Fin 4, latches i (TTB_AX_POS_LO_VALUE a).key (TTB_AX_POS_HI_VALUE a) (getAxis s a).value) ∧
      (∀ m : Fin 2, latches i (ETH_PTP_LO_NS m).key (ETH_PTP_HI_NS m) (getMac s m).gptp) ∧
      latches i PWR_RTC_LO_COUNT.key PWR_RTC_HI_COUNT s.backup.rtc) ∧
    reads .glbTickLoRead 12 GLB_TICK_HI_TICK (glbTick s) ∧
    reads .pwrRtcLoRead PWR_RTC_LO_COUNT.key PWR_RTC_HI_COUNT s.backup.rtc

/-- An access that the stall timeout ends: a host read returns all ones, a REGACC access has DONE and TIMEOUT set and, as a
read, all ones; GLB_TIMEOUT_ADDR holds its offset and direction, GLB_EVENT.REG_TIMEOUT is set, and a CORRECTED error takes the
next record number and counts. Memory and jobs stay. An access into a region in SHORT_STOP waits instead, with no timeout, and
one that arrives behind it waits too.
It rests on choices of the model, log entry 113. -/
def Obligations.StallTimeoutRecordedThreeWays : Prop :=
  ∀ (s : State) (off : BitVec 24) (kind : AccessKind), s.phase = .ready →
    (inStopped s (bitsOf off.toNat 23 16 * 256) = false → ∃ t, exec (.regTimeout off kind) s = .next t ∧
      getF t GLB_TIMEOUT_ADDR_OFFSET = off.toNat ∧ getF t GLB_TIMEOUT_ADDR_WRITE = b2n kind.write ∧
      Raised GLB_EVENT_REG_TIMEOUT s t ∧ Counted GLB_CNT_TIMEOUT_COUNT 1 s t ∧ Counted ERR_CORRECTED_COUNT 1 s t ∧
      t.fseq = (if s.fseq + 1 = 0 then 1 else s.fseq + 1) ∧
      (kind.write = false → kind.tap = false → t.out.rdata = 0xFFFFFFFF) ∧
      ((kind.write = true ∨ kind.tap = true) → t.out.rdata = s.out.rdata) ∧
      (kind.tap = true → t.jtag.dr.getLsbD 25 = true ∧ t.jtag.dr.getLsbD 26 = true ∧
        (kind.write = false → bitsOf t.jtag.dr.toNat 63 32 = 0xFFFFFFFF)) ∧ (kind.tap = false → t.jtag = s.jtag) ∧
      SameBytes s t ∧ t.jobs = s.jobs ∧
      RegsBut [3, 20, 28, ERR_SUMMARY_CLASSES.key, ERR_CORRECTED_COUNT.key, ERR_CE_LOST_COUNT.key, ERR_EVENT_SEQ.key] s t) ∧
    (inStopped s (bitsOf off.toNat 23 16 * 256) = true → exec (.regTimeout off kind) s = .next s) ∧
    (∀ (be : BitVec 4) (data : W32), Canonical s → (inStopped s (256 * bitsOf off.toNat 23 16) = true ∨ s.accessQ ≠ []) →
      exec (.registerWrite off be ⟨data, none⟩) s = .next { s with accessQ := s.accessQ ++ [.write 0 off.toNat be data] })

/-- A write of 1 to GLB_SNAP.SNAP while BUSY reads 1 is ignored (R72). -/
def Obligations.SnapWriteWhileBusyIgnored : Prop :=
  ∀ s : State, s.phase = .ready → s.accessQ = [] → bitOf (readReg s GLB_SNAP_SNAP.key).toNat 1 = true → exec .glbSnap s = .next s

/-- Snapshots. A write of GLB_SNAP.SNAP asks for a copy 200 reference ticks later, and BUSY then reads 1. The copy, at its tick
or after it: every counter of every block stands in its holding register, GLB_SNAP_TICK holds the tick, SNAP_DONE is set, GLB_SNAP_COUNT grows by one and BUSY falls; the counters themselves
stay. Before its tick nothing happens.
It rests on choices of the model, log entries 3 and 38. -/
def Obligations.SnapshotsCopyEveryCounter : Prop :=
  (∀ s : State, s.phase = .ready → s.accessQ = [] → s.snapAt = none →
    exec .glbSnap s = .next { s with snapAt := some (s.now + 200) } ∧
    bitOf (readReg { s with snapAt := some (s.now + 200) } GLB_SNAP_SNAP.key).toNat 1 = true) ∧
  (∀ (s : State) (at_ : Nat), s.phase = .ready → s.snapAt = some at_ →
    (s.now < at_ → exec .snapshotCopy s = .next s) ∧
    (at_ ≤ s.now → ∃ t, exec .snapshotCopy s = .next t ∧ t.snapAt = none ∧
      (∀ p ∈ snapCopies, ∀ n, n < p.2.2.2 →
        getReg t (regKey p.1 (p.2.2.1 + n)) = getReg s (regKey p.1 (p.2.1 + n)) ∧
        getReg t (regKey p.1 (p.2.1 + n)) = getReg s (regKey p.1 (p.2.1 + n))) ∧
      getReg t GLB_SNAP_TICK_LO_TICK.key = BitVec.ofNat 32 (glbTick s) ∧
      getReg t GLB_SNAP_TICK_HI_TICK.key = BitVec.ofNat 32 (glbTick s / 2 ^ 32) ∧
      Raised GLB_EVENT_SNAP_DONE s t ∧ Counted GLB_SNAP_COUNT_COUNT 1 s t ∧ SameBytes s t ∧ t.jobs = s.jobs))

/-- Configuration drift. CAPTURE raises HOLD. The end of a pass stores its result; a pass that serves a capture loads
GLB_CFG_REF with it, and the next pass serves the captures that came during this one; a pass that differs from
GLB_CFG_REF with CHECK 1 and HOLD 0 sets CFG_DRIFT and counts.
It rests on choices of the model, log entry 37. -/
def Obligations.CrcPassServesCaptureAndChecks : Prop :=
  ∀ s : State, s.phase = .ready →
    (s.accessQ = [] → exec .cfgCapture s = .next { s with captureNext := true } ∧
      bitOf (readReg { s with captureNext := true } GLB_CFG_CTL_CHECK.key).toNat 2 = true) ∧
    (s.captureNow = true → ∃ t, exec .cfgCrcPassEnd s = .next t ∧ getReg t GLB_CFG_CRC_CRC.key = passCrc s ∧
      getReg t GLB_CFG_REF_REF.key = passCrc s ∧ t.captureNow = s.captureNext ∧ t.captureNext = false ∧
      OnlyRegs [17, 18] s { t with captureNow := s.captureNow, captureNext := s.captureNext, passStart := s.passStart, passOld := s.passOld }) ∧
    (s.captureNow = false → s.captureNext = false → flag s GLB_CFG_CTL_CHECK = true →
      passCrc s ≠ getReg s GLB_CFG_REF_REF.key → flag s ERR_CTL_DRIFT_FAIL = false →
      ∃ t, exec .cfgCrcPassEnd s = .next t ∧ getReg t GLB_CFG_CRC_CRC.key = passCrc s ∧
        getReg t GLB_CFG_REF_REF.key = getReg s GLB_CFG_REF_REF.key ∧
        Raised GLB_EVENT_CFG_DRIFT s t ∧ Counted GLB_CNT_DRIFT_COUNT 1 s t ∧ Counted ERR_CORRECTED_COUNT 1 s t ∧ t.jobs = s.jobs)

/-! ### Berths, flash and the residue injection -/

/-- Berths. BERTH_COMMIT checks the berth that is not active, shows the outcome, sets BERTH_DONE, and records only a berth that
passes, as trial for the next cold start. BERTH_CONFIRM while the start watchdog runs stops it, confirms the active berth and
records it without trial; with no watchdog running nothing changes. BERTH_RETURN_PREV records the previous berth when it is
confirmed, and is refused otherwise. The watchdog's expiry, at its last cycle, begins a cold start from the previous berth.
It rests on choices of the model, log entries 3, 18, 19, 20 and 111. -/
def Obligations.BerthsCommittedConfirmedAbandoned : Prop :=
  (∀ s : State, s.phase = .ready → s.accessQ = [] →
    ∃ t, exec .berthCommit s = .next t ∧ getF t GLB_BERTH_STAT_RESULT = berthCheck s (inactiveBerth s) ∧
      Raised GLB_EVENT_BERTH_DONE s t ∧ RegsBut [3, 33] s t ∧ SameBytes s t ∧ t.flash = s.flash ∧
      (berthCheck s (inactiveBerth s) = 1 →
        decision t = (inactiveBerth s, getF s GLB_BERTH_STAT_ACTIVE, true) ∧ t.backup.witness = true) ∧
      (berthCheck s (inactiveBerth s) ≠ 1 → t.backup = s.backup)) ∧
  (∀ s : State,
    (s.phase = .ready → s.accessQ = [] → ∀ n, s.flash.wdog = some (n + 1) → getF s GLB_BERTH_STAT_ACTIVE ≠ 0 → getF s GLB_BERTH_STAT_ACTIVE ≠ 3 →
      ∃ t, exec .berthConfirm s = .next t ∧ t.flash.wdog = none ∧ confirmed t (getF s GLB_BERTH_STAT_ACTIVE) = true ∧
        decision t = (getF s GLB_BERTH_STAT_ACTIVE, getF s GLB_BERTH_STAT_PREVIOUS, false) ∧
        getF t GLB_BERTH_STAT_TRIAL = 0 ∧ getF t GLB_BERTH_STAT_RESULT = 1 ∧ RegsBut [33] s t ∧ SameBytes s t) ∧
    (s.phase = .ready → s.accessQ = [] → (s.flash.wdog = none ∨ s.flash.wdog = some 0) → exec .berthConfirm s = .next s) ∧
    (s.phase = .ready → s.accessQ = [] → confirmed s (getF s GLB_BERTH_STAT_PREVIOUS) = true →
      ∃ t, exec .berthReturnPrev s = .next t ∧
        decision t = (getF s GLB_BERTH_STAT_PREVIOUS, getF s GLB_BERTH_STAT_ACTIVE, false) ∧
        getF t GLB_BERTH_STAT_RESULT = 1 ∧ t.flash = s.flash ∧ RegsBut [33] s t ∧ SameBytes s t) ∧
    (s.phase = .ready → s.accessQ = [] → confirmed s (getF s GLB_BERTH_STAT_PREVIOUS) = false →
      ∃ t, exec .berthReturnPrev s = .next t ∧ getF t GLB_BERTH_STAT_RESULT = 4 ∧ OnlyRegs [33] s t) ∧
    (s.phase = .ready → s.flash.wdog = some 0 →
      ∃ t, exec .startWatchdogExpiry s = .next t ∧ t.phase = .starting false 4 ∧ t.flash.wdog = none ∧
        decision t = (getF s GLB_BERTH_STAT_PREVIOUS, getF s GLB_BERTH_STAT_ACTIVE, !(confirmed s (getF s GLB_BERTH_STAT_PREVIOUS))) ∧
        t.regs = s.regs ∧ SameBytes s t) ∧
    (s.phase = .ready → ∀ n, s.flash.wdog = some (n + 1) → exec .startWatchdogExpiry s = .next s))

/-- Flash operations. A program or an erase that touches the active berth's span is refused with ERROR; a read, and any
operation elsewhere, begins. At its end BUSY falls and ERROR shows the outcome: a read leaves the word in GLB_XSPI_DATA; a
program clears the bits the word has at 0 in its four bytes and no other; an erase leaves 0xFF in its 64 KiB block and no
other byte changed; an operation that failed changes no byte.
It rests on choices of the model, log entries 6 and 22. -/
def Obligations.FlashOperationsBeginAndEnd : Prop :=
  (∀ s : State, s.phase = .ready → s.accessQ = [] → s.flash.xspiOp = none →
    let addr := getF s GLB_XSPI_ADDR_ADDR
    let data := getReg s GLB_XSPI_DATA_DATA.key
    let active := getF s GLB_BERTH_STAT_ACTIVE
    let blk := addr / 65536 * 65536
    (∃ t, exec .xspiReadWord s = .next t ∧ t.flash.xspiOp = some (0, addr, data) ∧ RegsBut [42] s t ∧ SameFrame s t) ∧
    ((active = 0 ∨ addr ≥ berthBase active + berthSpan ∨ addr + 4 ≤ berthBase active) →
      ∃ t, exec .xspiProgramWord s = .next t ∧ t.flash.xspiOp = some (1, addr, data) ∧ RegsBut [42] s t ∧ SameFrame s t) ∧
    (active ≠ 0 → addr < berthBase active + berthSpan → berthBase active < addr + 4 →
      ∃ t, exec .xspiProgramWord s = .next t ∧ getF t GLB_XSPI_STAT_ERROR = 1 ∧ t.flash = s.flash ∧ OnlyRegs [42, 43] s t) ∧
    ((active = 0 ∨ blk ≥ berthBase active + berthSpan ∨ blk + 65536 ≤ berthBase active) →
      ∃ t, exec .xspiErase s = .next t ∧ t.flash.xspiOp = some (2, addr, data) ∧ RegsBut [42] s t ∧ SameFrame s t) ∧
    (active ≠ 0 → blk < berthBase active + berthSpan → berthBase active < blk + 65536 →
      ∃ t, exec .xspiErase s = .next t ∧ getF t GLB_XSPI_STAT_ERROR = 1 ∧ t.flash = s.flash ∧ OnlyRegs [42, 43] s t)) ∧
  (∀ (s : State) (addr : Nat) (w : W32), s.phase = .ready →
    (s.flash.xspiOp = some (0, addr, w) → ∃ t, exec (.xspiOpDone true) s = .next t ∧ t.flash = { s.flash with xspiOp := none } ∧
      getF t GLB_XSPI_STAT_ERROR = 0 ∧
      getReg t GLB_XSPI_DATA_DATA.key = BitVec.ofNat 32 (leNat ((List.range 4).map (fun i => flashByte s (addr + i)))) ∧
      RegsBut [41, 43] s t ∧ SameFrame s t) ∧
    (s.flash.xspiOp = some (1, addr, w) → ∃ t, exec (.xspiOpDone true) s = .next t ∧ t.flash.xspiOp = none ∧
      getF t GLB_XSPI_STAT_ERROR = 0 ∧
      (∀ i, i < 4 → flashByte t (addr + i) = flashByte s (addr + i) &&& BitVec.ofNat 8 (w.toNat / 2 ^ (8 * i))) ∧
      (∀ a, (a < addr ∨ addr + 4 ≤ a) → flashByte t a = flashByte s a) ∧ RegsBut [43] s t ∧ SameFrame s t) ∧
    (s.flash.xspiOp = some (2, addr, w) → ∃ t, exec (.xspiOpDone true) s = .next t ∧ t.flash.xspiOp = none ∧
      getF t GLB_XSPI_STAT_ERROR = 0 ∧
      (∀ a, flashByte t a = if addr / 65536 * 65536 ≤ a ∧ a < addr / 65536 * 65536 + 65536 then 0xFF else flashByte s a) ∧
      RegsBut [43] s t ∧ SameFrame s t) ∧
    (∀ op, s.flash.xspiOp = some (op, addr, w) → ∃ t, exec (.xspiOpDone false) s = .next t ∧
      t.flash = { s.flash with xspiOp := none } ∧ getF t GLB_XSPI_STAT_ERROR = 1 ∧ RegsBut [43] s t ∧ SameFrame s t))

/-! ### Rings and the jobs of the ring engine -/

/-- A TAIL doorbell, at every context and with every value. Without all byte enables it sets DB_BAD and counts as bad. On a
flushing context it only sets DB_FLUSHED. On a cyclic context whose descriptors have all completed it starts the cycle at
CYC.START; while some have not it only sets CYC_OVERRUN and counts. On any other, a TAIL that R431 accepts becomes the new tail
and counts, and one that it does not sets DB_BAD and counts as bad. TAIL counts modulo the ring's size.
It rests on choices of the model, log entry 106. -/
def Obligations.TailDoorbellsOfEveryContext : Prop :=
  ∀ (s : State) (k : Fin 8) (be : BitVec 4) (data : W32), s.phase = .ready → s.accessQ = [] →
    let c := getCtx s k
    let n := sqSize s k
    let tail := fieldOf data 11 0 % n
    let room := (tail + n - c.sqTail) % n ≤ (c.sqHead + 2 * n - c.sqTail - 1) % n
    let idle := c.sqHead = c.sqTail ∧ jobsOf s k = []
    let moves (t : State) (head : Nat) : Prop := (getCtx t k).sqTail = tail ∧ (getCtx t k).sqHead = head ∧
      Counted HIF_DB_WRITES_COUNT 1 s t ∧ (∀ j, j ≠ k.val → getCtx t j = getCtx s j) ∧
      t = { s with regs := t.regs, ctxs := t.ctxs } ∧ RegsBut [HIF_DB_WRITES_COUNT.key] s t
    let bad (t : State) : Prop := Raised HIF_EVENT_DB_BAD s t ∧ Counted HIF_DB_BAD_COUNT 1 s t ∧
      OnlyEvents [HIF_DB_BAD_COUNT.key, HIF_EVENT_DB_BAD.key] s t
    ∃ t, exec (.tailDoorbell k be data) s = .next t ∧
      (be ≠ 0xF → bad t) ∧
      (be = 0xF → c.flushing = true → Raised HIF_EVENT_DB_FLUSHED s t ∧ OnlyEvents [HIF_EVENT_DB_FLUSHED.key] s t) ∧
      (be = 0xF → c.flushing = false → flag s (HIF_CTX_CTL_CYCLIC k) = true → idle → moves t (getF s (HIF_CTX_CYC_START k) % n)) ∧
      (be = 0xF → c.flushing = false → flag s (HIF_CTX_CTL_CYCLIC k) = true → ¬ idle →
        Raised HIF_EVENT_CYC_OVERRUN s t ∧ Counted (HIF_CTX_OVERRUN_COUNT k) 1 s t ∧
        OnlyEvents [(HIF_CTX_OVERRUN_COUNT k).key, HIF_EVENT_CYC_OVERRUN.key] s t) ∧
      (be = 0xF → c.flushing = false → flag s (HIF_CTX_CTL_CYCLIC k) = false → room → moves t c.sqHead) ∧
      (be = 0xF → c.flushing = false → flag s (HIF_CTX_CTL_CYCLIC k) = false → ¬ room → bad t)

/-- A HEAD doorbell of a context that overwrites nothing passes completions that are written, and counts; a head beyond them,
or a write without all byte enables, is refused with DB_BAD. On a context that overwrites a write with all byte
enables has no effect.
It rests on choices of the model, log entry 3. -/
def Obligations.HeadDoorbellPassesWrittenCompletions : Prop :=
  ∀ (s : State) (k : Fin 8) (be : BitVec 4) (data : W32), s.phase = .ready → s.accessQ = [] →
    let h := fieldOf data 11 0
    let n := cqSize s k
    let room := (h + n - (getCtx s k).cqHead) % n ≤ ((getCtx s k).cqTail + n - (getCtx s k).cqHead) % n
    (flag s (HIF_CTX_CTL_CQ_OVERWRITE k) = false → be = 0xF → h < n → room →
      ∃ t, exec (.headDoorbell k be data) s = .next t ∧ getCtx t k = { getCtx s k with cqHead := h } ∧
        Counted HIF_DB_WRITES_COUNT 1 s t ∧ (∀ j, j ≠ k.val → getCtx t j = getCtx s j) ∧
        t = { s with regs := t.regs, ctxs := t.ctxs } ∧ RegsBut [HIF_DB_WRITES_COUNT.key] s t) ∧
    ((be ≠ 0xF ∨ flag s (HIF_CTX_CTL_CQ_OVERWRITE k) = false ∧ (h ≥ n ∨ ¬ room)) →
      ∃ t, exec (.headDoorbell k be data) s = .next t ∧ Raised HIF_EVENT_DB_BAD s t ∧ Counted HIF_DB_BAD_COUNT 1 s t ∧
        OnlyEvents [HIF_DB_BAD_COUNT.key, HIF_EVENT_DB_BAD.key] s t) ∧
    (flag s (HIF_CTX_CTL_CQ_OVERWRITE k) = true → be = 0xF → exec (.headDoorbell k be data) s = .next s)

/-- A fetch of an available descriptor that reads whole: the head moves on by one, the job takes the next SUBSEQ and
joins the jobs in flight. A sound descriptor waits for its start; one with a reserved or out-of-range field completes
FAULT_ABORT, with its offset in DETAIL, without starting. A context that cannot fetch fetches nothing.
It rests on choices of the model, log entry 3. -/
def Obligations.DescriptorFetchTakesNextSubseq : Prop :=
  ∀ (s s' : State) (k : Fin 8) (r : List Byte), s.phase = .ready → s.raised = [] →
    (canFetch s k = false → exec (.descriptorFetch k) s = .next s) ∧
    (canFetch s k = true → runOp (readVa none k (sqVa s k (getCtx s k).sqHead) 64 true) s = (.ok r, s') →
      let c := getCtx s' k
      let p := (c.presented.find? (fun p => decide (p.pos = c.sqHead))).getD ⟨c.sqHead, frameCounts s', s'.writes, false⟩
      let j := newJob k c.subseq c.sqHead (parseDesc r) p
      inFlightRoom s' k (decide (effClass s' j = 0)) = true → c.flushing = false → p.late = false →
      ∃ t, exec (.descriptorFetch k) s = .next t ∧ (getCtx t k).sqHead = (c.sqHead + 1) % sqSize s' k ∧
        (getCtx t k).subseq = c.subseq + 1 ∧ Counted HIF_FETCHED_COUNT 1 s' t ∧ SameBytes s t ∧
        (descBad r = none → posBad s' j = false → waitsOnSelf s' j = false → t.jobs = s'.jobs ++ [j]) ∧
        (∀ off, descBad r = some off → findJob s' k c.subseq = none →
          DoneDetail t k c.subseq 6 (BitVec.ofNat 32 (0xFFFF0000 + off))))

/-- NOP, FENCE and WAIT jobs. A NOP completes OK when it is ready, a FENCE when besides every earlier descriptor of its ring
has completed. A WAIT whose condition holds completes OK with the value observed in DETAIL: SEQ (the context has completed
more than VALUE descriptors), POS (the position has been written since the doorbell), LANDING (VALUE frames since the doorbell),
GEN (the generation reaches VALUE); a started WAIT whose TIMEOUT has elapsed with its condition not holding completes LATE,
before that the timeout does nothing, and a TIMEOUT of 0 never elapses. No register, memory or ring changes. -/
def Obligations.NopFenceAndWaitJobsComplete : Prop :=
  (∀ (s : State) (k : Fin 8) (sub : W32) (j : Job), s.phase = .ready → findJob s k sub = some j → JobReady s j (isTurn s j) →
    (j.desc.body = .nop → ∃ t, exec (.jobNop k sub) s = .next t ∧ DoneWith t k sub 0 ∧ t.regs = s.regs ∧ t.ctxs = s.ctxs ∧
      SameFrame s t) ∧
    (j.desc.body = .fence → earlierJobs s j = [] → ∃ t, exec (.jobFence k sub) s = .next t ∧ DoneWith t k sub 0 ∧
      t.regs = s.regs ∧ t.ctxs = s.ctxs ∧ SameFrame s t)) ∧
  ((∀ (s : State) (k : Fin 8) (sub : W32) (j : Job) (w tmo : Nat) (v : W32), s.phase = .ready → findJob s k sub = some j →
    JobReady s j (isTurn s j) →
    (j.desc.body = .wait 0 w v tmo → v.toNat < (getCtx s w).completed → ∃ t, exec (.jobWaitSeq k sub) s = .next t ∧
      DoneDetail t k sub 0 v ∧ t.regs = s.regs ∧ t.ctxs = s.ctxs ∧ SameFrame s t) ∧
    (j.desc.body = .wait 1 w v tmo → smGet 0 s.written (w * 4096 + v.toNat) / 2 ^ 32 > j.writesSeen →
      ∃ t, exec (.jobWaitPos k sub) s = .next t ∧
        DoneDetail t k sub 0 (BitVec.ofNat 32 (smGet 0 s.written (w * 4096 + v.toNat) % 2 ^ 32)) ∧
        t.regs = s.regs ∧ t.ctxs = s.ctxs ∧ SameFrame s t) ∧
    (j.desc.body = .wait 2 w v tmo → (getReg s (CAP_CH_FRAMES_COUNT w).key - j.frames.getD w 0).toNat ≥ v.toNat →
      ∃ t, exec (.jobWaitLanding k sub) s = .next t ∧ DoneDetail t k sub 0 (getReg s (CAP_CH_FRAMES_COUNT w).key) ∧
        t.regs = s.regs ∧ t.ctxs = s.ctxs ∧ SameFrame s t) ∧
    (j.desc.body = .wait 3 w v tmo → (s.world.word - v).toNat < 2 ^ 31 → ∃ t, exec (.jobWaitGen k sub) s = .next t ∧
      DoneDetail t k sub 0 s.world.word ∧ t.regs = s.regs ∧ t.ctxs = s.ctxs ∧ SameFrame s t)) ∧
  (∀ (s : State) (k : Fin 8) (sub : W32) (j : Job) (c w tmo : Nat) (v : W32), s.phase = .ready → findJob s k sub = some j →
    j.desc.body = .wait c w v tmo → j.phase = .running →
    (tmo ≠ 0 → s.now ≥ j.startedAt + 100 * tmo → (waitState s j).1 = false →
      ∃ t, exec (.jobWaitTimeout k sub) s = .next t ∧ DoneDetail t k sub 3 (waitState s j).2 ∧ t.regs = s.regs ∧
        t.ctxs = s.ctxs ∧ SameFrame s t) ∧
    ((tmo = 0 ∨ s.now < j.startedAt + 100 * tmo) → exec (.jobWaitTimeout k sub) s = .next s)))

/-- COMPLETION_WRITE first tries the poison lists of done jobs. Then the oldest job in flight, once done with its results
visible and with no record of it waiting, has its completion written: the 32 bytes stand at the completion ring's tail, the job
leaves flight, the write is numbered and counted. -/
def Obligations.CompletionWrittenForOldestDoneJob : Prop :=
  ∀ (s s1 s2 : State) (k : Fin 8) (j : Job) (rest : List Job), s.phase = .ready → s.raised = [] →
    (jobsOf s k).foldl writeList s = s1 → jobsOf s1 k = j :: rest → j.settled = true → recordWaits s1 j = false →
    runOp (writeVa none k (cqVa s1 k (getCtx s1 k).cqTail) (completionBytes j (getCtx s1 k).cqPhase) true false (0, 0)) s1 =
      (.ok (), s2) →
    ∃ t, exec (.completionWrite k) s = .next t ∧ (∀ a, memByte t a = memByte s2 a) ∧ findJob t k j.sub = none ∧
      t.writes = s2.writes + 1 ∧ smGet 0 t.written (k * 4096 + j.pos) = (s2.writes + 1) * 2 ^ 32 + j.sub.toNat ∧
      Counted HIF_COMPLETED_COUNT 1 s2 t ∧
      ((getCtx s2 k).stopping = false → (getCtx t k).cqTail = ((getCtx s2 k).cqTail + 1) % cqSize s2 k ∧
        (getCtx t k).completed = (getCtx s2 k).completed + 1)

/-- The coalescing timeout, US microseconds after the first unannounced completion, announces: the count starts anew,
and the context's vector is sent, or becomes pending while it is blocked. A waiting mirror write is dropped
after 10 µs, not before 9: that counts and sets MIRROR_DROP. -/
def Obligations.CoalescingTimeoutAndMirrorDrop : Prop :=
  ∀ (s : State) (k : Fin 8), s.phase = .ready →
    (∀ at_, (getCtx s k).irqSince = some at_ → getF s (HIF_CTX_IRQ_US k) ≠ 0 → s.now ≥ at_ + 100 * getF s (HIF_CTX_IRQ_US k) →
      ∃ t, exec (.irqCoalesceTimeout k) s = .next t ∧ getCtx t k = { getCtx s k with irqCount := 0, irqSince := none } ∧
        (∀ j, j ≠ k.val → getCtx t j = getCtx s j) ∧ t.regs = s.regs ∧ SameFrame s t ∧
        (msixBlocked s k = true → k.val ∈ t.msixPending ∧ t.out = s.out) ∧
        (msixBlocked s k = false → k.val ∉ t.msixPending ∧ ∃ a, t.out.msix = (k.val, a, msixWord s (4 * k + 2)) :: s.out.msix)) ∧
    (∀ a bytes since r, (getCtx s k).mirrorWait = (a, bytes, since) :: r → s.now < since + 900 →
      exec (.completionMirrorDrop k) s = .next s) ∧
    (∀ a bytes since r, (getCtx s k).mirrorWait = (a, bytes, since) :: r → since + 900 ≤ s.now → ∃ t, exec (.completionMirrorDrop k) s = .next t ∧
      getCtx t k = { getCtx s k with mirrorWait := r } ∧ Raised HIF_EVENT_MIRROR_DROP s t ∧ Counted HIF_MIRROR_DROP_COUNT 1 s t ∧
      RegsBut [HIF_MIRROR_DROP_COUNT.key, HIF_EVENT_MIRROR_DROP.key] s t ∧ t.jobs = s.jobs ∧ SameFrame s t)

/-- A flush completes every fetched job of its context that has not started FLUSHED; a disable completes every job the
context holds and presents nothing more; an enable begins a new session, with the rings empty and SUBSEQ at 0.
It rests on choices of the model, log entry 3. -/
def Obligations.ContextFlushDisableEnable : Prop :=
  ∀ (s : State) (k : Fin 8), s.phase = .ready → s.accessQ = [] →
    (flag s (HIF_CTX_CTL_EN k) = true → ∃ t, exec (.hifCtxFlush k) s = .next t ∧ SameFrame s t ∧
      ∀ sub j, findJob s k sub = some j → j.unstarted = true → DoneWith t k sub 4) ∧
    (flag s (HIF_CTX_CTL_EN k) = true → ∃ t, exec (.hifCtxDisable k) s = .next t ∧ SameFrame s t ∧
      getF t (HIF_CTX_CTL_EN k) = 0 ∧ (getCtx t k).sqTail = (getCtx t k).sqHead ∧ (getCtx t k).presented = [] ∧
      ((getCtx t k).stopping = !(jobsOf t k).isEmpty) ∧
      (∀ sub j, findJob s k sub = some j → ∃ x, findJob t k sub = some x ∧ x.phase = .done) ∧
      (∀ sub j, findJob s k sub = some j → j.phase ≠ .done → j.desc.body.isMoor = false → DoneWith t k sub 1) ∧
      (∀ sub j a b d, findJob s k sub = some j → j.phase ≠ .done → j.desc.body = .moor a b d →
        (∀ x ∈ s.jobs, x.ctx = a → x.sub = b → x.desc.body.isMoor = false) → DoneWith t k sub 1)) ∧
    (flag s (HIF_CTX_CTL_EN k) = false → (getCtx s k).stopping = false → ∃ t, exec (.hifCtxEnable k) s = .next t ∧
      SameFrame s t ∧ getF t (HIF_CTX_CTL_EN k) = 1 ∧ (getCtx t k).sqHead = 0 ∧ (getCtx t k).sqTail = 0 ∧
      (getCtx t k).cqTail = 0 ∧ (getCtx t k).subseq = 0 ∧ (getCtx t k).cqPhase = true ∧ (getCtx t k).completed = 0 ∧
      t.jobs = s.jobs ∧ (∀ j, j ≠ k.val → getCtx t j = getCtx s j)) ∧
    (flag s (HIF_CTX_CTL_EN k) = true → exec (.hifCtxEnable k) s = .next s) ∧
    (flag s (HIF_CTX_CTL_EN k) = false → exec (.hifCtxFlush k) s = .next s ∧ exec (.hifCtxDisable k) s = .next s)

/-! ### Jobs of the copy engine, the world unit, the planner, the tests and the cores -/

/-- COPY and FILL jobs write every burst from the first byte not yet written and complete OK: device and host memory
are as the bursts left them. -/
def Obligations.CopyAndFillJobsCompleteOk : Prop :=
  ∀ (s u : State) (k : Fin 8) (sub : W32) (j x : Job) (dst len : Nat), s.phase = .ready → s.raised = [] →
    findJob s k sub = some j → JobReady s j (copyFree s && isTurn s j) → findJob (working s j) k sub = some x →
    x.pendingMoors = [] → x.desc.body = j.desc.body → x.desc.manifest = false →
    (x.desc.body.isDigest = true → x.digestData = [] → openDigests (working s j) < 32) →
    j.desc.body.copyRange = (dst, len) →
    runOp (eachOp (fun p => copyBurst x.ctx x.sub x.desc.body (p.1 - dst) p.2) (bursts (dst + x.progress) (len - x.progress)))
      (working s j) = (.ok (), u) → (findJob u k sub).map Job.desc = some x.desc →
    (∀ src d, j.desc.body = .copy src dst len d → ∃ t, exec (.jobCopy k sub) s = .next t ∧
      ((findJob u k sub).map Job.isDone = some false → DoneWith t k sub 0) ∧ SameBytes u t ∧ t.regs = u.regs) ∧
    (∀ p, j.desc.body = .fill dst len p → ∃ t, exec (.jobFill k sub) s = .next t ∧
      ((findJob u k sub).map Job.isDone = some false → DoneWith t k sub 0) ∧ SameBytes u t ∧ t.regs = u.regs)

/-- A WORLD job whose records merge commits one generation: WLD_GEN grows by one, the new number is the DETAIL of its
OK completion, and every brick no record changed stands as it stood.
It rests on choices of the model, log entry 56. -/
def Obligations.WorldJobCommitsOneGeneration : Prop :=
  ∀ (s u : State) (k : Fin 8) (sub : W32) (j x : Job) (list count : Nat) (m : Merge), s.phase = .ready → s.raised = [] →
    findJob s k sub = some j → j.desc.body = .world list count → JobReady s j (worldFree s && isTurn s j) →
    findJob (working s j) k sub = some x → x.pendingMoors = [] → x.desc.body = .world list count →
    runOp (mergeRecords (some (k.val, sub)) k count list ⟨[], (presentBricks s.world).length⟩) (working s j) = (.ok m, u) →
    ∃ t, exec (.jobWorld k sub) s = .next t ∧ t.world.gen = u.world.gen + 1 ∧
      ((findJob u k sub).map Job.isDone = some false → DoneDetail t k sub 0 (BitVec.ofNat 32 (u.world.gen + 1))) ∧
      (∀ n, smGet none m.changes n = none → (∀ p ∈ m.changes, p.1 ≠ n) → getBrick t.world n = getBrick u.world n) ∧ SameBytes u t

/-- A PLAN job of each kind whose request can be read, and whose search ends, writes its result record and completes
OK with the result code in DETAIL. A LOAD_CHAIN writes no record (the model's reading).
It rests on choices of the model, log entries 56, 57, 58 and 110. -/
def Obligations.PlanJobsWriteResultAndComplete : Prop :=
  ∀ (s s0 s1 s2 u : State) (k : Fin 8) (sub : W32) (j x y : Job) (request : Nat) (r : List Byte) (e : PlanEnd) (q : Nat) (d : Planned),
    s.phase = .ready → s.raised = [] → findJob s k sub = some j → j.desc.body = .plan request → requestOf s j = some r →
    JobReady s j (chainTurn s j) → findJob (working s j) k sub = some x → x.pendingMoors = [] → x.planned = none →
    x.desc = j.desc → x.ctx = k → x.sub = sub →
    runOp (readVa (some (k.val, sub)) k request 128 false) (working s j) = (.ok r, s1) →
    chainBusy (working s j) x (recNat r 1 1) = false →
    s0 = updJob s1 k sub (fun y => { y with progress := if requestOk r then recNat r 1 1 + 1 else 0, hostWait := none }) →
    runOp (if requestPlace s0 k request then planRequest k sub j.desc.seed r else pure (some (planEnd 7 0 0, 0))) s0 =
      (.ok (some (e, q)), s2) →
    findJob (noteOutcome s2 ⟨k, sub, recNat r 1 1, [], [], j.desc.seed, r⟩ r e q) k sub = some y → y.planned = some d →
    y.isDone = false →
    runOp (writeVa (some (k.val, sub)) k (recNat r 24 4) d.record false true (0, 0))
      (noteOutcome s2 ⟨k, sub, recNat r 1 1, [], [], j.desc.seed, r⟩ r e q) = (.ok (), u) →
    (findJob u k sub).map Job.isDone = some false →
    ∀ p ∈ [(Instr.planTree k sub, 0), (.planRoadmapGrow k sub, 1), (.planRoadmapQuery k sub, 2), (.planRepair k sub, 3),
      (.planLoadChain k sub, 4)], recNat r 0 1 = p.2 →
      ∃ t, exec p.1 s = .next t ∧ DoneDetail t k sub 0 (BitVec.ofNat 32 d.code) ∧ SameBytes u t ∧ t.chains = u.chains

/-- A self-test with nothing to wait for and a free range runs: a memory test leaves zeros in its range and no other byte
changed, an array, Geyser, collision or read test leaves memory alone; a test that finds no failure completes OK, and
one that finds one completes TEST_FAIL with the failure code.
It rests on choices of the model, log entries 10 and 65. -/
def Obligations.SelfTestsRunAndComplete : Prop :=
  ∀ (s : State) (k : Fin 8) (sub : W32) (failure : BitVec 8) (off : W32) (j : Job) (n unit base len : Nat),
    s.phase = .ready → s.raised = [] → findJob s k sub = some j → j.desc.body = .test n unit base len → JobReady s j (isTurn s j) →
    testHolds (working s j) unit = [] → testAllowed (working s j) = true → testRangeFree (working s j) n unit base len = true →
    ∀ p ∈ [(Instr.testPoolMbist k sub failure off, 0), (.testBasinMbist k sub failure off, 1),
      (.testStoreMbist k sub failure off, 2), (.testArrayBist k sub failure off, 3), (.testGeyserBist k sub failure off, 4),
      (.testCollisionBist k sub failure off, 5), (.testReadCheck k sub failure off, 6)], n = p.2 →
      ∃ t, exec p.1 s = .next t ∧
        (failure = 0 → DoneDetail t k sub 0 0) ∧ (failure ≠ 0 → DoneDetail t k sub 11 (BitVec.ofNat 32 failure.toNat)) ∧
        (n = 0 → ∀ a, memByte t a = if poolBase unit + base ≤ a ∧ a < poolBase unit + base + len then 0 else memByte s a) ∧
        (n = 1 → ∀ a, memByte t a = if basinBase + base ≤ a ∧ a < basinBase + base + len then 0 else memByte s a) ∧
        (n = 2 → ∀ a, memByte t a = if storeBase ≤ a ∧ a < storeBase + storeSize then 0 else memByte s a) ∧
        (n ≥ 3 → SameBytes s t)

/-- A RUN job whose image is checked goes to the core its placement names, when it is the next for it: it runs there,
resident. One that no core can host completes NO_FIT with the reason in DETAIL. A RUN job not yet checked is checked
first and then placed the same way. -/
def Obligations.RunJobsArePlacedOrDoNotFit : Prop :=
  ∀ (s : State) (k : Fin 8) (sub : W32) (j : Job) (image sect args : Nat), s.phase = .ready → s.raised = [] → findJob s k sub = some j →
    j.desc.body = .run image sect args → mayStart s j = true → commonEnabled s = true →
    (∀ r c, j.run = some r → placement s k j.desc.units r.image = .at c → isNext s (corePerformer c) j (rivalFor s c) = true →
      coreEnabled s c r.needs = true → ∃ t, exec (.jobRun k sub) s = .next t ∧
        (∃ x, findJob t k sub = some x ∧ x.phase = .running ∧ x.unit = c) ∧ (k.val, sub) ∈ (getCore t c).resident ∧
        SameBytes s t ∧ t.regs = s.regs) ∧
    (∀ r code, j.run = some r → placement s k j.desc.units r.image = .noFit code →
      ∃ t, exec (.jobRun k sub) s = .next t ∧ DoneDetail t k sub 2 (BitVec.ofNat 32 code) ∧ SameBytes s t ∧ t.regs = s.regs) ∧
    (∀ im va nsteps needs l s1 s2, j.run = none → runOp (admitImage k sub image sect) s = (.ok (im, va, nsteps, needs), s1) →
      runOp (readArgs k sub args im.decl.args) s1 = (.ok l, s2) →
      let r : RunState := {
        core := 4, pc := 0, counters := [], nsteps := nsteps, stepsVa := va, image := im, needs := needs, args := l, cover := []
        waitFrom := 0, saved := none, ranSince := 0, admitNo := 0, block := none, stepAt := 0 }
      let s3 := updJob s2 k sub (fun x => { x with run := some r, hostWait := none })
      ∀ x, findJob s3 k sub = some x → x.isDone = false →
        (∀ code, placement s3 k x.desc.units im = .noFit code →
          ∃ t, exec (.jobRun k sub) s = .next t ∧ DoneDetail t k sub 2 (BitVec.ofNat 32 code)) ∧
        (∀ c, placement s3 k x.desc.units im = .at c → isNext s3 (corePerformer c) x (rivalFor s3 c) = true → coreEnabled s3 c needs = true →
          ∃ t, exec (.jobRun k sub) s = .next t ∧ (∃ y, findJob t k sub = some y ∧ y.phase = .running ∧ y.unit = c) ∧
            (k.val, sub) ∈ (getCore t c).resident))

/-- A MOOR job: a target that is gone or done completes it with DETAIL 2, one that never moors with 3, one not started is
held before its start with 0; a running target has the mooring pending and the MOOR job runs on. -/
def Obligations.MoorJobsReachTheirTarget : Prop :=
  ∀ (s : State) (k : Fin 8) (sub : W32) (j : Job) (tc : Nat) (ts : W32) (dry : Bool), s.phase = .ready →
    findJob s k sub = some j → j.desc.body = .moor tc ts dry → JobReady s j (isTurn s j) → ¬ (tc = k.val ∧ ts = sub) →
    (findJob s tc ts = none → ∃ t, exec (.jobMoor k sub) s = .next t ∧ DoneDetail t k sub 0 2 ∧ t.regs = s.regs ∧ SameFrame s t) ∧
    (∀ x, findJob s tc ts = some x → x.desc.body.neverMoors = true → ∃ t, exec (.jobMoor k sub) s = .next t ∧
      DoneDetail t k sub 0 3 ∧ t.regs = s.regs ∧ SameFrame s t) ∧
    (∀ x, findJob s tc ts = some x → x.desc.body.neverMoors = false → x.phase = .done → ∃ t, exec (.jobMoor k sub) s = .next t ∧
      DoneDetail t k sub 0 2 ∧ t.regs = s.regs ∧ SameFrame s t) ∧
    (∀ x, findJob s tc ts = some x → x.desc.body.neverMoors = false → x.phase = .queued → ∃ t, exec (.jobMoor k sub) s = .next t ∧
      DoneDetail t k sub 0 0 ∧ (∃ y, findJob t tc ts = some y ∧ y.phase = .held ∧ y.moorings = x.moorings + 1) ∧
      t.regs = s.regs ∧ SameFrame s t) ∧
    (∀ x, findJob s tc ts = some x → x.desc.body.neverMoors = false → x.phase = .running → ∃ t, exec (.jobMoor k sub) s = .next t ∧
      (∃ y, findJob t tc ts = some y ∧ y.phase = .running ∧ (MoorWhy.moorJob, dry && x.run.isSome) ∈ y.pendingMoors) ∧
      (∃ m, findJob t k sub = some m ∧ m.phase = .running) ∧ t.regs = s.regs ∧ SameFrame s t)

/-! ### Sequencer steps -/

/-- The steps of the LANE, GEY and DMA classes: the fourteen VEC steps, GEY, QUANT, pool SURVEY, SIGNAL, and DMA and STORE of
each layout. When the sequencer stands at one and its class queue has room, it issues and the sequencer goes on to the next
step; one that no issued step keeps waiting takes effect at once, and memory, registers and the core are as its work leaves
them. One whose work fails ends its job with the failure's status, and with the step's index in DETAIL where the failure gives
no other. A marked transfer has room for its digest.
It rests on choices of the model, log entries 45 and 112. -/
def Obligations.WorkingStepsGoOn : Prop :=
  ∀ (s s' u : State) (c : Fin 4) (e : Env), s.phase = .ready → s.raised = [] →
    ∀ p ∈ ([(.vecAdd c, isVec 0, vecStep), (.vecSub c, isVec 1, vecStep), (.vecMul c, isVec 2, vecStep),
      (.vecFma c, isVec 3, vecStep), (.vecMin c, isVec 4, vecStep), (.vecMax c, isVec 5, vecStep), (.vecAbs c, isVec 6, vecStep),
      (.vecNeg c, isVec 7, vecStep), (.vecCmp c, isVec 8, vecStep), (.vecSel c, isVec 9, vecStep),
      (.vecScale2 c, isVec 10, vecStep), (.vecCvt c, isVec 11, vecStep), (.vecRowadd c, isVec 12, rowAdd),
      (.vecRowread c, isVec 13, rowRead), (.stepGey c, fun r => decide (stepOp r = 5), geyserStep),
      (.stepQuant c, fun r => decide (stepOp r = 6), quantStep), (.stepStoreLinear c, isStore 0, transferStep true),
      (.stepStoreUnskew c, isStore 3, transferStep true), (.stepDmaLinear c, isDma 0, transferStep false),
      (.stepDmaSkew c, isDma 1, transferStep false), (.stepDmaSkewT c, isDma 2, transferStep false),
      (.stepDmaUnskew c, isDma 3, transferStep false), (.stepSignal c, isOp 11, signalStep),
      (.stepSurveyPool c, fun r => decide (stepOp r = 12) && bitOf (recNat r 2 1) 0, surveyPool)] :
      List (Instr × (StepRec → Bool) × (Env → Op Unit))),
    StandsAt s c p.2.1 e s' → queuedOf (getCore s' c) (stepClass e.r) < 8 →
    mustWait (getCore s' c) (getCore s' c).queue e.r = false →
    ((stepOp e.r = 7 ∨ stepOp e.r = 8) → digestRoom (issueStep s' e) e e.issued = true) →
    (runOp (p.2.2 e) (acting e s') = (.ok (), u) → ∃ t, exec p.1 s = .next t ∧ StepDone e u t) ∧
    (∀ status d q x, runOp (p.2.2 e) (acting e s') = (.error (.fail status d q), u) → findJob u e.k e.sub = some x →
      x.isDone = false → ∃ t, exec p.1 s = .next t ∧ DoneDetail t e.k e.sub status (d.getD (BitVec.ofNat 32 e.idx)))

/-- LOAD_TILE, SWAP, STREAM of both modes, DRAIN and caldera SURVEY. One that issues with nothing before it takes effect at
once, a SWAP for the arrays whose shadow planes are full; while none of the issued steps can act, one more joins its class
queue of eight and the sequencer goes on; while that queue is full the sequencer stays. One whose work fails ends its job.
It rests on choices of the model, log entries 104 and 112. -/
def Obligations.ArrayStepsTakeEffectOrQueue : Prop :=
  ∀ (s s' u : State) (c : Fin 4) (e : Env), s.phase = .ready → s.raised = [] →
    let mine (m : Nat) : Bool := decide (m ≤ 2)
    ∀ p ∈ ([(.stepLoadTile c, fun r => decide (stepOp r = 0)), (.stepSwap c, fun r => decide (stepOp r = 1)),
      (.stepStream c, fun r => decide (stepOp r = 2) && !(bitOf (recNat r 2 1) 0)),
      (.stepStreamTranspose c, fun r => decide (stepOp r = 2) && bitOf (recNat r 2 1) 0),
      (.stepDrain c, fun r => decide (stepOp r = 3)),
      (.stepSurveyCaldera c, fun r => decide (stepOp r = 12) && !(bitOf (recNat r 2 1) 0))] : List (Instr × (StepRec → Bool))),
    StandsAt s c p.2 e s' →
    ((getCore s' c).queue = [] → tileReady (issueStep s' e) e e.issued = true →
      (runOp (performTile e) (acting e s') = (.ok true, u) → ∃ t, exec p.1 s = .next t ∧ StepDone e u t) ∧
      (runOp (performTile e) (acting e s') = (.ok false, u) → Stuck u c mine (tileReady u e) →
        ∃ t, exec p.1 s = .next t ∧ t.jobs = u.jobs ∧ t.cores = u.cores ∧ t.regs = u.regs ∧ SameBytes u t) ∧
      (∀ status d q x, runOp (performTile e) (acting e s') = (.error (.fail status d q), u) → findJob u e.k e.sub = some x →
        x.isDone = false → ∃ t, exec p.1 s = .next t ∧ DoneDetail t e.k e.sub status (d.getD (BitVec.ofNat 32 e.idx)))) ∧
    (queuedOf (getCore s' c) (stepClass e.r) < 8 → Stuck (issueStep s' e) c mine (tileReady (issueStep s' e) e) →
      ∃ t, exec p.1 s = .next t ∧ (getCore t c).queue = (getCore s' c).queue ++ [e.issued] ∧
        t.jobs = (nextStep s' e.k e.sub).jobs ∧ t.regs = s'.regs ∧ SameBytes s' t) ∧
    (8 ≤ queuedOf (getCore s' c) (stepClass e.r) → Stuck s' c mine (tileReady s' e) →
      ∃ t, exec p.1 s = .next t ∧ t.jobs = s'.jobs ∧ t.cores = s'.cores ∧ t.regs = s'.regs ∧ SameBytes s' t)

/-- JUMP with allowed fields: ALWAYS goes to TARGET; DEC_NZ decrements its counter and goes to TARGET when the result is not
zero, else on; SET writes its counter and goes on. No register and no byte of memory changes by it. -/
def Obligations.JumpsMoveTheSequencer : Prop :=
  ∀ (s s' : State) (c : Fin 4) (e : Env) (j : Job) (r : RunState), s.phase = .ready → s.raised = [] → coreJob s' c = some (j, r) →
    j.ctx = e.k → j.sub = e.sub → jumpOk e = true →
    (StandsAt s c (isJump 0) e s' → e.f 1 1 = 0 → ∃ t, exec (.jumpAlways c) s = .next t ∧
      StandsAtStep t e.k e.sub (e.f 4 4) r.counters ∧ t.regs = s'.regs ∧ SameBytes s' t) ∧
    (StandsAt s c (isJump 1) e s' → e.f 1 1 = 1 → smGet 0 r.counters (e.f 2 1) ≠ 1 → ∃ t, exec (.jumpDecNz c) s = .next t ∧
      StandsAtStep t e.k e.sub (e.f 4 4) (smPut 0 r.counters (e.f 2 1) (smGet 0 r.counters (e.f 2 1) - 1)) ∧
      t.regs = s'.regs ∧ SameBytes s' t) ∧
    (StandsAt s c (isJump 1) e s' → e.f 1 1 = 1 → smGet 0 r.counters (e.f 2 1) = 1 → ∃ t, exec (.jumpDecNz c) s = .next t ∧
      StandsAtStep t e.k e.sub (r.pc + 1) (smPut 0 r.counters (e.f 2 1) 0) ∧ t.regs = s'.regs ∧ SameBytes s' t) ∧
    (StandsAt s c (isJump 2) e s' → e.f 1 1 = 2 → ∃ t, exec (.jumpSet c) s = .next t ∧
      StandsAtStep t e.k e.sub (r.pc + 1) (smPut 0 r.counters (e.f 2 1) (BitVec.ofNat 32 (e.f 8 4))) ∧
      t.regs = s'.regs ∧ SameBytes s' t)

/-- WAIT passes once the classes it names are idle and, with WORD, once the word it reads has reached VALUE; until then it
stays, keeping the tick it began at, and after its TIMEOUT its job completes LATE. -/
def Obligations.WaitStepsPassStayOrTimeOut : Prop :=
  ∀ (s s' : State) (c : Fin 4) (e : Env), s.phase = .ready → s.raised = [] →
    (StandsAt s c (isOp 10) e s' → waitFieldsOk e.r = true → classesBusy (getCore s' c) (e.f 1 1) = false → e.f 2 1 = 0 →
      ∃ t, exec (.stepWait c) s = .next t ∧ StepPassed e s' t) ∧
    (∀ a b s1 u, StandsAt s c (isOp 10) e s' → waitFieldsOk e.r = true → classesBusy (getCore s' c) (e.f 1 1) = false →
      e.f 2 1 = 1 → runOp (e.extAddr (extAt e.r 4)) s' = (.ok a, s1) → runOp (readVa e.who e.k a 4 false) s1 = (.ok b, u) →
      reaches (BitVec.ofNat 32 (recNat b 0 4)) (BitVec.ofNat 32 (e.f 12 4)) = true →
      ∃ t, exec (.stepWait c) s = .next t ∧
        StepPassed e (if classesBusy (getCore u c) 0x20 then u else endHostWait u e.k e.sub) t) ∧
    (∀ j r, StandsAt s c (isOp 10) e s' → waitFieldsOk e.r = true → classesBusy (getCore s' c) (e.f 1 1) = true →
      findJob s' e.k e.sub = some j → j.run = some r → r.waitFrom = 0 →
      ∃ t x r', exec (.stepWait c) s = .next t ∧ findJob t e.k e.sub = some x ∧ x.run = some r' ∧ r'.pc = r.pc ∧
        r'.waitFrom = s'.now + 1) ∧
    (∀ j r rec, coreJob s c = some (j, r) → r.record = some rec → isOp 10 rec = true → waitFieldsOk rec = true →
      recNat rec 16 4 ≠ 0 → r.waitFrom ≠ 0 → s.now + 1 ≥ r.waitFrom + 100 * recNat rec 16 4 →
      ∃ t, exec (.stepWaitTimeout c) s = .next t ∧ DoneWith t j.ctx j.sub 3 ∧ t.regs = s.regs ∧ SameFrame s t)

/-- SIGNAL, FENCE and END wait for every step issued before them: a SIGNAL in its class queue, at the head of which the
sequencer goes on, a FENCE or an END at its place. With none before it a FENCE passes, and an END without a manifest to write
completes its job OK. MOOR_POINT without a pending mooring passes. -/
def Obligations.SignalFenceMoorPointEnd : Prop :=
  ∀ (s s' : State) (c : Fin 4) (e : Env) (j : Job), s.phase = .ready → s.raised = [] → findJob s' e.k e.sub = some j →
    (StandsAt s c (isOp 11) e s' → (∃ q ∈ (getCore s' c).queue, q.no < e.no) → queuedOf (getCore s' c) (some 5) < 8 →
      Stuck (issueStep s' e) c (fun m => decide (3 ≤ m)) (fun q => isOp 11 q.r) →
      ∃ t, exec (.stepSignal c) s = .next t ∧ (getCore t c).queue = (getCore s' c).queue ++ [e.issued] ∧
        t.jobs = (nextStep s' e.k e.sub).jobs ∧ t.regs = s'.regs ∧ SameBytes s' t) ∧
    (StandsAt s c (isOp 13) e s' → (getCore s' c).queue = [] → onlyUses e.r [] = true →
      ∃ t, exec (.stepFence c) s = .next t ∧ StepPassed e s' t) ∧
    (StandsAt s c (isOp 13) e s' → (getCore s' c).queue ≠ [] →
      ∃ t, exec (.stepFence c) s = .next t ∧ t.jobs = s'.jobs ∧ SameBytes s' t) ∧
    (StandsAt s c (isOp 9) e s' → onlyUses e.r [1] = true → e.f 1 1 < 2 → j.pendingMoors = [] →
      ∃ t, exec (.stepMoorPoint c) s = .next t ∧ StepPassed e s' t) ∧
    (StandsAt s c (isOp 15) e s' → onlyUses e.r [] = true → (getCore s' c).queue ≠ [] →
      ∃ t, exec (.stepEnd c) s = .next t ∧ t.jobs = s'.jobs ∧ SameBytes s' t) ∧
    (StandsAt s c (isOp 15) e s' → onlyUses e.r [] = true → (getCore s' c).queue = [] → j.desc.manifest = false → j.isDone = false →
      ∃ t, exec (.stepEnd c) s = .next t ∧ DoneWith t e.k e.sub 0 ∧ t.regs = s'.regs ∧ SameBytes s' t)

/-- The nine microprogram steps, on the working registers of one Geyser: the register each writes takes the value R256 gives
it, rounded to the working format, and no other working register, Geyser or core changes. Flags that the operation raises join
CORE_FLAGS, and no other register of the device changes. A step that reads outside the table store is bad: the result is NaN,
INV is raised and GEY_BADSTEP is set.
It rests on choices of the model, log entry 44. -/
def Obligations.GeyserStepsWriteTheirRegister : Prop :=
  (∀ (s : State) (c g : Fin 4) (dst sa sb : Fin 16) (imm : BitVec 12), s.phase = .ready →
    let x := getCore s c
    let y := smGet Geyser.reset x.geysers g
    let a := gReg y.g sa
    let b := gReg y.g sb
    let flagged (t : State) (fl : Flags) : Prop := SameFrame s t ∧
      (fl = 0 → t = { s with cores := t.cores }) ∧
      (fl ≠ 0 → RegsBut [coreFlagsKey c] s t ∧
        (∀ i : Nat, i < 5 → bitOf (getReg t (coreFlagsKey c)).toNat i = (bitOf (getReg s (coreFlagsKey c)).toNat i || fl.getLsbD i)))
    let wrote (t : State) (v : Val) (fl : Flags) : Prop := flagged t fl ∧
      (∀ i, i ≠ c.val → getCore t i = getCore s i) ∧
      (∀ i, i ≠ g.val → smGet Geyser.reset (getCore t c).geysers i = smGet Geyser.reset x.geysers i) ∧
      (smGet Geyser.reset (getCore t c).geysers g).result = none ∧
      ∀ i, gReg (smGet Geyser.reset (getCore t c).geysers g).g i = if i = dst.val then workVal v else gReg y.g i
    (∃ t, exec (.geyMul c g dst sa sb) s = .next t ∧ wrote t (vMul a b).1 (vMul a b).2) ∧
    (∃ t, exec (.geyAdd c g dst sa sb) s = .next t ∧ wrote t (vAdd a b).1 (vAdd a b).2) ∧
    (∃ t, exec (.geySelect c g dst sa sb) s = .next t ∧
      wrote t (if compareVals (gReg y.g 14) (.zero false) = .lt then a else b) (anySig [gReg y.g 14, a, b])) ∧
    (∃ t, exec (.geyExpadj c g dst sa sb) s = .next t ∧
      wrote t (match a with | .fin q => .fin (qScale2 q (heldInt b)) | v => v) (anySig [a, b])) ∧
    (∀ t1, tableWord x (imm.toNat + (if heldInt a < 0 then 0 else min (heldInt a).toNat 1023)) = some t1 →
      ∃ t, exec (.geyLookup c g dst sa imm) s = .next t ∧ wrote t t1 (anySig [a, t1])) ∧
    (∀ t1, tableWord x imm.toNat = some t1 →
      let m := vMul (gReg y.g dst) a
      ∃ t, exec (.geyHorner c g dst sa imm) s = .next t ∧ wrote t (vAdd m.1 t1).1 (m.2 ||| (vAdd m.1 t1).2)) ∧
    (∀ lo hi, tableWord x imm.toNat = some lo → tableWord x (imm.toNat + 1) = some hi →
      ∃ t, exec (.geyClamp c g dst sa imm) s = .next t ∧
        wrote t (if compareVals a lo = .lt then lo else if compareVals a hi = .gt then hi else a) (anySig [a, lo, hi])) ∧
    (∀ t0 t1 t2, tableWord x imm.toNat = some t0 → tableWord x (imm.toNat + 1) = some t1 → tableWord x (imm.toNat + 2) = some t2 →
      let n := nearestInt (vMul a t0).1
      let u := vAdd a (vMul n t1).1.neg
      let v := vAdd u.1 (vMul n t2).1.neg
      ∃ t, exec (.geyRreduce c g dst sa imm) s = .next t ∧
        flagged t ((vMul a t0).2 ||| (vMul n t1).2 ||| (vMul n t2).2 ||| u.2 ||| v.2) ∧
        gReg (smGet Geyser.reset (getCore t c).geysers g).g 15 = workVal n ∧
        ∀ i, i ≠ 15 → gReg (smGet Geyser.reset (getCore t c).geysers g).g i = if i = dst.val then workVal v.1 else gReg y.g i) ∧
    (∃ t, exec (.geyEnd c g) s = .next t ∧ t = { s with cores := t.cores } ∧
      smGet Geyser.reset (getCore t c).geysers g = { y with result := some (gReg y.g 1) })) ∧
  (∀ (s : State) (c g : Fin 4) (dst sa : Fin 16) (imm : BitVec 12) (i : Instr), s.phase = .ready →
    let a := gReg (smGet Geyser.reset (getCore s c).geysers g).g sa
    (tableWord (getCore s c) imm.toNat = none ∧
        i ∈ [Instr.geyHorner c g dst sa imm, .geyClamp c g dst sa imm, .geyRreduce c g dst sa imm] ∨
      tableWord (getCore s c) (imm.toNat + (if heldInt a < 0 then 0 else min (heldInt a).toNat 1023)) = none ∧
        i = .geyLookup c g dst sa imm) →
      ∃ t, exec i s = .next t ∧ (smGet Geyser.reset (getCore t c).geysers g).result = some (.nan false) ∧
        Raised (CORE_VEC_EVENT_GEY_BADSTEP c) s t ∧ bitOf (getReg t (coreFlagsKey c)).toNat 3 = true ∧
        RegsBut [coreFlagsKey c, (CORE_VEC_EVENT_GEY_BADSTEP c).key] s t ∧ SameBytes s t)

/-! ### Translation, mooring and errors -/

/-- Records. The oldest waiting fault record of a context, when its ring has room and can be written, is written at its tail:
the tail moves on modulo 64, MMU_FAULTS counts and MMU_EVENT.FAULT is set. The oldest waiting error record is written at the
tail of the error ring, which moves on by one. While a ring is full its record waits; at the error ring RING_FULL is set, again
when the driver has cleared it.
It rests on choices of the model, log entries 3 and 83. -/
def Obligations.RecordsWrittenInOrder : Prop :=
  (∀ (s u : State) (k : Fin 8) (f : FaultRec) (rest : List FaultRec), s.phase = .ready → s.raised = [] →
    (getCtx s k).faultWait = f :: rest →
    (frFree s k = 0 → Canonical s → exec (.faultRecordWrite k) s = .next s) ∧
    (frFree s k ≠ 0 → runOp (writeVa none k (frVa s k + 32 * (getCtx s k).frTail)
        (withPhase f.bytes 1 (getCtx s k).frPhase) true false (0, 0)) s = (.ok (), u) →
      MMU_EVENT_FAULT.key ∉ u.raised → (∀ sub j, f.job = some sub → findJob u k sub = some j → j.castWait = none) →
      ∃ t, exec (.faultRecordWrite k) s = .next t ∧ (getCtx t k).faultWait = rest ∧
        (getCtx t k).frTail = ((getCtx s k).frTail + 1) % 64 ∧ Counted MMU_FAULTS_COUNT 1 u t ∧ Raised MMU_EVENT_FAULT u t ∧
        t.jobs = u.jobs ∧ SameBytes u t)) ∧
  (∀ (s : State) (e : ErrRec) (rest : List ErrRec), s.phase = .ready → Canonical s → s.errWait = e :: rest →
    ((getF s ERR_RING_PTR_TAIL + 1) % errRingSize s = getF s ERR_RING_PTR_HEAD % errRingSize s →
      (flag s ERR_EVENT_RING_FULL = true → exec .errorRecordWrite s = .next s) ∧
      (flag s ERR_EVENT_RING_FULL = false → ∃ t, exec .errorRecordWrite s = .next t ∧ Raised ERR_EVENT_RING_FULL s t ∧
        OnlyEvents [ERR_EVENT_RING_FULL.key] s t)) ∧
    ((getF s ERR_RING_PTR_TAIL + 1) % errRingSize s ≠ getF s ERR_RING_PTR_HEAD % errRingSize s →
      e.bytes.length = 32 → getF s ERR_RING_BASE_OFFSET * 4096 + 32 * getF s ERR_RING_PTR_TAIL + 32 ≤ basinSize →
      ∃ t, exec .errorRecordWrite s = .next t ∧ t.errWait = rest ∧
        getF t ERR_RING_PTR_TAIL = (getF s ERR_RING_PTR_TAIL + 1) % errRingSize s ∧
        (∀ i, i < 32 → i ≠ 3 → memByte t (basinBase + getF s ERR_RING_BASE_OFFSET * 4096 + 32 * getF s ERR_RING_PTR_TAIL + i) =
          e.bytes.getD i 0) ∧
        (∀ a, (a < basinBase + getF s ERR_RING_BASE_OFFSET * 4096 + 32 * getF s ERR_RING_PTR_TAIL ∨
          basinBase + getF s ERR_RING_BASE_OFFSET * 4096 + 32 * getF s ERR_RING_PTR_TAIL + 32 ≤ a) → memByte t a = memByte s a)))

/-- Moored jobs. A job moored by a fault, with no record of it waiting, is completed FAULT_ABORT by ABORT, with the number of its
fault record as ERR_SEQ, and made to run again by RETRY when it holds no core; one that was done and moored while its poison
list was written has its list tried again. With no such job either write sets CAST_BAD. A
job moored by a slice goes on by itself when its unit is free to it; the quantum's expiry on a core where another resident job
waits makes a mooring pending on the job that runs.
It rests on choices of the model, log entries 39 and 97. -/
def Obligations.MooredJobsCastOff : Prop :=
  (∀ (s : State) (k : Fin 8), s.phase = .ready → s.accessQ = [] →
    let sub := BitVec.ofNat 32 (getF s MMU_CAST_SUBSEQ_SUBSEQ)
    (∀ j, findJob s k sub = some j → j.phase = .moored .fault → (∀ f ∈ (getCtx s k).faultWait, f.job ≠ some sub) →
      (∃ t x, exec (.castAbort k) s = .next t ∧ findJob t k sub = some x ∧ x.phase = .done ∧ x.status = 6 ∧ x.errSeq = j.faultSeq ∧
        RegsBut [MMU_CAST_CMD_CONTEXT.key] s t ∧ SameBytes s t) ∧
      (j.poisonList = none → j.run = none → unitFree s j = true → j.unit ≠ 0xFF →
        ∃ t x, exec (.castRetry k) s = .next t ∧ findJob t k sub = some x ∧ x.phase = .running ∧
          RegsBut [MMU_CAST_CMD_CONTEXT.key] s t ∧ SameBytes s t) ∧
      (j.poisonList ≠ none → ∃ t x, exec (.castRetry k) s = .next t ∧ findJob t k sub = some x ∧ x.phase = .done ∧
        x.poisonList = none ∧ x.status = j.status ∧ RegsBut [MMU_CAST_CMD_CONTEXT.key] s t ∧ SameBytes s t)) ∧
    (findJob s k sub = none → ∀ i ∈ [Instr.castRetry k, .castAbort k], ∃ t, exec i s = .next t ∧
      Raised MMU_EVENT_CAST_BAD s t ∧ t.jobs = s.jobs)) ∧
  (∀ (s : State), s.phase = .ready →
    (∀ (k : Fin 8) sub j, findJob s k sub = some j → j.bySlice = true → j.poisonList = none → j.run = none →
      unitFree s j = true → j.unit ≠ 0xFF →
      ∃ t x, exec (.castOffAuto k sub) s = .next t ∧ findJob t k sub = some x ∧ x.phase = .running ∧ t.regs = s.regs ∧ SameBytes s t) ∧
    (∀ (c : Fin 4) k sub j r, (getCore s c).running = some (k, sub) → findJob s k sub = some j → j.run = some r →
      flag s (HIF_CTX_CTL_ADMIT k) = true → (getCore s c).resident.any (waitsTurn s c) = true →
      s.now ≥ r.ranSince + 100 * max 1 (getF s (HIF_CTX_QUANTUM_US k)) →
      ∃ t x, exec (.quantumExpiry c) s = .next t ∧ findJob t k sub = some x ∧ (MoorWhy.quantum, false) ∈ x.pendingMoors ∧
        x.phase = j.phase ∧ t.regs = s.regs ∧ SameFrame s t))

/-- Invalidation and root writes end what the device keeps of a context's translations: an invalidation forgets the verified
images of its context that meet the page, the large page or the gigabyte page that VA lies in, or all of them, and no other
context's; a root write that changes the register also completes every job of the context, and one that
does not change it does nothing.
It rests on choices of the model, log entry 3. -/
def Obligations.InvalidateAndRootWriteForgetImages : Prop :=
  ∀ (s : State), s.phase = .ready → s.accessQ = [] →
    (getF s MMU_INV_CTL_SIZE = 3 →
      exec .mmuInvalidate s = .next { s with images := s.images.filter (fun c => decide (c.ctx ≠ getF s MMU_INV_CTL_CONTEXT)) }) ∧
    (∀ size bits, (size, bits) ∈ [(0, 12), (1, 21), (2, 30)] → getF s MMU_INV_CTL_SIZE = size →
      exec .mmuInvalidate s = .next (dropImagesVa s (getF s MMU_INV_CTL_CONTEXT)
        ((getF s MMU_INV_VA_LO_VA * 4096 + getF s MMU_INV_VA_HI_VA * 2 ^ 32) / 2 ^ bits * 2 ^ bits) (2 ^ bits))) ∧
    (∀ (k : Fin 8) (data : W32), getReg s (MMU_CTX_ROOT_HI_ADDR k).key ≠ data →
      ∃ t, exec (.mmuRootWrite k true data) s = .next t ∧ getReg t (MMU_CTX_ROOT_HI_ADDR k).key = data ∧
        (∀ c ∈ t.images, c.ctx ≠ k.val) ∧ (∀ sub j, findJob s k sub = some j → ∃ x, findJob t k sub = some x ∧ x.phase = .done) ∧
        RegsBut [(MMU_CTX_ROOT_HI_ADDR k).key] s t ∧ SameBytes s t) ∧
    (∀ (k : Fin 8) (data : W32), getReg s (MMU_CTX_ROOT_LO_ADDR k).key ≠ data &&& 0xFFFFF001 →
      ∃ t, exec (.mmuRootWrite k false data) s = .next t ∧ getReg t (MMU_CTX_ROOT_LO_ADDR k).key = data &&& 0xFFFFF001 ∧
        (∀ c ∈ t.images, c.ctx ≠ k.val) ∧ (∀ sub j, findJob s k sub = some j → ∃ x, findJob t k sub = some x ∧ x.phase = .done) ∧
        RegsBut [(MMU_CTX_ROOT_LO_ADDR k).key] s t ∧ SameBytes s t) ∧
    (∀ (k : Fin 8), exec (.mmuRootWrite k true (getReg s (MMU_CTX_ROOT_HI_ADDR k).key)) s = .next s)

/-- Injections. ERR_INJECT arms the injection the register names while none is pending and its unit exists. Once no window of
TEST_DEFER is open, a parity injection marks its region, and an SRAM injection takes effect in the granule written since.
RES_INJECT arms a flip on the array its register names. A waiting mirror write is dropped and counted, not before it has
waited 9 µs.
It rests on choices of the model, log entries 3, 84 and 85. -/
def Obligations.InjectionsArmAndAct : Prop :=
  ∀ s : State, s.phase = .ready →
    (s.accessQ = [] → s.inject = none → getF s ERR_INJECT_SOURCE = 8 → getF s ERR_INJECT_UNIT ≤ 8 →
      exec .errInject s = .next { s with inject := some (8, getF s ERR_INJECT_UNIT), injectAt := none }) ∧
    (s.accessQ = [] → s.inject = none → getF s ERR_INJECT_SOURCE = 2 → getF s ERR_INJECT_UNIT ≤ 5 →
      exec .errInject s = .next { s with inject := some (2, getF s ERR_INJECT_UNIT), injectAt := none }) ∧
    (s.accessQ = [] → s.inject.isSome = true → exec .errInject s = .next s) ∧
    (∀ u, s.inject = some (8, u) → testAllowed s = true →
      exec .errInjectAct s = .next { s with inject := none, parityFlip := natInsert u s.parityFlip }) ∧
    (∀ src u g, s.inject = some (src, u) → src ≠ 8 → s.injectAt = some g → testAllowed s = true →
      exec .errInjectAct s = .next { s with inject := none, injectAt := none, latent := smPut 0 s.latent g src }) ∧
    (testAllowed s = false → exec .errInjectAct s = .next s) ∧
    (∀ c : Fin 4, PathFree s (0x10 + c.val) → ∃ t, exec (.resInjectArm c) s = .next t ∧ t = { s with cores := t.cores } ∧
      getCore t c = { getCore s c with inject := some (getF s (CORE_RES_INJECT_ARRAY c)) } ∧
      ∀ i, i ≠ c.val → getCore t i = getCore s i) ∧
    (∀ a b since rest, s.errMirror = (a, b, since) :: rest →
      (since + 900 ≤ s.now → ∃ t, exec .errMirrorDrop s = .next t ∧ t.errMirror = rest ∧
        Counted ERR_MIRROR_DROP_COUNT 1 s t ∧ Raised ERR_EVENT_MIRROR_DROP s t ∧ t.jobs = s.jobs ∧ SameFrame s t) ∧
      (s.now < since + 900 → exec .errMirrorDrop s = .next s))

/-- Crossings and their recovery. A ferry transfer with good parity, between two regions that run and with a slot free, is
delivered at the first receiving edge after its latency, and changes nothing else; one with bad parity is a REGION error that
reinitialises its receiver, when the class is not promoted. One to
a stopped receiver waits in a slot; one that the crossing cannot launch changes nothing. The end of a reinitialisation opens the region again. A host access that
the link has not taken for 50 ms completes its job ECC. A link CE is a CORRECTED error.
It rests on choices of the model, log entries 3, 33, 88 and 96. -/
def Obligations.CrossingsReinitAndLinkErrors : Prop :=
  (∀ (s : State) (src dst : Fin 9) (ps : Nat), s.phase = .ready → src ≠ dst → CrossingFree s src dst →
    (getClk s src).stretched = false → (getClk s dst).stretched = false →
    (∃ t, exec (.ferryDelivery src dst ps true) s = .next t ∧ t.out.ferry = some (src.val, dst.val, ferryDelivery s src dst ps) ∧
      t.regs = s.regs ∧ t.jobs = s.jobs ∧ SameFrame s t) ∧
    (promote s dst 2 = 2 → ∃ t, exec (.ferryDelivery src dst ps false) s = .next t ∧
      bitOf (getF t ERR_REGION_STAT_REINIT) dst = true ∧ Counted ERR_REGION_COUNT 1 s t ∧ SameBytes s t)) ∧
  (∀ (s : State) (src dst : Fin 9) (ps : Nat), s.phase = .ready → src ≠ dst → s.parityFlip.contains dst.val = false →
    (launchHeld s src dst = true → ∀ ok, exec (.ferryDelivery src dst ps ok) s = .next s) ∧
    (launchHeld s src dst = false → (getClk s dst).stopped = true → ∃ t, exec (.ferryDelivery src dst ps true) s = .next t ∧
      slotsTaken t src dst = slotsTaken s src dst + 1 ∧ t.regs = s.regs ∧ t.jobs = s.jobs ∧ SameFrame s t)) ∧
  (∀ s : State, s.phase = .ready →
    (∀ r : Fin 9, bitOf (getF s ERR_REGION_STAT_REINIT) r = true → ∃ t, exec (.regionReinitDone r) s = .next t ∧
      (∀ i, i < 9 → bitOf (getF t ERR_REGION_STAT_REINIT) i = (bitOf (getF s ERR_REGION_STAT_REINIT) i && decide (i ≠ r.val))) ∧
      Counted ERR_REINITS_COUNT 1 s t ∧ smGet none t.reinitAt r = some s.now ∧ t.jobs = s.jobs ∧ SameFrame s t) ∧
    (∀ r : Fin 9, bitOf (getF s ERR_REGION_STAT_REINIT) r = false → exec (.regionReinitDone r) s = .next s) ∧
    (∀ (k : Fin 8) sub j a at_, findJob s k sub = some j → j.hostWait = some (a, at_) → j.isDone = false →
      flag s HIF_STAT_LINK_UP = false → s.now ≥ at_ + 5000000 → ∃ t, exec (.hostAccessTimeout k sub) s = .next t ∧
        DoneWith t k sub 9 ∧ Counted ERR_CONTAINED_COUNT 1 s t ∧ SameFrame s t) ∧
    (∀ status, ∃ t, exec (.pcieCe status) s = .next t ∧ Counted ERR_CORRECTED_COUNT 1 s t ∧ t.jobs = s.jobs ∧
      t.fseq = (if s.fseq + 1 = 0 then 1 else s.fseq + 1) ∧ SameFrame s t))

/-- The link. Down clears HIF_STAT's three fields; up sets them, to one of the five speeds and to 1, 2, 4 or 8 lanes, and leaves
no mirror write and no unmasked message waiting; a mirror write that waited longer than 11 µs is dropped. A
configuration request is answered while the link is up, with Retry Status during a start. A write of the message table
changes the enabled bytes of its word.
It rests on choices of the model, log entries 15, 32 and 33. -/
def Obligations.LinkConfigurationAndMessageTable : Prop :=
  ∀ s : State,
    (s.phase = .ready → ∃ t, exec .pcieLinkDown s = .next t ∧ flag t HIF_STAT_LINK_UP = false ∧ getF t HIF_STAT_SPEED = 0 ∧
      getF t HIF_STAT_WIDTH = 0 ∧ OnlyRegs [HIF_STAT_LINK_UP.key] s t) ∧
    (s.phase = .ready → ∀ (speed : Fin 5) (width : Fin 4), ∃ t, exec (.pcieLinkUp speed width) s = .next t ∧
      flag t HIF_STAT_LINK_UP = true ∧ getF t HIF_STAT_SPEED = speed.val + 1 ∧ getF t HIF_STAT_WIDTH = 2 ^ width.val ∧
      t.errMirror = [] ∧ (∀ k, k < 8 → (getCtx t k).mirrorWait = []) ∧ (∀ v ∈ t.msixPending, msixBlocked t v = true) ∧
      RegsBut [HIF_STAT_LINK_UP.key, HIF_MIRROR_DROP_COUNT.key, HIF_EVENT_MIRROR_DROP.key, ERR_MIRROR_DROP_COUNT.key,
        ERR_EVENT_MIRROR_DROP.key] s t ∧
      ((∀ k, k < 8 → ∀ p ∈ (getCtx s k).mirrorWait, s.now ≤ p.2.2 + 1100) → (∀ p ∈ s.errMirror, s.now ≤ p.2.2 + 1100) →
        RegsBut [HIF_STAT_LINK_UP.key] s t) ∧
      ∀ a, memByte t a = memByte s a) ∧
    (s.phase = .ready → flag s HIF_STAT_LINK_UP = true → ∀ w : BitVec 10, ∃ t, exec (.pcieConfigRequest w) s = .next t ∧
      t.out.cfg = some (configWord w.toNat) ∧ t = { s with out := t.out }) ∧
    (∀ warm cause, s.phase = .starting warm cause → ∀ w : BitVec 10, ∃ t, exec (.pcieConfigRequest w) s = .next t ∧
      t.out.cfg = none ∧ t = { s with out := t.out }) ∧
    (s.phase = .ready → s.accessQ = [] → ∀ (off : BitVec 16) (be : BitVec 4) (data : W32), 0x8000 ≤ off.toNat → off.toNat < 0x8400 →
      let m := laneMask (laneEnables off.toNat be) &&& msixBits ((off.toNat - 0x8000) / 4)
      ∃ t, exec (.msixTableWrite off be data) s = .next t ∧ t.regs = s.regs ∧ SameFrame s t ∧
        msixWord t ((off.toNat - 0x8000) / 4) =
          (msixWord s ((off.toNat - 0x8000) / 4) &&& ~~~m) ||| (data &&& m) ∧
        ∀ i, i ≠ (off.toNat - 0x8000) / 4 → msixWord t i = msixWord s i)

/-- The patrol, refresh and temperature reports, on every operand. The patrol reads a granule of a core pool or the basin while
SCRUB_EN is 1: a single flipped bit there is corrected, counted and reported CORRECTED; two are an uncorrectable error, which marks
the granule, counts and is reported CONTAINED; neither touches a job, and the pool's counters stand while its core is in
SHORT_STOP. A clean or marked granule, another memory, and any granule while SCRUB_EN is 0 change nothing; outside the populated
ranges the command is a fault. A refresh that delays an access counts, another changes nothing. A stack at 85 °C or more sets its
HOT bit, and a cooler one changes nothing.
It rests on choices of the model, log entries 3, 86 and 87. -/
def Obligations.PatrolRefreshAndHotReports : Prop :=
  ∀ s : State, s.phase = .ready →
    (∀ (a : BitVec 40) (k : MemKind) (ce ceBit ue ueBit : RField) (n : Nat), memKind a.toNat = some k → flag s BSN_SCRUB_CTL_SCRUB_EN = true →
      (k = .basin ∧ ce = BSN_SRAM_CE_COUNT ∧ ceBit = BSN_EVENT_SRAM_CE ∧ ue = BSN_SRAM_UE_COUNT ∧ ueBit = BSN_EVENT_SRAM_UE ∧ n = 1 ∨
        ∃ c, k = .pool c ∧ ce = CORE_POOL_CE_COUNT c ∧ ceBit = CORE_POOL_EVENT_CE c ∧ ue = CORE_POOL_UE_COUNT c ∧
          ueBit = CORE_POOL_EVENT_UE c ∧ n = b2n (!(getClk s c).stopped)) →
      let g := a.toNat / 8 * 8
      let others (t : State) : Prop := t.jobs = s.jobs ∧ SameFrame s t ∧ smGet 0 t.latent g = 0 ∧
        (∀ h, h ≠ g → smGet 0 t.latent h = smGet 0 s.latent h)
      ((s.poison.contains g = true ∨ smGet 0 s.latent g = 0) → exec (.scrubPatrolRead a) s = .next s) ∧
      (s.poison.contains g = false → smGet 0 s.latent g = 1 → ∃ t, exec (.scrubPatrolRead a) s = .next t ∧ others t ∧
        Counted ce n s t ∧ Raised ceBit s t ∧ Counted ERR_CORRECTED_COUNT 1 s t ∧ t.poison = s.poison) ∧
      (s.poison.contains g = false → 2 ≤ smGet 0 s.latent g → ∃ t, exec (.scrubPatrolRead a) s = .next t ∧ others t ∧
        Counted ue n s t ∧ Raised ueBit s t ∧ Counted ERR_CONTAINED_COUNT 1 s t ∧ t.poison = natInsert g s.poison)) ∧
    (∀ a : BitVec 40, memKind a.toNat = some .hbm ∨ memKind a.toNat = some .store → exec (.scrubPatrolRead a) s = .next s) ∧
    (∀ a : BitVec 40, populated a.toNat = true → flag s BSN_SCRUB_CTL_SCRUB_EN = false → exec (.scrubPatrolRead a) s = .next s) ∧
    (∀ a : BitVec 40, populated a.toNat = false → exec (.scrubPatrolRead a) s = .fault .unpopulated) ∧
    (∃ t, exec (.hbmRefresh true) s = .next t ∧ Counted BSN_REFRESH_STALL_COUNT 1 s t ∧ OnlyRegs [BSN_REFRESH_STALL_COUNT.key] s t) ∧
    exec (.hbmRefresh false) s = .next s ∧
    (∀ (st : Fin 2) (temp : BitVec 16), temp.toInt ≥ 1360 → ∃ t, exec (.hbmHot st temp) s = .next t ∧
      (∀ i, i < 2 → bitOf (getF t BSN_HBM_STAT_HOT) i = (bitOf (getF s BSN_HBM_STAT_HOT) i || decide (i = st.val))) ∧
      OnlyRegs [BSN_HBM_STAT_HOT.key] s t) ∧
    (∀ (st : Fin 2) (temp : BitVec 16), temp.toInt < 1360 → exec (.hbmHot st temp) s = .next s)

/-! ### The timetable -/

/-- Axes and their sources. A count moves every axis of its channel by INCR, INVERT reversing it; two levels changing at
once count TTB_QERR; a Z edge loads the axes with Z_LOAD; AXIS_SET loads an axis, arms its entries and fires none; a serial read
starts once in a period at most, and gives position × INCR, from Gray code when GRAY is 1. An armed entry that may fire, on the one axis of an encoder channel, fires
when a count crosses its TRIGGER upwards with DIR up or both: with its bits as they stand it acts, or waits to act; an entry
that is not armed does not fire.
It rests on choices of the model, log entries 66, 67 and 68. -/
def Obligations.AxesFollowTheirSources : Prop :=
  (∀ s : State, s.phase = .ready → reinitOn s 7 = false →
    (∀ (n : Fin 8) (a b : Bool) (x : Fin 4), axisSource s x = 1 → axisChannel s x = n →
      getF s (TTB_AX_INCR_INCR x) % axisMod s x ≠ 0 →
      let turn := (quadPhase (2 * b2n a + b2n b) + 4 - quadPhase (smGet 0 s.rtio.enc n)) % 4
      let i := getF s (TTB_AX_INCR_INCR x) % axisMod s x
      let inv := flag s (TTB_AX_CFG_INVERT x)
      ∃ t, exec (.encoderSample n a b) s = .next t ∧ smGet 0 t.rtio.enc n = 2 * b2n a + b2n b ∧ SameFrame s t ∧
        ((turn = 1 ∧ inv = false ∨ turn = 3 ∧ inv = true) → (getAxis t x).value = ((getAxis s x).value + i) % axisMod s x) ∧
        ((turn = 1 ∧ inv = true ∨ turn = 3 ∧ inv = false) →
          (getAxis t x).value = ((getAxis s x).value + axisMod s x - i) % axisMod s x) ∧
        (turn = 0 → getAxis t x = getAxis s x ∧ t.regs = s.regs) ∧
        (turn = 2 → getAxis t x = getAxis s x ∧ Raised TTB_EVENT_QERR s t ∧ Counted TTB_QERR_COUNT 1 s t)) ∧
    (∀ (n : Fin 8), ∃ t, exec (.encZEdge n) s = .next t ∧ t.regs = s.regs ∧ SameFrame s t ∧ ∀ x : Fin 4,
      (axisSource s x = 1 ∧ axisChannel s x = n ∧ flag s (TTB_AX_CFG_Z_LOAD x) = true → (getAxis t x).value =
        (getF s (TTB_AX_LOAD_LO_VALUE x) + 2 ^ 32 * getF s (TTB_AX_LOAD_HI_VALUE x)) % axisMod s x) ∧
      (¬ (axisSource s x = 1 ∧ axisChannel s x = n ∧ flag s (TTB_AX_CFG_Z_LOAD x) = true) → getAxis t x = getAxis s x)) ∧
    (∀ x : Fin 4, PathFree s 5 → ∃ t, exec (.axisSet x) s = .next t ∧ t.regs = s.regs ∧ t.rtio.acting = s.rtio.acting ∧
      t.rtio.deferred = s.rtio.deferred ∧ SameFrame s t ∧ (
      let v := (getF s (TTB_AX_LOAD_LO_VALUE x) + 2 ^ 32 * getF s (TTB_AX_LOAD_HI_VALUE x)) % axisMod s x
      let d := signedDiff (axisMod s x) v (getAxis s x).value
      getAxis t x = { getAxis s x with value := v, up := if d = 0 then (getAxis s x).up else decide (d > 0) }) ∧
      (∀ y, y ≠ x.val → getAxis t y = getAxis s y) ∧
      ∀ i, entField (getEntry s i).bits 131 130 ≠ 0 → entField (getEntry s i).bits 129 128 = x → (getEntry t i).armed = true) ∧
    (∀ x : Fin 4, axisSource s x = 2 → axisChannel s x < 4 →
      let last := smGet 0 s.rtio.ssiAt x
      ((last = 0 ∨ last + 100 * max 1 (getF s (TTB_AX_CFG_SSI_PERIOD x)) ≤ s.now + 1) → ∃ t, exec (.ssiRead x) s = .next t ∧
        smGet false t.rtio.ssiRun x = true ∧ (∀ y, getAxis t y = getAxis s y) ∧ t.regs = s.regs ∧ SameFrame s t) ∧
      (last ≠ 0 → s.now + 1 < last + 100 * max 1 (getF s (TTB_AX_CFG_SSI_PERIOD x)) → exec (.ssiRead x) s = .next s)) ∧
    (∀ (x : Fin 4) (raw : BitVec 48), axisSource s x = 2 → smGet false s.rtio.ssiRun x = true →
      8 ≤ getF s (TTB_AX_CFG_SSI_BITS x) → getF s (TTB_AX_CFG_SSI_BITS x) ≤ 48 →
      let bits := raw.toNat % 2 ^ getF s (TTB_AX_CFG_SSI_BITS x)
      let pos := if flag s (TTB_AX_CFG_GRAY x) then grayToBinary (getF s (TTB_AX_CFG_SSI_BITS x)) bits else bits
      let v := pos * getF s (TTB_AX_INCR_INCR x) % axisMod s x
      ∃ t, exec (.ssiReadDone x raw) s = .next t ∧ smGet false t.rtio.ssiRun x = false ∧ SameFrame s t ∧
        (getAxis t x).value % axisMod s x = v)) ∧
  (∀ (s : State) (n : Fin 8) (a b : Bool) (x : Fin 4) (i : Nat), s.phase = .ready → reinitOn s 7 = false →
    axesOn s 1 n = [x.val] → flag s (TTB_AX_CFG_INVERT x) = false →
    (quadPhase (2 * b2n a + b2n b) + 4 - quadPhase (smGet 0 s.rtio.enc n)) % 4 = 1 →
    let m := axisMod s x
    let v := (getAxis s x).value
    let d := signedDiff m ((v + getF s (TTB_AX_INCR_INCR x) % m) % m) v
    let e := getEntry s i
    entField e.bits 129 128 = x → d > 0 → signedDiff m v (entField e.bits 63 0) < 0 →
    signedDiff m v (entField e.bits 63 0) + d ≥ 0 → (entField e.bits 131 130 = 1 ∨ entField e.bits 131 130 = 3) →
    flag s TTB_CTL_TT_EN = true → entryReserved e.bits = false → bitOf e.bits.toNat 135 = false →
    (e.armed = true → ∃ t, exec (.encoderSample n a b) s = .next t ∧
      (∃ f ∈ t.rtio.acting ++ t.rtio.deferred, f.idx = i ∧ f.bits = e.bits) ∧ t.jobs = s.jobs ∧ SameFrame s t) ∧
    (e.armed = false → (∀ p ∈ s.rtio.entries, p.1 = i → p.2 = e) →
      ∃ t, exec (.encoderSample n a b) s = .next t ∧ SameFrame s t ∧
        ∀ f ∈ t.rtio.acting ++ t.rtio.deferred, f.idx = i →
          ∃ h ∈ s.rtio.acting ++ s.rtio.deferred, h.idx = i ∧ h.bits = f.bits ∧ h.writes = f.writes ∧ h.cycle = f.cycle))

/-- Mains and network time. An edge within 100 µs of the last is ignored; one whose period lies between 45 Hz and 65 Hz counts
towards lock, and a locked input sets its axes to 0; another period, and the loss of lock, set UNLOCK where an axis follows.
An event message is stamped at 2 ns; a Sync that a slave takes moves its time by its servo: eight offsets in a row within 100 ns
lock it, and a larger one unlocks it; a delay request and its answer measure the peer delay.
It rests on choices of the model, log entries 3, 71, 72 and 73. -/
def Obligations.MainsAndNetworkTime : Prop :=
  ∀ s : State, s.phase = .ready → reinitOn s 7 = false →
    (∀ (n : Fin 2) (at_ : Nat), (getMains s n).lastEdge = some at_ →
      (s.now - at_ < 10000 → exec (.mainsEdge n) s = .next s) ∧
      (10000 ≤ s.now - at_ → 100000000 ≤ 65 * (s.now - at_) → 45 * (s.now - at_) ≤ 100000000 →
        ∃ t, exec (.mainsEdge n) s = .next t ∧ getMains t n = ⟨some s.now, s.now - at_, (getMains s n).good + 1⟩ ∧ SameFrame s t ∧
          (mainsLocked t n = true → ∀ x : Fin 4, axisSource s x = 4 → axisChannel s x = n → (getAxis t x).value % 2 ^ 32 = 0)) ∧
      (10000 ≤ s.now - at_ → (65 * (s.now - at_) < 100000000 ∨ 100000000 < 45 * (s.now - at_)) →
        ∃ t, exec (.mainsEdge n) s = .next t ∧ getMains t n = ⟨some s.now, s.now - at_, 0⟩ ∧ SameFrame s t ∧
          (mainsLocked s n = true → axesOn s 4 n ≠ [] → Raised TTB_EVENT_UNLOCK s t))) ∧
    (∀ n : Fin 2, mainsLocked s n = true → ∃ t, exec (.mainsLoopUnlock n) s = .next t ∧
      getMains t n = { getMains s n with good := 0 } ∧ (∀ y, getAxis t y = getAxis s y) ∧ SameFrame s t ∧
      (axesOn s 4 n ≠ [] → Raised TTB_EVENT_UNLOCK s t)) ∧
    (∀ (m : Fin 2) (origin received answered : BitVec 64),
      let x := getMac s m
      let stamp := x.gptp / 2 * 2
      let off : Int := (stamp : Int) - (origin.toNat : Int) - (x.peerDelay : Int)
      (flag s (ETH_MAC_CTL_EN m) = false → ∀ event, exec (.gptpEventMessage m event) s = .next s) ∧
      (flag s (ETH_MAC_CTL_EN m) = true → flag s (ETH_MAC_CTL_GPTP_SLAVE m) = true →
        ∃ t, exec (.gptpEventMessage m (.sync origin)) s = .next t ∧ (getMac t m).gptp = Config.servo x.gptp off ∧
          (getMac t m).stamp = stamp ∧ SameFrame s t ∧
          (off.natAbs ≤ 100 → (getMac t m).goodSyncs = min 8 (x.goodSyncs + 1) ∧
            (7 ≤ x.goodSyncs → flag t (ETH_PTP_STAT_LOCK m) = true)) ∧
          (100 < off.natAbs → (getMac t m).goodSyncs = 0 ∧ flag t (ETH_PTP_STAT_LOCK m) = false)) ∧
      (flag s (ETH_MAC_CTL_EN m) = true → flag s (ETH_MAC_CTL_GPTP_SLAVE m) = false →
        ∃ t, exec (.gptpEventMessage m (.sync origin)) s = .next t ∧ getMac t m = { x with stamp := stamp } ∧
          t.regs = s.regs ∧ (∀ y, getAxis t y = getAxis s y) ∧ SameFrame s t) ∧
      (flag s (ETH_MAC_CTL_EN m) = true →
        ∃ t, exec (.gptpEventMessage m .delayRequest) s = .next t ∧ getMac t m = { x with stamp := stamp, reqSent := some stamp } ∧
          t.regs = s.regs ∧ (∀ y, getAxis t y = getAxis s y) ∧ SameFrame s t) ∧
      (flag s (ETH_MAC_CTL_EN m) = true → x.reqSent = none →
        ∃ t, exec (.gptpEventMessage m (.delayAnswer received answered)) s = .next t ∧ getMac t m = { x with stamp := stamp } ∧ t.regs = s.regs ∧ SameFrame s t) ∧
      (∀ sent, flag s (ETH_MAC_CTL_EN m) = true → x.reqSent = some sent →
        ∃ t, exec (.gptpEventMessage m (.delayAnswer received answered)) s = .next t ∧
          getMac t m = { x with stamp := stamp, reqSent := none, peerDelay := ((stamp - sent) - (answered.toNat - received.toNat)) / 2 } ∧
          t.regs = s.regs ∧ (∀ y, getAxis t y = getAxis s y) ∧ SameFrame s t)) ∧
    (∀ m : Fin 2, flag s (ETH_PTP_STAT_LOCK m) = true → ∃ t, exec (.gptpLockLoss m) s = .next t ∧
      flag t (ETH_PTP_STAT_LOCK m) = false ∧ getMac t m = { getMac s m with goodSyncs := 0 } ∧
      (∀ y, getAxis t y = getAxis s y) ∧ SameFrame s t ∧ (axesOn s 3 m ≠ [] → Raised TTB_EVENT_UNLOCK s t))

/-- Entries and windows. A write stores TTB_ENT_DATA armed in the entry TTB_ENT_SEL names, and sets ENT_BAD when it is reserved;
a read returns the entry; deferred entries act sixteen a cycle and count; a window's opening takes a new number, its
closing ends it, and its timeout closes it and sets WIN_TIMEOUT.
It rests on choices of the model, log entries 3, 69 and 70. -/
def Obligations.EntriesAndWindows : Prop :=
  ∀ s : State, s.phase = .ready →
    (PathFree s 5 → ∃ t, exec .ttbEntryWrite s = .next t ∧ getEntry t (getF s TTB_ENT_SEL_INDEX) = ⟨entData s, true, none⟩ ∧
      (∀ i, i ≠ getF s TTB_ENT_SEL_INDEX → getEntry t i = getEntry s i) ∧ SameFrame s t ∧
      (entryReserved (entData s) = true → Raised TTB_EVENT_ENT_BAD s t) ∧ (entryReserved (entData s) = false → t.regs = s.regs)) ∧
    (PathFree s 5 → ∃ t, exec .ttbEntryRead s = .next t ∧ entData t = (getEntry s (getF s TTB_ENT_SEL_INDEX)).bits ∧
      OnlyRegs ((List.range 8).map (fun k => (TTB_ENT_DATA_DATA k).key)) s t) ∧
    (s.rtio.acting = [] → s.rtio.deferred ≠ [] → reinitOn s 7 = false → ∃ t, exec .deferredEntryAct s = .next t ∧
      t.rtio.acting = (s.rtio.deferred.take 16).map (fun f => { f with slot := max (s.rtio.actCycle + 1) (rtioNow s) }) ∧ t.rtio.deferred = s.rtio.deferred.drop 16 ∧
      Counted TTB_DEFER_COUNT (min 16 s.rtio.deferred.length) s t ∧ SameFrame s t) ∧
    (∀ w : Fin 8, (getWindow s w).isSome = true → getF s TTB_WIN_MAX_CYCLES ≠ 0 →
      (rtioNow s ≥ 5 * smGet 0 s.rtio.winSince w + getF s TTB_WIN_MAX_CYCLES → ∃ t, exec (.windowTimeout w) s = .next t ∧
        getWindow t w = none ∧ (∀ v, v ≠ w.val → getWindow t v = getWindow s v) ∧ Raised TTB_EVENT_WIN_TIMEOUT s t ∧ SameFrame s t) ∧
      (rtioNow s < 5 * smGet 0 s.rtio.winSince w + getF s TTB_WIN_MAX_CYCLES → exec (.windowTimeout w) s = .next s)) ∧
    (∀ f rest, s.rtio.acting = f :: rest → entField f.bits 134 132 = 6 → reinitOn s 7 = false →
      (argField f 3 3 = 1 → ∃ t, exec .actionWindowOpen s = .next t ∧ t.rtio.acting = rest ∧ t.regs = s.regs ∧ SameFrame s t ∧
        (getWindow s (argField f 2 0) = none → getWindow t (argField f 2 0) = some (s.rtio.openings + 1)) ∧
        (∀ v, (v ≠ argField f 2 0 ∨ getWindow s v ≠ none) → getWindow t v = getWindow s v)) ∧
      (argField f 3 3 = 0 → ∃ t, exec .actionWindowClose s = .next t ∧ t.rtio.acting = rest ∧ t.regs = s.regs ∧ SameFrame s t ∧
        getWindow t (argField f 2 0) = none ∧ ∀ v, v ≠ argField f 2 0 → getWindow t v = getWindow s v))

/-- The other actions, on the oldest fired entry. DOORBELL acts only on a context whose ring is local; CAPTURE drives the
enabled FSYNC balls of its mask for WIDTH cycles, and FSYNC_END ends a pulse at its cycle; OUTPUT drives an enabled TOUT
ball while HOLD_N is high; STEPS starts a train on an enabled channel that is not bound; a CHECK whose completion is written
in time changes no register, and one that misses sets CHECK_MISS and counts. -/
def Obligations.ActionsTakeEffect : Prop :=
  ∀ (s : State) (f : Fired) (rest : List Fired), s.phase = .ready → s.raised = [] → s.rtio.acting = f :: rest → reinitOn s 7 = false →
    let r := s.rtio
    let s0 : State := { s with rtio := { r with
      acting := rest, actCycle := max r.actCycle f.slot
      actCount := if f.slot < r.actCycle then r.actCount else if f.slot = r.actCycle then r.actCount + 1 else 1 } }
    (entField f.bits 134 132 = 0 → CrossingFree s 7 6 → ringLocal s0 (argField f 2 0) = false → ∃ t, exec .actionDoorbell s = .next t ∧
      t.rtio.acting = rest ∧ Raised HIF_EVENT_DB_BAD s t ∧ t.ctxs = s.ctxs ∧ SameFrame s t) ∧
    (entField f.bits 134 132 = 0 → CrossingFree s 7 6 → ringLocal s0 (argField f 2 0) = true →
      (getCtx s (argField f 2 0)).flushing = false → flag s (HIF_CTX_CTL_CYCLIC (argField f 2 0)) = false →
      let n := sqSize s (argField f 2 0)
      let c := getCtx s (argField f 2 0)
      (argField f 14 3 % n + n - c.sqTail) % n ≤ (c.sqHead + 2 * n - c.sqTail - 1) % n →
      ∃ t, exec .actionDoorbell s = .next t ∧ t.rtio.acting = rest ∧ (getCtx t (argField f 2 0)).sqTail = argField f 14 3 % n ∧
        Counted HIF_DB_WRITES_COUNT 1 s t ∧ SameFrame s t) ∧
    (entField f.bits 134 132 = 1 → ∃ t, exec .actionCapture s = .next t ∧ t.rtio.acting = rest ∧ t.regs = s.regs ∧ SameFrame s t ∧
      ∀ n, n < 4 → smGet 0 t.rtio.fsync n = if bitOf (argField f 3 0) n && bitOf (getF s TTB_OUT_CFG_FSYNC_EN) n then
        rtioNow s + max 1 (argField f 31 16) else smGet 0 s.rtio.fsync n) ∧
    (∀ n : Fin 4, smGet 0 s.rtio.fsync n ≠ 0 → smGet 0 s.rtio.fsync n ≤ rtioNow s → ∃ t, exec (.fsyncEnd n) s = .next t ∧
      smGet 0 t.rtio.fsync n = 0 ∧ (∀ i, i ≠ n.val → smGet 0 t.rtio.fsync i = smGet 0 s.rtio.fsync i) ∧ t.regs = s.regs ∧ SameFrame s t) ∧
    (entField f.bits 134 132 = 3 → ∃ t, exec .actionOutput s = .next t ∧ t.rtio.acting = rest ∧ t.regs = s.regs ∧ SameFrame s t ∧
      ∀ n, n < 8 → t.rtio.tout.getLsbD n =
        if n = argField f 2 0 ∧ bitOf (getF s TTB_OUT_CFG_TOUT_EN) n = true ∧ s.rtio.holdLow = false then decide (argField f 3 3 = 1)
        else s.rtio.tout.getLsbD n) ∧
    (entField f.bits 134 132 = 4 →
      (flag s (TTB_STEP_CFG_EN (argField f 2 0)) = true → flag s (TTB_STEP_CFG_BIND (argField f 2 0)) = false → s.rtio.holdLow = false →
        ∃ t, exec .actionSteps s = .next t ∧ t.rtio.acting = rest ∧ t.regs = s.regs ∧ SameFrame s t ∧
          getStep t (argField f 2 0) = { getStep s (argField f 2 0) with
            dir := decide (argField f 3 3 = 1), base := rtioNow s + stepWidth s (argField f 2 0), started := 0
            total := argField f 19 4, den := 1, stride := 0
            num := max (2 * stepWidth s (argField f 2 0)) (getF s (TTB_STEP_CFG_PERIOD (argField f 2 0))) }) ∧
      ((flag s (TTB_STEP_CFG_EN (argField f 2 0)) = false ∨ flag s (TTB_STEP_CFG_BIND (argField f 2 0)) = true ∨ s.rtio.holdLow = true) →
        exec .actionSteps s = .next s0)) ∧
    (entField f.bits 134 132 = 5 →
      let key := argField f 2 0 * 4096 + argField f 14 3
      let written := smGet 0 s.written key / 2 ^ 32
      let inTime := max s.rtio.ttEnBase (smGet 0 s.rtio.checkBase key) < written ∧ written ≤ f.writes
      (inTime → ∃ t, exec .actionCheck s = .next t ∧ t.rtio.acting = rest ∧ t.regs = s.regs ∧ t.jobs = s.jobs ∧ SameFrame s t) ∧
      (¬ inTime → ∃ t, exec .actionCheck s = .next t ∧ t.rtio.acting = rest ∧ Counted TTB_CHECK_MISS_COUNT 1 s t ∧ SameFrame s t ∧
        bitOf (getReg t TTB_EVENT_CHECK_MISS.key).toNat TTB_EVENT_CHECK_MISS.lo = true ∧
        (argField f 19 16 = 0 → argField f 20 20 = 0 → Raised TTB_EVENT_CHECK_MISS s t ∧ t.jobs = s.jobs)))

/-! ### Emission -/

/-- The feeder commits the next item of the live trajectory while FEED_EN is 1, PLAN runs, the item does not lie beyond a splice,
and fewer than AHEAD items wait; otherwise it commits none. A flush drops the queue and the live trajectory, and completes FLUSHED
the chain's PLAN jobs that have not installed, started or not. A resume is noted.
It rests on choices of the model, log entry 3. -/
def Obligations.FeederFlushAndResume : Prop :=
  ∀ (s : State) (c : Fin 4), s.phase = .ready →
    (∀ l i rest, (getChain s c).live = some l → l.items = i :: rest →
      let free := ∀ n, (getChain s c).splice = some n → before n i.1.number = false
      (free → flag s PLN_CTL_FEED_EN = true → (getClk s 4).stopped = false → (getChain s c).queue.length < aheadOf s c →
        ∃ t, exec (.feederCommit c) s = .next t ∧ getChain t c = { getChain s c with
            queue := (getChain s c).queue ++ [i.1], live := some { l with items := rest }, lastItem := i.1.number
            everCommitted := true, rest := i.1.joints.map Prod.fst, lastSet := some i } ∧
          getEmit t c = { getEmit s c with committedSince := true } ∧ (∀ d, d ≠ c.val → getEmit t d = getEmit s d) ∧
          (∀ d, d ≠ c.val → getChain t d = getChain s d) ∧ t.regs = s.regs ∧ t.jobs = s.jobs ∧ SameFrame s t) ∧
      (¬ free → exec (.feederCommit c) s = .next s)) ∧
    ((flag s PLN_CTL_FEED_EN = false ∨ (getClk s 4).stopped = true ∨ aheadOf s c ≤ (getChain s c).queue.length ∨
      (getChain s c).live = none ∨ ∃ l, (getChain s c).live = some l ∧ l.items = []) → exec (.feederCommit c) s = .next s) ∧
    (PathFree s 5 → ∃ t, exec (.chainFlush c) s = .next t ∧ (getChain t c).queue = [] ∧ (getChain t c).live = none ∧
      (getEmit t c).held = (getEmit s c).held ∧ (∀ d, d ≠ c.val → getChain t d = getChain s d) ∧ t.regs = s.regs ∧ SameFrame s t ∧
      ∀ k sub j, findJob s k sub = some j → j.desc.body.isPlan = true → j.isDone = false →
        j.planned.any Planned.installed = false →
        (j.progress = c.val + 1 ∨ ∀ u : State, u = { s with
          chains := u.chains, rtio := u.rtio, jobs := u.jobs, cores := u.cores, raised := u.raised } → requestChain u j = some c.val) →
        DoneWith t k sub 4) ∧
    (PathFree s 5 → ∃ t, exec (.chainResume c) s = .next t ∧ getEmit t c = { getEmit s c with resumed := true } ∧
      (∀ d, d ≠ c.val → getEmit t d = getEmit s d) ∧ t.regs = s.regs ∧ t.jobs = s.jobs ∧ SameFrame s t)

/-- Emission. At an instant a chain that does not hold sends its oldest committed item and its queue moves on: at the next
instant of a run, and for each chain of an EMIT's mask; RUN starts a run, STOP ends it. With an empty queue the chain is
late: it counts, and with LATE 0 it enters hold. A chain whose instant has not come sends nothing.
It rests on choices of the model, log entries 3 and 74. -/
def Obligations.EmissionSendsOldestItem : Prop :=
  ∀ s : State, s.phase = .ready → reinitOn s 7 = false →
    (∀ (c : Fin 4) i q, flag s (TTB_CH_CTL_EMIT_EN c) = true → (getEmit s c).held = false → (getEmit s c).holdPending = false →
      (getChain s c).queue = i :: q →
      ((getEmit s c).run = true → runClock s (getEmit s c).runGptp ≥ (getEmit s c).nextAt →
        ∃ t, exec (.emissionInstant c) s = .next t ∧ getChain t c = { getChain s c with queue := q } ∧ SameFrame s t ∧
          getEmit t c = { getEmit s c with
            emitted := some i.joints, lastNumber := i.number, run := !i.last
            nextAt := (getEmit s c).nextAt + runPeriod s c (getEmit s c).runGptp } ∧
          ∀ d, d ≠ c.val → getEmit t d = getEmit s d ∧ getChain t d = getChain s d) ∧
      (∀ f rest, s.rtio.acting = f :: rest → entField f.bits 134 132 = 2 → bitOf (argField f 3 0) c = true →
        (argField f 5 4 = 0 → ∃ t, exec .actionEmitOne s = .next t ∧ t.rtio.acting = rest ∧ SameFrame s t ∧
          getChain t c = { getChain s c with queue := q } ∧ (getEmit t c).emitted = some i.joints ∧
          (getEmit t c).lastNumber = i.number ∧ (getEmit t c).run = ((getEmit s c).run && !i.last)) ∧
        (argField f 5 4 = 1 → ∃ t, exec .actionEmitRun s = .next t ∧ t.rtio.acting = rest ∧ SameFrame s t ∧
          getChain t c = { getChain s c with queue := q } ∧ (getEmit t c).emitted = some i.joints ∧
          (getEmit t c).lastNumber = i.number ∧ (getEmit t c).run = !i.last))) ∧
    (∀ (c : Fin 4), ((getEmit s c).run = false ∨ runClock s (getEmit s c).runGptp < (getEmit s c).nextAt) →
      exec (.emissionInstant c) s = .next s) ∧
    (∀ (c : Fin 4), flag s (TTB_CH_CTL_EMIT_EN c) = true → (getEmit s c).held = false → (getEmit s c).holdPending = false →
      (getChain s c).queue = [] → (getEmit s c).run = true → runClock s (getEmit s c).runGptp ≥ (getEmit s c).nextAt →
      ∃ t, exec (.emissionInstant c) s = .next t ∧ Counted TTB_LATE_COUNT 1 s t ∧ SameFrame s t ∧
        (getF s (TTB_CH_CTL_LATE c) = 0 → (getEmit t c).held = true ∧ (getEmit t c).ramp = false) ∧
        (getF s (TTB_CH_CTL_LATE c) = 1 → (getEmit t c).held = true ∧ (getEmit t c).ramp = true) ∧
        (getF s (TTB_CH_CTL_LATE c) = 2 → (getEmit t c).held = false ∧ Raised TTB_EVENT_LATE s t)) ∧
    (∀ f rest, s.rtio.acting = f :: rest → entField f.bits 134 132 = 2 → argField f 5 4 = 2 →
      ∃ t, exec .actionEmitStop s = .next t ∧ t.rtio.acting = rest ∧ t.regs = s.regs ∧ SameFrame s t ∧
        ∀ c, c < 4 → getEmit t c = { getEmit s c with run := (getEmit s c).run && !(bitOf (argField f 3 0) c) })

/-- Pulses and HOLD_N. The next pulse of a train rises at its cycle, moves the position register by the train's stride and falls
WIDTH cycles later; a channel that is not enabled emits none of its pulses. HOLD_N low puts every chain
into hold with its profile, gives the outputs their hold values, stops every train after its pulse, and sets HOLD_IN; its
release changes no output and no chain.
It rests on choices of the model, log entries 3 and 75. -/
def Obligations.PulsesAndHoldInput : Prop :=
  ∀ s : State, s.phase = .ready →
    (∀ n : Fin 8,
      let x := getStep s n
      let at_ := x.base + x.started * x.num / max 1 x.den
      (x.level = false → x.started < x.total → at_ ≤ rtioNow s →
        ∃ t, exec (.stepPulse n) s = .next t ∧
          getStep t n = (if flag s (TTB_STEP_CFG_EN n) = true then
            { x with level := true, started := x.started + 1, nPrev := x.nPrev + x.stride, fallAt := at_ + stepWidth s n }
            else { x with started := x.started + 1 }) ∧
          (∀ i, i ≠ n.val → getStep t i = getStep s i) ∧ t.regs = s.regs ∧ SameFrame s t) ∧
      (x.level = true → x.fallAt ≤ rtioNow s → ∃ t, exec (.stepPulse n) s = .next t ∧ getStep t n = { x with level := false } ∧
        (∀ i, i ≠ n.val → getStep t i = getStep s i) ∧ t.regs = s.regs ∧ SameFrame s t) ∧
      ((x.level = true ∧ rtioNow s < x.fallAt ∨ x.level = false ∧ (x.total ≤ x.started ∨ rtioNow s < at_)) →
        exec (.stepPulse n) s = .next s)) ∧
    (∃ t, exec .holdNAssert s = .next t ∧ t.rtio.holdLow = true ∧ Raised TTB_EVENT_HOLD_IN s t ∧ SameFrame s t ∧
      (∀ c, c < 4 → (getEmit t c).held = true ∧ (getEmit t c).ramp = flag s (TTB_CH_CTL_HOLD_PROFILE c) ∧
        (getChain t c).queue = [] ∧ (getChain t c).live = none) ∧
      (∀ n, n < 8 → t.rtio.tout.getLsbD n =
        if bitOf (getF s TTB_OUT_CFG_TOUT_EN) n = true ∧ bitOf (getF s TTB_OUT_CFG_HOLD_APPLY) n = true then
          bitOf (getF s TTB_OUT_CFG_HOLD_VAL) n else s.rtio.tout.getLsbD n) ∧
      ∀ n, n < 8 → getStep t n = { getStep s n with total := (getStep s n).started }) ∧
    exec .holdNRelease s = .next { s with rtio := { s.rtio with holdLow := false } }

/-! ### Ethernet and capture -/

/-- The MACs and their templates. The first frame of the highest class starts when nothing gates it, is counted and leaves with
its FCS; a busy MAC starts none, and frames whose gates close too soon wait. A gate list entry is stored; a swap waits for the first cycle start after it, and takes
effect there. A template word is stored while its template is off, and refused with TPL_BUSY while it is on.
It rests on choices of the model, log entries 3, 68 and 78. -/
def Obligations.FramesGatesAndTemplates : Prop :=
  ∀ s : State, s.phase = .ready →
    (∀ (m : Fin 2) pre f post, reinitOn s 7 = false → flag s (ETH_MAC_CTL_EN m) = true → flag s (ETH_MAC_CTL_QBV_EN m) = false →
      (getMac s m).busyUntil ≤ 100 * s.now → (getMac s m).txq = pre ++ f :: post → f.cls < 8 →
      (∀ g ∈ pre, g.cls < f.cls) → (∀ g ∈ post, g.cls ≤ f.cls) →
      ∃ t, exec (.frameTransmit m) s = .next t ∧ t.out.frames = (m.val, f.bytes ++ fcs f.bytes) :: s.out.frames ∧
        (getMac t m).txq = pre ++ post ∧ (getMac t m).busyUntil = 100 * s.now + byteTime s m * (f.bytes.length + 24) ∧
        smGet 0 t.rtio.tplSent f.tpl = smGet 0 s.rtio.tplSent f.tpl + 1 ∧ Counted ETH_TPL_SENT_COUNT 1 s t ∧ Counted ETH_GATE_LATE_COUNT (b2n f.waited) s t ∧
        Counted (if m = 0 then ETH_TX0_COUNT else ETH_TX1_COUNT) 1 s t ∧ SameFrame s t) ∧
    (∀ m : Fin 2, reinitOn s 7 = false → flag s (ETH_MAC_CTL_EN m) = true → (getMac s m).busyUntil ≤ 100 * s.now →
      (getMac s m).txq ≠ [] → (∀ f ∈ (getMac s m).txq, gateAllows s m f.cls (byteTime s m * (f.bytes.length + 12)) = false) →
      ∃ t, exec (.frameTransmit m) s = .next t ∧ t.out = s.out ∧ t.regs = s.regs ∧ SameFrame s t ∧
        getMac t m = { getMac s m with txq := (getMac s m).txq.map (fun f => { f with waited := true }) }) ∧
    (∀ m : Fin 2, 100 * s.now < (getMac s m).busyUntil → exec (.frameTransmit m) s = .next s) ∧
    (∀ m : Fin 2, PathFree s 6 → ∃ t, exec (.qbvEntryWrite m) s = .next t ∧ t.regs = s.regs ∧ SameFrame s t ∧
      (getMac t m).active = (getMac s m).active ∧ ∀ i, smGet gateReset (getMac t m).store i =
        if i = getF s (ETH_MAC_QBV_SEL_ENTRY m) then getReg s (ETH_MAC_QBV_DATA_GATES m).key else smGet gateReset (getMac s m).store i) ∧
    (∀ m : Fin 2, PathFree s 6 → ∃ t, exec (.qbvSwap m) s = .next t ∧ t.regs = s.regs ∧ SameFrame s t ∧ (getMac t m).swapArmed = true ∧
      (getMac t m).active = (getMac s m).active ∧ (getMac s m).gptp < (getMac t m).activeFrom ∧
      qbvBase s m ≤ (getMac t m).activeFrom ∧ ((getMac t m).activeFrom - qbvBase s m) % qbvCycle s m = 0 ∧
      ((getMac t m).activeFrom = qbvBase s m ∨ (getMac t m).activeFrom ≤ (getMac s m).gptp + qbvCycle s m)) ∧
    (∀ m : Fin 2, (getMac s m).swapArmed = true →
      ((getMac s m).activeFrom ≤ (getMac s m).gptp → ∃ t, exec (.qbvCycleStart m) s = .next t ∧
        getMac t m = { getMac s m with active := (getMac s m).store, swapArmed := false } ∧ t.regs = s.regs ∧ SameFrame s t) ∧
      ((getMac s m).gptp < (getMac s m).activeFrom → exec (.qbvCycleStart m) s = .next s)) ∧
    (∀ data : W32, PathFree s 6 → (flag s (ETH_TPL_CFG_EN (getF s ETH_TPL_SEL_WORD / 512)) = false →
        ∃ t, exec (.templateWordWrite data) s = .next t ∧ RegsBut [ETH_TPL_DATA_DATA.key] s t ∧ SameFrame s t ∧
          ∀ w, smGet 0 t.rtio.templates w = if w = getF s ETH_TPL_SEL_WORD then data else smGet 0 s.rtio.templates w) ∧
      (flag s (ETH_TPL_CFG_EN (getF s ETH_TPL_SEL_WORD / 512)) = true →
        ∃ t, exec (.templateWordWrite data) s = .next t ∧ Raised ETH_EVENT_TPL_BUSY s t ∧ t.rtio = s.rtio ∧ SameFrame s t))

/-- Capture. A frame of a channel's virtual channel and data type begins to be received, another does not; its landing writes
the payload, up to the buffer's size, into the next buffer and nowhere else, counts the frame and its error, and stamps it
with its axis. The condition on ECC state is the model's: a byte of a granule with a pending ECC error is not claimed.
It rests on choices of the model, log entries 3 and 79. -/
def Obligations.CaptureFramesLand : Prop :=
  ∀ (s : State) (n : Fin 4), s.phase = .ready → reinitOn s 7 = false → flag s (CAP_CH_CFG_EN n) = true →
    (∀ (vc : Fin 4) (dt : BitVec 6), getF s (CAP_CH_CFG_VC n) = vc → getF s (CAP_CH_CFG_DATATYPE n) = dt.toNat → csiSupported dt.toNat = true →
      ∃ t, exec (.csiFrameStart n vc dt) s = .next t ∧ smGet false t.rtio.receiving n = true ∧ t.regs = s.regs ∧ SameFrame s t) ∧
    (∀ (vc : Fin 4) (dt : BitVec 6), (getF s (CAP_CH_CFG_VC n) ≠ vc ∨ getF s (CAP_CH_CFG_DATATYPE n) ≠ dt.toNat) →
      exec (.csiFrameStart n vc dt) s = .next s) ∧
    (∀ (bytes : List Byte) (bad : Bool), CrossingFree s 7 5 → smGet false s.rtio.receiving n = true → s.poison = [] → s.latent = [] →
      let size := getF s (CAP_CH_SIZE_BYTES n)
      let l := storedFrame (getF s (CAP_CH_CFG_DATATYPE n)) bytes
      let buf := getF s (CAP_CH_FRAMES_COUNT n) % (getF s (CAP_CH_CFG_BUFFERS n) + 1)
      let at_ := basinBase + getF s (CAP_CH_BASE_OFFSET n) / 256 * 256 + buf * size
      at_ + size ≤ basinBase + basinSize →
      ∃ t, exec (.frameLanding n bytes bad) s = .next t ∧ smGet false t.rtio.receiving n = false ∧
        Counted (CAP_CH_FRAMES_COUNT n) 1 s t ∧ getF t (CAP_CH_LAST_BUFFER n) = buf ∧
        getF t (CAP_CH_LAST_BAD n) = b2n (bad || decide (l.length > size)) ∧
        Counted (CAP_CH_ERR_COUNT n) (b2n (bad || decide (l.length > size))) s t ∧
        getReg t (CAP_CH_STAMP_LO_VALUE n).key = BitVec.ofNat 32 (getAxis s (getF s (CAP_CH_CFG_STAMP_AXIS n))).value ∧
        t.jobs = s.jobs ∧ (∀ a, hostByte t a = hostByte s a) ∧
        ∀ a, memByte t a = if at_ ≤ a ∧ a < at_ + min l.length size then l.getD (a - at_) 0 else memByte s a)

/-! ### Clocks and monitors -/

/-- Frequency changes. GO arms a change, or is ignored and counted as such while one is armed or runs. An armed change begins
160 ns after its GO, or in Timed mode after its window opened, at a ferry boundary: as a glide, whose steps move CUR by one
until the target, or as a short stop, whose end 320 ns later sets CUR and frees the region's receive slots, and an access that
waited for it is performed. Its end sets
CHANGE_DONE and counts.
It rests on choices of the model, log entries 3 and 89. -/
def Obligations.FrequencyChangesRun : Prop :=
  ∀ (s : State) (r : Fin 5), s.phase = .ready →
    let c := getClk s r
    let others (t : State) : Prop := (∀ q, q ≠ r.val → getClk t q = getClk s q) ∧ SameFrame s t
    let done (t : State) : Prop := (getClk t r).changing = false ∧ (getClk t r).stopped = false ∧
      (c.adaptive = false → Raised CLK_EVENT_CHANGE_DONE s t ∧ Counted CLK_CNT_CHANGES_COUNT 1 s t)
    (PathFree s 3 → c.armed = false → c.changing = false → ∃ t, exec (.freqChangeGo r) s = .next t ∧ t.regs = s.regs ∧ others t ∧
      getClk t r = { c with
        armed := true, goAt := s.now, winAt := none, cfg := (getReg s (CLK_RGN_CFG_OP r).key).toNat % 4096 }) ∧
    (PathFree s 3 → (c.armed = true ∨ c.changing = true) → ∃ t, exec (.freqChangeGo r) s = .next t ∧ Raised CLK_EVENT_CHG_IGNORED s t ∧
      OnlyEvents [CLK_EVENT_CHG_IGNORED.key] s t) ∧
    (∀ d, c.armed = true → (timedMode s = false ∧ d = c.goAt ∨ timedMode s = true ∧ c.winAt = some d) →
      let target := opMult r (bitsOf c.cfg 3 0)
      (s.now < boundaryFrom s (d + 16) → exec (.freqChangeStart r) s = .next s) ∧
      (boundaryFrom s (d + 16) ≤ s.now → bitOf c.cfg 8 = true → getF s (CLK_RGN_STAT_CUR r) ≠ target →
        ∃ t, exec (.freqChangeStart r) s = .next t ∧ t.regs = s.regs ∧ others t ∧ getClk t r = { c with
          armed := false, changing := true, stopped := false, target := target, startAt := boundaryNow s, step := 0, adaptive := false }) ∧
      (boundaryFrom s (d + 16) ≤ s.now → bitOf c.cfg 8 = false → mooringBusy s r = false →
        ∃ t, exec (.freqChangeStart r) s = .next t ∧ t.regs = s.regs ∧ others t ∧ getClk t r = { c with
          armed := false, changing := true, stopped := true, target := target, startAt := boundaryNow s, adaptive := false })) ∧
    (c.changing = true → c.stopped = false → c.target < 128 → getF s (CLK_RGN_STAT_CUR r) ≠ c.target →
      let cur := getF s (CLK_RGN_STAT_CUR r)
      let new := if cur < c.target then cur + 1 else cur - 1
      (s.now < c.startAt + 8 * ((25 * (c.step + 1) + 1) / 2) → exec (.glideStep r) s = .next s) ∧
      (c.startAt + 8 * ((25 * (c.step + 1) + 1) / 2) ≤ s.now → ∃ t, exec (.glideStep r) s = .next t ∧ others t ∧
        getF t (CLK_RGN_STAT_CUR r) = new ∧ (new = c.target → done t) ∧
        (new ≠ c.target → getClk t r = { c with step := c.step + 1 }))) ∧
    (c.stopped = true → c.target < 128 →
      (s.accessQ = [] → Canonical s → s.now < c.startAt + 320 → exec (.shortStopEnd r) s = .next s) ∧
      (∀ a, s.accessQ = [a] → s.raised = [] → c.startAt + 320 ≤ s.now → a.stalls (shortStopEnd s r) = false →
        exec (.shortStopEnd r) s = commit s (enter (newCycle { shortStopEnd s r with accessQ := [] }) a (perform a))) ∧
      (s.accessQ = [] → c.startAt + 320 ≤ s.now → ∃ t, exec (.shortStopEnd r) s = .next t ∧ others t ∧ done t ∧
        getF t (CLK_RGN_STAT_CUR r) = c.target ∧ ∀ p ∈ t.ferry, p.1 % 16 ≠ r))

/-- Monitors. A droop trip counts; in Adaptive mode it stretches the clock, in Timed mode it is a REGION error. A clear
ends the stretch. A canary failure counts and, in Adaptive mode, starts a step down or leaves it due; a step up follows a
good margin of 1 ms. A temperature is stored; reaching THERM_HI sets its event, and reaching THERM_TRIP sets TRIP and drives
ALERT_N low. A generator that loses lock clears its bit and, while the device is ready, sets UNLOCK.
It rests on choices of the model, log entries 3, 89, 90 and 91. -/
def Obligations.MonitorsActAndReport : Prop :=
  ∀ s : State,
    (s.phase = .ready → ∀ r : Fin 8,
      (timedMode s = false → (getClk s r).stretched = false → ∃ t, exec (.droopTrip r) s = .next t ∧
        getClk t r = { getClk s r with stretched := true } ∧ Counted CLK_CNT_DROOP_COUNT 1 s t ∧
        Counted CLK_CNT_STRETCH_COUNT 1 s t ∧ Raised CLK_EVENT_STRETCH s t ∧ t.jobs = s.jobs ∧ SameFrame s t) ∧
      (timedMode s = false → (getClk s r).stretched = true → ∃ t, exec (.droopTrip r) s = .next t ∧
        Counted CLK_CNT_DROOP_COUNT 1 s t ∧ OnlyRegs [CLK_CNT_DROOP_COUNT.key] s t) ∧
      (timedMode s = true → promote s r 2 = 2 → ∃ t, exec (.droopTrip r) s = .next t ∧ Counted CLK_CNT_DROOP_COUNT 1 s t ∧
        Counted ERR_REGION_COUNT 1 s t ∧ bitOf (getF t ERR_REGION_STAT_REINIT) r = true ∧ SameFrame s t) ∧
      (∃ t, exec (.droopClear r) s = .next t ∧ getClk t r = { getClk s r with stretched := false } ∧
        (∀ q, q ≠ r.val → getClk t q = getClk s q) ∧ t.regs = s.regs ∧ SameFrame s t) ∧
      (∃ t, exec (.canaryFail r) s = .next t ∧ Counted CLK_CNT_CANARY_COUNT 1 s t ∧ Raised CLK_EVENT_CANARY s t ∧ SameFrame s t ∧
        ((timedMode s = true ∨ 5 ≤ r.val) → t.clk = s.clk) ∧
        (timedMode s = false → r.val < 5 → stepFree s r = false →
          getClk t r = { getClk s r with downDue := true, calmSince := s.now }) ∧
        (∀ m, timedMode s = false → r.val < 5 → stepFree s r = true → lowerPoint s r = some m →
          (getClk t r).changing = true ∧ (getClk t r).target = m ∧ (getClk t r).adaptive = true ∧ (getClk t r).downDue = false))) ∧
    (s.phase = .ready → ∀ r : Fin 5, (getClk s r).downDue = false →
      ((stepFree s r = false ∨ s.now < (getClk s r).calmSince + 100000 ∨ coolEnough s r = false) → exec (.adaptiveStep r) s = .next s) ∧
      (∀ m, stepFree s r = true → (getClk s r).calmSince + 100000 ≤ s.now → coolEnough s r = true → higherPoint s r = some m →
        ∃ t, exec (.adaptiveStep r) s = .next t ∧ t.regs = s.regs ∧ SameFrame s t ∧ (getClk t r).changing = true ∧
          (getClk t r).target = m ∧ (getClk t r).startAt = boundaryFrom s s.now ∧ (getClk t r).adaptive = true)) ∧
    (s.phase = .ready → ∀ (r : Fin 8) (temp : BitVec 16),
      let was (limit : Nat) : Prop := (BitVec.ofNat 16 (getF s (CLK_TEMP_TEMP r))).toInt ≥ 16 * (limit : Int)
      let hi := getF s CLK_THERM_CFG_THERM_HI
      let trip := getF s CLK_THERM_CFG_THERM_TRIP
      (∃ t, exec (.thermHi r temp) s = .next t ∧ getF t (CLK_TEMP_TEMP r) = temp.toNat ∧ t.out.alertLow = s.out.alertLow ∧ SameFrame s t ∧
        (temp.toInt ≥ 16 * (hi : Int) → ¬ was hi → Raised CLK_EVENT_THERM_HI s t) ∧
        ((temp.toInt < 16 * (hi : Int) ∨ was hi) → getReg t CLK_EVENT_THERM_HI.key = getReg s CLK_EVENT_THERM_HI.key)) ∧
      (∃ t, exec (.thermTrip r temp) s = .next t ∧ getF t (CLK_TEMP_TEMP r) = temp.toNat ∧ SameFrame s t ∧
        (temp.toInt ≥ 16 * (trip : Int) → t.out.alertLow = true) ∧
        (temp.toInt ≥ 16 * (trip : Int) → ¬ was trip → bitOf (getReg t CLK_EVENT_TRIP.key).toNat CLK_EVENT_TRIP.lo = true) ∧
        (temp.toInt < 16 * (trip : Int) → t.out.alertLow = s.out.alertLow))) ∧
    (∀ r : Fin 8,
      (s.phase = .ready → ∃ t, exec (.generatorUnlock r) s = .next t ∧ Raised CLK_EVENT_UNLOCK s t ∧ SameBytes s t ∧
        ∀ i, i < 9 → bitOf (getF t CLK_STAT_LOCKED) i = (bitOf (getF s CLK_STAT_LOCKED) i && decide (i ≠ r.val))) ∧
      (∀ warm cause, s.phase = .starting warm cause → ∃ t, exec (.generatorUnlock r) s = .next t ∧
        OnlyRegs [CLK_STAT_LOCKED.key] s t ∧
        ∀ i, i < 9 → bitOf (getF t CLK_STAT_LOCKED) i = (bitOf (getF s CLK_STAT_LOCKED) i && decide (i ≠ r.val))))

/-! ### Supplies and starts -/

/-- VDD_CORE, the RTC and the supplies. Enabling PMBus sends the target, in the format VOUT_MODE names, and VOK falls; a
reading within 10 mV raises VOK; a target that is not reached in 2 ms is sent again with PMB_FAIL. A load sets the RTC and
RTC_VALID. A PWR_CTL write with its key asks for a warm start, which begins 9 to 11 µs later. A backup supply below the
witness threshold makes the witness read LOST.
It rests on choices of the model, log entries 3, 17, 24, 26 and 27. -/
def Obligations.SuppliesFollowCommands : Prop :=
  ∀ s : State,
    (s.phase = .ready → PathFree s 4 → ∀ (addr : BitVec 7) (mode : BitVec 8),
      (flag s PWR_PMB_CFG_EN = true → exec (.pmbEnable addr mode) s = .next s) ∧
      (flag s PWR_PMB_CFG_EN = false → ∃ t, exec (.pmbEnable addr mode) s = .next t ∧ getF t PWR_PMB_CFG_EN = 1 ∧
        getF t PWR_PMB_CFG_ADDR = addr.toNat ∧ getF t PWR_VCORE_TARGET = vcoreTarget s ∧ flag t PWR_STAT_VOK = false ∧
        Counted PWR_CNT_VREQ_COUNT 1 s t ∧ t.out.vout = voutCode mode.toNat (vcoreTarget s) :: s.out.vout ∧
        t.pmb.sentAt = some s.now ∧ SameFrame s t ∧
        RegsBut [PWR_PMB_CFG_EN.key, PWR_VCORE_TARGET.key, PWR_STAT_VOK.key, PWR_CNT_VREQ_COUNT.key] s t)) ∧
    (s.phase = .ready → flag s PWR_PMB_CFG_EN = true → ∀ mv : BitVec 10, ∃ t, exec (.voutPoll mv) s = .next t ∧
      getF t PWR_VCORE_READ = mv.toNat ∧ getF t PWR_VCORE_TARGET = getF s PWR_VCORE_TARGET ∧
      (flag t PWR_STAT_VOK = true ↔ flag s PWR_STAT_VOK = true ∨
        (mv.toNat ≤ getF s PWR_VCORE_TARGET + 10 ∧ getF s PWR_VCORE_TARGET ≤ mv.toNat + 10)) ∧
      RegsBut [PWR_VCORE_READ.key, PWR_STAT_VOK.key] s t ∧ SameFrame s t) ∧
    (s.phase = .ready → ∀ at_, s.pmb.sentAt = some at_ → flag s PWR_PMB_CFG_EN = true → flag s PWR_STAT_VOK = false →
      (at_ + 200000 ≤ s.now → ∃ t, exec .pmbRetry s = .next t ∧ Raised PWR_EVENT_PMB_FAIL s t ∧ Counted PWR_CNT_PMB_RETRY_COUNT 1 s t ∧
        Counted PWR_CNT_VREQ_COUNT 1 s t ∧ t.pmb.sentAt = some s.now ∧
        t.out.vout = voutCode s.pmb.voutMode (getF s PWR_VCORE_TARGET) :: s.out.vout ∧ SameFrame s t) ∧
      (s.now < at_ + 200000 → exec .pmbRetry s = .next s)) ∧
    (s.phase = .ready → PathFree s 4 → ∃ t, exec .rtcLoad s = .next t ∧ t = { s with backup := t.backup } ∧ t.backup = { s.backup with
      rtc := getF s PWR_RTC_LOAD_LO_COUNT + 2 ^ 32 * getF s PWR_RTC_LOAD_HI_COUNT, rtcFrac := 0, rtcValid := true }) ∧
    (s.phase = .ready → PathFree s 4 → s.warmAsked = none → exec (.pwrCtlWarm 0x5752) s = .next { s with warmAsked := some s.now } ∧
      ∀ key, key ≠ 0x5752 → exec (.pwrCtlWarm key) s = .next s) ∧
    (s.phase = .ready → ∀ at_, s.warmAsked = some at_ → s.flash.wdog = none → s.pending = [] →
      (at_ + 1100 ≤ s.now + 1 → ∃ t, step s = .next t ∧ t.phase = .starting true 32) ∧
      (s.now + 1 < at_ + 900 → ∃ t, step s = .next t ∧ t.phase = .ready)) ∧
    (∀ mv : BitVec 12, ∃ t, exec (.backupSupplyDrop mv) s = .next t ∧ t = { s with backup := t.backup } ∧
      (mv.toNat < 1750 → t.backup.witness = false) ∧ (1850 ≤ mv.toNat → t = s) ∧
      (mv.toNat < 1400 → ∀ i, i < 2048 → smGet 0 t.backup.store i = Config.lostByte i)) ∧
    exec .xtalStop s = .next { s with backup := { s.backup with xtal := false } } ∧
    exec .xtalStart s = .next { s with backup := { s.backup with xtal := true } }

/-- Starts. The rise of PORST_N begins a cold start, by BROWNOUT when a rail had failed, its fall and a failing rail put the
device into reset, where an update of the backup that they cut leaves the witness at LOST; a recognised low of WRST_N begins a
warm start while the device is ready. From then on the balls are low and ALERT_N is released. A cold start that fails a step
or finds no berth reaches ready with zeroed memory, but for the memory that failed, no job and the life cycle latched; the first one in RETURNED erases the
keys and both berths. A warm start keeps HBM, ERR_SUMMARY and nothing of the SRAMs, or becomes a cold start when the backup is
not valid or the load area does not match; without REFCLK it holds until it returns.
It rests on choices of the model, log entries 3, 11, 12, 13, 14, 16, 17, 18, 19, 28 and 121. -/
def Obligations.StartsReachReady : Prop :=
  ∀ s : State,
    let released : State := { s with
      rtio := { s.rtio with tout := 0, fsync := [], stepch := [] }, out := { s.out with alertLow := false } }
    let whole := s.backup.witness && s.backup.updatedAt.all (fun at_ => decide (at_ + Config.updateTicks ≤ s.now))
    (exec .porstNRise s = .next { released with
      phase := .starting false (if s.phase = .inReset true then 2 else 1), backup := { s.backup with mainOn := true } }) ∧
    ((∀ b, s.phase ≠ .inReset b) →
      exec .porstNFall s = .next { released with phase := .inReset false, backup := { s.backup with witness := whole } } ∧
      exec .brownout s = .next { released with
        phase := .inReset true, backup := { s.backup with witness := whole, mainOn := false } }) ∧
    (∀ b, s.phase = .inReset b → exec .porstNFall s = .next s ∧
      exec .brownout s = .next { s with backup := { s.backup with mainOn := false } }) ∧
    (∀ low, (s.phase = .ready → 1100 ≤ low → exec (.wrstNRise low) s = .next { released with phase := .starting true 8 }) ∧
      ((s.phase ≠ .ready ∨ low < 900) → exec (.wrstNRise low) s = .next s)) ∧
    (∀ cause (fail : BitVec 4) us, s.phase = .starting false cause →
      let steps := (coldSteps s cause 0 us.toNat).2
      (fail = 4 ∨ fail = 5 ∨ (lcState s.sec.lc ≠ 3 ∧ loadable steps 1 = false ∧ loadable steps 2 = false)) →
      ∃ t, exec (.coldStart fail us) s = .next t ∧ t.phase = .ready ∧ t.jobs = [] ∧ t.ctxs = [] ∧
        (∀ a, (fail = 4 → memKind a = some .hbm) → (fail = 5 → memKind a ≠ some .hbm) → memByte t a = 0) ∧
        t.sec.state = lcState s.sec.lc ∧ t.readyAt = s.now ∧ getF t GLB_BERTH_STAT_ACTIVE = 0 ∧ flag t PWR_STAT_WARM = false ∧
        getF t PWR_STAT_STEP_FAIL = (if fail = 4 ∨ fail = 5 then fail.toNat else 0) ∧ getF t PWR_START_TIME_US = us.toNat ∧
        getReg t PWR_RESET_CAUSE_PORST.key = BitVec.ofNat 32 (if backupValid s then cause else cause ||| 64) ∧
        ∀ k, k ∉ [CLK_STAT_LOCKED.key, PWR_RESET_CAUSE_PORST.key, PWR_STAT_WARM.key, PWR_START_TIME_US.key,
          PWR_PREV_SUMMARY_SUMMARY.key, PWR_RTC_HI_COUNT.key, BSN_HBM_STAT_TRAINED.key, GLB_BERTH_VER_A_VERSION.key,
          GLB_BERTH_VER_B_VERSION.key] → getReg t k = regReset k) ∧
    (∀ cause (fail : BitVec 4) us, s.phase = .starting false cause → fail ≠ 4 → fail ≠ 5 → lcState s.sec.lc = 3 → s.sec.erasedAll = false →
      ∃ t, exec (.coldStart fail us) s = .next t ∧ t.phase = .ready ∧ t.sec.erasedAll = true ∧ t.backup.witness = false ∧
        (∀ i, i < 4 → (getSlotFuses t i).erased = true) ∧ (∀ a, a < 0x8000000 → flashByte t a = 0xFF) ∧
        confirmed t 1 = false ∧ confirmed t 2 = false) ∧
    (∀ cause us, s.phase = .starting true cause →
      (backupValid s = false → ∃ t, exec (.warmStart us) s = .next t ∧ t.phase = .starting false cause ∧ t.regs = s.regs ∧ SameBytes s t) ∧
      (backupValid s = true → getF s CLK_STAT_LOCKED % 256 = 0 → ∃ t, exec (.warmStart us) s = .next t ∧
        t.phase = .refclkHold cause us.toNat s.now ∧ t.regs = s.regs ∧ SameBytes s t) ∧
      (backupValid s = true → getF s CLK_STAT_LOCKED % 256 ≠ 0 → getF s GLB_BERTH_STAT_ACTIVE = 0 →
        ∃ t, exec (.warmStart us) s = .next t ∧ t.phase = .ready ∧ t.jobs = [] ∧ flag t PWR_STAT_WARM = true ∧
          getF t PWR_START_TIME_US = us.toNat ∧ getReg t PWR_RESET_CAUSE_PORST.key = BitVec.ofNat 32 cause ∧
          getReg t ERR_SUMMARY_CLASSES.key = getReg s ERR_SUMMARY_CLASSES.key ∧ t.sec.state = s.sec.state ∧
          (∀ a, memByte t a = if memKind a = some .hbm then memByte s a else 0) ∧ (∀ a, hostByte t a = hostByte s a)) ∧
      (backupValid s = true → getF s CLK_STAT_LOCKED % 256 ≠ 0 → getF s GLB_BERTH_STAT_ACTIVE ≠ 0 → s.flash.loaded ≤ 62914560 →
        crc32c (loadArea s) ≠ s.flash.loadCrc → ∃ t, exec (.warmStart us) s = .next t ∧ t.phase = .starting false (cause ||| 128))) ∧
    (∀ cause us since, s.phase = .refclkHold cause us since → getF s GLB_BERTH_STAT_ACTIVE = 0 → ∃ t, exec .refclkReturn s = .next t ∧
      t.phase = .ready ∧ t.jobs = [] ∧ getF t PWR_START_TIME_US = (us + (s.now - since) / 100) % 2 ^ 32 ∧ t.backup.refclk = true) ∧
    ((∀ cause us since, s.phase ≠ .refclkHold cause us since) →
      exec .refclkReturn s = .next { s with backup := { s.backup with refclk := true } })

/-! ### Life cycle, keys and the TAP -/

/-- Life cycle and keys. While an operation runs, a command with its key sets CMD_IGNORED and does nothing else. A transition the
life cycle allows, the programming of an empty slot, and a revocation in OPEN start their fuse operation; the others
read RESULT 4. A key read returns the slot's hash. A fuse operation that verifies blows its fuses; one that fails sets
FUSE_FAIL, makes no transition and changes the state of no slot. A token check ends with its result code; an accepted token starts its operation.
It rests on choices of the model, log entries 3, 29, 40, 41 and 122. -/
def Obligations.LifeCycleAndKeyCommands : Prop :=
  ∀ s : State, s.phase = .ready →
    (PathFree s 10 → secBusy s = true → ∀ (target : Fin 8) (slot : Fin 4) (key : BitVec 16),
      ∀ i ∈ [Instr.lcTransition key target, .keyProgram key slot, .keyRead key slot, .keyRevoke key slot, .tokenCheck],
        ∃ t, exec i s = .next t ∧ Raised SEC_EVENT_CMD_IGNORED s t ∧ OnlyEvents [SEC_EVENT_CMD_IGNORED.key] s t) ∧
    (PathFree s 10 → secBusy s = false → ∀ (target : Fin 8) (slot : Fin 4) (key : BitVec 16),
      (key ≠ 0x4C43 → exec (.lcTransition key target) s = .next s) ∧
      (key ≠ 0x4B59 → exec (.keyProgram key slot) s = .next s ∧ exec (.keyRead key slot) s = .next s ∧
        exec (.keyRevoke key slot) s = .next s) ∧
      (∀ bits : BitVec 4, (target = 4 ∧ bits = 0xF ∨ s.sec.state = 0 ∧ target = 1 ∧ bits = 0x1 ∨
          s.sec.state = 1 ∧ target = 2 ∧ (∃ i, i < 4 ∧ slotState s i = 1) ∧ bits = 0x3) →
        ∃ t, exec (.lcTransition 0x4C43 target) s = .next t ∧ t.sec.op = some (.lc bits) ∧ getF t SEC_LC_STAT_RESULT = 0 ∧
          t.sec.opFromToken = false ∧ RegsBut [SEC_LC_STAT_RESULT.key] s t ∧ SameFrame s t) ∧
      (target ≠ 4 → ¬ (s.sec.state = 0 ∧ target = 1) → ¬ (s.sec.state = 1 ∧ target = 2) →
        ∃ t, exec (.lcTransition 0x4C43 target) s = .next t ∧ getF t SEC_LC_STAT_RESULT = 4 ∧ OnlyRegs [SEC_LC_STAT_RESULT.key] s t) ∧
      (s.sec.state ≤ 1 → slotState s slot = 0 → keyData s ≠ zeros 32 → ∃ t, exec (.keyProgram 0x4B59 slot) s = .next t ∧
        t.sec.op = some (.key slot (keyData s)) ∧ getF t SEC_KEY_STAT_RESULT = 0 ∧ RegsBut [SEC_KEY_STAT_RESULT.key] s t ∧ SameFrame s t) ∧
      ((2 ≤ s.sec.state ∨ slotState s slot ≠ 0 ∨ keyData s = zeros 32) → ∃ t, exec (.keyProgram 0x4B59 slot) s = .next t ∧
        getF t SEC_KEY_STAT_RESULT = 4 ∧ OnlyRegs [SEC_KEY_STAT_RESULT.key] s t) ∧
      (∃ t, exec (.keyRead 0x4B59 slot) s = .next t ∧ getF t SEC_KEY_STAT_RESULT = 1 ∧
        OnlyRegs (SEC_KEY_STAT_RESULT.key :: (List.range 8).map (fun i => (SEC_KEY_DATA_HASH i).key)) s t ∧
        ((getSlotFuses s slot).erased = true ∨ s.sec.state = 4 → keyData t = zeros 32) ∧
        ((getSlotFuses s slot).erased = false → s.sec.state ≠ 4 → (getSlotFuses s slot).hash.length = 32 →
          keyData t = (getSlotFuses s slot).hash)) ∧
      (s.sec.state = 1 → ∃ t, exec (.keyRevoke 0x4B59 slot) s = .next t ∧ t.sec.op = some (.revoke slot) ∧
        getF t SEC_KEY_STAT_RESULT = 0 ∧ RegsBut [SEC_KEY_STAT_RESULT.key] s t ∧ SameFrame s t) ∧
      (s.sec.state ≠ 1 → ∃ t, exec (.keyRevoke 0x4B59 slot) s = .next t ∧ getF t SEC_KEY_STAT_RESULT = 4 ∧
        OnlyRegs [SEC_KEY_STAT_RESULT.key] s t) ∧
      (∃ t, exec .tokenCheck s = .next t ∧ t.sec = { s.sec with tokenBusy := true } ∧ getF t SEC_TOKEN_STAT_RESULT = 0 ∧
        RegsBut [SEC_TOKEN_STAT_RESULT.key] s t ∧ SameFrame s t)) ∧
    (∀ bits, s.sec.op = some (.lc bits) → ∃ t, exec (.fuseOpDone true) s = .next t ∧ t.sec.lc = s.sec.lc ||| bits ∧ t.sec.op = none ∧
      t.sec.slots = s.sec.slots ∧ (s.sec.opFromToken = false → getF t SEC_LC_STAT_RESULT = 1) ∧ RegsBut [SEC_LC_STAT_RESULT.key] s t) ∧
    (∀ slot h, s.sec.op = some (.key slot h) → ∃ t, exec (.fuseOpDone true) s = .next t ∧ t.sec.lc = s.sec.lc ∧ t.sec.op = none ∧
      getSlotFuses t slot = { getSlotFuses s slot with
        hash := List.zipWith (· ||| ·) (getSlotFuses s slot).hash h, valid := true } ∧ t.images = [] ∧
      (∀ i, i ≠ slot → getSlotFuses t i = getSlotFuses s i) ∧ (s.sec.opFromToken = false → getF t SEC_KEY_STAT_RESULT = 1)) ∧
    (∀ slot, s.sec.op = some (.revoke slot) → ∃ t, exec (.fuseOpDone true) s = .next t ∧ t.sec.lc = s.sec.lc ∧ t.sec.op = none ∧
      getSlotFuses t slot = { getSlotFuses s slot with revoked := true } ∧ t.images = [] ∧
      (∀ i, i ≠ slot → getSlotFuses t i = getSlotFuses s i)) ∧
    (∀ op, s.sec.op = some op → ∃ t, exec (.fuseOpDone false) s = .next t ∧ Raised SEC_EVENT_FUSE_FAIL s t ∧
      (∃ lc slots, t.sec = { s.sec with op := none, opFromToken := false, lc := lc, slots := slots }) ∧
      (∀ bits, op = .lc bits → s.sec.lc ||| bits ≠ s.sec.lc → t.sec.lc ≠ s.sec.lc ||| bits) ∧
      ((∀ bits, op ≠ .lc bits) → t.sec.lc = s.sec.lc) ∧
      (∀ i, (∀ h, op ≠ .key i h) → getSlotFuses t i = getSlotFuses s i) ∧
      (∀ i, ∃ h, getSlotFuses t i = { getSlotFuses s i with hash := h }) ∧
      t.images = s.images ∧ SameBytes s t ∧ OnlyEvents [SEC_EVENT_FUSE_FAIL.key] s { t with sec := s.sec }) ∧
    (∀ b u, s.raised = [] → s.sec.tokenBusy = true →
      runOp (readDev none (basinBase + getF s SEC_TOKEN_OFF_OFFSET * 64)
        (min 128 (basinSize - getF s SEC_TOKEN_OFF_OFFSET * 64))) s = (.ok b, u) →
      ∃ t, exec .tokenCheckDone s = .next t ∧ getF t SEC_TOKEN_STAT_RESULT = tokenResult u b ∧ t.sec.tokenBusy = false ∧ SameBytes s t ∧
        (tokenResult u b ≠ 1 → t.sec.op = u.sec.op) ∧
        (tokenResult u b = 1 → recNat b 4 1 = 1 → t.sec.op = some (.lc 0x4) ∧ t.sec.opFromToken = true) ∧
        (tokenResult u b = 1 → recNat b 4 1 = 2 → t.sec.op = some (.revoke (recNat b 5 1)) ∧ t.sec.opFromToken = true))

/-- The TAP. An instruction the life cycle allows is loaded and selects its data register; in VOID all but IDCODE and BYPASS act as
BYPASS and, while the device is ready, set JTAG_DENIED. REGACC, where debug is open and HOST_LOCK is 0, reads or writes a
register and counts; SCANDUMP, where debug is open, stops the device. Test-Logic-Reset selects IDCODE.
It rests on choices of the model, log entries 30 and 31. -/
def Obligations.TapInstructionsAct : Prop :=
  ∀ s : State,
    (∀ p ∈ [(Instr.jtagExtest, 0x00), (.jtagSamplePreload, 0x02), (.jtagClamp, 0x03), (.jtagHighz, 0x04)],
      (s.sec.state ≠ 4 → exec p.1 s = .next { s with jtag := ⟨p.2, s.jtag.dr, true⟩ }) ∧
      (s.sec.state = 4 → s.phase = .ready → ∃ t, exec p.1 s = .next t ∧ t.jtag = ⟨0xFF, 0, true⟩ ∧
        Raised DBG_EVENT_JTAG_DENIED s t ∧ OnlyEvents [DBG_EVENT_JTAG_DENIED.key] s { t with jtag := s.jtag })) ∧
    exec .jtagIdcode s = .next { s with jtag := ⟨0x01, 0x0A164E3F, true⟩ } ∧
    (∀ code : BitVec 8, 4 < code.toNat → code ≠ 0x20 → code ≠ 0x21 → exec (.jtagBypass code) s = .next { s with jtag := ⟨0xFF, 0, true⟩ }) ∧
    (s.phase = .ready → debugOpen s = true → flag s DBG_CTL_HOST_LOCK = false → s.accessQ = [] → ∀ dr : BitVec 64, bitsOf dr.toNat 23 0 = 16 →
      (dr.getLsbD 24 = false → ∃ t, exec (.jtagRegacc dr) s = .next t ∧ t.jtag.ir = 0x20 ∧ t.jtag.dr.getLsbD 25 = true ∧
        bitsOf t.jtag.dr.toNat 63 32 = (getReg s 4).toNat ∧ Counted DBG_REGACC_COUNT 1 s t ∧ RegsBut [DBG_REGACC_COUNT.key] s t ∧ SameFrame s t) ∧
      (dr.getLsbD 24 = true → ∃ t, exec (.jtagRegacc dr) s = .next t ∧ t.jtag.ir = 0x20 ∧ t.jtag.dr.getLsbD 25 = true ∧
        (getReg t 4).toNat = bitsOf dr.toNat 63 32 ∧ Counted DBG_REGACC_COUNT 1 s t ∧ RegsBut [4, DBG_REGACC_COUNT.key] s t ∧ SameFrame s t)) ∧
    (s.phase = .ready → (debugOpen s = false ∨ flag s DBG_CTL_HOST_LOCK = true) → ∀ dr : BitVec 64, ∃ t,
      exec (.jtagRegacc dr) s = .next t ∧ t.jtag = ⟨0xFF, 0, true⟩ ∧ Raised DBG_EVENT_JTAG_DENIED s t ∧
      RegsBut [DBG_EVENT_JTAG_DENIED.key] s t ∧ SameFrame s t) ∧
    (s.phase = .ready → debugOpen s = true → ∃ t, exec .jtagScandump s = .next t ∧ t.phase = .scanned ∧
      t.out.tdo.length = Config.scanLength ∧ t.regs = s.regs ∧ t.jobs = s.jobs ∧ SameBytes s t) ∧
    (s.phase = .ready → debugOpen s = false → ∃ t, exec .jtagScandump s = .next t ∧ t.phase = .ready ∧
      t.jtag = ⟨0xFF, 0, true⟩ ∧ Raised DBG_EVENT_JTAG_DENIED s t) ∧
    exec .tapReset s = .next { s with jtag := ⟨0x01, 0x0A164E3F, false⟩ }
end

