-- ==== Sys2Proof/Laws/Bits.lean ====
section
/-! SUPPORT. Bit fields: what reading a field gives after a field is written. -/

namespace Sys2Proof.Machine

theorem bitOf_eq (x b : Nat) : bitOf x b = x.testBit b := by
  simp [bitOf, Nat.testBit_eq_decide_div_mod_eq]

theorem testBit_bitsOf (x hi lo i : Nat) : (bitsOf x hi lo).testBit i = (decide (i < hi - lo + 1) && x.testBit (lo + i)) := by
  simp [bitsOf, Nat.testBit_mod_two_pow, Nat.testBit_div_two_pow, Nat.add_comm]

theorem bitsOf_lt (x hi lo : Nat) : bitsOf x hi lo < 2 ^ (hi - lo + 1) := Nat.mod_lt _ (Nat.two_pow_pos _)

/-- A field replaced: the bits above, the new field, the bits below. -/
theorem setBitsOf_eq (x hi lo v : Nat) :
    setBitsOf x hi lo v = 2 ^ lo * (2 ^ (hi - lo + 1) * (x / 2 ^ lo / 2 ^ (hi - lo + 1)) + v % 2 ^ (hi - lo + 1)) + x % 2 ^ lo := by
  have h1 := Nat.div_add_mod x (2 ^ lo)
  have h2 := Nat.div_add_mod (x / 2 ^ lo) (2 ^ (hi - lo + 1))
  unfold setBitsOf bitsOf
  generalize x / 2 ^ lo / 2 ^ (hi - lo + 1) = H at *
  generalize x / 2 ^ lo % 2 ^ (hi - lo + 1) = B at *
  generalize x % 2 ^ lo = L at *
  rw [← h2] at h1
  rw [← h1, Nat.mul_add, Nat.mul_add, Nat.mul_comm B (2 ^ lo), Nat.mul_comm (v % _) (2 ^ lo)]
  omega

theorem testBit_setBitsOf (x hi lo v i : Nat) :
    (setBitsOf x hi lo v).testBit i = if lo ≤ i ∧ i < lo + (hi - lo + 1) then v.testBit (i - lo) else x.testBit i := by
  rw [setBitsOf_eq, Nat.testBit_two_pow_mul_add _ (Nat.mod_lt _ (Nat.two_pow_pos lo)), Nat.testBit_mod_two_pow]
  by_cases h : i < lo
  · simp [h, show ¬ (lo ≤ i) by omega]
  · have hle : lo ≤ i := by omega
    rw [if_neg h, Nat.testBit_two_pow_mul_add _ (Nat.mod_lt _ (Nat.two_pow_pos _)), Nat.testBit_mod_two_pow]
    by_cases h2 : i - lo < hi - lo + 1
    · rw [if_pos h2, if_pos ⟨hle, by omega⟩]; simp [h2]
    · rw [if_neg h2, if_neg (by omega), Nat.testBit_div_two_pow, Nat.testBit_div_two_pow]
      congr 1; omega

/-- A field of a word by bits. -/
theorem testBit_fieldOf (w : W32) (hi lo i : Nat) :
    (fieldOf w hi lo).testBit i = (decide (i < hi - lo + 1) && w.toNat.testBit (lo + i)) := testBit_bitsOf _ _ _ _

theorem testBit_withField (w : W32) (hi lo v i : Nat) :
    (withField w hi lo v).toNat.testBit i =
      (decide (i < 32) && if lo ≤ i ∧ i < lo + (hi - lo + 1) then v.testBit (i - lo) else w.toNat.testBit i) := by
  rw [withField, BitVec.toNat_ofNat, Nat.testBit_mod_two_pow, testBit_setBitsOf]

/-- A field reads what was written to it, modulo its width. -/
theorem fieldOf_withField_same (w : W32) (hi lo v : Nat) (h : hi < 32) (hl : lo ≤ hi) :
    fieldOf (withField w hi lo v) hi lo = v % 2 ^ (hi - lo + 1) := by
  apply Nat.eq_of_testBit_eq
  intro i
  rw [testBit_fieldOf, testBit_withField, Nat.testBit_mod_two_pow]
  by_cases hi' : i < hi - lo + 1
  · have h1 : lo + i < 32 := by omega
    have h2 : lo ≤ lo + i ∧ lo + i < lo + (hi - lo + 1) := by omega
    simp only [hi', h1, decide_true, Bool.true_and, if_pos h2, Nat.add_sub_cancel_left]
  · simp [hi']

/-- Writing a field leaves a field that does not overlap it. -/
theorem fieldOf_withField_other (w : W32) (hi lo v hi' lo' : Nat) (hl : lo ≤ hi) (h' : hi' < 32) (hl' : lo' ≤ hi')
    (h : hi < lo' ∨ hi' < lo) : fieldOf (withField w hi lo v) hi' lo' = fieldOf w hi' lo' := by
  apply Nat.eq_of_testBit_eq
  intro i
  rw [testBit_fieldOf, testBit_fieldOf, testBit_withField]
  by_cases hi' : i < hi' - lo' + 1
  · have h1 : lo' + i < 32 := by omega
    have h2 : ¬ (lo ≤ lo' + i ∧ lo' + i < lo + (hi - lo + 1)) := by omega
    simp only [h1, decide_true, Bool.true_and, if_neg h2]
  · simp [hi']

end Sys2Proof.Machine
end

