-- ==== Sys2Proof/Laws/Maps.lean ====
section
/-! SUPPORT. Sparse stores: a read after a write, and the canonical form every operation keeps. -/

namespace Sys2Proof.Machine

variable {α : Type}

/-! ### Reads after writes -/

theorem smErase_keys (m : SMap α) (k : Nat) : ∀ p ∈ smErase m k, p.1 ≠ k := by
  induction m with
  | nil => simp [smErase]
  | cons x m ih =>
    obtain ⟨k', v⟩ := x
    by_cases h : k' = k
    · simpa [smErase, h] using ih
    · simpa [smErase, h] using ih

theorem smGet_smErase (d : α) (m : SMap α) (k j : Nat) :
    smGet d (smErase m k) j = if j = k then d else smGet d m j := by
  induction m with
  | nil => simp [smErase, smGet]
  | cons x m ih =>
    obtain ⟨k', v⟩ := x
    by_cases h : k' = k
    · subst h
      by_cases hj : j = k'
      · simpa [smErase, hj] using ih
      · simp [smErase, ih, smGet, hj, Ne.symm hj]
    · by_cases hj : k' = j
      · subst hj; simp [smErase, smGet, h]
      · simp [smErase, smGet, h, hj, ih]

theorem smGet_smInsert (d : α) (m : SMap α) (k j : Nat) (v : α) (h : ∀ p ∈ m, p.1 ≠ k) :
    smGet d (smInsert m k v) j = if j = k then v else smGet d m j := by
  induction m with
  | nil =>
    by_cases hj : j = k
    · simp [smInsert, smGet, hj]
    · simp [smInsert, smGet, hj, Ne.symm hj]
  | cons x m ih =>
    obtain ⟨k', v'⟩ := x
    have hk : k' ≠ k := h (k', v') (by simp)
    have ih := ih (fun p hp => h p (by simp [hp]))
    by_cases hlt : k < k'
    · by_cases hj : j = k
      · simp [smInsert, smGet, hlt, hj]
      · simp [smInsert, smGet, hlt, hj, Ne.symm hj]
    · by_cases hj : k' = j
      · subst hj; simp [smInsert, smGet, hlt, hk]
      · simp [smInsert, smGet, hlt, hj, ih]

/-- A read after a write gives the value written, and leaves every other key alone. -/
theorem smGet_smPut [DecidableEq α] (d : α) (m : SMap α) (k j : Nat) (v : α) :
    smGet d (smPut d m k v) j = if j = k then v else smGet d m j := by
  unfold smPut
  split
  · subst_vars; exact smGet_smErase _ m k j
  · rw [smGet_smInsert d _ k j v (smErase_keys m k), smGet_smErase]
    by_cases hj : j = k <;> simp [hj]

@[simp] theorem smGet_smPut_same [DecidableEq α] (d : α) (m : SMap α) (k : Nat) (v : α) :
    smGet d (smPut d m k v) k = v := by simp [smGet_smPut]

theorem smGet_smPut_other [DecidableEq α] (d : α) (m : SMap α) {k j : Nat} (v : α) (h : j ≠ k) :
    smGet d (smPut d m k v) j = smGet d m j := by simp [smGet_smPut, h]

/-- A key other than the one written reads the same under any default. -/
theorem smGet_smPut_ne [DecidableEq α] (d e : α) (m : SMap α) {k j : Nat} (v : α) (h : j ≠ k) :
    smGet e (smPut d m k v) j = smGet e m j := by
  unfold smPut
  split
  · rw [smGet_smErase, if_neg h]
  · rw [smGet_smInsert e _ k j v (smErase_keys m k), if_neg h, smGet_smErase, if_neg h]

/-! ### The canonical form -/

/-- The canonical form as a statement about the whole list. -/
theorem smWf_iff [DecidableEq α] (d : α) (m : SMap α) :
    smWf d m = true ↔ m.Pairwise (fun p q => p.1 < q.1) ∧ ∀ p ∈ m, p.2 ≠ d := by
  induction m with
  | nil => simp [smWf]
  | cons x m ih =>
    obtain ⟨k, v⟩ := x
    cases m with
    | nil => simp [smWf]
    | cons y m =>
      obtain ⟨k', v'⟩ := y
      simp only [smWf, Bool.and_eq_true, decide_eq_true_eq, ih]
      constructor
      · rintro ⟨⟨hv, hlt⟩, hp, hne⟩
        refine ⟨List.pairwise_cons.2 ⟨?_, hp⟩, ?_⟩
        · intro p hpm
          rcases List.mem_cons.1 hpm with rfl | hpm
          · exact hlt
          · exact Nat.lt_trans hlt ((List.pairwise_cons.1 hp).1 p hpm)
        · intro p hpm
          rcases List.mem_cons.1 hpm with rfl | hpm
          · exact hv
          · exact hne p hpm
      · rintro ⟨hp, hne⟩
        obtain ⟨h1, h2⟩ := List.pairwise_cons.1 hp
        exact ⟨⟨hne (k, v) (by simp), h1 (k', v') (by simp)⟩, h2, fun p hpm => hne p (by simp [hpm])⟩

theorem smErase_sublist (m : SMap α) (k : Nat) : (smErase m k).Sublist m := by
  induction m with
  | nil => simp [smErase]
  | cons x m ih =>
    obtain ⟨k', v⟩ := x
    by_cases h : k' = k
    · simp only [smErase, h, if_true]; exact ih.cons _
    · simp only [smErase, h, if_false]; exact ih.cons_cons _

theorem smInsert_mem (m : SMap α) (k : Nat) (v : α) (p : Nat × α) : p ∈ smInsert m k v ↔ p = (k, v) ∨ p ∈ m := by
  induction m with
  | nil => simp [smInsert]
  | cons x m ih =>
    obtain ⟨k', v'⟩ := x
    by_cases h : k < k'
    · simp [smInsert, h]
    · simp only [smInsert, h, if_false, List.mem_cons, ih]; exact or_left_comm

theorem smInsert_pairwise (m : SMap α) (k : Nat) (v : α) (h : m.Pairwise (fun p q => p.1 < q.1))
    (hk : ∀ p ∈ m, p.1 ≠ k) : (smInsert m k v).Pairwise (fun p q => p.1 < q.1) := by
  induction m with
  | nil => simp [smInsert]
  | cons x m ih =>
    obtain ⟨k', v'⟩ := x
    obtain ⟨h1, h2⟩ := List.pairwise_cons.1 h
    have hne : k' ≠ k := hk (k', v') (by simp)
    by_cases hlt : k < k'
    · simp only [smInsert, hlt, if_true]
      refine List.pairwise_cons.2 ⟨?_, h⟩
      intro p hp
      rcases List.mem_cons.1 hp with rfl | hp
      · exact hlt
      · exact Nat.lt_trans hlt (h1 p hp)
    · simp only [smInsert, hlt, if_false]
      refine List.pairwise_cons.2 ⟨?_, ih h2 (fun p hp => hk p (by simp [hp]))⟩
      intro p hp
      rcases (smInsert_mem m k v p).1 hp with rfl | hp
      · exact Nat.lt_of_le_of_ne (Nat.le_of_not_lt hlt) hne
      · exact h1 p hp

/-- Writing one key keeps the canonical form. -/
theorem smWf_smPut [DecidableEq α] (d : α) (m : SMap α) (k : Nat) (v : α) (h : smWf d m = true) :
    smWf d (smPut d m k v) = true := by
  rw [smWf_iff] at h ⊢
  obtain ⟨hp, hne⟩ := h
  have hs := smErase_sublist m k
  unfold smPut
  split
  · exact ⟨hp.sublist hs, fun p hm => hne p (hs.subset hm)⟩
  · rename_i hv
    refine ⟨smInsert_pairwise _ k v (hp.sublist hs) (smErase_keys m k), ?_⟩
    intro p hm
    rcases (smInsert_mem _ k v p).1 hm with rfl | hm
    · exact hv
    · exact hne p (hs.subset hm)

/-- `smNorm` gives the canonical form. -/
theorem smWf_smNorm [DecidableEq α] (d : α) (m : SMap α) : smWf d (smNorm d m) = true := by
  unfold smNorm
  split
  · assumption
  · rename_i hw; clear hw
    induction m with
    | nil => simp [smWf]
    | cons x m ih => exact smWf_smPut d _ _ _ ih

/-- A store already in its canonical form is left as it is. -/
@[simp] theorem smNorm_of_wf [DecidableEq α] (d : α) (m : SMap α) (h : smWf d m = true) : smNorm d m = m := by
  simp [smNorm, h]

/-- `smNorm` leaves what every key reads as. -/
theorem smGet_smNorm [DecidableEq α] (d : α) (m : SMap α) (j : Nat) : smGet d (smNorm d m) j = smGet d m j := by
  unfold smNorm
  split
  · rfl
  · rename_i hw; clear hw
    induction m with
    | nil => rfl
    | cons x m ih =>
      obtain ⟨k, v⟩ := x
      simp only [List.foldr_cons, smGet_smPut, ih, smGet]
      by_cases h : j = k
      · simp [h]
      · simp [h, Ne.symm h]

/-! ### Runs of values -/

theorem smRun_mem [DecidableEq α] (d : α) (l : List α) (a : Nat) :
    ∀ p ∈ smRun d a l, a ≤ p.1 ∧ p.1 < a + l.length ∧ p.2 ≠ d := by
  induction l generalizing a with
  | nil => simp [smRun]
  | cons v l ih =>
    intro p hp
    unfold smRun at hp
    have key : ∀ q ∈ smRun d (a + 1) l, a ≤ q.1 ∧ q.1 < a + (l.length + 1) ∧ q.2 ≠ d := by
      intro q hq; obtain ⟨h1, h2, h3⟩ := ih (a + 1) q hq; exact ⟨by omega, by omega, h3⟩
    split at hp
    · exact key p hp
    · rename_i hv
      rcases List.mem_cons.1 hp with rfl | hp
      · exact ⟨Nat.le_refl _, by simp, hv⟩
      · exact key p hp

theorem smRun_pairwise [DecidableEq α] (d : α) (l : List α) (a : Nat) :
    (smRun d a l).Pairwise (fun p q => p.1 < q.1) := by
  induction l generalizing a with
  | nil => simp [smRun]
  | cons v l ih =>
    unfold smRun
    split
    · exact ih _
    · exact List.pairwise_cons.2 ⟨fun p hp => (smRun_mem d l (a + 1) p hp).1, ih _⟩

/-- Writing a run of values keeps the canonical form. -/
theorem smWf_smWrite [DecidableEq α] (d : α) (m : SMap α) (a : Nat) (l : List α) (h : smWf d m = true) :
    smWf d (smWrite d m a l) = true := by
  rw [smWf_iff] at h ⊢
  obtain ⟨hp, hne⟩ := h
  unfold smWrite
  refine ⟨?_, ?_⟩
  · refine List.pairwise_append.2 ⟨List.pairwise_append.2 ⟨hp.sublist List.filter_sublist, smRun_pairwise d l a, ?_⟩,
      hp.sublist List.filter_sublist, ?_⟩
    · intro p hp q hq
      have := (smRun_mem d l a q hq).1
      simp only [List.mem_filter, decide_eq_true_eq] at hp
      omega
    · intro p hp q hq
      simp only [List.mem_append, List.mem_filter, decide_eq_true_eq] at hp hq
      rcases hp with ⟨_, hp⟩ | hp
      · omega
      · have := (smRun_mem d l a p hp).2.1; omega
  · intro p hp
    simp only [List.mem_append, List.mem_filter] at hp
    rcases hp with (⟨hp, _⟩ | hp) | ⟨hp, _⟩
    · exact hne p hp
    · exact (smRun_mem d l a p hp).2.2
    · exact hne p hp

theorem smGet_append (d : α) (m n : SMap α) (j : Nat) (h : ∀ p ∈ m, p.1 ≠ j) : smGet d (m ++ n) j = smGet d n j := by
  induction m with
  | nil => rfl
  | cons x m ih =>
    obtain ⟨k, v⟩ := x
    simp [smGet, h (k, v) (by simp), ih (fun p hp => h p (by simp [hp]))]

theorem smGet_append_not (d : α) (m n : SMap α) (j : Nat) (h : ∀ p ∈ n, p.1 ≠ j) : smGet d (m ++ n) j = smGet d m j := by
  induction m with
  | nil =>
    induction n with
    | nil => rfl
    | cons x n ih =>
      obtain ⟨k, v⟩ := x
      simpa [smGet, h (k, v) (by simp)] using ih (fun p hp => h p (by simp [hp]))
  | cons x m ih => obtain ⟨k, v⟩ := x; simp [smGet, ih]

theorem smGet_filter (d : α) (m : SMap α) (f : Nat → Bool) (j : Nat) :
    smGet d (m.filter (fun p => f p.1)) j = if f j then smGet d m j else d := by
  induction m with
  | nil => simp [smGet]
  | cons x m ih =>
    obtain ⟨k, v⟩ := x
    by_cases hj : k = j
    · subst hj; by_cases hf : f k <;> simp [smGet, hf, ih]
    · by_cases hf : f k <;> simp [smGet, hf, hj, ih]

theorem smGet_smRun [DecidableEq α] (d : α) (l : List α) (a j : Nat) :
    smGet d (smRun d a l) j = if a ≤ j then l.getD (j - a) d else d := by
  induction l generalizing a with
  | nil => simp [smRun, smGet]
  | cons v l ih =>
    unfold smRun
    by_cases hj : j = a
    · subst hj
      by_cases hv : v = d
      · rw [if_pos hv, ih, if_neg (by omega)]; simp [hv]
      · simp [hv, smGet]
    · have hs : a ≤ j → j - a = (j - (a + 1)) + 1 := by omega
      split <;> simp only [smGet, Ne.symm hj, if_false, ih]
      all_goals
        by_cases h : a + 1 ≤ j
        · have h' : a ≤ j := by omega
          rw [if_pos h, if_pos h', hs h', List.getD_cons_succ]
        · have h' : ¬ a ≤ j := by omega
          simp [h, h']

/-- What every key reads as after a run of values is written. -/
theorem smGet_smWrite [DecidableEq α] (d : α) (m : SMap α) (a : Nat) (l : List α) (j : Nat) :
    smGet d (smWrite d m a l) j = if a ≤ j ∧ j < a + l.length then l.getD (j - a) d else smGet d m j := by
  unfold smWrite
  by_cases h1 : j < a
  · rw [List.append_assoc, smGet_append_not, smGet_filter (f := fun k => decide (k < a))]
    · have : ¬ a ≤ j := by omega
      simp [h1, this]
    · intro p hp
      simp only [List.mem_append, List.mem_filter, decide_eq_true_eq] at hp
      rcases hp with hp | ⟨_, hp⟩
      · have := (smRun_mem d l a p hp).1; omega
      · omega
  · by_cases h2 : j < a + l.length
    · rw [smGet_append_not, smGet_append, smGet_smRun]
      · have : a ≤ j := by omega
        simp [this, h2]
      · intro p hp; simp only [List.mem_filter, decide_eq_true_eq] at hp; omega
      · intro p hp; simp only [List.mem_filter, decide_eq_true_eq] at hp; omega
    · rw [smGet_append, smGet_filter (f := fun k => decide (a + l.length ≤ k))]
      · have : ¬ (a ≤ j ∧ j < a + l.length) := by omega
        rw [if_neg this, if_pos (by simp; omega)]
      · intro p hp
        simp only [List.mem_append, List.mem_filter, decide_eq_true_eq] at hp
        rcases hp with ⟨_, hp⟩ | hp
        · omega
        · have := (smRun_mem d l a p hp).2.1; omega

end Sys2Proof.Machine
end

