-- ==== Sys2Proof/Laws/State.lean ====
section
/-! SUPPORT. What each update of the state leaves alone: one lemma per update and field. -/

namespace Sys2Proof.Machine

@[simp] theorem putReg_pending (s : State) (k : Nat) (w : W32) : (putReg s k w).pending = s.pending := rfl
@[simp] theorem putReg_now (s : State) (k : Nat) (w : W32) : (putReg s k w).now = s.now := rfl
@[simp] theorem putReg_readyAt (s : State) (k : Nat) (w : W32) : (putReg s k w).readyAt = s.readyAt := rfl
@[simp] theorem putReg_phase (s : State) (k : Nat) (w : W32) : (putReg s k w).phase = s.phase := rfl
@[simp] theorem putReg_raised (s : State) (k : Nat) (w : W32) : (putReg s k w).raised = s.raised := rfl
@[simp] theorem putReg_mem (s : State) (k : Nat) (w : W32) : (putReg s k w).mem = s.mem := rfl
@[simp] theorem putReg_host (s : State) (k : Nat) (w : W32) : (putReg s k w).host = s.host := rfl
@[simp] theorem putReg_poison (s : State) (k : Nat) (w : W32) : (putReg s k w).poison = s.poison := rfl
@[simp] theorem putReg_latent (s : State) (k : Nat) (w : W32) : (putReg s k w).latent = s.latent := rfl
@[simp] theorem putReg_ctxs (s : State) (k : Nat) (w : W32) : (putReg s k w).ctxs = s.ctxs := rfl
@[simp] theorem putReg_jobs (s : State) (k : Nat) (w : W32) : (putReg s k w).jobs = s.jobs := rfl
@[simp] theorem putReg_written (s : State) (k : Nat) (w : W32) : (putReg s k w).written = s.written := rfl
@[simp] theorem putReg_writes (s : State) (k : Nat) (w : W32) : (putReg s k w).writes = s.writes := rfl
@[simp] theorem putReg_served (s : State) (k : Nat) (w : W32) : (putReg s k w).served = s.served := rfl
@[simp] theorem putReg_admits (s : State) (k : Nat) (w : W32) : (putReg s k w).admits = s.admits := rfl
@[simp] theorem putReg_images (s : State) (k : Nat) (w : W32) : (putReg s k w).images = s.images := rfl
@[simp] theorem putReg_cores (s : State) (k : Nat) (w : W32) : (putReg s k w).cores = s.cores := rfl
@[simp] theorem putReg_world (s : State) (k : Nat) (w : W32) : (putReg s k w).world = s.world := rfl
@[simp] theorem putReg_chains (s : State) (k : Nat) (w : W32) : (putReg s k w).chains = s.chains := rfl
@[simp] theorem putReg_rtio (s : State) (k : Nat) (w : W32) : (putReg s k w).rtio = s.rtio := rfl
@[simp] theorem putReg_fseq (s : State) (k : Nat) (w : W32) : (putReg s k w).fseq = s.fseq := rfl
@[simp] theorem putReg_errWait (s : State) (k : Nat) (w : W32) : (putReg s k w).errWait = s.errWait := rfl
@[simp] theorem putReg_errMirror (s : State) (k : Nat) (w : W32) : (putReg s k w).errMirror = s.errMirror := rfl
@[simp] theorem putReg_reinitAt (s : State) (k : Nat) (w : W32) : (putReg s k w).reinitAt = s.reinitAt := rfl
@[simp] theorem putReg_inject (s : State) (k : Nat) (w : W32) : (putReg s k w).inject = s.inject := rfl
@[simp] theorem putReg_injectAt (s : State) (k : Nat) (w : W32) : (putReg s k w).injectAt = s.injectAt := rfl
@[simp] theorem putReg_parityFlip (s : State) (k : Nat) (w : W32) : (putReg s k w).parityFlip = s.parityFlip := rfl
@[simp] theorem putReg_snapAt (s : State) (k : Nat) (w : W32) : (putReg s k w).snapAt = s.snapAt := rfl
@[simp] theorem putReg_captureNow (s : State) (k : Nat) (w : W32) : (putReg s k w).captureNow = s.captureNow := rfl
@[simp] theorem putReg_captureNext (s : State) (k : Nat) (w : W32) : (putReg s k w).captureNext = s.captureNext := rfl
@[simp] theorem putReg_passStart (s : State) (k : Nat) (w : W32) : (putReg s k w).passStart = s.passStart := rfl
@[simp] theorem putReg_passOld (s : State) (k : Nat) (w : W32) : (putReg s k w).passOld = s.passOld := rfl
@[simp] theorem putReg_warmAsked (s : State) (k : Nat) (w : W32) : (putReg s k w).warmAsked = s.warmAsked := rfl
@[simp] theorem putReg_clk (s : State) (k : Nat) (w : W32) : (putReg s k w).clk = s.clk := rfl
@[simp] theorem putReg_sec (s : State) (k : Nat) (w : W32) : (putReg s k w).sec = s.sec := rfl
@[simp] theorem putReg_backup (s : State) (k : Nat) (w : W32) : (putReg s k w).backup = s.backup := rfl
@[simp] theorem putReg_flash (s : State) (k : Nat) (w : W32) : (putReg s k w).flash = s.flash := rfl
@[simp] theorem putReg_pmb (s : State) (k : Nat) (w : W32) : (putReg s k w).pmb = s.pmb := rfl
@[simp] theorem putReg_jtag (s : State) (k : Nat) (w : W32) : (putReg s k w).jtag = s.jtag := rfl
@[simp] theorem putReg_msixTable (s : State) (k : Nat) (w : W32) : (putReg s k w).msixTable = s.msixTable := rfl
@[simp] theorem putReg_msixPending (s : State) (k : Nat) (w : W32) : (putReg s k w).msixPending = s.msixPending := rfl
@[simp] theorem putReg_accessQ (s : State) (k : Nat) (w : W32) : (putReg s k w).accessQ = s.accessQ := rfl
@[simp] theorem putReg_ferry (s : State) (k : Nat) (w : W32) : (putReg s k w).ferry = s.ferry := rfl
@[simp] theorem putReg_out (s : State) (k : Nat) (w : W32) : (putReg s k w).out = s.out := rfl

@[simp] theorem setF_pending (s : State) (f : RField) (v : Nat) : (setF s f v).pending = s.pending := rfl
@[simp] theorem setF_now (s : State) (f : RField) (v : Nat) : (setF s f v).now = s.now := rfl
@[simp] theorem setF_readyAt (s : State) (f : RField) (v : Nat) : (setF s f v).readyAt = s.readyAt := rfl
@[simp] theorem setF_phase (s : State) (f : RField) (v : Nat) : (setF s f v).phase = s.phase := rfl
@[simp] theorem setF_raised (s : State) (f : RField) (v : Nat) : (setF s f v).raised = s.raised := rfl
@[simp] theorem setF_mem (s : State) (f : RField) (v : Nat) : (setF s f v).mem = s.mem := rfl
@[simp] theorem setF_host (s : State) (f : RField) (v : Nat) : (setF s f v).host = s.host := rfl
@[simp] theorem setF_poison (s : State) (f : RField) (v : Nat) : (setF s f v).poison = s.poison := rfl
@[simp] theorem setF_latent (s : State) (f : RField) (v : Nat) : (setF s f v).latent = s.latent := rfl
@[simp] theorem setF_ctxs (s : State) (f : RField) (v : Nat) : (setF s f v).ctxs = s.ctxs := rfl
@[simp] theorem setF_jobs (s : State) (f : RField) (v : Nat) : (setF s f v).jobs = s.jobs := rfl
@[simp] theorem setF_written (s : State) (f : RField) (v : Nat) : (setF s f v).written = s.written := rfl
@[simp] theorem setF_writes (s : State) (f : RField) (v : Nat) : (setF s f v).writes = s.writes := rfl
@[simp] theorem setF_served (s : State) (f : RField) (v : Nat) : (setF s f v).served = s.served := rfl
@[simp] theorem setF_admits (s : State) (f : RField) (v : Nat) : (setF s f v).admits = s.admits := rfl
@[simp] theorem setF_images (s : State) (f : RField) (v : Nat) : (setF s f v).images = s.images := rfl
@[simp] theorem setF_cores (s : State) (f : RField) (v : Nat) : (setF s f v).cores = s.cores := rfl
@[simp] theorem setF_world (s : State) (f : RField) (v : Nat) : (setF s f v).world = s.world := rfl
@[simp] theorem setF_chains (s : State) (f : RField) (v : Nat) : (setF s f v).chains = s.chains := rfl
@[simp] theorem setF_rtio (s : State) (f : RField) (v : Nat) : (setF s f v).rtio = s.rtio := rfl
@[simp] theorem setF_fseq (s : State) (f : RField) (v : Nat) : (setF s f v).fseq = s.fseq := rfl
@[simp] theorem setF_errWait (s : State) (f : RField) (v : Nat) : (setF s f v).errWait = s.errWait := rfl
@[simp] theorem setF_errMirror (s : State) (f : RField) (v : Nat) : (setF s f v).errMirror = s.errMirror := rfl
@[simp] theorem setF_reinitAt (s : State) (f : RField) (v : Nat) : (setF s f v).reinitAt = s.reinitAt := rfl
@[simp] theorem setF_inject (s : State) (f : RField) (v : Nat) : (setF s f v).inject = s.inject := rfl
@[simp] theorem setF_injectAt (s : State) (f : RField) (v : Nat) : (setF s f v).injectAt = s.injectAt := rfl
@[simp] theorem setF_parityFlip (s : State) (f : RField) (v : Nat) : (setF s f v).parityFlip = s.parityFlip := rfl
@[simp] theorem setF_snapAt (s : State) (f : RField) (v : Nat) : (setF s f v).snapAt = s.snapAt := rfl
@[simp] theorem setF_captureNow (s : State) (f : RField) (v : Nat) : (setF s f v).captureNow = s.captureNow := rfl
@[simp] theorem setF_captureNext (s : State) (f : RField) (v : Nat) : (setF s f v).captureNext = s.captureNext := rfl
@[simp] theorem setF_passStart (s : State) (f : RField) (v : Nat) : (setF s f v).passStart = s.passStart := rfl
@[simp] theorem setF_passOld (s : State) (f : RField) (v : Nat) : (setF s f v).passOld = s.passOld := rfl
@[simp] theorem setF_warmAsked (s : State) (f : RField) (v : Nat) : (setF s f v).warmAsked = s.warmAsked := rfl
@[simp] theorem setF_clk (s : State) (f : RField) (v : Nat) : (setF s f v).clk = s.clk := rfl
@[simp] theorem setF_sec (s : State) (f : RField) (v : Nat) : (setF s f v).sec = s.sec := rfl
@[simp] theorem setF_backup (s : State) (f : RField) (v : Nat) : (setF s f v).backup = s.backup := rfl
@[simp] theorem setF_flash (s : State) (f : RField) (v : Nat) : (setF s f v).flash = s.flash := rfl
@[simp] theorem setF_pmb (s : State) (f : RField) (v : Nat) : (setF s f v).pmb = s.pmb := rfl
@[simp] theorem setF_jtag (s : State) (f : RField) (v : Nat) : (setF s f v).jtag = s.jtag := rfl
@[simp] theorem setF_msixTable (s : State) (f : RField) (v : Nat) : (setF s f v).msixTable = s.msixTable := rfl
@[simp] theorem setF_msixPending (s : State) (f : RField) (v : Nat) : (setF s f v).msixPending = s.msixPending := rfl
@[simp] theorem setF_accessQ (s : State) (f : RField) (v : Nat) : (setF s f v).accessQ = s.accessQ := rfl
@[simp] theorem setF_ferry (s : State) (f : RField) (v : Nat) : (setF s f v).ferry = s.ferry := rfl
@[simp] theorem setF_out (s : State) (f : RField) (v : Nat) : (setF s f v).out = s.out := rfl

/-- A counter adds to its register, or stands while its region is stopped (R629). -/
theorem addF_eq (s : State) (f : RField) (n : Nat) : ∃ r, addF s f n = { s with regs := r } := by
  unfold addF
  split
  · exact ⟨s.regs, rfl⟩
  · exact ⟨_, rfl⟩

@[simp] theorem addF_pending (s : State) (f : RField) (n : Nat) : (addF s f n).pending = s.pending := by obtain ⟨_, h⟩ := addF_eq s f n; rw [h]
@[simp] theorem addF_now (s : State) (f : RField) (n : Nat) : (addF s f n).now = s.now := by obtain ⟨_, h⟩ := addF_eq s f n; rw [h]
@[simp] theorem addF_readyAt (s : State) (f : RField) (n : Nat) : (addF s f n).readyAt = s.readyAt := by obtain ⟨_, h⟩ := addF_eq s f n; rw [h]
@[simp] theorem addF_phase (s : State) (f : RField) (n : Nat) : (addF s f n).phase = s.phase := by obtain ⟨_, h⟩ := addF_eq s f n; rw [h]
@[simp] theorem addF_raised (s : State) (f : RField) (n : Nat) : (addF s f n).raised = s.raised := by obtain ⟨_, h⟩ := addF_eq s f n; rw [h]
@[simp] theorem addF_mem (s : State) (f : RField) (n : Nat) : (addF s f n).mem = s.mem := by obtain ⟨_, h⟩ := addF_eq s f n; rw [h]
@[simp] theorem addF_host (s : State) (f : RField) (n : Nat) : (addF s f n).host = s.host := by obtain ⟨_, h⟩ := addF_eq s f n; rw [h]
@[simp] theorem addF_poison (s : State) (f : RField) (n : Nat) : (addF s f n).poison = s.poison := by obtain ⟨_, h⟩ := addF_eq s f n; rw [h]
@[simp] theorem addF_latent (s : State) (f : RField) (n : Nat) : (addF s f n).latent = s.latent := by obtain ⟨_, h⟩ := addF_eq s f n; rw [h]
@[simp] theorem addF_ctxs (s : State) (f : RField) (n : Nat) : (addF s f n).ctxs = s.ctxs := by obtain ⟨_, h⟩ := addF_eq s f n; rw [h]
@[simp] theorem addF_jobs (s : State) (f : RField) (n : Nat) : (addF s f n).jobs = s.jobs := by obtain ⟨_, h⟩ := addF_eq s f n; rw [h]
@[simp] theorem addF_written (s : State) (f : RField) (n : Nat) : (addF s f n).written = s.written := by obtain ⟨_, h⟩ := addF_eq s f n; rw [h]
@[simp] theorem addF_writes (s : State) (f : RField) (n : Nat) : (addF s f n).writes = s.writes := by obtain ⟨_, h⟩ := addF_eq s f n; rw [h]
@[simp] theorem addF_served (s : State) (f : RField) (n : Nat) : (addF s f n).served = s.served := by obtain ⟨_, h⟩ := addF_eq s f n; rw [h]
@[simp] theorem addF_admits (s : State) (f : RField) (n : Nat) : (addF s f n).admits = s.admits := by obtain ⟨_, h⟩ := addF_eq s f n; rw [h]
@[simp] theorem addF_images (s : State) (f : RField) (n : Nat) : (addF s f n).images = s.images := by obtain ⟨_, h⟩ := addF_eq s f n; rw [h]
@[simp] theorem addF_cores (s : State) (f : RField) (n : Nat) : (addF s f n).cores = s.cores := by obtain ⟨_, h⟩ := addF_eq s f n; rw [h]
@[simp] theorem addF_world (s : State) (f : RField) (n : Nat) : (addF s f n).world = s.world := by obtain ⟨_, h⟩ := addF_eq s f n; rw [h]
@[simp] theorem addF_chains (s : State) (f : RField) (n : Nat) : (addF s f n).chains = s.chains := by obtain ⟨_, h⟩ := addF_eq s f n; rw [h]
@[simp] theorem addF_rtio (s : State) (f : RField) (n : Nat) : (addF s f n).rtio = s.rtio := by obtain ⟨_, h⟩ := addF_eq s f n; rw [h]
@[simp] theorem addF_fseq (s : State) (f : RField) (n : Nat) : (addF s f n).fseq = s.fseq := by obtain ⟨_, h⟩ := addF_eq s f n; rw [h]
@[simp] theorem addF_errWait (s : State) (f : RField) (n : Nat) : (addF s f n).errWait = s.errWait := by obtain ⟨_, h⟩ := addF_eq s f n; rw [h]
@[simp] theorem addF_errMirror (s : State) (f : RField) (n : Nat) : (addF s f n).errMirror = s.errMirror := by obtain ⟨_, h⟩ := addF_eq s f n; rw [h]
@[simp] theorem addF_reinitAt (s : State) (f : RField) (n : Nat) : (addF s f n).reinitAt = s.reinitAt := by obtain ⟨_, h⟩ := addF_eq s f n; rw [h]
@[simp] theorem addF_inject (s : State) (f : RField) (n : Nat) : (addF s f n).inject = s.inject := by obtain ⟨_, h⟩ := addF_eq s f n; rw [h]
@[simp] theorem addF_injectAt (s : State) (f : RField) (n : Nat) : (addF s f n).injectAt = s.injectAt := by obtain ⟨_, h⟩ := addF_eq s f n; rw [h]
@[simp] theorem addF_parityFlip (s : State) (f : RField) (n : Nat) : (addF s f n).parityFlip = s.parityFlip := by obtain ⟨_, h⟩ := addF_eq s f n; rw [h]
@[simp] theorem addF_snapAt (s : State) (f : RField) (n : Nat) : (addF s f n).snapAt = s.snapAt := by obtain ⟨_, h⟩ := addF_eq s f n; rw [h]
@[simp] theorem addF_captureNow (s : State) (f : RField) (n : Nat) : (addF s f n).captureNow = s.captureNow := by obtain ⟨_, h⟩ := addF_eq s f n; rw [h]
@[simp] theorem addF_captureNext (s : State) (f : RField) (n : Nat) : (addF s f n).captureNext = s.captureNext := by obtain ⟨_, h⟩ := addF_eq s f n; rw [h]
@[simp] theorem addF_passStart (s : State) (f : RField) (n : Nat) : (addF s f n).passStart = s.passStart := by obtain ⟨_, h⟩ := addF_eq s f n; rw [h]
@[simp] theorem addF_passOld (s : State) (f : RField) (n : Nat) : (addF s f n).passOld = s.passOld := by obtain ⟨_, h⟩ := addF_eq s f n; rw [h]
@[simp] theorem addF_warmAsked (s : State) (f : RField) (n : Nat) : (addF s f n).warmAsked = s.warmAsked := by obtain ⟨_, h⟩ := addF_eq s f n; rw [h]
@[simp] theorem addF_clk (s : State) (f : RField) (n : Nat) : (addF s f n).clk = s.clk := by obtain ⟨_, h⟩ := addF_eq s f n; rw [h]
@[simp] theorem addF_sec (s : State) (f : RField) (n : Nat) : (addF s f n).sec = s.sec := by obtain ⟨_, h⟩ := addF_eq s f n; rw [h]
@[simp] theorem addF_backup (s : State) (f : RField) (n : Nat) : (addF s f n).backup = s.backup := by obtain ⟨_, h⟩ := addF_eq s f n; rw [h]
@[simp] theorem addF_flash (s : State) (f : RField) (n : Nat) : (addF s f n).flash = s.flash := by obtain ⟨_, h⟩ := addF_eq s f n; rw [h]
@[simp] theorem addF_pmb (s : State) (f : RField) (n : Nat) : (addF s f n).pmb = s.pmb := by obtain ⟨_, h⟩ := addF_eq s f n; rw [h]
@[simp] theorem addF_jtag (s : State) (f : RField) (n : Nat) : (addF s f n).jtag = s.jtag := by obtain ⟨_, h⟩ := addF_eq s f n; rw [h]
@[simp] theorem addF_msixTable (s : State) (f : RField) (n : Nat) : (addF s f n).msixTable = s.msixTable := by obtain ⟨_, h⟩ := addF_eq s f n; rw [h]
@[simp] theorem addF_msixPending (s : State) (f : RField) (n : Nat) : (addF s f n).msixPending = s.msixPending := by obtain ⟨_, h⟩ := addF_eq s f n; rw [h]
@[simp] theorem addF_accessQ (s : State) (f : RField) (n : Nat) : (addF s f n).accessQ = s.accessQ := by obtain ⟨_, h⟩ := addF_eq s f n; rw [h]
@[simp] theorem addF_ferry (s : State) (f : RField) (n : Nat) : (addF s f n).ferry = s.ferry := by obtain ⟨_, h⟩ := addF_eq s f n; rw [h]
@[simp] theorem addF_out (s : State) (f : RField) (n : Nat) : (addF s f n).out = s.out := by obtain ⟨_, h⟩ := addF_eq s f n; rw [h]

@[simp] theorem incF_pending (s : State) (f : RField) : (incF s f).pending = s.pending := addF_pending s f 1
@[simp] theorem incF_now (s : State) (f : RField) : (incF s f).now = s.now := addF_now s f 1
@[simp] theorem incF_readyAt (s : State) (f : RField) : (incF s f).readyAt = s.readyAt := addF_readyAt s f 1
@[simp] theorem incF_phase (s : State) (f : RField) : (incF s f).phase = s.phase := addF_phase s f 1
@[simp] theorem incF_raised (s : State) (f : RField) : (incF s f).raised = s.raised := addF_raised s f 1
@[simp] theorem incF_mem (s : State) (f : RField) : (incF s f).mem = s.mem := addF_mem s f 1
@[simp] theorem incF_host (s : State) (f : RField) : (incF s f).host = s.host := addF_host s f 1
@[simp] theorem incF_poison (s : State) (f : RField) : (incF s f).poison = s.poison := addF_poison s f 1
@[simp] theorem incF_latent (s : State) (f : RField) : (incF s f).latent = s.latent := addF_latent s f 1
@[simp] theorem incF_ctxs (s : State) (f : RField) : (incF s f).ctxs = s.ctxs := addF_ctxs s f 1
@[simp] theorem incF_jobs (s : State) (f : RField) : (incF s f).jobs = s.jobs := addF_jobs s f 1
@[simp] theorem incF_written (s : State) (f : RField) : (incF s f).written = s.written := addF_written s f 1
@[simp] theorem incF_writes (s : State) (f : RField) : (incF s f).writes = s.writes := addF_writes s f 1
@[simp] theorem incF_served (s : State) (f : RField) : (incF s f).served = s.served := addF_served s f 1
@[simp] theorem incF_admits (s : State) (f : RField) : (incF s f).admits = s.admits := addF_admits s f 1
@[simp] theorem incF_images (s : State) (f : RField) : (incF s f).images = s.images := addF_images s f 1
@[simp] theorem incF_cores (s : State) (f : RField) : (incF s f).cores = s.cores := addF_cores s f 1
@[simp] theorem incF_world (s : State) (f : RField) : (incF s f).world = s.world := addF_world s f 1
@[simp] theorem incF_chains (s : State) (f : RField) : (incF s f).chains = s.chains := addF_chains s f 1
@[simp] theorem incF_rtio (s : State) (f : RField) : (incF s f).rtio = s.rtio := addF_rtio s f 1
@[simp] theorem incF_fseq (s : State) (f : RField) : (incF s f).fseq = s.fseq := addF_fseq s f 1
@[simp] theorem incF_errWait (s : State) (f : RField) : (incF s f).errWait = s.errWait := addF_errWait s f 1
@[simp] theorem incF_errMirror (s : State) (f : RField) : (incF s f).errMirror = s.errMirror := addF_errMirror s f 1
@[simp] theorem incF_reinitAt (s : State) (f : RField) : (incF s f).reinitAt = s.reinitAt := addF_reinitAt s f 1
@[simp] theorem incF_inject (s : State) (f : RField) : (incF s f).inject = s.inject := addF_inject s f 1
@[simp] theorem incF_injectAt (s : State) (f : RField) : (incF s f).injectAt = s.injectAt := addF_injectAt s f 1
@[simp] theorem incF_parityFlip (s : State) (f : RField) : (incF s f).parityFlip = s.parityFlip := addF_parityFlip s f 1
@[simp] theorem incF_snapAt (s : State) (f : RField) : (incF s f).snapAt = s.snapAt := addF_snapAt s f 1
@[simp] theorem incF_captureNow (s : State) (f : RField) : (incF s f).captureNow = s.captureNow := addF_captureNow s f 1
@[simp] theorem incF_captureNext (s : State) (f : RField) : (incF s f).captureNext = s.captureNext := addF_captureNext s f 1
@[simp] theorem incF_passStart (s : State) (f : RField) : (incF s f).passStart = s.passStart := addF_passStart s f 1
@[simp] theorem incF_passOld (s : State) (f : RField) : (incF s f).passOld = s.passOld := addF_passOld s f 1
@[simp] theorem incF_warmAsked (s : State) (f : RField) : (incF s f).warmAsked = s.warmAsked := addF_warmAsked s f 1
@[simp] theorem incF_clk (s : State) (f : RField) : (incF s f).clk = s.clk := addF_clk s f 1
@[simp] theorem incF_sec (s : State) (f : RField) : (incF s f).sec = s.sec := addF_sec s f 1
@[simp] theorem incF_backup (s : State) (f : RField) : (incF s f).backup = s.backup := addF_backup s f 1
@[simp] theorem incF_flash (s : State) (f : RField) : (incF s f).flash = s.flash := addF_flash s f 1
@[simp] theorem incF_pmb (s : State) (f : RField) : (incF s f).pmb = s.pmb := addF_pmb s f 1
@[simp] theorem incF_jtag (s : State) (f : RField) : (incF s f).jtag = s.jtag := addF_jtag s f 1
@[simp] theorem incF_msixTable (s : State) (f : RField) : (incF s f).msixTable = s.msixTable := addF_msixTable s f 1
@[simp] theorem incF_msixPending (s : State) (f : RField) : (incF s f).msixPending = s.msixPending := addF_msixPending s f 1
@[simp] theorem incF_accessQ (s : State) (f : RField) : (incF s f).accessQ = s.accessQ := addF_accessQ s f 1
@[simp] theorem incF_ferry (s : State) (f : RField) : (incF s f).ferry = s.ferry := addF_ferry s f 1
@[simp] theorem incF_out (s : State) (f : RField) : (incF s f).out = s.out := addF_out s f 1

@[simp] theorem putCtx_pending (s : State) (k : Nat) (c : Ctx) : (putCtx s k c).pending = s.pending := rfl
@[simp] theorem putCtx_now (s : State) (k : Nat) (c : Ctx) : (putCtx s k c).now = s.now := rfl
@[simp] theorem putCtx_readyAt (s : State) (k : Nat) (c : Ctx) : (putCtx s k c).readyAt = s.readyAt := rfl
@[simp] theorem putCtx_phase (s : State) (k : Nat) (c : Ctx) : (putCtx s k c).phase = s.phase := rfl
@[simp] theorem putCtx_regs (s : State) (k : Nat) (c : Ctx) : (putCtx s k c).regs = s.regs := rfl
@[simp] theorem putCtx_raised (s : State) (k : Nat) (c : Ctx) : (putCtx s k c).raised = s.raised := rfl
@[simp] theorem putCtx_mem (s : State) (k : Nat) (c : Ctx) : (putCtx s k c).mem = s.mem := rfl
@[simp] theorem putCtx_host (s : State) (k : Nat) (c : Ctx) : (putCtx s k c).host = s.host := rfl
@[simp] theorem putCtx_poison (s : State) (k : Nat) (c : Ctx) : (putCtx s k c).poison = s.poison := rfl
@[simp] theorem putCtx_latent (s : State) (k : Nat) (c : Ctx) : (putCtx s k c).latent = s.latent := rfl
@[simp] theorem putCtx_jobs (s : State) (k : Nat) (c : Ctx) : (putCtx s k c).jobs = s.jobs := rfl
@[simp] theorem putCtx_written (s : State) (k : Nat) (c : Ctx) : (putCtx s k c).written = s.written := rfl
@[simp] theorem putCtx_writes (s : State) (k : Nat) (c : Ctx) : (putCtx s k c).writes = s.writes := rfl
@[simp] theorem putCtx_served (s : State) (k : Nat) (c : Ctx) : (putCtx s k c).served = s.served := rfl
@[simp] theorem putCtx_admits (s : State) (k : Nat) (c : Ctx) : (putCtx s k c).admits = s.admits := rfl
@[simp] theorem putCtx_images (s : State) (k : Nat) (c : Ctx) : (putCtx s k c).images = s.images := rfl
@[simp] theorem putCtx_cores (s : State) (k : Nat) (c : Ctx) : (putCtx s k c).cores = s.cores := rfl
@[simp] theorem putCtx_world (s : State) (k : Nat) (c : Ctx) : (putCtx s k c).world = s.world := rfl
@[simp] theorem putCtx_chains (s : State) (k : Nat) (c : Ctx) : (putCtx s k c).chains = s.chains := rfl
@[simp] theorem putCtx_rtio (s : State) (k : Nat) (c : Ctx) : (putCtx s k c).rtio = s.rtio := rfl
@[simp] theorem putCtx_fseq (s : State) (k : Nat) (c : Ctx) : (putCtx s k c).fseq = s.fseq := rfl
@[simp] theorem putCtx_errWait (s : State) (k : Nat) (c : Ctx) : (putCtx s k c).errWait = s.errWait := rfl
@[simp] theorem putCtx_errMirror (s : State) (k : Nat) (c : Ctx) : (putCtx s k c).errMirror = s.errMirror := rfl
@[simp] theorem putCtx_reinitAt (s : State) (k : Nat) (c : Ctx) : (putCtx s k c).reinitAt = s.reinitAt := rfl
@[simp] theorem putCtx_inject (s : State) (k : Nat) (c : Ctx) : (putCtx s k c).inject = s.inject := rfl
@[simp] theorem putCtx_injectAt (s : State) (k : Nat) (c : Ctx) : (putCtx s k c).injectAt = s.injectAt := rfl
@[simp] theorem putCtx_parityFlip (s : State) (k : Nat) (c : Ctx) : (putCtx s k c).parityFlip = s.parityFlip := rfl
@[simp] theorem putCtx_snapAt (s : State) (k : Nat) (c : Ctx) : (putCtx s k c).snapAt = s.snapAt := rfl
@[simp] theorem putCtx_captureNow (s : State) (k : Nat) (c : Ctx) : (putCtx s k c).captureNow = s.captureNow := rfl
@[simp] theorem putCtx_captureNext (s : State) (k : Nat) (c : Ctx) : (putCtx s k c).captureNext = s.captureNext := rfl
@[simp] theorem putCtx_passStart (s : State) (k : Nat) (c : Ctx) : (putCtx s k c).passStart = s.passStart := rfl
@[simp] theorem putCtx_passOld (s : State) (k : Nat) (c : Ctx) : (putCtx s k c).passOld = s.passOld := rfl
@[simp] theorem putCtx_warmAsked (s : State) (k : Nat) (c : Ctx) : (putCtx s k c).warmAsked = s.warmAsked := rfl
@[simp] theorem putCtx_clk (s : State) (k : Nat) (c : Ctx) : (putCtx s k c).clk = s.clk := rfl
@[simp] theorem putCtx_sec (s : State) (k : Nat) (c : Ctx) : (putCtx s k c).sec = s.sec := rfl
@[simp] theorem putCtx_backup (s : State) (k : Nat) (c : Ctx) : (putCtx s k c).backup = s.backup := rfl
@[simp] theorem putCtx_flash (s : State) (k : Nat) (c : Ctx) : (putCtx s k c).flash = s.flash := rfl
@[simp] theorem putCtx_pmb (s : State) (k : Nat) (c : Ctx) : (putCtx s k c).pmb = s.pmb := rfl
@[simp] theorem putCtx_jtag (s : State) (k : Nat) (c : Ctx) : (putCtx s k c).jtag = s.jtag := rfl
@[simp] theorem putCtx_msixTable (s : State) (k : Nat) (c : Ctx) : (putCtx s k c).msixTable = s.msixTable := rfl
@[simp] theorem putCtx_msixPending (s : State) (k : Nat) (c : Ctx) : (putCtx s k c).msixPending = s.msixPending := rfl
@[simp] theorem putCtx_accessQ (s : State) (k : Nat) (c : Ctx) : (putCtx s k c).accessQ = s.accessQ := rfl
@[simp] theorem putCtx_ferry (s : State) (k : Nat) (c : Ctx) : (putCtx s k c).ferry = s.ferry := rfl
@[simp] theorem putCtx_out (s : State) (k : Nat) (c : Ctx) : (putCtx s k c).out = s.out := rfl

@[simp] theorem putCore_pending (s : State) (c : Nat) (x : Core) : (putCore s c x).pending = s.pending := rfl
@[simp] theorem putCore_now (s : State) (c : Nat) (x : Core) : (putCore s c x).now = s.now := rfl
@[simp] theorem putCore_readyAt (s : State) (c : Nat) (x : Core) : (putCore s c x).readyAt = s.readyAt := rfl
@[simp] theorem putCore_phase (s : State) (c : Nat) (x : Core) : (putCore s c x).phase = s.phase := rfl
@[simp] theorem putCore_regs (s : State) (c : Nat) (x : Core) : (putCore s c x).regs = s.regs := rfl
@[simp] theorem putCore_raised (s : State) (c : Nat) (x : Core) : (putCore s c x).raised = s.raised := rfl
@[simp] theorem putCore_mem (s : State) (c : Nat) (x : Core) : (putCore s c x).mem = s.mem := rfl
@[simp] theorem putCore_host (s : State) (c : Nat) (x : Core) : (putCore s c x).host = s.host := rfl
@[simp] theorem putCore_poison (s : State) (c : Nat) (x : Core) : (putCore s c x).poison = s.poison := rfl
@[simp] theorem putCore_latent (s : State) (c : Nat) (x : Core) : (putCore s c x).latent = s.latent := rfl
@[simp] theorem putCore_ctxs (s : State) (c : Nat) (x : Core) : (putCore s c x).ctxs = s.ctxs := rfl
@[simp] theorem putCore_jobs (s : State) (c : Nat) (x : Core) : (putCore s c x).jobs = s.jobs := rfl
@[simp] theorem putCore_written (s : State) (c : Nat) (x : Core) : (putCore s c x).written = s.written := rfl
@[simp] theorem putCore_writes (s : State) (c : Nat) (x : Core) : (putCore s c x).writes = s.writes := rfl
@[simp] theorem putCore_served (s : State) (c : Nat) (x : Core) : (putCore s c x).served = s.served := rfl
@[simp] theorem putCore_admits (s : State) (c : Nat) (x : Core) : (putCore s c x).admits = s.admits := rfl
@[simp] theorem putCore_images (s : State) (c : Nat) (x : Core) : (putCore s c x).images = s.images := rfl
@[simp] theorem putCore_world (s : State) (c : Nat) (x : Core) : (putCore s c x).world = s.world := rfl
@[simp] theorem putCore_chains (s : State) (c : Nat) (x : Core) : (putCore s c x).chains = s.chains := rfl
@[simp] theorem putCore_rtio (s : State) (c : Nat) (x : Core) : (putCore s c x).rtio = s.rtio := rfl
@[simp] theorem putCore_fseq (s : State) (c : Nat) (x : Core) : (putCore s c x).fseq = s.fseq := rfl
@[simp] theorem putCore_errWait (s : State) (c : Nat) (x : Core) : (putCore s c x).errWait = s.errWait := rfl
@[simp] theorem putCore_errMirror (s : State) (c : Nat) (x : Core) : (putCore s c x).errMirror = s.errMirror := rfl
@[simp] theorem putCore_reinitAt (s : State) (c : Nat) (x : Core) : (putCore s c x).reinitAt = s.reinitAt := rfl
@[simp] theorem putCore_inject (s : State) (c : Nat) (x : Core) : (putCore s c x).inject = s.inject := rfl
@[simp] theorem putCore_injectAt (s : State) (c : Nat) (x : Core) : (putCore s c x).injectAt = s.injectAt := rfl
@[simp] theorem putCore_parityFlip (s : State) (c : Nat) (x : Core) : (putCore s c x).parityFlip = s.parityFlip := rfl
@[simp] theorem putCore_snapAt (s : State) (c : Nat) (x : Core) : (putCore s c x).snapAt = s.snapAt := rfl
@[simp] theorem putCore_captureNow (s : State) (c : Nat) (x : Core) : (putCore s c x).captureNow = s.captureNow := rfl
@[simp] theorem putCore_captureNext (s : State) (c : Nat) (x : Core) : (putCore s c x).captureNext = s.captureNext := rfl
@[simp] theorem putCore_passStart (s : State) (c : Nat) (x : Core) : (putCore s c x).passStart = s.passStart := rfl
@[simp] theorem putCore_passOld (s : State) (c : Nat) (x : Core) : (putCore s c x).passOld = s.passOld := rfl
@[simp] theorem putCore_warmAsked (s : State) (c : Nat) (x : Core) : (putCore s c x).warmAsked = s.warmAsked := rfl
@[simp] theorem putCore_clk (s : State) (c : Nat) (x : Core) : (putCore s c x).clk = s.clk := rfl
@[simp] theorem putCore_sec (s : State) (c : Nat) (x : Core) : (putCore s c x).sec = s.sec := rfl
@[simp] theorem putCore_backup (s : State) (c : Nat) (x : Core) : (putCore s c x).backup = s.backup := rfl
@[simp] theorem putCore_flash (s : State) (c : Nat) (x : Core) : (putCore s c x).flash = s.flash := rfl
@[simp] theorem putCore_pmb (s : State) (c : Nat) (x : Core) : (putCore s c x).pmb = s.pmb := rfl
@[simp] theorem putCore_jtag (s : State) (c : Nat) (x : Core) : (putCore s c x).jtag = s.jtag := rfl
@[simp] theorem putCore_msixTable (s : State) (c : Nat) (x : Core) : (putCore s c x).msixTable = s.msixTable := rfl
@[simp] theorem putCore_msixPending (s : State) (c : Nat) (x : Core) : (putCore s c x).msixPending = s.msixPending := rfl
@[simp] theorem putCore_accessQ (s : State) (c : Nat) (x : Core) : (putCore s c x).accessQ = s.accessQ := rfl
@[simp] theorem putCore_ferry (s : State) (c : Nat) (x : Core) : (putCore s c x).ferry = s.ferry := rfl
@[simp] theorem putCore_out (s : State) (c : Nat) (x : Core) : (putCore s c x).out = s.out := rfl

@[simp] theorem putChain_pending (s : State) (c : Nat) (x : Chain) : (putChain s c x).pending = s.pending := rfl
@[simp] theorem putChain_now (s : State) (c : Nat) (x : Chain) : (putChain s c x).now = s.now := rfl
@[simp] theorem putChain_readyAt (s : State) (c : Nat) (x : Chain) : (putChain s c x).readyAt = s.readyAt := rfl
@[simp] theorem putChain_phase (s : State) (c : Nat) (x : Chain) : (putChain s c x).phase = s.phase := rfl
@[simp] theorem putChain_regs (s : State) (c : Nat) (x : Chain) : (putChain s c x).regs = s.regs := rfl
@[simp] theorem putChain_raised (s : State) (c : Nat) (x : Chain) : (putChain s c x).raised = s.raised := rfl
@[simp] theorem putChain_mem (s : State) (c : Nat) (x : Chain) : (putChain s c x).mem = s.mem := rfl
@[simp] theorem putChain_host (s : State) (c : Nat) (x : Chain) : (putChain s c x).host = s.host := rfl
@[simp] theorem putChain_poison (s : State) (c : Nat) (x : Chain) : (putChain s c x).poison = s.poison := rfl
@[simp] theorem putChain_latent (s : State) (c : Nat) (x : Chain) : (putChain s c x).latent = s.latent := rfl
@[simp] theorem putChain_ctxs (s : State) (c : Nat) (x : Chain) : (putChain s c x).ctxs = s.ctxs := rfl
@[simp] theorem putChain_jobs (s : State) (c : Nat) (x : Chain) : (putChain s c x).jobs = s.jobs := rfl
@[simp] theorem putChain_written (s : State) (c : Nat) (x : Chain) : (putChain s c x).written = s.written := rfl
@[simp] theorem putChain_writes (s : State) (c : Nat) (x : Chain) : (putChain s c x).writes = s.writes := rfl
@[simp] theorem putChain_served (s : State) (c : Nat) (x : Chain) : (putChain s c x).served = s.served := rfl
@[simp] theorem putChain_admits (s : State) (c : Nat) (x : Chain) : (putChain s c x).admits = s.admits := rfl
@[simp] theorem putChain_images (s : State) (c : Nat) (x : Chain) : (putChain s c x).images = s.images := rfl
@[simp] theorem putChain_cores (s : State) (c : Nat) (x : Chain) : (putChain s c x).cores = s.cores := rfl
@[simp] theorem putChain_world (s : State) (c : Nat) (x : Chain) : (putChain s c x).world = s.world := rfl
@[simp] theorem putChain_rtio (s : State) (c : Nat) (x : Chain) : (putChain s c x).rtio = s.rtio := rfl
@[simp] theorem putChain_fseq (s : State) (c : Nat) (x : Chain) : (putChain s c x).fseq = s.fseq := rfl
@[simp] theorem putChain_errWait (s : State) (c : Nat) (x : Chain) : (putChain s c x).errWait = s.errWait := rfl
@[simp] theorem putChain_errMirror (s : State) (c : Nat) (x : Chain) : (putChain s c x).errMirror = s.errMirror := rfl
@[simp] theorem putChain_reinitAt (s : State) (c : Nat) (x : Chain) : (putChain s c x).reinitAt = s.reinitAt := rfl
@[simp] theorem putChain_inject (s : State) (c : Nat) (x : Chain) : (putChain s c x).inject = s.inject := rfl
@[simp] theorem putChain_injectAt (s : State) (c : Nat) (x : Chain) : (putChain s c x).injectAt = s.injectAt := rfl
@[simp] theorem putChain_parityFlip (s : State) (c : Nat) (x : Chain) : (putChain s c x).parityFlip = s.parityFlip := rfl
@[simp] theorem putChain_snapAt (s : State) (c : Nat) (x : Chain) : (putChain s c x).snapAt = s.snapAt := rfl
@[simp] theorem putChain_captureNow (s : State) (c : Nat) (x : Chain) : (putChain s c x).captureNow = s.captureNow := rfl
@[simp] theorem putChain_captureNext (s : State) (c : Nat) (x : Chain) : (putChain s c x).captureNext = s.captureNext := rfl
@[simp] theorem putChain_passStart (s : State) (c : Nat) (x : Chain) : (putChain s c x).passStart = s.passStart := rfl
@[simp] theorem putChain_passOld (s : State) (c : Nat) (x : Chain) : (putChain s c x).passOld = s.passOld := rfl
@[simp] theorem putChain_warmAsked (s : State) (c : Nat) (x : Chain) : (putChain s c x).warmAsked = s.warmAsked := rfl
@[simp] theorem putChain_clk (s : State) (c : Nat) (x : Chain) : (putChain s c x).clk = s.clk := rfl
@[simp] theorem putChain_sec (s : State) (c : Nat) (x : Chain) : (putChain s c x).sec = s.sec := rfl
@[simp] theorem putChain_backup (s : State) (c : Nat) (x : Chain) : (putChain s c x).backup = s.backup := rfl
@[simp] theorem putChain_flash (s : State) (c : Nat) (x : Chain) : (putChain s c x).flash = s.flash := rfl
@[simp] theorem putChain_pmb (s : State) (c : Nat) (x : Chain) : (putChain s c x).pmb = s.pmb := rfl
@[simp] theorem putChain_jtag (s : State) (c : Nat) (x : Chain) : (putChain s c x).jtag = s.jtag := rfl
@[simp] theorem putChain_msixTable (s : State) (c : Nat) (x : Chain) : (putChain s c x).msixTable = s.msixTable := rfl
@[simp] theorem putChain_msixPending (s : State) (c : Nat) (x : Chain) : (putChain s c x).msixPending = s.msixPending := rfl
@[simp] theorem putChain_accessQ (s : State) (c : Nat) (x : Chain) : (putChain s c x).accessQ = s.accessQ := rfl
@[simp] theorem putChain_ferry (s : State) (c : Nat) (x : Chain) : (putChain s c x).ferry = s.ferry := rfl
@[simp] theorem putChain_out (s : State) (c : Nat) (x : Chain) : (putChain s c x).out = s.out := rfl

@[simp] theorem putClk_pending (s : State) (r : Nat) (x : ClkRegion) : (putClk s r x).pending = s.pending := rfl
@[simp] theorem putClk_now (s : State) (r : Nat) (x : ClkRegion) : (putClk s r x).now = s.now := rfl
@[simp] theorem putClk_readyAt (s : State) (r : Nat) (x : ClkRegion) : (putClk s r x).readyAt = s.readyAt := rfl
@[simp] theorem putClk_phase (s : State) (r : Nat) (x : ClkRegion) : (putClk s r x).phase = s.phase := rfl
@[simp] theorem putClk_regs (s : State) (r : Nat) (x : ClkRegion) : (putClk s r x).regs = s.regs := rfl
@[simp] theorem putClk_raised (s : State) (r : Nat) (x : ClkRegion) : (putClk s r x).raised = s.raised := rfl
@[simp] theorem putClk_mem (s : State) (r : Nat) (x : ClkRegion) : (putClk s r x).mem = s.mem := rfl
@[simp] theorem putClk_host (s : State) (r : Nat) (x : ClkRegion) : (putClk s r x).host = s.host := rfl
@[simp] theorem putClk_poison (s : State) (r : Nat) (x : ClkRegion) : (putClk s r x).poison = s.poison := rfl
@[simp] theorem putClk_latent (s : State) (r : Nat) (x : ClkRegion) : (putClk s r x).latent = s.latent := rfl
@[simp] theorem putClk_ctxs (s : State) (r : Nat) (x : ClkRegion) : (putClk s r x).ctxs = s.ctxs := rfl
@[simp] theorem putClk_jobs (s : State) (r : Nat) (x : ClkRegion) : (putClk s r x).jobs = s.jobs := rfl
@[simp] theorem putClk_written (s : State) (r : Nat) (x : ClkRegion) : (putClk s r x).written = s.written := rfl
@[simp] theorem putClk_writes (s : State) (r : Nat) (x : ClkRegion) : (putClk s r x).writes = s.writes := rfl
@[simp] theorem putClk_served (s : State) (r : Nat) (x : ClkRegion) : (putClk s r x).served = s.served := rfl
@[simp] theorem putClk_admits (s : State) (r : Nat) (x : ClkRegion) : (putClk s r x).admits = s.admits := rfl
@[simp] theorem putClk_images (s : State) (r : Nat) (x : ClkRegion) : (putClk s r x).images = s.images := rfl
@[simp] theorem putClk_cores (s : State) (r : Nat) (x : ClkRegion) : (putClk s r x).cores = s.cores := rfl
@[simp] theorem putClk_world (s : State) (r : Nat) (x : ClkRegion) : (putClk s r x).world = s.world := rfl
@[simp] theorem putClk_chains (s : State) (r : Nat) (x : ClkRegion) : (putClk s r x).chains = s.chains := rfl
@[simp] theorem putClk_rtio (s : State) (r : Nat) (x : ClkRegion) : (putClk s r x).rtio = s.rtio := rfl
@[simp] theorem putClk_fseq (s : State) (r : Nat) (x : ClkRegion) : (putClk s r x).fseq = s.fseq := rfl
@[simp] theorem putClk_errWait (s : State) (r : Nat) (x : ClkRegion) : (putClk s r x).errWait = s.errWait := rfl
@[simp] theorem putClk_errMirror (s : State) (r : Nat) (x : ClkRegion) : (putClk s r x).errMirror = s.errMirror := rfl
@[simp] theorem putClk_reinitAt (s : State) (r : Nat) (x : ClkRegion) : (putClk s r x).reinitAt = s.reinitAt := rfl
@[simp] theorem putClk_inject (s : State) (r : Nat) (x : ClkRegion) : (putClk s r x).inject = s.inject := rfl
@[simp] theorem putClk_injectAt (s : State) (r : Nat) (x : ClkRegion) : (putClk s r x).injectAt = s.injectAt := rfl
@[simp] theorem putClk_parityFlip (s : State) (r : Nat) (x : ClkRegion) : (putClk s r x).parityFlip = s.parityFlip := rfl
@[simp] theorem putClk_snapAt (s : State) (r : Nat) (x : ClkRegion) : (putClk s r x).snapAt = s.snapAt := rfl
@[simp] theorem putClk_captureNow (s : State) (r : Nat) (x : ClkRegion) : (putClk s r x).captureNow = s.captureNow := rfl
@[simp] theorem putClk_captureNext (s : State) (r : Nat) (x : ClkRegion) : (putClk s r x).captureNext = s.captureNext := rfl
@[simp] theorem putClk_passStart (s : State) (r : Nat) (x : ClkRegion) : (putClk s r x).passStart = s.passStart := rfl
@[simp] theorem putClk_passOld (s : State) (r : Nat) (x : ClkRegion) : (putClk s r x).passOld = s.passOld := rfl
@[simp] theorem putClk_warmAsked (s : State) (r : Nat) (x : ClkRegion) : (putClk s r x).warmAsked = s.warmAsked := rfl
@[simp] theorem putClk_sec (s : State) (r : Nat) (x : ClkRegion) : (putClk s r x).sec = s.sec := rfl
@[simp] theorem putClk_backup (s : State) (r : Nat) (x : ClkRegion) : (putClk s r x).backup = s.backup := rfl
@[simp] theorem putClk_flash (s : State) (r : Nat) (x : ClkRegion) : (putClk s r x).flash = s.flash := rfl
@[simp] theorem putClk_pmb (s : State) (r : Nat) (x : ClkRegion) : (putClk s r x).pmb = s.pmb := rfl
@[simp] theorem putClk_jtag (s : State) (r : Nat) (x : ClkRegion) : (putClk s r x).jtag = s.jtag := rfl
@[simp] theorem putClk_msixTable (s : State) (r : Nat) (x : ClkRegion) : (putClk s r x).msixTable = s.msixTable := rfl
@[simp] theorem putClk_msixPending (s : State) (r : Nat) (x : ClkRegion) : (putClk s r x).msixPending = s.msixPending := rfl
@[simp] theorem putClk_accessQ (s : State) (r : Nat) (x : ClkRegion) : (putClk s r x).accessQ = s.accessQ := rfl
@[simp] theorem putClk_ferry (s : State) (r : Nat) (x : ClkRegion) : (putClk s r x).ferry = s.ferry := rfl
@[simp] theorem putClk_out (s : State) (r : Nat) (x : ClkRegion) : (putClk s r x).out = s.out := rfl

@[simp] theorem putAxis_pending (s : State) (a : Nat) (x : Axis) : (putAxis s a x).pending = s.pending := rfl
@[simp] theorem putAxis_now (s : State) (a : Nat) (x : Axis) : (putAxis s a x).now = s.now := rfl
@[simp] theorem putAxis_readyAt (s : State) (a : Nat) (x : Axis) : (putAxis s a x).readyAt = s.readyAt := rfl
@[simp] theorem putAxis_phase (s : State) (a : Nat) (x : Axis) : (putAxis s a x).phase = s.phase := rfl
@[simp] theorem putAxis_regs (s : State) (a : Nat) (x : Axis) : (putAxis s a x).regs = s.regs := rfl
@[simp] theorem putAxis_raised (s : State) (a : Nat) (x : Axis) : (putAxis s a x).raised = s.raised := rfl
@[simp] theorem putAxis_mem (s : State) (a : Nat) (x : Axis) : (putAxis s a x).mem = s.mem := rfl
@[simp] theorem putAxis_host (s : State) (a : Nat) (x : Axis) : (putAxis s a x).host = s.host := rfl
@[simp] theorem putAxis_poison (s : State) (a : Nat) (x : Axis) : (putAxis s a x).poison = s.poison := rfl
@[simp] theorem putAxis_latent (s : State) (a : Nat) (x : Axis) : (putAxis s a x).latent = s.latent := rfl
@[simp] theorem putAxis_ctxs (s : State) (a : Nat) (x : Axis) : (putAxis s a x).ctxs = s.ctxs := rfl
@[simp] theorem putAxis_jobs (s : State) (a : Nat) (x : Axis) : (putAxis s a x).jobs = s.jobs := rfl
@[simp] theorem putAxis_written (s : State) (a : Nat) (x : Axis) : (putAxis s a x).written = s.written := rfl
@[simp] theorem putAxis_writes (s : State) (a : Nat) (x : Axis) : (putAxis s a x).writes = s.writes := rfl
@[simp] theorem putAxis_served (s : State) (a : Nat) (x : Axis) : (putAxis s a x).served = s.served := rfl
@[simp] theorem putAxis_admits (s : State) (a : Nat) (x : Axis) : (putAxis s a x).admits = s.admits := rfl
@[simp] theorem putAxis_images (s : State) (a : Nat) (x : Axis) : (putAxis s a x).images = s.images := rfl
@[simp] theorem putAxis_cores (s : State) (a : Nat) (x : Axis) : (putAxis s a x).cores = s.cores := rfl
@[simp] theorem putAxis_world (s : State) (a : Nat) (x : Axis) : (putAxis s a x).world = s.world := rfl
@[simp] theorem putAxis_chains (s : State) (a : Nat) (x : Axis) : (putAxis s a x).chains = s.chains := rfl
@[simp] theorem putAxis_fseq (s : State) (a : Nat) (x : Axis) : (putAxis s a x).fseq = s.fseq := rfl
@[simp] theorem putAxis_errWait (s : State) (a : Nat) (x : Axis) : (putAxis s a x).errWait = s.errWait := rfl
@[simp] theorem putAxis_errMirror (s : State) (a : Nat) (x : Axis) : (putAxis s a x).errMirror = s.errMirror := rfl
@[simp] theorem putAxis_reinitAt (s : State) (a : Nat) (x : Axis) : (putAxis s a x).reinitAt = s.reinitAt := rfl
@[simp] theorem putAxis_inject (s : State) (a : Nat) (x : Axis) : (putAxis s a x).inject = s.inject := rfl
@[simp] theorem putAxis_injectAt (s : State) (a : Nat) (x : Axis) : (putAxis s a x).injectAt = s.injectAt := rfl
@[simp] theorem putAxis_parityFlip (s : State) (a : Nat) (x : Axis) : (putAxis s a x).parityFlip = s.parityFlip := rfl
@[simp] theorem putAxis_snapAt (s : State) (a : Nat) (x : Axis) : (putAxis s a x).snapAt = s.snapAt := rfl
@[simp] theorem putAxis_captureNow (s : State) (a : Nat) (x : Axis) : (putAxis s a x).captureNow = s.captureNow := rfl
@[simp] theorem putAxis_captureNext (s : State) (a : Nat) (x : Axis) : (putAxis s a x).captureNext = s.captureNext := rfl
@[simp] theorem putAxis_passStart (s : State) (a : Nat) (x : Axis) : (putAxis s a x).passStart = s.passStart := rfl
@[simp] theorem putAxis_passOld (s : State) (a : Nat) (x : Axis) : (putAxis s a x).passOld = s.passOld := rfl
@[simp] theorem putAxis_warmAsked (s : State) (a : Nat) (x : Axis) : (putAxis s a x).warmAsked = s.warmAsked := rfl
@[simp] theorem putAxis_clk (s : State) (a : Nat) (x : Axis) : (putAxis s a x).clk = s.clk := rfl
@[simp] theorem putAxis_sec (s : State) (a : Nat) (x : Axis) : (putAxis s a x).sec = s.sec := rfl
@[simp] theorem putAxis_backup (s : State) (a : Nat) (x : Axis) : (putAxis s a x).backup = s.backup := rfl
@[simp] theorem putAxis_flash (s : State) (a : Nat) (x : Axis) : (putAxis s a x).flash = s.flash := rfl
@[simp] theorem putAxis_pmb (s : State) (a : Nat) (x : Axis) : (putAxis s a x).pmb = s.pmb := rfl
@[simp] theorem putAxis_jtag (s : State) (a : Nat) (x : Axis) : (putAxis s a x).jtag = s.jtag := rfl
@[simp] theorem putAxis_msixTable (s : State) (a : Nat) (x : Axis) : (putAxis s a x).msixTable = s.msixTable := rfl
@[simp] theorem putAxis_msixPending (s : State) (a : Nat) (x : Axis) : (putAxis s a x).msixPending = s.msixPending := rfl
@[simp] theorem putAxis_accessQ (s : State) (a : Nat) (x : Axis) : (putAxis s a x).accessQ = s.accessQ := rfl
@[simp] theorem putAxis_ferry (s : State) (a : Nat) (x : Axis) : (putAxis s a x).ferry = s.ferry := rfl
@[simp] theorem putAxis_out (s : State) (a : Nat) (x : Axis) : (putAxis s a x).out = s.out := rfl

@[simp] theorem putEmit_pending (s : State) (c : Nat) (x : EmitCh) : (putEmit s c x).pending = s.pending := rfl
@[simp] theorem putEmit_now (s : State) (c : Nat) (x : EmitCh) : (putEmit s c x).now = s.now := rfl
@[simp] theorem putEmit_readyAt (s : State) (c : Nat) (x : EmitCh) : (putEmit s c x).readyAt = s.readyAt := rfl
@[simp] theorem putEmit_phase (s : State) (c : Nat) (x : EmitCh) : (putEmit s c x).phase = s.phase := rfl
@[simp] theorem putEmit_regs (s : State) (c : Nat) (x : EmitCh) : (putEmit s c x).regs = s.regs := rfl
@[simp] theorem putEmit_raised (s : State) (c : Nat) (x : EmitCh) : (putEmit s c x).raised = s.raised := rfl
@[simp] theorem putEmit_mem (s : State) (c : Nat) (x : EmitCh) : (putEmit s c x).mem = s.mem := rfl
@[simp] theorem putEmit_host (s : State) (c : Nat) (x : EmitCh) : (putEmit s c x).host = s.host := rfl
@[simp] theorem putEmit_poison (s : State) (c : Nat) (x : EmitCh) : (putEmit s c x).poison = s.poison := rfl
@[simp] theorem putEmit_latent (s : State) (c : Nat) (x : EmitCh) : (putEmit s c x).latent = s.latent := rfl
@[simp] theorem putEmit_ctxs (s : State) (c : Nat) (x : EmitCh) : (putEmit s c x).ctxs = s.ctxs := rfl
@[simp] theorem putEmit_jobs (s : State) (c : Nat) (x : EmitCh) : (putEmit s c x).jobs = s.jobs := rfl
@[simp] theorem putEmit_written (s : State) (c : Nat) (x : EmitCh) : (putEmit s c x).written = s.written := rfl
@[simp] theorem putEmit_writes (s : State) (c : Nat) (x : EmitCh) : (putEmit s c x).writes = s.writes := rfl
@[simp] theorem putEmit_served (s : State) (c : Nat) (x : EmitCh) : (putEmit s c x).served = s.served := rfl
@[simp] theorem putEmit_admits (s : State) (c : Nat) (x : EmitCh) : (putEmit s c x).admits = s.admits := rfl
@[simp] theorem putEmit_images (s : State) (c : Nat) (x : EmitCh) : (putEmit s c x).images = s.images := rfl
@[simp] theorem putEmit_cores (s : State) (c : Nat) (x : EmitCh) : (putEmit s c x).cores = s.cores := rfl
@[simp] theorem putEmit_world (s : State) (c : Nat) (x : EmitCh) : (putEmit s c x).world = s.world := rfl
@[simp] theorem putEmit_chains (s : State) (c : Nat) (x : EmitCh) : (putEmit s c x).chains = s.chains := rfl
@[simp] theorem putEmit_fseq (s : State) (c : Nat) (x : EmitCh) : (putEmit s c x).fseq = s.fseq := rfl
@[simp] theorem putEmit_errWait (s : State) (c : Nat) (x : EmitCh) : (putEmit s c x).errWait = s.errWait := rfl
@[simp] theorem putEmit_errMirror (s : State) (c : Nat) (x : EmitCh) : (putEmit s c x).errMirror = s.errMirror := rfl
@[simp] theorem putEmit_reinitAt (s : State) (c : Nat) (x : EmitCh) : (putEmit s c x).reinitAt = s.reinitAt := rfl
@[simp] theorem putEmit_inject (s : State) (c : Nat) (x : EmitCh) : (putEmit s c x).inject = s.inject := rfl
@[simp] theorem putEmit_injectAt (s : State) (c : Nat) (x : EmitCh) : (putEmit s c x).injectAt = s.injectAt := rfl
@[simp] theorem putEmit_parityFlip (s : State) (c : Nat) (x : EmitCh) : (putEmit s c x).parityFlip = s.parityFlip := rfl
@[simp] theorem putEmit_snapAt (s : State) (c : Nat) (x : EmitCh) : (putEmit s c x).snapAt = s.snapAt := rfl
@[simp] theorem putEmit_captureNow (s : State) (c : Nat) (x : EmitCh) : (putEmit s c x).captureNow = s.captureNow := rfl
@[simp] theorem putEmit_captureNext (s : State) (c : Nat) (x : EmitCh) : (putEmit s c x).captureNext = s.captureNext := rfl
@[simp] theorem putEmit_passStart (s : State) (c : Nat) (x : EmitCh) : (putEmit s c x).passStart = s.passStart := rfl
@[simp] theorem putEmit_passOld (s : State) (c : Nat) (x : EmitCh) : (putEmit s c x).passOld = s.passOld := rfl
@[simp] theorem putEmit_warmAsked (s : State) (c : Nat) (x : EmitCh) : (putEmit s c x).warmAsked = s.warmAsked := rfl
@[simp] theorem putEmit_clk (s : State) (c : Nat) (x : EmitCh) : (putEmit s c x).clk = s.clk := rfl
@[simp] theorem putEmit_sec (s : State) (c : Nat) (x : EmitCh) : (putEmit s c x).sec = s.sec := rfl
@[simp] theorem putEmit_backup (s : State) (c : Nat) (x : EmitCh) : (putEmit s c x).backup = s.backup := rfl
@[simp] theorem putEmit_flash (s : State) (c : Nat) (x : EmitCh) : (putEmit s c x).flash = s.flash := rfl
@[simp] theorem putEmit_pmb (s : State) (c : Nat) (x : EmitCh) : (putEmit s c x).pmb = s.pmb := rfl
@[simp] theorem putEmit_jtag (s : State) (c : Nat) (x : EmitCh) : (putEmit s c x).jtag = s.jtag := rfl
@[simp] theorem putEmit_msixTable (s : State) (c : Nat) (x : EmitCh) : (putEmit s c x).msixTable = s.msixTable := rfl
@[simp] theorem putEmit_msixPending (s : State) (c : Nat) (x : EmitCh) : (putEmit s c x).msixPending = s.msixPending := rfl
@[simp] theorem putEmit_accessQ (s : State) (c : Nat) (x : EmitCh) : (putEmit s c x).accessQ = s.accessQ := rfl
@[simp] theorem putEmit_ferry (s : State) (c : Nat) (x : EmitCh) : (putEmit s c x).ferry = s.ferry := rfl
@[simp] theorem putEmit_out (s : State) (c : Nat) (x : EmitCh) : (putEmit s c x).out = s.out := rfl

@[simp] theorem putStep_pending (s : State) (n : Nat) (x : StepCh) : (putStep s n x).pending = s.pending := rfl
@[simp] theorem putStep_now (s : State) (n : Nat) (x : StepCh) : (putStep s n x).now = s.now := rfl
@[simp] theorem putStep_readyAt (s : State) (n : Nat) (x : StepCh) : (putStep s n x).readyAt = s.readyAt := rfl
@[simp] theorem putStep_phase (s : State) (n : Nat) (x : StepCh) : (putStep s n x).phase = s.phase := rfl
@[simp] theorem putStep_regs (s : State) (n : Nat) (x : StepCh) : (putStep s n x).regs = s.regs := rfl
@[simp] theorem putStep_raised (s : State) (n : Nat) (x : StepCh) : (putStep s n x).raised = s.raised := rfl
@[simp] theorem putStep_mem (s : State) (n : Nat) (x : StepCh) : (putStep s n x).mem = s.mem := rfl
@[simp] theorem putStep_host (s : State) (n : Nat) (x : StepCh) : (putStep s n x).host = s.host := rfl
@[simp] theorem putStep_poison (s : State) (n : Nat) (x : StepCh) : (putStep s n x).poison = s.poison := rfl
@[simp] theorem putStep_latent (s : State) (n : Nat) (x : StepCh) : (putStep s n x).latent = s.latent := rfl
@[simp] theorem putStep_ctxs (s : State) (n : Nat) (x : StepCh) : (putStep s n x).ctxs = s.ctxs := rfl
@[simp] theorem putStep_jobs (s : State) (n : Nat) (x : StepCh) : (putStep s n x).jobs = s.jobs := rfl
@[simp] theorem putStep_written (s : State) (n : Nat) (x : StepCh) : (putStep s n x).written = s.written := rfl
@[simp] theorem putStep_writes (s : State) (n : Nat) (x : StepCh) : (putStep s n x).writes = s.writes := rfl
@[simp] theorem putStep_served (s : State) (n : Nat) (x : StepCh) : (putStep s n x).served = s.served := rfl
@[simp] theorem putStep_admits (s : State) (n : Nat) (x : StepCh) : (putStep s n x).admits = s.admits := rfl
@[simp] theorem putStep_images (s : State) (n : Nat) (x : StepCh) : (putStep s n x).images = s.images := rfl
@[simp] theorem putStep_cores (s : State) (n : Nat) (x : StepCh) : (putStep s n x).cores = s.cores := rfl
@[simp] theorem putStep_world (s : State) (n : Nat) (x : StepCh) : (putStep s n x).world = s.world := rfl
@[simp] theorem putStep_chains (s : State) (n : Nat) (x : StepCh) : (putStep s n x).chains = s.chains := rfl
@[simp] theorem putStep_fseq (s : State) (n : Nat) (x : StepCh) : (putStep s n x).fseq = s.fseq := rfl
@[simp] theorem putStep_errWait (s : State) (n : Nat) (x : StepCh) : (putStep s n x).errWait = s.errWait := rfl
@[simp] theorem putStep_errMirror (s : State) (n : Nat) (x : StepCh) : (putStep s n x).errMirror = s.errMirror := rfl
@[simp] theorem putStep_reinitAt (s : State) (n : Nat) (x : StepCh) : (putStep s n x).reinitAt = s.reinitAt := rfl
@[simp] theorem putStep_inject (s : State) (n : Nat) (x : StepCh) : (putStep s n x).inject = s.inject := rfl
@[simp] theorem putStep_injectAt (s : State) (n : Nat) (x : StepCh) : (putStep s n x).injectAt = s.injectAt := rfl
@[simp] theorem putStep_parityFlip (s : State) (n : Nat) (x : StepCh) : (putStep s n x).parityFlip = s.parityFlip := rfl
@[simp] theorem putStep_snapAt (s : State) (n : Nat) (x : StepCh) : (putStep s n x).snapAt = s.snapAt := rfl
@[simp] theorem putStep_captureNow (s : State) (n : Nat) (x : StepCh) : (putStep s n x).captureNow = s.captureNow := rfl
@[simp] theorem putStep_captureNext (s : State) (n : Nat) (x : StepCh) : (putStep s n x).captureNext = s.captureNext := rfl
@[simp] theorem putStep_passStart (s : State) (n : Nat) (x : StepCh) : (putStep s n x).passStart = s.passStart := rfl
@[simp] theorem putStep_passOld (s : State) (n : Nat) (x : StepCh) : (putStep s n x).passOld = s.passOld := rfl
@[simp] theorem putStep_warmAsked (s : State) (n : Nat) (x : StepCh) : (putStep s n x).warmAsked = s.warmAsked := rfl
@[simp] theorem putStep_clk (s : State) (n : Nat) (x : StepCh) : (putStep s n x).clk = s.clk := rfl
@[simp] theorem putStep_sec (s : State) (n : Nat) (x : StepCh) : (putStep s n x).sec = s.sec := rfl
@[simp] theorem putStep_backup (s : State) (n : Nat) (x : StepCh) : (putStep s n x).backup = s.backup := rfl
@[simp] theorem putStep_flash (s : State) (n : Nat) (x : StepCh) : (putStep s n x).flash = s.flash := rfl
@[simp] theorem putStep_pmb (s : State) (n : Nat) (x : StepCh) : (putStep s n x).pmb = s.pmb := rfl
@[simp] theorem putStep_jtag (s : State) (n : Nat) (x : StepCh) : (putStep s n x).jtag = s.jtag := rfl
@[simp] theorem putStep_msixTable (s : State) (n : Nat) (x : StepCh) : (putStep s n x).msixTable = s.msixTable := rfl
@[simp] theorem putStep_msixPending (s : State) (n : Nat) (x : StepCh) : (putStep s n x).msixPending = s.msixPending := rfl
@[simp] theorem putStep_accessQ (s : State) (n : Nat) (x : StepCh) : (putStep s n x).accessQ = s.accessQ := rfl
@[simp] theorem putStep_ferry (s : State) (n : Nat) (x : StepCh) : (putStep s n x).ferry = s.ferry := rfl
@[simp] theorem putStep_out (s : State) (n : Nat) (x : StepCh) : (putStep s n x).out = s.out := rfl

@[simp] theorem putMac_pending (s : State) (m : Nat) (x : Mac) : (putMac s m x).pending = s.pending := rfl
@[simp] theorem putMac_now (s : State) (m : Nat) (x : Mac) : (putMac s m x).now = s.now := rfl
@[simp] theorem putMac_readyAt (s : State) (m : Nat) (x : Mac) : (putMac s m x).readyAt = s.readyAt := rfl
@[simp] theorem putMac_phase (s : State) (m : Nat) (x : Mac) : (putMac s m x).phase = s.phase := rfl
@[simp] theorem putMac_regs (s : State) (m : Nat) (x : Mac) : (putMac s m x).regs = s.regs := rfl
@[simp] theorem putMac_raised (s : State) (m : Nat) (x : Mac) : (putMac s m x).raised = s.raised := rfl
@[simp] theorem putMac_mem (s : State) (m : Nat) (x : Mac) : (putMac s m x).mem = s.mem := rfl
@[simp] theorem putMac_host (s : State) (m : Nat) (x : Mac) : (putMac s m x).host = s.host := rfl
@[simp] theorem putMac_poison (s : State) (m : Nat) (x : Mac) : (putMac s m x).poison = s.poison := rfl
@[simp] theorem putMac_latent (s : State) (m : Nat) (x : Mac) : (putMac s m x).latent = s.latent := rfl
@[simp] theorem putMac_ctxs (s : State) (m : Nat) (x : Mac) : (putMac s m x).ctxs = s.ctxs := rfl
@[simp] theorem putMac_jobs (s : State) (m : Nat) (x : Mac) : (putMac s m x).jobs = s.jobs := rfl
@[simp] theorem putMac_written (s : State) (m : Nat) (x : Mac) : (putMac s m x).written = s.written := rfl
@[simp] theorem putMac_writes (s : State) (m : Nat) (x : Mac) : (putMac s m x).writes = s.writes := rfl
@[simp] theorem putMac_served (s : State) (m : Nat) (x : Mac) : (putMac s m x).served = s.served := rfl
@[simp] theorem putMac_admits (s : State) (m : Nat) (x : Mac) : (putMac s m x).admits = s.admits := rfl
@[simp] theorem putMac_images (s : State) (m : Nat) (x : Mac) : (putMac s m x).images = s.images := rfl
@[simp] theorem putMac_cores (s : State) (m : Nat) (x : Mac) : (putMac s m x).cores = s.cores := rfl
@[simp] theorem putMac_world (s : State) (m : Nat) (x : Mac) : (putMac s m x).world = s.world := rfl
@[simp] theorem putMac_chains (s : State) (m : Nat) (x : Mac) : (putMac s m x).chains = s.chains := rfl
@[simp] theorem putMac_fseq (s : State) (m : Nat) (x : Mac) : (putMac s m x).fseq = s.fseq := rfl
@[simp] theorem putMac_errWait (s : State) (m : Nat) (x : Mac) : (putMac s m x).errWait = s.errWait := rfl
@[simp] theorem putMac_errMirror (s : State) (m : Nat) (x : Mac) : (putMac s m x).errMirror = s.errMirror := rfl
@[simp] theorem putMac_reinitAt (s : State) (m : Nat) (x : Mac) : (putMac s m x).reinitAt = s.reinitAt := rfl
@[simp] theorem putMac_inject (s : State) (m : Nat) (x : Mac) : (putMac s m x).inject = s.inject := rfl
@[simp] theorem putMac_injectAt (s : State) (m : Nat) (x : Mac) : (putMac s m x).injectAt = s.injectAt := rfl
@[simp] theorem putMac_parityFlip (s : State) (m : Nat) (x : Mac) : (putMac s m x).parityFlip = s.parityFlip := rfl
@[simp] theorem putMac_snapAt (s : State) (m : Nat) (x : Mac) : (putMac s m x).snapAt = s.snapAt := rfl
@[simp] theorem putMac_captureNow (s : State) (m : Nat) (x : Mac) : (putMac s m x).captureNow = s.captureNow := rfl
@[simp] theorem putMac_captureNext (s : State) (m : Nat) (x : Mac) : (putMac s m x).captureNext = s.captureNext := rfl
@[simp] theorem putMac_passStart (s : State) (m : Nat) (x : Mac) : (putMac s m x).passStart = s.passStart := rfl
@[simp] theorem putMac_passOld (s : State) (m : Nat) (x : Mac) : (putMac s m x).passOld = s.passOld := rfl
@[simp] theorem putMac_warmAsked (s : State) (m : Nat) (x : Mac) : (putMac s m x).warmAsked = s.warmAsked := rfl
@[simp] theorem putMac_clk (s : State) (m : Nat) (x : Mac) : (putMac s m x).clk = s.clk := rfl
@[simp] theorem putMac_sec (s : State) (m : Nat) (x : Mac) : (putMac s m x).sec = s.sec := rfl
@[simp] theorem putMac_backup (s : State) (m : Nat) (x : Mac) : (putMac s m x).backup = s.backup := rfl
@[simp] theorem putMac_flash (s : State) (m : Nat) (x : Mac) : (putMac s m x).flash = s.flash := rfl
@[simp] theorem putMac_pmb (s : State) (m : Nat) (x : Mac) : (putMac s m x).pmb = s.pmb := rfl
@[simp] theorem putMac_jtag (s : State) (m : Nat) (x : Mac) : (putMac s m x).jtag = s.jtag := rfl
@[simp] theorem putMac_msixTable (s : State) (m : Nat) (x : Mac) : (putMac s m x).msixTable = s.msixTable := rfl
@[simp] theorem putMac_msixPending (s : State) (m : Nat) (x : Mac) : (putMac s m x).msixPending = s.msixPending := rfl
@[simp] theorem putMac_accessQ (s : State) (m : Nat) (x : Mac) : (putMac s m x).accessQ = s.accessQ := rfl
@[simp] theorem putMac_ferry (s : State) (m : Nat) (x : Mac) : (putMac s m x).ferry = s.ferry := rfl
@[simp] theorem putMac_out (s : State) (m : Nat) (x : Mac) : (putMac s m x).out = s.out := rfl

@[simp] theorem putEntry_pending (s : State) (i : Nat) (x : Entry) : (putEntry s i x).pending = s.pending := rfl
@[simp] theorem putEntry_now (s : State) (i : Nat) (x : Entry) : (putEntry s i x).now = s.now := rfl
@[simp] theorem putEntry_readyAt (s : State) (i : Nat) (x : Entry) : (putEntry s i x).readyAt = s.readyAt := rfl
@[simp] theorem putEntry_phase (s : State) (i : Nat) (x : Entry) : (putEntry s i x).phase = s.phase := rfl
@[simp] theorem putEntry_regs (s : State) (i : Nat) (x : Entry) : (putEntry s i x).regs = s.regs := rfl
@[simp] theorem putEntry_raised (s : State) (i : Nat) (x : Entry) : (putEntry s i x).raised = s.raised := rfl
@[simp] theorem putEntry_mem (s : State) (i : Nat) (x : Entry) : (putEntry s i x).mem = s.mem := rfl
@[simp] theorem putEntry_host (s : State) (i : Nat) (x : Entry) : (putEntry s i x).host = s.host := rfl
@[simp] theorem putEntry_poison (s : State) (i : Nat) (x : Entry) : (putEntry s i x).poison = s.poison := rfl
@[simp] theorem putEntry_latent (s : State) (i : Nat) (x : Entry) : (putEntry s i x).latent = s.latent := rfl
@[simp] theorem putEntry_ctxs (s : State) (i : Nat) (x : Entry) : (putEntry s i x).ctxs = s.ctxs := rfl
@[simp] theorem putEntry_jobs (s : State) (i : Nat) (x : Entry) : (putEntry s i x).jobs = s.jobs := rfl
@[simp] theorem putEntry_written (s : State) (i : Nat) (x : Entry) : (putEntry s i x).written = s.written := rfl
@[simp] theorem putEntry_writes (s : State) (i : Nat) (x : Entry) : (putEntry s i x).writes = s.writes := rfl
@[simp] theorem putEntry_served (s : State) (i : Nat) (x : Entry) : (putEntry s i x).served = s.served := rfl
@[simp] theorem putEntry_admits (s : State) (i : Nat) (x : Entry) : (putEntry s i x).admits = s.admits := rfl
@[simp] theorem putEntry_images (s : State) (i : Nat) (x : Entry) : (putEntry s i x).images = s.images := rfl
@[simp] theorem putEntry_cores (s : State) (i : Nat) (x : Entry) : (putEntry s i x).cores = s.cores := rfl
@[simp] theorem putEntry_world (s : State) (i : Nat) (x : Entry) : (putEntry s i x).world = s.world := rfl
@[simp] theorem putEntry_chains (s : State) (i : Nat) (x : Entry) : (putEntry s i x).chains = s.chains := rfl
@[simp] theorem putEntry_fseq (s : State) (i : Nat) (x : Entry) : (putEntry s i x).fseq = s.fseq := rfl
@[simp] theorem putEntry_errWait (s : State) (i : Nat) (x : Entry) : (putEntry s i x).errWait = s.errWait := rfl
@[simp] theorem putEntry_errMirror (s : State) (i : Nat) (x : Entry) : (putEntry s i x).errMirror = s.errMirror := rfl
@[simp] theorem putEntry_reinitAt (s : State) (i : Nat) (x : Entry) : (putEntry s i x).reinitAt = s.reinitAt := rfl
@[simp] theorem putEntry_inject (s : State) (i : Nat) (x : Entry) : (putEntry s i x).inject = s.inject := rfl
@[simp] theorem putEntry_injectAt (s : State) (i : Nat) (x : Entry) : (putEntry s i x).injectAt = s.injectAt := rfl
@[simp] theorem putEntry_parityFlip (s : State) (i : Nat) (x : Entry) : (putEntry s i x).parityFlip = s.parityFlip := rfl
@[simp] theorem putEntry_snapAt (s : State) (i : Nat) (x : Entry) : (putEntry s i x).snapAt = s.snapAt := rfl
@[simp] theorem putEntry_captureNow (s : State) (i : Nat) (x : Entry) : (putEntry s i x).captureNow = s.captureNow := rfl
@[simp] theorem putEntry_captureNext (s : State) (i : Nat) (x : Entry) : (putEntry s i x).captureNext = s.captureNext := rfl
@[simp] theorem putEntry_passStart (s : State) (i : Nat) (x : Entry) : (putEntry s i x).passStart = s.passStart := rfl
@[simp] theorem putEntry_passOld (s : State) (i : Nat) (x : Entry) : (putEntry s i x).passOld = s.passOld := rfl
@[simp] theorem putEntry_warmAsked (s : State) (i : Nat) (x : Entry) : (putEntry s i x).warmAsked = s.warmAsked := rfl
@[simp] theorem putEntry_clk (s : State) (i : Nat) (x : Entry) : (putEntry s i x).clk = s.clk := rfl
@[simp] theorem putEntry_sec (s : State) (i : Nat) (x : Entry) : (putEntry s i x).sec = s.sec := rfl
@[simp] theorem putEntry_backup (s : State) (i : Nat) (x : Entry) : (putEntry s i x).backup = s.backup := rfl
@[simp] theorem putEntry_flash (s : State) (i : Nat) (x : Entry) : (putEntry s i x).flash = s.flash := rfl
@[simp] theorem putEntry_pmb (s : State) (i : Nat) (x : Entry) : (putEntry s i x).pmb = s.pmb := rfl
@[simp] theorem putEntry_jtag (s : State) (i : Nat) (x : Entry) : (putEntry s i x).jtag = s.jtag := rfl
@[simp] theorem putEntry_msixTable (s : State) (i : Nat) (x : Entry) : (putEntry s i x).msixTable = s.msixTable := rfl
@[simp] theorem putEntry_msixPending (s : State) (i : Nat) (x : Entry) : (putEntry s i x).msixPending = s.msixPending := rfl
@[simp] theorem putEntry_accessQ (s : State) (i : Nat) (x : Entry) : (putEntry s i x).accessQ = s.accessQ := rfl
@[simp] theorem putEntry_ferry (s : State) (i : Nat) (x : Entry) : (putEntry s i x).ferry = s.ferry := rfl
@[simp] theorem putEntry_out (s : State) (i : Nat) (x : Entry) : (putEntry s i x).out = s.out := rfl

@[simp] theorem rawWrite_pending (s : State) (a : Nat) (l : List Byte) : (rawWrite s a l).pending = s.pending := rfl
@[simp] theorem rawWrite_now (s : State) (a : Nat) (l : List Byte) : (rawWrite s a l).now = s.now := rfl
@[simp] theorem rawWrite_readyAt (s : State) (a : Nat) (l : List Byte) : (rawWrite s a l).readyAt = s.readyAt := rfl
@[simp] theorem rawWrite_phase (s : State) (a : Nat) (l : List Byte) : (rawWrite s a l).phase = s.phase := rfl
@[simp] theorem rawWrite_regs (s : State) (a : Nat) (l : List Byte) : (rawWrite s a l).regs = s.regs := rfl
@[simp] theorem rawWrite_raised (s : State) (a : Nat) (l : List Byte) : (rawWrite s a l).raised = s.raised := rfl
@[simp] theorem rawWrite_host (s : State) (a : Nat) (l : List Byte) : (rawWrite s a l).host = s.host := rfl
@[simp] theorem rawWrite_poison (s : State) (a : Nat) (l : List Byte) : (rawWrite s a l).poison = s.poison := rfl
@[simp] theorem rawWrite_latent (s : State) (a : Nat) (l : List Byte) : (rawWrite s a l).latent = s.latent := rfl
@[simp] theorem rawWrite_ctxs (s : State) (a : Nat) (l : List Byte) : (rawWrite s a l).ctxs = s.ctxs := rfl
@[simp] theorem rawWrite_jobs (s : State) (a : Nat) (l : List Byte) : (rawWrite s a l).jobs = s.jobs := rfl
@[simp] theorem rawWrite_written (s : State) (a : Nat) (l : List Byte) : (rawWrite s a l).written = s.written := rfl
@[simp] theorem rawWrite_writes (s : State) (a : Nat) (l : List Byte) : (rawWrite s a l).writes = s.writes := rfl
@[simp] theorem rawWrite_served (s : State) (a : Nat) (l : List Byte) : (rawWrite s a l).served = s.served := rfl
@[simp] theorem rawWrite_admits (s : State) (a : Nat) (l : List Byte) : (rawWrite s a l).admits = s.admits := rfl
@[simp] theorem rawWrite_images (s : State) (a : Nat) (l : List Byte) : (rawWrite s a l).images = s.images := rfl
@[simp] theorem rawWrite_cores (s : State) (a : Nat) (l : List Byte) : (rawWrite s a l).cores = s.cores := rfl
@[simp] theorem rawWrite_world (s : State) (a : Nat) (l : List Byte) : (rawWrite s a l).world = s.world := rfl
@[simp] theorem rawWrite_chains (s : State) (a : Nat) (l : List Byte) : (rawWrite s a l).chains = s.chains := rfl
@[simp] theorem rawWrite_rtio (s : State) (a : Nat) (l : List Byte) : (rawWrite s a l).rtio = s.rtio := rfl
@[simp] theorem rawWrite_fseq (s : State) (a : Nat) (l : List Byte) : (rawWrite s a l).fseq = s.fseq := rfl
@[simp] theorem rawWrite_errWait (s : State) (a : Nat) (l : List Byte) : (rawWrite s a l).errWait = s.errWait := rfl
@[simp] theorem rawWrite_errMirror (s : State) (a : Nat) (l : List Byte) : (rawWrite s a l).errMirror = s.errMirror := rfl
@[simp] theorem rawWrite_reinitAt (s : State) (a : Nat) (l : List Byte) : (rawWrite s a l).reinitAt = s.reinitAt := rfl
@[simp] theorem rawWrite_inject (s : State) (a : Nat) (l : List Byte) : (rawWrite s a l).inject = s.inject := rfl
@[simp] theorem rawWrite_injectAt (s : State) (a : Nat) (l : List Byte) : (rawWrite s a l).injectAt = s.injectAt := rfl
@[simp] theorem rawWrite_parityFlip (s : State) (a : Nat) (l : List Byte) : (rawWrite s a l).parityFlip = s.parityFlip := rfl
@[simp] theorem rawWrite_snapAt (s : State) (a : Nat) (l : List Byte) : (rawWrite s a l).snapAt = s.snapAt := rfl
@[simp] theorem rawWrite_captureNow (s : State) (a : Nat) (l : List Byte) : (rawWrite s a l).captureNow = s.captureNow := rfl
@[simp] theorem rawWrite_captureNext (s : State) (a : Nat) (l : List Byte) : (rawWrite s a l).captureNext = s.captureNext := rfl
@[simp] theorem rawWrite_passStart (s : State) (a : Nat) (l : List Byte) : (rawWrite s a l).passStart = s.passStart := rfl
@[simp] theorem rawWrite_passOld (s : State) (a : Nat) (l : List Byte) : (rawWrite s a l).passOld = s.passOld := rfl
@[simp] theorem rawWrite_warmAsked (s : State) (a : Nat) (l : List Byte) : (rawWrite s a l).warmAsked = s.warmAsked := rfl
@[simp] theorem rawWrite_clk (s : State) (a : Nat) (l : List Byte) : (rawWrite s a l).clk = s.clk := rfl
@[simp] theorem rawWrite_sec (s : State) (a : Nat) (l : List Byte) : (rawWrite s a l).sec = s.sec := rfl
@[simp] theorem rawWrite_backup (s : State) (a : Nat) (l : List Byte) : (rawWrite s a l).backup = s.backup := rfl
@[simp] theorem rawWrite_flash (s : State) (a : Nat) (l : List Byte) : (rawWrite s a l).flash = s.flash := rfl
@[simp] theorem rawWrite_pmb (s : State) (a : Nat) (l : List Byte) : (rawWrite s a l).pmb = s.pmb := rfl
@[simp] theorem rawWrite_jtag (s : State) (a : Nat) (l : List Byte) : (rawWrite s a l).jtag = s.jtag := rfl
@[simp] theorem rawWrite_msixTable (s : State) (a : Nat) (l : List Byte) : (rawWrite s a l).msixTable = s.msixTable := rfl
@[simp] theorem rawWrite_msixPending (s : State) (a : Nat) (l : List Byte) : (rawWrite s a l).msixPending = s.msixPending := rfl
@[simp] theorem rawWrite_accessQ (s : State) (a : Nat) (l : List Byte) : (rawWrite s a l).accessQ = s.accessQ := rfl
@[simp] theorem rawWrite_ferry (s : State) (a : Nat) (l : List Byte) : (rawWrite s a l).ferry = s.ferry := rfl
@[simp] theorem rawWrite_out (s : State) (a : Nat) (l : List Byte) : (rawWrite s a l).out = s.out := rfl

@[simp] theorem hostWrite_pending (s : State) (a : Nat) (l : List Byte) : (hostWrite s a l).pending = s.pending := rfl
@[simp] theorem hostWrite_now (s : State) (a : Nat) (l : List Byte) : (hostWrite s a l).now = s.now := rfl
@[simp] theorem hostWrite_readyAt (s : State) (a : Nat) (l : List Byte) : (hostWrite s a l).readyAt = s.readyAt := rfl
@[simp] theorem hostWrite_phase (s : State) (a : Nat) (l : List Byte) : (hostWrite s a l).phase = s.phase := rfl
@[simp] theorem hostWrite_regs (s : State) (a : Nat) (l : List Byte) : (hostWrite s a l).regs = s.regs := rfl
@[simp] theorem hostWrite_raised (s : State) (a : Nat) (l : List Byte) : (hostWrite s a l).raised = s.raised := rfl
@[simp] theorem hostWrite_mem (s : State) (a : Nat) (l : List Byte) : (hostWrite s a l).mem = s.mem := rfl
@[simp] theorem hostWrite_poison (s : State) (a : Nat) (l : List Byte) : (hostWrite s a l).poison = s.poison := rfl
@[simp] theorem hostWrite_latent (s : State) (a : Nat) (l : List Byte) : (hostWrite s a l).latent = s.latent := rfl
@[simp] theorem hostWrite_ctxs (s : State) (a : Nat) (l : List Byte) : (hostWrite s a l).ctxs = s.ctxs := rfl
@[simp] theorem hostWrite_jobs (s : State) (a : Nat) (l : List Byte) : (hostWrite s a l).jobs = s.jobs := rfl
@[simp] theorem hostWrite_written (s : State) (a : Nat) (l : List Byte) : (hostWrite s a l).written = s.written := rfl
@[simp] theorem hostWrite_writes (s : State) (a : Nat) (l : List Byte) : (hostWrite s a l).writes = s.writes := rfl
@[simp] theorem hostWrite_served (s : State) (a : Nat) (l : List Byte) : (hostWrite s a l).served = s.served := rfl
@[simp] theorem hostWrite_admits (s : State) (a : Nat) (l : List Byte) : (hostWrite s a l).admits = s.admits := rfl
@[simp] theorem hostWrite_images (s : State) (a : Nat) (l : List Byte) : (hostWrite s a l).images = s.images := rfl
@[simp] theorem hostWrite_cores (s : State) (a : Nat) (l : List Byte) : (hostWrite s a l).cores = s.cores := rfl
@[simp] theorem hostWrite_world (s : State) (a : Nat) (l : List Byte) : (hostWrite s a l).world = s.world := rfl
@[simp] theorem hostWrite_chains (s : State) (a : Nat) (l : List Byte) : (hostWrite s a l).chains = s.chains := rfl
@[simp] theorem hostWrite_rtio (s : State) (a : Nat) (l : List Byte) : (hostWrite s a l).rtio = s.rtio := rfl
@[simp] theorem hostWrite_fseq (s : State) (a : Nat) (l : List Byte) : (hostWrite s a l).fseq = s.fseq := rfl
@[simp] theorem hostWrite_errWait (s : State) (a : Nat) (l : List Byte) : (hostWrite s a l).errWait = s.errWait := rfl
@[simp] theorem hostWrite_errMirror (s : State) (a : Nat) (l : List Byte) : (hostWrite s a l).errMirror = s.errMirror := rfl
@[simp] theorem hostWrite_reinitAt (s : State) (a : Nat) (l : List Byte) : (hostWrite s a l).reinitAt = s.reinitAt := rfl
@[simp] theorem hostWrite_inject (s : State) (a : Nat) (l : List Byte) : (hostWrite s a l).inject = s.inject := rfl
@[simp] theorem hostWrite_injectAt (s : State) (a : Nat) (l : List Byte) : (hostWrite s a l).injectAt = s.injectAt := rfl
@[simp] theorem hostWrite_parityFlip (s : State) (a : Nat) (l : List Byte) : (hostWrite s a l).parityFlip = s.parityFlip := rfl
@[simp] theorem hostWrite_snapAt (s : State) (a : Nat) (l : List Byte) : (hostWrite s a l).snapAt = s.snapAt := rfl
@[simp] theorem hostWrite_captureNow (s : State) (a : Nat) (l : List Byte) : (hostWrite s a l).captureNow = s.captureNow := rfl
@[simp] theorem hostWrite_captureNext (s : State) (a : Nat) (l : List Byte) : (hostWrite s a l).captureNext = s.captureNext := rfl
@[simp] theorem hostWrite_passStart (s : State) (a : Nat) (l : List Byte) : (hostWrite s a l).passStart = s.passStart := rfl
@[simp] theorem hostWrite_passOld (s : State) (a : Nat) (l : List Byte) : (hostWrite s a l).passOld = s.passOld := rfl
@[simp] theorem hostWrite_warmAsked (s : State) (a : Nat) (l : List Byte) : (hostWrite s a l).warmAsked = s.warmAsked := rfl
@[simp] theorem hostWrite_clk (s : State) (a : Nat) (l : List Byte) : (hostWrite s a l).clk = s.clk := rfl
@[simp] theorem hostWrite_sec (s : State) (a : Nat) (l : List Byte) : (hostWrite s a l).sec = s.sec := rfl
@[simp] theorem hostWrite_backup (s : State) (a : Nat) (l : List Byte) : (hostWrite s a l).backup = s.backup := rfl
@[simp] theorem hostWrite_flash (s : State) (a : Nat) (l : List Byte) : (hostWrite s a l).flash = s.flash := rfl
@[simp] theorem hostWrite_pmb (s : State) (a : Nat) (l : List Byte) : (hostWrite s a l).pmb = s.pmb := rfl
@[simp] theorem hostWrite_jtag (s : State) (a : Nat) (l : List Byte) : (hostWrite s a l).jtag = s.jtag := rfl
@[simp] theorem hostWrite_msixTable (s : State) (a : Nat) (l : List Byte) : (hostWrite s a l).msixTable = s.msixTable := rfl
@[simp] theorem hostWrite_msixPending (s : State) (a : Nat) (l : List Byte) : (hostWrite s a l).msixPending = s.msixPending := rfl
@[simp] theorem hostWrite_accessQ (s : State) (a : Nat) (l : List Byte) : (hostWrite s a l).accessQ = s.accessQ := rfl
@[simp] theorem hostWrite_ferry (s : State) (a : Nat) (l : List Byte) : (hostWrite s a l).ferry = s.ferry := rfl
@[simp] theorem hostWrite_out (s : State) (a : Nat) (l : List Byte) : (hostWrite s a l).out = s.out := rfl

@[simp] theorem updJob_pending (s : State) (k : Nat) (w : W32) (f : Job → Job) : (updJob s k w f).pending = s.pending := rfl
@[simp] theorem updJob_now (s : State) (k : Nat) (w : W32) (f : Job → Job) : (updJob s k w f).now = s.now := rfl
@[simp] theorem updJob_readyAt (s : State) (k : Nat) (w : W32) (f : Job → Job) : (updJob s k w f).readyAt = s.readyAt := rfl
@[simp] theorem updJob_phase (s : State) (k : Nat) (w : W32) (f : Job → Job) : (updJob s k w f).phase = s.phase := rfl
@[simp] theorem updJob_regs (s : State) (k : Nat) (w : W32) (f : Job → Job) : (updJob s k w f).regs = s.regs := rfl
@[simp] theorem updJob_raised (s : State) (k : Nat) (w : W32) (f : Job → Job) : (updJob s k w f).raised = s.raised := rfl
@[simp] theorem updJob_mem (s : State) (k : Nat) (w : W32) (f : Job → Job) : (updJob s k w f).mem = s.mem := rfl
@[simp] theorem updJob_host (s : State) (k : Nat) (w : W32) (f : Job → Job) : (updJob s k w f).host = s.host := rfl
@[simp] theorem updJob_poison (s : State) (k : Nat) (w : W32) (f : Job → Job) : (updJob s k w f).poison = s.poison := rfl
@[simp] theorem updJob_latent (s : State) (k : Nat) (w : W32) (f : Job → Job) : (updJob s k w f).latent = s.latent := rfl
@[simp] theorem updJob_ctxs (s : State) (k : Nat) (w : W32) (f : Job → Job) : (updJob s k w f).ctxs = s.ctxs := rfl
@[simp] theorem updJob_written (s : State) (k : Nat) (w : W32) (f : Job → Job) : (updJob s k w f).written = s.written := rfl
@[simp] theorem updJob_writes (s : State) (k : Nat) (w : W32) (f : Job → Job) : (updJob s k w f).writes = s.writes := rfl
@[simp] theorem updJob_served (s : State) (k : Nat) (w : W32) (f : Job → Job) : (updJob s k w f).served = s.served := rfl
@[simp] theorem updJob_admits (s : State) (k : Nat) (w : W32) (f : Job → Job) : (updJob s k w f).admits = s.admits := rfl
@[simp] theorem updJob_images (s : State) (k : Nat) (w : W32) (f : Job → Job) : (updJob s k w f).images = s.images := rfl
@[simp] theorem updJob_cores (s : State) (k : Nat) (w : W32) (f : Job → Job) : (updJob s k w f).cores = s.cores := rfl
@[simp] theorem updJob_world (s : State) (k : Nat) (w : W32) (f : Job → Job) : (updJob s k w f).world = s.world := rfl
@[simp] theorem updJob_chains (s : State) (k : Nat) (w : W32) (f : Job → Job) : (updJob s k w f).chains = s.chains := rfl
@[simp] theorem updJob_rtio (s : State) (k : Nat) (w : W32) (f : Job → Job) : (updJob s k w f).rtio = s.rtio := rfl
@[simp] theorem updJob_fseq (s : State) (k : Nat) (w : W32) (f : Job → Job) : (updJob s k w f).fseq = s.fseq := rfl
@[simp] theorem updJob_errWait (s : State) (k : Nat) (w : W32) (f : Job → Job) : (updJob s k w f).errWait = s.errWait := rfl
@[simp] theorem updJob_errMirror (s : State) (k : Nat) (w : W32) (f : Job → Job) : (updJob s k w f).errMirror = s.errMirror := rfl
@[simp] theorem updJob_reinitAt (s : State) (k : Nat) (w : W32) (f : Job → Job) : (updJob s k w f).reinitAt = s.reinitAt := rfl
@[simp] theorem updJob_inject (s : State) (k : Nat) (w : W32) (f : Job → Job) : (updJob s k w f).inject = s.inject := rfl
@[simp] theorem updJob_injectAt (s : State) (k : Nat) (w : W32) (f : Job → Job) : (updJob s k w f).injectAt = s.injectAt := rfl
@[simp] theorem updJob_parityFlip (s : State) (k : Nat) (w : W32) (f : Job → Job) : (updJob s k w f).parityFlip = s.parityFlip := rfl
@[simp] theorem updJob_snapAt (s : State) (k : Nat) (w : W32) (f : Job → Job) : (updJob s k w f).snapAt = s.snapAt := rfl
@[simp] theorem updJob_captureNow (s : State) (k : Nat) (w : W32) (f : Job → Job) : (updJob s k w f).captureNow = s.captureNow := rfl
@[simp] theorem updJob_captureNext (s : State) (k : Nat) (w : W32) (f : Job → Job) : (updJob s k w f).captureNext = s.captureNext := rfl
@[simp] theorem updJob_passStart (s : State) (k : Nat) (w : W32) (f : Job → Job) : (updJob s k w f).passStart = s.passStart := rfl
@[simp] theorem updJob_passOld (s : State) (k : Nat) (w : W32) (f : Job → Job) : (updJob s k w f).passOld = s.passOld := rfl
@[simp] theorem updJob_warmAsked (s : State) (k : Nat) (w : W32) (f : Job → Job) : (updJob s k w f).warmAsked = s.warmAsked := rfl
@[simp] theorem updJob_clk (s : State) (k : Nat) (w : W32) (f : Job → Job) : (updJob s k w f).clk = s.clk := rfl
@[simp] theorem updJob_sec (s : State) (k : Nat) (w : W32) (f : Job → Job) : (updJob s k w f).sec = s.sec := rfl
@[simp] theorem updJob_backup (s : State) (k : Nat) (w : W32) (f : Job → Job) : (updJob s k w f).backup = s.backup := rfl
@[simp] theorem updJob_flash (s : State) (k : Nat) (w : W32) (f : Job → Job) : (updJob s k w f).flash = s.flash := rfl
@[simp] theorem updJob_pmb (s : State) (k : Nat) (w : W32) (f : Job → Job) : (updJob s k w f).pmb = s.pmb := rfl
@[simp] theorem updJob_jtag (s : State) (k : Nat) (w : W32) (f : Job → Job) : (updJob s k w f).jtag = s.jtag := rfl
@[simp] theorem updJob_msixTable (s : State) (k : Nat) (w : W32) (f : Job → Job) : (updJob s k w f).msixTable = s.msixTable := rfl
@[simp] theorem updJob_msixPending (s : State) (k : Nat) (w : W32) (f : Job → Job) : (updJob s k w f).msixPending = s.msixPending := rfl
@[simp] theorem updJob_accessQ (s : State) (k : Nat) (w : W32) (f : Job → Job) : (updJob s k w f).accessQ = s.accessQ := rfl
@[simp] theorem updJob_ferry (s : State) (k : Nat) (w : W32) (f : Job → Job) : (updJob s k w f).ferry = s.ferry := rfl
@[simp] theorem updJob_out (s : State) (k : Nat) (w : W32) (f : Job → Job) : (updJob s k w f).out = s.out := rfl

@[simp] theorem backupUpdate_pending (s : State) (l : List (Nat × List Byte)) : (backupUpdate s l).pending = s.pending := rfl
@[simp] theorem backupUpdate_now (s : State) (l : List (Nat × List Byte)) : (backupUpdate s l).now = s.now := rfl
@[simp] theorem backupUpdate_readyAt (s : State) (l : List (Nat × List Byte)) : (backupUpdate s l).readyAt = s.readyAt := rfl
@[simp] theorem backupUpdate_phase (s : State) (l : List (Nat × List Byte)) : (backupUpdate s l).phase = s.phase := rfl
@[simp] theorem backupUpdate_regs (s : State) (l : List (Nat × List Byte)) : (backupUpdate s l).regs = s.regs := rfl
@[simp] theorem backupUpdate_raised (s : State) (l : List (Nat × List Byte)) : (backupUpdate s l).raised = s.raised := rfl
@[simp] theorem backupUpdate_mem (s : State) (l : List (Nat × List Byte)) : (backupUpdate s l).mem = s.mem := rfl
@[simp] theorem backupUpdate_host (s : State) (l : List (Nat × List Byte)) : (backupUpdate s l).host = s.host := rfl
@[simp] theorem backupUpdate_poison (s : State) (l : List (Nat × List Byte)) : (backupUpdate s l).poison = s.poison := rfl
@[simp] theorem backupUpdate_latent (s : State) (l : List (Nat × List Byte)) : (backupUpdate s l).latent = s.latent := rfl
@[simp] theorem backupUpdate_ctxs (s : State) (l : List (Nat × List Byte)) : (backupUpdate s l).ctxs = s.ctxs := rfl
@[simp] theorem backupUpdate_jobs (s : State) (l : List (Nat × List Byte)) : (backupUpdate s l).jobs = s.jobs := rfl
@[simp] theorem backupUpdate_written (s : State) (l : List (Nat × List Byte)) : (backupUpdate s l).written = s.written := rfl
@[simp] theorem backupUpdate_writes (s : State) (l : List (Nat × List Byte)) : (backupUpdate s l).writes = s.writes := rfl
@[simp] theorem backupUpdate_served (s : State) (l : List (Nat × List Byte)) : (backupUpdate s l).served = s.served := rfl
@[simp] theorem backupUpdate_admits (s : State) (l : List (Nat × List Byte)) : (backupUpdate s l).admits = s.admits := rfl
@[simp] theorem backupUpdate_images (s : State) (l : List (Nat × List Byte)) : (backupUpdate s l).images = s.images := rfl
@[simp] theorem backupUpdate_cores (s : State) (l : List (Nat × List Byte)) : (backupUpdate s l).cores = s.cores := rfl
@[simp] theorem backupUpdate_world (s : State) (l : List (Nat × List Byte)) : (backupUpdate s l).world = s.world := rfl
@[simp] theorem backupUpdate_chains (s : State) (l : List (Nat × List Byte)) : (backupUpdate s l).chains = s.chains := rfl
@[simp] theorem backupUpdate_rtio (s : State) (l : List (Nat × List Byte)) : (backupUpdate s l).rtio = s.rtio := rfl
@[simp] theorem backupUpdate_fseq (s : State) (l : List (Nat × List Byte)) : (backupUpdate s l).fseq = s.fseq := rfl
@[simp] theorem backupUpdate_errWait (s : State) (l : List (Nat × List Byte)) : (backupUpdate s l).errWait = s.errWait := rfl
@[simp] theorem backupUpdate_errMirror (s : State) (l : List (Nat × List Byte)) : (backupUpdate s l).errMirror = s.errMirror := rfl
@[simp] theorem backupUpdate_reinitAt (s : State) (l : List (Nat × List Byte)) : (backupUpdate s l).reinitAt = s.reinitAt := rfl
@[simp] theorem backupUpdate_inject (s : State) (l : List (Nat × List Byte)) : (backupUpdate s l).inject = s.inject := rfl
@[simp] theorem backupUpdate_injectAt (s : State) (l : List (Nat × List Byte)) : (backupUpdate s l).injectAt = s.injectAt := rfl
@[simp] theorem backupUpdate_parityFlip (s : State) (l : List (Nat × List Byte)) : (backupUpdate s l).parityFlip = s.parityFlip := rfl
@[simp] theorem backupUpdate_snapAt (s : State) (l : List (Nat × List Byte)) : (backupUpdate s l).snapAt = s.snapAt := rfl
@[simp] theorem backupUpdate_captureNow (s : State) (l : List (Nat × List Byte)) : (backupUpdate s l).captureNow = s.captureNow := rfl
@[simp] theorem backupUpdate_captureNext (s : State) (l : List (Nat × List Byte)) : (backupUpdate s l).captureNext = s.captureNext := rfl
@[simp] theorem backupUpdate_passStart (s : State) (l : List (Nat × List Byte)) : (backupUpdate s l).passStart = s.passStart := rfl
@[simp] theorem backupUpdate_passOld (s : State) (l : List (Nat × List Byte)) : (backupUpdate s l).passOld = s.passOld := rfl
@[simp] theorem backupUpdate_warmAsked (s : State) (l : List (Nat × List Byte)) : (backupUpdate s l).warmAsked = s.warmAsked := rfl
@[simp] theorem backupUpdate_clk (s : State) (l : List (Nat × List Byte)) : (backupUpdate s l).clk = s.clk := rfl
@[simp] theorem backupUpdate_sec (s : State) (l : List (Nat × List Byte)) : (backupUpdate s l).sec = s.sec := rfl
@[simp] theorem backupUpdate_flash (s : State) (l : List (Nat × List Byte)) : (backupUpdate s l).flash = s.flash := rfl
@[simp] theorem backupUpdate_pmb (s : State) (l : List (Nat × List Byte)) : (backupUpdate s l).pmb = s.pmb := rfl
@[simp] theorem backupUpdate_jtag (s : State) (l : List (Nat × List Byte)) : (backupUpdate s l).jtag = s.jtag := rfl
@[simp] theorem backupUpdate_msixTable (s : State) (l : List (Nat × List Byte)) : (backupUpdate s l).msixTable = s.msixTable := rfl
@[simp] theorem backupUpdate_msixPending (s : State) (l : List (Nat × List Byte)) : (backupUpdate s l).msixPending = s.msixPending := rfl
@[simp] theorem backupUpdate_accessQ (s : State) (l : List (Nat × List Byte)) : (backupUpdate s l).accessQ = s.accessQ := rfl
@[simp] theorem backupUpdate_ferry (s : State) (l : List (Nat × List Byte)) : (backupUpdate s l).ferry = s.ferry := rfl
@[simp] theorem backupUpdate_out (s : State) (l : List (Nat × List Byte)) : (backupUpdate s l).out = s.out := rfl

@[simp] theorem beginStart_pending (s : State) (w : Bool) (c : Nat) : (beginStart s w c).pending = s.pending := rfl
@[simp] theorem beginStart_now (s : State) (w : Bool) (c : Nat) : (beginStart s w c).now = s.now := rfl
@[simp] theorem beginStart_readyAt (s : State) (w : Bool) (c : Nat) : (beginStart s w c).readyAt = s.readyAt := rfl
@[simp] theorem beginStart_regs (s : State) (w : Bool) (c : Nat) : (beginStart s w c).regs = s.regs := rfl
@[simp] theorem beginStart_raised (s : State) (w : Bool) (c : Nat) : (beginStart s w c).raised = s.raised := rfl
@[simp] theorem beginStart_mem (s : State) (w : Bool) (c : Nat) : (beginStart s w c).mem = s.mem := rfl
@[simp] theorem beginStart_host (s : State) (w : Bool) (c : Nat) : (beginStart s w c).host = s.host := rfl
@[simp] theorem beginStart_poison (s : State) (w : Bool) (c : Nat) : (beginStart s w c).poison = s.poison := rfl
@[simp] theorem beginStart_latent (s : State) (w : Bool) (c : Nat) : (beginStart s w c).latent = s.latent := rfl
@[simp] theorem beginStart_ctxs (s : State) (w : Bool) (c : Nat) : (beginStart s w c).ctxs = s.ctxs := rfl
@[simp] theorem beginStart_jobs (s : State) (w : Bool) (c : Nat) : (beginStart s w c).jobs = s.jobs := rfl
@[simp] theorem beginStart_written (s : State) (w : Bool) (c : Nat) : (beginStart s w c).written = s.written := rfl
@[simp] theorem beginStart_writes (s : State) (w : Bool) (c : Nat) : (beginStart s w c).writes = s.writes := rfl
@[simp] theorem beginStart_served (s : State) (w : Bool) (c : Nat) : (beginStart s w c).served = s.served := rfl
@[simp] theorem beginStart_admits (s : State) (w : Bool) (c : Nat) : (beginStart s w c).admits = s.admits := rfl
@[simp] theorem beginStart_images (s : State) (w : Bool) (c : Nat) : (beginStart s w c).images = s.images := rfl
@[simp] theorem beginStart_cores (s : State) (w : Bool) (c : Nat) : (beginStart s w c).cores = s.cores := rfl
@[simp] theorem beginStart_world (s : State) (w : Bool) (c : Nat) : (beginStart s w c).world = s.world := rfl
@[simp] theorem beginStart_chains (s : State) (w : Bool) (c : Nat) : (beginStart s w c).chains = s.chains := rfl
@[simp] theorem beginStart_fseq (s : State) (w : Bool) (c : Nat) : (beginStart s w c).fseq = s.fseq := rfl
@[simp] theorem beginStart_errWait (s : State) (w : Bool) (c : Nat) : (beginStart s w c).errWait = s.errWait := rfl
@[simp] theorem beginStart_errMirror (s : State) (w : Bool) (c : Nat) : (beginStart s w c).errMirror = s.errMirror := rfl
@[simp] theorem beginStart_reinitAt (s : State) (w : Bool) (c : Nat) : (beginStart s w c).reinitAt = s.reinitAt := rfl
@[simp] theorem beginStart_inject (s : State) (w : Bool) (c : Nat) : (beginStart s w c).inject = s.inject := rfl
@[simp] theorem beginStart_injectAt (s : State) (w : Bool) (c : Nat) : (beginStart s w c).injectAt = s.injectAt := rfl
@[simp] theorem beginStart_parityFlip (s : State) (w : Bool) (c : Nat) : (beginStart s w c).parityFlip = s.parityFlip := rfl
@[simp] theorem beginStart_snapAt (s : State) (w : Bool) (c : Nat) : (beginStart s w c).snapAt = s.snapAt := rfl
@[simp] theorem beginStart_captureNow (s : State) (w : Bool) (c : Nat) : (beginStart s w c).captureNow = s.captureNow := rfl
@[simp] theorem beginStart_captureNext (s : State) (w : Bool) (c : Nat) : (beginStart s w c).captureNext = s.captureNext := rfl
@[simp] theorem beginStart_passStart (s : State) (w : Bool) (c : Nat) : (beginStart s w c).passStart = s.passStart := rfl
@[simp] theorem beginStart_passOld (s : State) (w : Bool) (c : Nat) : (beginStart s w c).passOld = s.passOld := rfl
@[simp] theorem beginStart_warmAsked (s : State) (w : Bool) (c : Nat) : (beginStart s w c).warmAsked = s.warmAsked := rfl
@[simp] theorem beginStart_clk (s : State) (w : Bool) (c : Nat) : (beginStart s w c).clk = s.clk := rfl
@[simp] theorem beginStart_sec (s : State) (w : Bool) (c : Nat) : (beginStart s w c).sec = s.sec := rfl
@[simp] theorem beginStart_backup (s : State) (w : Bool) (c : Nat) : (beginStart s w c).backup = s.backup := rfl
@[simp] theorem beginStart_flash (s : State) (w : Bool) (c : Nat) : (beginStart s w c).flash = s.flash := rfl
@[simp] theorem beginStart_pmb (s : State) (w : Bool) (c : Nat) : (beginStart s w c).pmb = s.pmb := rfl
@[simp] theorem beginStart_jtag (s : State) (w : Bool) (c : Nat) : (beginStart s w c).jtag = s.jtag := rfl
@[simp] theorem beginStart_msixTable (s : State) (w : Bool) (c : Nat) : (beginStart s w c).msixTable = s.msixTable := rfl
@[simp] theorem beginStart_msixPending (s : State) (w : Bool) (c : Nat) : (beginStart s w c).msixPending = s.msixPending := rfl
@[simp] theorem beginStart_accessQ (s : State) (w : Bool) (c : Nat) : (beginStart s w c).accessQ = s.accessQ := rfl
@[simp] theorem beginStart_ferry (s : State) (w : Bool) (c : Nat) : (beginStart s w c).ferry = s.ferry := rfl

@[simp] theorem newCycle_pending (s : State) : (newCycle s).pending = s.pending := rfl
@[simp] theorem newCycle_now (s : State) : (newCycle s).now = s.now := rfl
@[simp] theorem newCycle_readyAt (s : State) : (newCycle s).readyAt = s.readyAt := rfl
@[simp] theorem newCycle_phase (s : State) : (newCycle s).phase = s.phase := rfl
@[simp] theorem newCycle_regs (s : State) : (newCycle s).regs = s.regs := rfl
@[simp] theorem newCycle_mem (s : State) : (newCycle s).mem = s.mem := rfl
@[simp] theorem newCycle_host (s : State) : (newCycle s).host = s.host := rfl
@[simp] theorem newCycle_poison (s : State) : (newCycle s).poison = s.poison := rfl
@[simp] theorem newCycle_latent (s : State) : (newCycle s).latent = s.latent := rfl
@[simp] theorem newCycle_ctxs (s : State) : (newCycle s).ctxs = s.ctxs := rfl
@[simp] theorem newCycle_jobs (s : State) : (newCycle s).jobs = s.jobs := rfl
@[simp] theorem newCycle_written (s : State) : (newCycle s).written = s.written := rfl
@[simp] theorem newCycle_writes (s : State) : (newCycle s).writes = s.writes := rfl
@[simp] theorem newCycle_served (s : State) : (newCycle s).served = s.served := rfl
@[simp] theorem newCycle_admits (s : State) : (newCycle s).admits = s.admits := rfl
@[simp] theorem newCycle_images (s : State) : (newCycle s).images = s.images := rfl
@[simp] theorem newCycle_cores (s : State) : (newCycle s).cores = s.cores := rfl
@[simp] theorem newCycle_world (s : State) : (newCycle s).world = s.world := rfl
@[simp] theorem newCycle_chains (s : State) : (newCycle s).chains = s.chains := rfl
@[simp] theorem newCycle_rtio (s : State) : (newCycle s).rtio = s.rtio := rfl
@[simp] theorem newCycle_fseq (s : State) : (newCycle s).fseq = s.fseq := rfl
@[simp] theorem newCycle_errWait (s : State) : (newCycle s).errWait = s.errWait := rfl
@[simp] theorem newCycle_errMirror (s : State) : (newCycle s).errMirror = s.errMirror := rfl
@[simp] theorem newCycle_reinitAt (s : State) : (newCycle s).reinitAt = s.reinitAt := rfl
@[simp] theorem newCycle_inject (s : State) : (newCycle s).inject = s.inject := rfl
@[simp] theorem newCycle_injectAt (s : State) : (newCycle s).injectAt = s.injectAt := rfl
@[simp] theorem newCycle_parityFlip (s : State) : (newCycle s).parityFlip = s.parityFlip := rfl
@[simp] theorem newCycle_snapAt (s : State) : (newCycle s).snapAt = s.snapAt := rfl
@[simp] theorem newCycle_captureNow (s : State) : (newCycle s).captureNow = s.captureNow := rfl
@[simp] theorem newCycle_captureNext (s : State) : (newCycle s).captureNext = s.captureNext := rfl
@[simp] theorem newCycle_passStart (s : State) : (newCycle s).passStart = s.passStart := rfl
@[simp] theorem newCycle_passOld (s : State) : (newCycle s).passOld = s.passOld := rfl
@[simp] theorem newCycle_warmAsked (s : State) : (newCycle s).warmAsked = s.warmAsked := rfl
@[simp] theorem newCycle_clk (s : State) : (newCycle s).clk = s.clk := rfl
@[simp] theorem newCycle_sec (s : State) : (newCycle s).sec = s.sec := rfl
@[simp] theorem newCycle_backup (s : State) : (newCycle s).backup = s.backup := rfl
@[simp] theorem newCycle_flash (s : State) : (newCycle s).flash = s.flash := rfl
@[simp] theorem newCycle_pmb (s : State) : (newCycle s).pmb = s.pmb := rfl
@[simp] theorem newCycle_jtag (s : State) : (newCycle s).jtag = s.jtag := rfl
@[simp] theorem newCycle_msixTable (s : State) : (newCycle s).msixTable = s.msixTable := rfl
@[simp] theorem newCycle_msixPending (s : State) : (newCycle s).msixPending = s.msixPending := rfl
@[simp] theorem newCycle_accessQ (s : State) : (newCycle s).accessQ = s.accessQ := rfl
@[simp] theorem newCycle_ferry (s : State) : (newCycle s).ferry = s.ferry := rfl
@[simp] theorem newCycle_out (s : State) : (newCycle s).out = s.out := rfl

/-- An interrupt message changes only what was put out and what a vector has pending. -/
theorem sendMsix_eq (s : State) (v : Nat) : ∃ o p, sendMsix s v = { s with out := o, msixPending := p } := by
  unfold sendMsix
  split
  · exact ⟨s.out, _, rfl⟩
  · exact ⟨_, _, rfl⟩

/-- Announcing an event changes only what was put out and what a vector has pending. -/
theorem notifyOf_eq (s : State) (k : Nat) : ∃ o p, notifyOf s k = { s with out := o, msixPending := p } := by
  unfold notifyOf
  split
  · exact sendMsix_eq s _
  · exact ⟨s.out, s.msixPending, rfl⟩

/-- Events change their register, the mark that it rose in this cycle, what was put out and what a vector has pending. -/
theorem setEvents_eq (s : State) (k m : Nat) :
    ∃ w r o p, setEvents s k m = { putReg s k w with raised := r, out := o, msixPending := p } := by
  unfold setEvents
  split
  · exact ⟨_, s.raised, s.out, s.msixPending, rfl⟩
  · obtain ⟨o, p, h⟩ := notifyOf_eq { putReg s k (eventWord (getReg s k) m) with raised := k :: s.raised } k
    exact ⟨_, _, o, p, h⟩

/-- An event changes its register, the mark that it rose in this cycle, what was put out and what a vector has pending. -/
theorem setEvent_eq (s : State) (e : RField) :
    ∃ w r o p, setEvent s e = { putReg s e.key w with raised := r, out := o, msixPending := p } := setEvents_eq s _ _

@[simp] theorem notifyOf_pending (s : State) (k : Nat) : (notifyOf s k).pending = s.pending := by obtain ⟨_, _, h⟩ := notifyOf_eq s k; rw [h]
@[simp] theorem notifyOf_now (s : State) (k : Nat) : (notifyOf s k).now = s.now := by obtain ⟨_, _, h⟩ := notifyOf_eq s k; rw [h]
@[simp] theorem notifyOf_readyAt (s : State) (k : Nat) : (notifyOf s k).readyAt = s.readyAt := by obtain ⟨_, _, h⟩ := notifyOf_eq s k; rw [h]
@[simp] theorem notifyOf_phase (s : State) (k : Nat) : (notifyOf s k).phase = s.phase := by obtain ⟨_, _, h⟩ := notifyOf_eq s k; rw [h]
@[simp] theorem notifyOf_regs (s : State) (k : Nat) : (notifyOf s k).regs = s.regs := by obtain ⟨_, _, h⟩ := notifyOf_eq s k; rw [h]
@[simp] theorem notifyOf_raised (s : State) (k : Nat) : (notifyOf s k).raised = s.raised := by obtain ⟨_, _, h⟩ := notifyOf_eq s k; rw [h]
@[simp] theorem notifyOf_mem (s : State) (k : Nat) : (notifyOf s k).mem = s.mem := by obtain ⟨_, _, h⟩ := notifyOf_eq s k; rw [h]
@[simp] theorem notifyOf_host (s : State) (k : Nat) : (notifyOf s k).host = s.host := by obtain ⟨_, _, h⟩ := notifyOf_eq s k; rw [h]
@[simp] theorem notifyOf_poison (s : State) (k : Nat) : (notifyOf s k).poison = s.poison := by obtain ⟨_, _, h⟩ := notifyOf_eq s k; rw [h]
@[simp] theorem notifyOf_latent (s : State) (k : Nat) : (notifyOf s k).latent = s.latent := by obtain ⟨_, _, h⟩ := notifyOf_eq s k; rw [h]
@[simp] theorem notifyOf_ctxs (s : State) (k : Nat) : (notifyOf s k).ctxs = s.ctxs := by obtain ⟨_, _, h⟩ := notifyOf_eq s k; rw [h]
@[simp] theorem notifyOf_jobs (s : State) (k : Nat) : (notifyOf s k).jobs = s.jobs := by obtain ⟨_, _, h⟩ := notifyOf_eq s k; rw [h]
@[simp] theorem notifyOf_written (s : State) (k : Nat) : (notifyOf s k).written = s.written := by obtain ⟨_, _, h⟩ := notifyOf_eq s k; rw [h]
@[simp] theorem notifyOf_writes (s : State) (k : Nat) : (notifyOf s k).writes = s.writes := by obtain ⟨_, _, h⟩ := notifyOf_eq s k; rw [h]
@[simp] theorem notifyOf_served (s : State) (k : Nat) : (notifyOf s k).served = s.served := by obtain ⟨_, _, h⟩ := notifyOf_eq s k; rw [h]
@[simp] theorem notifyOf_admits (s : State) (k : Nat) : (notifyOf s k).admits = s.admits := by obtain ⟨_, _, h⟩ := notifyOf_eq s k; rw [h]
@[simp] theorem notifyOf_images (s : State) (k : Nat) : (notifyOf s k).images = s.images := by obtain ⟨_, _, h⟩ := notifyOf_eq s k; rw [h]
@[simp] theorem notifyOf_cores (s : State) (k : Nat) : (notifyOf s k).cores = s.cores := by obtain ⟨_, _, h⟩ := notifyOf_eq s k; rw [h]
@[simp] theorem notifyOf_world (s : State) (k : Nat) : (notifyOf s k).world = s.world := by obtain ⟨_, _, h⟩ := notifyOf_eq s k; rw [h]
@[simp] theorem notifyOf_chains (s : State) (k : Nat) : (notifyOf s k).chains = s.chains := by obtain ⟨_, _, h⟩ := notifyOf_eq s k; rw [h]
@[simp] theorem notifyOf_rtio (s : State) (k : Nat) : (notifyOf s k).rtio = s.rtio := by obtain ⟨_, _, h⟩ := notifyOf_eq s k; rw [h]
@[simp] theorem notifyOf_fseq (s : State) (k : Nat) : (notifyOf s k).fseq = s.fseq := by obtain ⟨_, _, h⟩ := notifyOf_eq s k; rw [h]
@[simp] theorem notifyOf_errWait (s : State) (k : Nat) : (notifyOf s k).errWait = s.errWait := by obtain ⟨_, _, h⟩ := notifyOf_eq s k; rw [h]
@[simp] theorem notifyOf_errMirror (s : State) (k : Nat) : (notifyOf s k).errMirror = s.errMirror := by obtain ⟨_, _, h⟩ := notifyOf_eq s k; rw [h]
@[simp] theorem notifyOf_reinitAt (s : State) (k : Nat) : (notifyOf s k).reinitAt = s.reinitAt := by obtain ⟨_, _, h⟩ := notifyOf_eq s k; rw [h]
@[simp] theorem notifyOf_inject (s : State) (k : Nat) : (notifyOf s k).inject = s.inject := by obtain ⟨_, _, h⟩ := notifyOf_eq s k; rw [h]
@[simp] theorem notifyOf_injectAt (s : State) (k : Nat) : (notifyOf s k).injectAt = s.injectAt := by obtain ⟨_, _, h⟩ := notifyOf_eq s k; rw [h]
@[simp] theorem notifyOf_parityFlip (s : State) (k : Nat) : (notifyOf s k).parityFlip = s.parityFlip := by obtain ⟨_, _, h⟩ := notifyOf_eq s k; rw [h]
@[simp] theorem notifyOf_snapAt (s : State) (k : Nat) : (notifyOf s k).snapAt = s.snapAt := by obtain ⟨_, _, h⟩ := notifyOf_eq s k; rw [h]
@[simp] theorem notifyOf_captureNow (s : State) (k : Nat) : (notifyOf s k).captureNow = s.captureNow := by obtain ⟨_, _, h⟩ := notifyOf_eq s k; rw [h]
@[simp] theorem notifyOf_captureNext (s : State) (k : Nat) : (notifyOf s k).captureNext = s.captureNext := by obtain ⟨_, _, h⟩ := notifyOf_eq s k; rw [h]
@[simp] theorem notifyOf_passStart (s : State) (k : Nat) : (notifyOf s k).passStart = s.passStart := by obtain ⟨_, _, h⟩ := notifyOf_eq s k; rw [h]
@[simp] theorem notifyOf_passOld (s : State) (k : Nat) : (notifyOf s k).passOld = s.passOld := by obtain ⟨_, _, h⟩ := notifyOf_eq s k; rw [h]
@[simp] theorem notifyOf_warmAsked (s : State) (k : Nat) : (notifyOf s k).warmAsked = s.warmAsked := by obtain ⟨_, _, h⟩ := notifyOf_eq s k; rw [h]
@[simp] theorem notifyOf_clk (s : State) (k : Nat) : (notifyOf s k).clk = s.clk := by obtain ⟨_, _, h⟩ := notifyOf_eq s k; rw [h]
@[simp] theorem notifyOf_sec (s : State) (k : Nat) : (notifyOf s k).sec = s.sec := by obtain ⟨_, _, h⟩ := notifyOf_eq s k; rw [h]
@[simp] theorem notifyOf_backup (s : State) (k : Nat) : (notifyOf s k).backup = s.backup := by obtain ⟨_, _, h⟩ := notifyOf_eq s k; rw [h]
@[simp] theorem notifyOf_flash (s : State) (k : Nat) : (notifyOf s k).flash = s.flash := by obtain ⟨_, _, h⟩ := notifyOf_eq s k; rw [h]
@[simp] theorem notifyOf_pmb (s : State) (k : Nat) : (notifyOf s k).pmb = s.pmb := by obtain ⟨_, _, h⟩ := notifyOf_eq s k; rw [h]
@[simp] theorem notifyOf_jtag (s : State) (k : Nat) : (notifyOf s k).jtag = s.jtag := by obtain ⟨_, _, h⟩ := notifyOf_eq s k; rw [h]
@[simp] theorem notifyOf_msixTable (s : State) (k : Nat) : (notifyOf s k).msixTable = s.msixTable := by obtain ⟨_, _, h⟩ := notifyOf_eq s k; rw [h]
@[simp] theorem notifyOf_accessQ (s : State) (k : Nat) : (notifyOf s k).accessQ = s.accessQ := by obtain ⟨_, _, h⟩ := notifyOf_eq s k; rw [h]
@[simp] theorem notifyOf_ferry (s : State) (k : Nat) : (notifyOf s k).ferry = s.ferry := by obtain ⟨_, _, h⟩ := notifyOf_eq s k; rw [h]

@[simp] theorem setEvent_pending (s : State) (e : RField) : (setEvent s e).pending = s.pending := by obtain ⟨_, _, _, _, h⟩ := setEvent_eq s e; rw [h]; rfl
@[simp] theorem setEvent_now (s : State) (e : RField) : (setEvent s e).now = s.now := by obtain ⟨_, _, _, _, h⟩ := setEvent_eq s e; rw [h]; rfl
@[simp] theorem setEvent_readyAt (s : State) (e : RField) : (setEvent s e).readyAt = s.readyAt := by obtain ⟨_, _, _, _, h⟩ := setEvent_eq s e; rw [h]; rfl
@[simp] theorem setEvent_phase (s : State) (e : RField) : (setEvent s e).phase = s.phase := by obtain ⟨_, _, _, _, h⟩ := setEvent_eq s e; rw [h]; rfl
@[simp] theorem setEvent_mem (s : State) (e : RField) : (setEvent s e).mem = s.mem := by obtain ⟨_, _, _, _, h⟩ := setEvent_eq s e; rw [h]; rfl
@[simp] theorem setEvent_host (s : State) (e : RField) : (setEvent s e).host = s.host := by obtain ⟨_, _, _, _, h⟩ := setEvent_eq s e; rw [h]; rfl
@[simp] theorem setEvent_poison (s : State) (e : RField) : (setEvent s e).poison = s.poison := by obtain ⟨_, _, _, _, h⟩ := setEvent_eq s e; rw [h]; rfl
@[simp] theorem setEvent_latent (s : State) (e : RField) : (setEvent s e).latent = s.latent := by obtain ⟨_, _, _, _, h⟩ := setEvent_eq s e; rw [h]; rfl
@[simp] theorem setEvent_ctxs (s : State) (e : RField) : (setEvent s e).ctxs = s.ctxs := by obtain ⟨_, _, _, _, h⟩ := setEvent_eq s e; rw [h]; rfl
@[simp] theorem setEvent_jobs (s : State) (e : RField) : (setEvent s e).jobs = s.jobs := by obtain ⟨_, _, _, _, h⟩ := setEvent_eq s e; rw [h]; rfl
@[simp] theorem setEvent_written (s : State) (e : RField) : (setEvent s e).written = s.written := by obtain ⟨_, _, _, _, h⟩ := setEvent_eq s e; rw [h]; rfl
@[simp] theorem setEvent_writes (s : State) (e : RField) : (setEvent s e).writes = s.writes := by obtain ⟨_, _, _, _, h⟩ := setEvent_eq s e; rw [h]; rfl
@[simp] theorem setEvent_served (s : State) (e : RField) : (setEvent s e).served = s.served := by obtain ⟨_, _, _, _, h⟩ := setEvent_eq s e; rw [h]; rfl
@[simp] theorem setEvent_admits (s : State) (e : RField) : (setEvent s e).admits = s.admits := by obtain ⟨_, _, _, _, h⟩ := setEvent_eq s e; rw [h]; rfl
@[simp] theorem setEvent_images (s : State) (e : RField) : (setEvent s e).images = s.images := by obtain ⟨_, _, _, _, h⟩ := setEvent_eq s e; rw [h]; rfl
@[simp] theorem setEvent_cores (s : State) (e : RField) : (setEvent s e).cores = s.cores := by obtain ⟨_, _, _, _, h⟩ := setEvent_eq s e; rw [h]; rfl
@[simp] theorem setEvent_world (s : State) (e : RField) : (setEvent s e).world = s.world := by obtain ⟨_, _, _, _, h⟩ := setEvent_eq s e; rw [h]; rfl
@[simp] theorem setEvent_chains (s : State) (e : RField) : (setEvent s e).chains = s.chains := by obtain ⟨_, _, _, _, h⟩ := setEvent_eq s e; rw [h]; rfl
@[simp] theorem setEvent_rtio (s : State) (e : RField) : (setEvent s e).rtio = s.rtio := by obtain ⟨_, _, _, _, h⟩ := setEvent_eq s e; rw [h]; rfl
@[simp] theorem setEvent_fseq (s : State) (e : RField) : (setEvent s e).fseq = s.fseq := by obtain ⟨_, _, _, _, h⟩ := setEvent_eq s e; rw [h]; rfl
@[simp] theorem setEvent_errWait (s : State) (e : RField) : (setEvent s e).errWait = s.errWait := by obtain ⟨_, _, _, _, h⟩ := setEvent_eq s e; rw [h]; rfl
@[simp] theorem setEvent_errMirror (s : State) (e : RField) : (setEvent s e).errMirror = s.errMirror := by obtain ⟨_, _, _, _, h⟩ := setEvent_eq s e; rw [h]; rfl
@[simp] theorem setEvent_reinitAt (s : State) (e : RField) : (setEvent s e).reinitAt = s.reinitAt := by obtain ⟨_, _, _, _, h⟩ := setEvent_eq s e; rw [h]; rfl
@[simp] theorem setEvent_inject (s : State) (e : RField) : (setEvent s e).inject = s.inject := by obtain ⟨_, _, _, _, h⟩ := setEvent_eq s e; rw [h]; rfl
@[simp] theorem setEvent_injectAt (s : State) (e : RField) : (setEvent s e).injectAt = s.injectAt := by obtain ⟨_, _, _, _, h⟩ := setEvent_eq s e; rw [h]; rfl
@[simp] theorem setEvent_parityFlip (s : State) (e : RField) : (setEvent s e).parityFlip = s.parityFlip := by obtain ⟨_, _, _, _, h⟩ := setEvent_eq s e; rw [h]; rfl
@[simp] theorem setEvent_snapAt (s : State) (e : RField) : (setEvent s e).snapAt = s.snapAt := by obtain ⟨_, _, _, _, h⟩ := setEvent_eq s e; rw [h]; rfl
@[simp] theorem setEvent_captureNow (s : State) (e : RField) : (setEvent s e).captureNow = s.captureNow := by obtain ⟨_, _, _, _, h⟩ := setEvent_eq s e; rw [h]; rfl
@[simp] theorem setEvent_captureNext (s : State) (e : RField) : (setEvent s e).captureNext = s.captureNext := by obtain ⟨_, _, _, _, h⟩ := setEvent_eq s e; rw [h]; rfl
@[simp] theorem setEvent_passStart (s : State) (e : RField) : (setEvent s e).passStart = s.passStart := by obtain ⟨_, _, _, _, h⟩ := setEvent_eq s e; rw [h]; rfl
@[simp] theorem setEvent_passOld (s : State) (e : RField) : (setEvent s e).passOld = s.passOld := by obtain ⟨_, _, _, _, h⟩ := setEvent_eq s e; rw [h]; rfl
@[simp] theorem setEvent_warmAsked (s : State) (e : RField) : (setEvent s e).warmAsked = s.warmAsked := by obtain ⟨_, _, _, _, h⟩ := setEvent_eq s e; rw [h]; rfl
@[simp] theorem setEvent_clk (s : State) (e : RField) : (setEvent s e).clk = s.clk := by obtain ⟨_, _, _, _, h⟩ := setEvent_eq s e; rw [h]; rfl
@[simp] theorem setEvent_sec (s : State) (e : RField) : (setEvent s e).sec = s.sec := by obtain ⟨_, _, _, _, h⟩ := setEvent_eq s e; rw [h]; rfl
@[simp] theorem setEvent_backup (s : State) (e : RField) : (setEvent s e).backup = s.backup := by obtain ⟨_, _, _, _, h⟩ := setEvent_eq s e; rw [h]; rfl
@[simp] theorem setEvent_flash (s : State) (e : RField) : (setEvent s e).flash = s.flash := by obtain ⟨_, _, _, _, h⟩ := setEvent_eq s e; rw [h]; rfl
@[simp] theorem setEvent_pmb (s : State) (e : RField) : (setEvent s e).pmb = s.pmb := by obtain ⟨_, _, _, _, h⟩ := setEvent_eq s e; rw [h]; rfl
@[simp] theorem setEvent_jtag (s : State) (e : RField) : (setEvent s e).jtag = s.jtag := by obtain ⟨_, _, _, _, h⟩ := setEvent_eq s e; rw [h]; rfl
@[simp] theorem setEvent_msixTable (s : State) (e : RField) : (setEvent s e).msixTable = s.msixTable := by obtain ⟨_, _, _, _, h⟩ := setEvent_eq s e; rw [h]; rfl
@[simp] theorem setEvent_accessQ (s : State) (e : RField) : (setEvent s e).accessQ = s.accessQ := by obtain ⟨_, _, _, _, h⟩ := setEvent_eq s e; rw [h]; rfl
@[simp] theorem setEvent_ferry (s : State) (e : RField) : (setEvent s e).ferry = s.ferry := by obtain ⟨_, _, _, _, h⟩ := setEvent_eq s e; rw [h]; rfl

end Sys2Proof.Machine
end

