-- ==== Sys2Proof/Laws/Regs.lean ====
section
/-! SUPPORT. Registers: a read after a write, by word and by field, and what an event leaves. -/

namespace Sys2Proof.Machine

/-- A register holds the word stored in it, and every other register its own. -/
theorem getReg_putReg (s : State) (k j : Nat) (w : W32) : getReg (putReg s k w) j = if j = k then w else getReg s j := by
  unfold getReg putReg
  by_cases h : j = k
  · subst h; simp
  · rw [if_neg h]; exact smGet_smPut_ne _ _ _ _ h

@[simp] theorem getReg_putReg_same (s : State) (k : Nat) (w : W32) : getReg (putReg s k w) k = w := by simp [getReg_putReg]

theorem getReg_putReg_other (s : State) {k j : Nat} (w : W32) (h : j ≠ k) : getReg (putReg s k w) j = getReg s j := by
  simp [getReg_putReg, h]

theorem getReg_setF (s : State) (f : RField) (v j : Nat) :
    getReg (setF s f v) j = if j = f.key then withField (getReg s f.key) f.hi f.lo v else getReg s j := getReg_putReg _ _ _ _

theorem getReg_setF_other (s : State) (f : RField) (v : Nat) {j : Nat} (h : j ≠ f.key) : getReg (setF s f v) j = getReg s j := by
  simp [getReg_setF, h]

/-- A field reads what was stored in it. -/
theorem getF_setF_same (s : State) (f : RField) (v : Nat) (h : f.hi < 32) (hl : f.lo ≤ f.hi) :
    getF (setF s f v) f = v % 2 ^ (f.hi - f.lo + 1) := by
  simp [getF, getReg_setF, fieldOf_withField_same, h, hl]

/-- A field of another register, or one that does not overlap, keeps its value. -/
theorem getF_setF_other (s : State) (f g : RField) (v : Nat)
    (h : g.key ≠ f.key ∨ (f.lo ≤ f.hi ∧ g.hi < 32 ∧ g.lo ≤ g.hi ∧ (f.hi < g.lo ∨ g.hi < f.lo))) :
    getF (setF s f v) g = getF s g := by
  unfold getF
  rcases h with h | ⟨h1, h2, h3, h4⟩
  · rw [getReg_setF_other _ _ _ h]
  · rw [getReg_setF]
    by_cases hk : g.key = f.key
    · rw [if_pos hk, fieldOf_withField_other _ _ _ _ _ _ h1 h2 h3 h4, hk]
    · rw [if_neg hk]

/-- Registers are read from `regs` alone. -/
theorem getReg_congr {s t : State} (h : s.regs = t.regs) (k : Nat) : getReg s k = getReg t k := by unfold getReg; rw [h]

theorem getF_congr {s t : State} (h : s.regs = t.regs) (f : RField) : getF s f = getF t f := by
  unfold getF; rw [getReg_congr h]

theorem flag_congr {s t : State} (h : s.regs = t.regs) (f : RField) : flag s f = flag t f := by
  unfold flag; rw [getF_congr h]

/-- The registers after an event, the first of its register in the cycle: its own has its bits set and SEQ grown (R66, R67). -/
theorem setEvents_regs (s : State) (key mask : Nat) (h : key ∉ s.raised) :
    (setEvents s key mask).regs = (putReg s key (eventWord (getReg s key) mask)).regs := by
  simp only [setEvents, List.contains_iff_mem, h, if_false, notifyOf_regs]

/-- An event leaves every register but its own. -/
theorem getReg_setEvent_other (s : State) (f : RField) {j : Nat} (h : j ≠ f.key) : getReg (setEvent s f) j = getReg s j := by
  obtain ⟨w, r, o, p, he⟩ := setEvent_eq s f
  rw [he]
  exact (getReg_congr (t := putReg s f.key w) rfl j).trans (getReg_putReg_other _ _ h)

/-- The word of an event register after its first event in a cycle (R66, R67). -/
theorem getReg_setEvent_same (s : State) (f : RField) (h : f.key ∉ s.raised) :
    getReg (setEvent s f) f.key = eventWord (getReg s f.key) (2 ^ f.lo) := by
  unfold setEvent
  rw [getReg_congr (setEvents_regs s f.key _ h), getReg_putReg_same]

/-- A counter changes its register alone. -/
theorem getReg_addF_other (s : State) (f : RField) (n : Nat) {j : Nat} (h : j ≠ f.key) : getReg (addF s f n) j = getReg s j := by
  unfold addF
  split
  · rfl
  · exact getReg_setF_other _ _ _ h

/-- While its region runs, a counter grows by what is added, modulo its width (R629). -/
theorem addF_running (s : State) (f : RField) (n : Nat) (h : inStopped s f.key = false) : addF s f n = setF s f (getF s f + n) := by
  simp [addF, h]

end Sys2Proof.Machine
end

