-- ==== Sys2Proof/Laws/Answers.lean ====
section
/-! SUPPORT. What an answer holds when its command leaves the kept parts alone, and what events and counters
leave in the terms of Safety. -/

namespace Sys2Proof.Machine

theorem isReady_of {s : State} (h : s.phase = .ready) : isReady s = true := by simp [isReady, h]

theorem whenReady_of {s : State} (f : State → State) (h : s.phase = .ready) : whenReady s f = keep s (f (newCycle s)) := by
  rw [whenReady, isReady_of h, if_pos rfl]

theorem whenReadyMem_of {s : State} (f : State → State) (h : s.phase = .ready) : whenReadyMem s f = commit s (f (newCycle s)) := by
  rw [whenReadyMem, isReady_of h, if_pos rfl]

/-- A command that leaves the kept parts alone answers exactly what it computes. -/
theorem keep_self {s t : State} (hp : t.pending = s.pending) (hn : t.now = s.now) (hr : t.raised = s.raised) (hs : t.sec = s.sec)
    (hm : t.mem = s.mem) (hh : t.host = s.host) : keep s t = .next t := by
  cases t
  simp_all [keep, sameFuses]

/-- From canonical memories, a command that leaves the kept parts alone answers exactly what it computes. -/
theorem commit_self {s t : State} (hc : Canonical s) (hp : t.pending = s.pending) (hn : t.now = s.now)
    (hr : t.raised = s.raised) (hs : t.sec = s.sec) (hm : t.mem = s.mem) (hh : t.host = s.host) : commit s t = .next t := by
  have h1 := smNorm_of_wf 0 s.mem hc.1
  have h2 := smNorm_of_wf 0 s.host hc.2
  cases t
  simp only at hp hn hr hs hm hh
  subst hp hn hr hs hm hh
  simp only [commit, sameFuses, h1, h2]

/-- Reading is not changed by putting memory into its canonical form. -/
theorem sameBytes_of {s t : State} (hm : t.mem = s.mem) (hh : t.host = s.host) : SameBytes s t :=
  ⟨fun a => by rw [memByte, memByte, hm], fun a => by rw [hostByte, hostByte, hh]⟩

/-- While its region runs, a counter that counts one grows by one modulo its width. -/
theorem counted_incF (s : State) (f : RField) (h : f.hi < 32) (hl : f.lo ≤ f.hi) (hr : inStopped s f.key = false) :
    Counted f 1 s (incF s f) := by
  unfold Counted incF
  rw [addF_running _ _ _ hr]
  exact getF_setF_same s f _ h hl

theorem counted_congr {f : RField} {n : Nat} {s t u : State} (h : Counted f n s t) (hr : getReg u f.key = getReg t f.key) :
    Counted f n s u := by
  unfold Counted getF at *
  rw [hr]; exact h

theorem counted_from {f : RField} {n : Nat} {s t u : State} (h : Counted f n t u) (hr : getReg t f.key = getReg s f.key) :
    Counted f n s u := by
  unfold Counted getF at *
  rw [← hr]; exact h

/-- The word of a sequence-clear register after an event bit below SEQ (R66, R67). -/
theorem eventWord_bit (w : W32) (b i : Nat) (hb : b < 24) (hi : i < 24) :
    (eventWord w (2 ^ b)).toNat.testBit i = (w.toNat.testBit i || decide (i = b)) := by
  unfold eventWord
  rw [testBit_withField]
  have hlt : 2 ^ b < 2 ^ 24 := Nat.pow_lt_pow_right (by decide) hb
  rw [if_neg (by omega), show decide (i < 32) = true from by simp; omega, Bool.true_and, BitVec.toNat_or, Nat.testBit_or,
    BitVec.toNat_ofNat, show (16777216 : Nat) = 2 ^ 24 from rfl, Nat.mod_eq_of_lt hlt,
    Nat.mod_eq_of_lt (Nat.lt_trans hlt (by decide)), Nat.testBit_two_pow]
  congr 1
  simp [eq_comm]

/-- The first event of a register in a cycle sets its bit and steps SEQ (R66, R67). -/
theorem raised_setEvent (s : State) (f : RField) (h : f.lo < 24) (hr : f.key ∉ s.raised) : Raised f s (setEvent s f) := by
  have hw := getReg_setEvent_same s f hr
  refine ⟨?_, ?_, fun b hb hne => ?_⟩
  · rw [hw, bitOf_eq, eventWord_bit _ _ _ h h]; simp
  · rw [hw, eventWord]
    generalize BitVec.ofNat 32 _ = m
    have := fieldOf_withField_same (getReg s f.key ||| m) 31 24 (fieldOf (getReg s f.key) 31 24 + 1) (by decide) (by decide)
    simpa using this
  · rw [hw, bitOf_eq, bitOf_eq, eventWord_bit _ _ _ h hb]; simp [hne]

theorem raised_congr {f : RField} {s t u : State} (h : Raised f s t) (hr : getReg u f.key = getReg t f.key) : Raised f s u := by
  unfold Raised at *
  rw [hr]; exact h

theorem raised_from {f : RField} {s t u : State} (h : Raised f t u) (hr : getReg t f.key = getReg s f.key) : Raised f s u := by
  unfold Raised at *
  rw [← hr]; exact h

end Sys2Proof.Machine
end

