-- ==== Sys2Proof/Laws/Backup.lean ====
section
/-! SUPPORT. The retention store: what is read back after a write, and that every update leaves a backup
that the next start finds valid (R655, R657). -/

namespace Sys2Proof.Machine

variable {α : Type}

theorem smRead_eq (d : α) (m : SMap α) (a n : Nat) : smRead d m a n = (List.range n).map (fun i => smGet d m (a + i)) := by
  unfold smRead smSlice
  apply List.map_congr_left
  intro i hi
  have h := List.mem_range.1 hi
  rw [smGet_filter (f := fun k => decide (a ≤ k) && decide (k < a + n)), if_pos (by simp; omega)]

theorem smRead_smWrite_disjoint [DecidableEq α] (d : α) (m : SMap α) (a n b : Nat) (l : List α) (h : a + n ≤ b ∨ b + l.length ≤ a) :
    smRead d (smWrite d m b l) a n = smRead d m a n := by
  simp only [smRead_eq]
  apply List.map_congr_left
  intro i hi
  have := List.mem_range.1 hi
  rw [smGet_smWrite, if_neg (by omega)]

theorem smRead_smWrite_same [DecidableEq α] (d : α) (m : SMap α) (a : Nat) (l : List α) :
    smRead d (smWrite d m a l) a l.length = l := by
  rw [smRead_eq]
  apply List.ext_getElem
  · simp
  · intro i h1 h2
    have hi : i < l.length := h2
    simp [smGet_smWrite, hi, List.getD_eq_getElem?_getD]

@[simp] theorem natLE_length (n x : Nat) : (natLE n x).length = n := by
  induction n generalizing x with
  | zero => rfl
  | succ n ih => simp [natLE, ih]

theorem leNat_natLE (n x : Nat) : leNat (natLE n x) = x % 256 ^ n := by
  induction n generalizing x with
  | zero => simp [natLE, leNat, Nat.mod_one]
  | succ n ih => rw [natLE, leNat, ih, Nat.pow_succ, Nat.mul_comm (256 ^ n), Nat.mod_mul]; simp

/-- An update of the store leaves it valid while the witness reads VALID. -/
theorem backupValid_storeUpdate (s : State) (st : SMap Byte) (w : List (Nat × List Byte)) (hw : s.backup.witness = true)
    (hs : s.backup.store = storeUpdate st w) : backupValid s = true := by
  have h8 (m : SMap Byte) (x : Nat) : smRead 0 (smWrite 0 m 8 (natLE 4 x)) 8 4 = natLE 4 x := by
    simpa using smRead_smWrite_same 0 m 8 (natLE 4 x)
  have h0 (m : SMap Byte) (x : Nat) : smRead 0 (smWrite 0 m 0 (natLE 4 x)) 0 4 = natLE 4 x := by
    simpa using smRead_smWrite_same 0 m 0 (natLE 4 x)
  have hc (m : SMap Byte) (x : Nat) : backupCrc (smWrite 0 m 8 (natLE 4 x)) = backupCrc m := by
    unfold backupCrc
    rw [smRead_smWrite_disjoint 0 m 0 8 8 _ (.inl (Nat.le_refl _)), smRead_smWrite_disjoint 0 m 12 2036 8 _ (.inr (by simp))]
  unfold backupValid
  rw [hs, hw]
  simp only [storeUpdate, putBytes, List.foldl_append, List.foldl_cons, List.foldl_nil, h8, hc, leNat_natLE]
  rw [smRead_smWrite_disjoint 0 _ 0 4 8 _ (.inl (by decide)), smRead_smWrite_disjoint 0 _ 0 4 4 _ (.inl (by decide)), h0, leNat_natLE]
  have lt : ∀ c : W32, c.toNat % 256 ^ 4 = c.toNat := fun c => Nat.mod_eq_of_lt c.isLt
  rw [lt, decide_eq_true (show backupMagic % 256 ^ 4 = backupMagic from rfl), decide_eq_true rfl]
  rfl

end Sys2Proof.Machine
end

