-- ==== Sys2Proof/Laws/Steps.lean ====
section
/-! SUPPORT. What every command and every step keeps: the queue, time, canonical memory, and blown fuses. -/

namespace Sys2Proof.Machine

/-- A fuse that is blown stays blown. -/
structure FusesGrow (a b : Sec) : Prop where
  lc : ∀ i, a.lc.getLsbD i = true → b.lc.getLsbD i = true
  valid : ∀ i, (smGet KeySlot.empty a.slots i).valid = true → (smGet KeySlot.empty b.slots i).valid = true
  revoked : ∀ i, (smGet KeySlot.empty a.slots i).revoked = true → (smGet KeySlot.empty b.slots i).revoked = true
  erased : ∀ i, (smGet KeySlot.empty a.slots i).erased = true → (smGet KeySlot.empty b.slots i).erased = true
  all : a.erasedAll = true → b.erasedAll = true
  uid : b.uid = a.uid

theorem FusesGrow.same {a b : Sec} (h1 : b.lc = a.lc) (h2 : b.slots = a.slots) (h3 : b.erasedAll = a.erasedAll)
    (h4 : b.uid = a.uid) : FusesGrow a b :=
  ⟨by simp [h1], by simp [h2], by simp [h2], by simp [h2], by simp [h3], h4⟩

theorem FusesGrow.refl (a : Sec) : FusesGrow a a := .same rfl rfl rfl rfl

/-- What every command leaves of the state it acts on. -/
structure Kept (s t : State) : Prop where
  pending : t.pending = s.pending
  now : t.now = s.now
  canonical : Canonical s → Canonical t
  fuses : FusesGrow s.sec t.sec

/-- Every next state of an answer keeps what a command keeps. -/
def Tame (s : State) (a : Answer) : Prop := ∃ t, a = .next t ∧ Kept s t

theorem Kept.refl (s : State) : Kept s s := ⟨rfl, rfl, id, .refl _⟩

theorem tame_next (s : State) : Tame s (.next s) := ⟨s, rfl, .refl s⟩

theorem tame_keep (s t : State) : Tame s (keep s t) := ⟨_, rfl, rfl, rfl, id, .same rfl rfl rfl rfl⟩

theorem tame_commit (s t : State) : Tame s (commit s t) :=
  ⟨_, rfl, rfl, rfl, fun _ => ⟨smWf_smNorm _ _, smWf_smNorm _ _⟩, .same rfl rfl rfl rfl⟩

theorem tame_whenReady (s : State) (f : State → State) : Tame s (whenReady s f) := by
  unfold whenReady
  split
  · exact tame_keep _ _
  · exact tame_next s

theorem tame_whenReadyMem (s : State) (f : State → State) : Tame s (whenReadyMem s f) := by
  unfold whenReadyMem
  split
  · exact tame_commit _ _
  · exact tame_next s

theorem tame_watchdog (s : State) : Tame s (execStartWatchdogExpiry s) := by
  unfold execStartWatchdogExpiry
  split
  · exact tame_next s
  · exact tame_keep _ _
  · exact tame_next s

theorem tame_unlock (r : Fin 8) (s : State) : Tame s (execGeneratorUnlock r s) := by
  unfold execGeneratorUnlock
  split
  · exact tame_keep _ _
  · exact tame_keep _ _
  · exact tame_next s

theorem tame_warm (us : W32) (s : State) : Tame s (execWarmStart us s) := by
  unfold execWarmStart
  split
  · exact tame_commit _ _
  · exact tame_next s

theorem tame_refclk (s : State) : Tame s (execRefclkReturn s) := by
  unfold execRefclkReturn
  dsimp only
  split
  · exact tame_commit _ _
  · exact tame_keep _ _

/-- An erasing start sets the ERASED fuse of each slot and leaves the others. -/
theorem eraseSlots_get (m : SMap KeySlot) (i : Nat) :
    smGet KeySlot.empty (eraseSlots m) i =
      if i < 4 then { smGet KeySlot.empty m i with erased := true } else smGet KeySlot.empty m i := by
  have h4 : List.range 4 = [0, 1, 2, 3] := rfl
  simp only [eraseSlots, h4, List.foldl_cons, List.foldl_nil, smGet_smPut]
  by_cases h3 : i = 3
  · simp [h3]
  · by_cases h2 : i = 2
    · simp [h2]
    · by_cases h1 : i = 1
      · simp [h1]
      · by_cases h0 : i = 0
        · simp [h0]
        · simp [h0, h1, h2, h3, show ¬ i < 4 by omega]

theorem coldFuses_grow (s t : State) : FusesGrow s.sec (coldFuses s t) := by
  have hs : ∀ b : Bool, ∀ i,
      ((smGet KeySlot.empty s.sec.slots i).valid = true → (smGet KeySlot.empty (if b then eraseSlots s.sec.slots else s.sec.slots) i).valid = true) ∧
      ((smGet KeySlot.empty s.sec.slots i).revoked = true → (smGet KeySlot.empty (if b then eraseSlots s.sec.slots else s.sec.slots) i).revoked = true) ∧
      ((smGet KeySlot.empty s.sec.slots i).erased = true → (smGet KeySlot.empty (if b then eraseSlots s.sec.slots else s.sec.slots) i).erased = true) := by
    intro b i
    cases b
    · exact ⟨id, id, id⟩
    · simp only [if_true, eraseSlots_get]
      split <;> simp
  exact ⟨fun _ h => h, fun i => (hs _ i).1, fun i => (hs _ i).2.1, fun i => (hs _ i).2.2,
    fun h => by simp [coldFuses, h], rfl⟩

theorem tame_cold (f : BitVec 4) (us : W32) (s : State) : Tame s (execColdStart f us s) := by
  unfold execColdStart
  split
  · exact ⟨_, rfl, rfl, rfl, fun h => ⟨smWf_smNorm _ _, h.2⟩, coldFuses_grow _ _⟩
  · exact tame_next s

/-- Blowing a fuse keeps every fuse blown before. -/
theorem blowFuse_grow (x : Sec) (op : FuseOp) : FusesGrow x (blowFuse x op) := by
  cases op with
  | lc bits => exact ⟨fun i h => by simp [blowFuse, h], fun _ => id, fun _ => id, fun _ => id, id, rfl⟩
  | key j h =>
    refine ⟨fun _ => id, ?_, ?_, ?_, id, rfl⟩ <;> intro i hi <;> simp only [blowFuse, Sec.blowHash, Sec.putSlot, smGet_smPut] <;>
      split <;> simp_all
  | revoke j =>
    refine ⟨fun _ => id, ?_, ?_, ?_, id, rfl⟩ <;> intro i hi <;> simp only [blowFuse, Sec.putSlot, smGet_smPut] <;>
      split <;> simp_all

/-- What a failed fuse operation has blown keeps every fuse blown before. -/
theorem partFuse_grow (x : Sec) (part : BitVec 256) (op : FuseOp) : FusesGrow x (partFuse x part op) := by
  cases op with
  | lc bits =>
    simp only [partFuse]
    split
    · exact .refl _
    · exact ⟨fun i h => by simp [h], fun _ => id, fun _ => id, fun _ => id, id, rfl⟩
  | key j h =>
    refine ⟨fun _ => id, ?_, ?_, ?_, id, rfl⟩ <;> intro i hi <;> simp only [partFuse, Sec.blowHash, Sec.putSlot, smGet_smPut] <;>
      split <;> simp_all
  | revoke j => exact .refl _

theorem FusesGrow.trans {a b c : Sec} (h : FusesGrow a b) (k : FusesGrow b c) : FusesGrow a c :=
  ⟨fun i x => k.lc i (h.lc i x), fun i x => k.valid i (h.valid i x), fun i x => k.revoked i (h.revoked i x),
    fun i x => k.erased i (h.erased i x), fun x => k.all (h.all x), k.uid.trans h.uid⟩

theorem fuseOpDone_grow (s : State) (ok : Bool) : FusesGrow s.sec (fuseOpDone s ok).sec := by
  unfold fuseOpDone
  split
  · exact .refl _
  · rename_i op _
    dsimp only
    split
    · simp only [setEvent_sec]
      exact .trans (b := { s.sec with op := none, opFromToken := false }) (.same rfl rfl rfl rfl) (partFuse_grow _ _ op)
    · have h : FusesGrow s.sec (blowFuse { s.sec with op := none, opFromToken := false } op) := by
        refine .trans (b := { s.sec with op := none, opFromToken := false }) (.same rfl rfl rfl rfl) (blowFuse_grow _ op)
      split <;> split <;> simpa only [setF_sec] using h

theorem tame_fuse (ok : Bool) (s : State) : Tame s (execFuseOpDone ok s) := by
  unfold execFuseOpDone
  split
  · exact ⟨_, rfl, rfl, rfl, id, fuseOpDone_grow (newCycle s) ok⟩
  · exact tame_next s

/-- Every command but the patrol read of an unpopulated address answers a next state, which keeps the queue, the
time, canonical memories and the fuses blown. -/
theorem exec_tame (i : Instr) (s : State) (h : ∀ a, i = .scrubPatrolRead a → populated a.toNat = true) : Tame s (exec i s) := by
  cases i <;> simp only [exec, execRegisterWrite, execBitAliasWrite, execSqClearWrite, execGlbTickLoRead,
    execTtbAxPosLoRead, execEthPtpLoRead, execPwrRtcLoRead, execRegTimeout, execGlbSnap, execSnapshotCopy,
    execCfgCapture, execCfgCrcPassEnd, execBerthCommit, execBerthConfirm, execBerthReturnPrev, execXspiReadWord,
    execXspiProgramWord, execXspiErase, execXspiOpDone, execResInjectArm, execTailDoorbell, execHeadDoorbell,
    execDescriptorFetch, execJobNop, execJobRun, execJobCopy, execJobFill, execJobFence, execJobWaitSeq,
    execJobWaitPos, execJobWaitLanding, execJobWaitGen, execJobWaitTimeout, execJobWorld, execPlanTree,
    execPlanRoadmapGrow, execPlanRoadmapQuery, execPlanRepair, execPlanLoadChain, execTestPoolMbist,
    execTestBasinMbist, execTestStoreMbist, execTestArrayBist, execTestGeyserBist, execTestCollisionBist,
    execTestReadCheck, execJobMoor, execCompletionWrite, execIrqCoalesceTimeout, execCompletionMirrorDrop,
    execHifCtxFlush, execHifCtxEnable, execHifCtxDisable, execStepLoadTile, execStepSwap, execStepStream,
    execStepStreamTranspose, execStepDrain, execVecAdd, execVecSub, execVecMul, execVecFma, execVecMin, execVecMax,
    execVecAbs, execVecNeg, execVecCmp, execVecSel, execVecScale2, execVecCvt, execVecRowadd, execVecRowread,
    execStepGey, execGeyRreduce, execGeyLookup, execGeyHorner, execGeyMul, execGeyAdd, execGeySelect, execGeyClamp,
    execGeyExpadj, execGeyEnd, execStepQuant, execStepStoreLinear, execStepStoreUnskew, execStepDmaLinear,
    execStepDmaSkew, execStepDmaSkewT, execStepDmaUnskew, execStepMoorPoint, execStepWait, execStepWaitTimeout,
    execStepSignal, execStepSurveyCaldera, execStepSurveyPool, execStepFence, execJumpAlways, execJumpDecNz,
    execJumpSet, execStepEnd, execFaultRecordWrite, execMmuInvalidate, execMmuRootWrite, execCastRetry, execCastAbort,
    execCastOffAuto, execQuantumExpiry, execErrorRecordWrite, execErrMirrorDrop, execErrInject, execErrInjectAct,
    execFerryDelivery, execRegionReinitDone, execHostAccessTimeout, execPcieCe, execPcieLinkDown, execPcieLinkUp,
    execPcieConfigRequest, execScrubPatrolRead, execHbmRefresh, execHbmHot, execEncoderSample, execEncZEdge,
    execAxisSet, execSsiRead, execSsiReadDone, execMainsEdge, execGptpEventMessage, execActionDoorbell,
    execActionCapture, execFsyncEnd, execActionEmitOne, execActionEmitRun, execActionEmitStop, execActionOutput,
    execActionSteps, execActionCheck, execActionWindowOpen, execActionWindowClose, execDeferredEntryAct,
    execWindowTimeout, execTtbEntryWrite, execTtbEntryRead, execEmissionInstant, execFrameTransmit, execQbvEntryWrite,
    execQbvSwap, execQbvCycleStart, execTemplateWordWrite, execChainResume, execChainFlush, execFeederCommit,
    execFrameLanding, execHoldNAssert, execHoldNRelease, execFreqChangeGo, execFreqChangeStart, execGlideStep,
    execShortStopEnd, execDroopTrip, execDroopClear, execCanaryFail, execThermHi, execThermTrip, execAdaptiveStep,
    execPmbEnable, execVoutPoll, execPmbRetry, execRtcLoad, execPwrCtlWarm, execPorstNRise, execBrownout,
    execWrstNRise, execLcTransition, execKeyProgram, execKeyRead, execKeyRevoke, execTokenCheck, execTokenCheckDone,
    execJtagExtest, execJtagIdcode, execJtagSamplePreload, execJtagClamp, execJtagHighz, execJtagBypass,
    execJtagRegacc, execJtagScandump, execPorstNFall, execBackupSupplyDrop, execXtalStop, execXtalStart,
    execMainsLoopUnlock, execGptpLockLoss, execStepPulse, execCsiFrameStart, execTapReset, execMsixTableWrite] <;> first
    | with_reducible exact tame_whenReady s _
    | with_reducible exact tame_whenReadyMem s _
    | with_reducible exact tame_keep s _
    | with_reducible exact tame_watchdog s
    | with_reducible exact tame_unlock _ s
    | with_reducible exact tame_warm _ s
    | with_reducible exact tame_refclk s
    | with_reducible exact tame_cold _ _ s
    | with_reducible exact tame_fuse _ s
    | (rw [if_pos (h _ rfl)]; with_reducible exact tame_whenReady s _)

end Sys2Proof.Machine
end

