-- ==== Sys2Proof/WellFormed.lean ====
section
/-! DEFINITION. Constraints on a command's operands that their types do not make. A command that is not
well-formed names nothing that can reach the device; it has a meaning all the same. -/

namespace Sys2Proof

/-- A self-test that finds no fault names no failing offset (R548). -/
def testOperandsOk (failure : BitVec 8) (off : W32) : Bool := decide (failure ≠ 0) || decide (off = 0)

/-- A well-formed command: the steps of a cold start that can fail are 4 and 5 (R648); bits [31:25] of a REGACC
word are zero (R680); the MSI-X table lies at 0x8000 to 0x83FF of BAR2 (the BAR layout); the patrol reads
8-byte granules (R275). -/
def Instr.wellFormed : Instr → Bool
  | .coldStart f _ => decide (f = 0) || decide (f = 4) || decide (f = 5)
  | .jtagRegacc dr => decide (dr.toNat / 2 ^ 25 % 2 ^ 7 = 0)
  | .msixTableWrite off _ _ => decide (0x8000 ≤ off.toNat) && decide (off.toNat < 0x8400)
  | .scrubPatrolRead a => decide (a.toNat % 8 = 0)
  | .testPoolMbist _ _ f o | .testBasinMbist _ _ f o | .testStoreMbist _ _ f o | .testArrayBist _ _ f o
  | .testGeyserBist _ _ f o | .testCollisionBist _ _ f o | .testReadCheck _ _ f o => testOperandsOk f o
  | _ => true

end Sys2Proof
end

