-- ==== Sys2Proof/Tests/Slice0.lean ====
section
/-! SUPPORT. The model's own tests: ill-formed operands are refused, and for every statement of
Certificates/Slice0/Obligations.lean a concrete state and operands that meet the hypotheses of each of its
clauses, at the ends of their ranges. -/

open Sys2Proof Sys2Proof.Machine

namespace Sys2Proof.Tests

set_option Elab.async false

/-! ### States the witnesses stand on -/

/-- A state after writes of fields. -/
def setAll (s : State) (l : List (RField × Nat)) : State := l.foldl (fun s p => setF s p.1 p.2) s

/-- The answer is a next state. -/
def goesOn : Answer → Bool
  | .next _ => true
  | _ => false

/-- The next state of a command; a stop leaves the state. -/
def after (i : Instr) (s : State) : State :=
  match exec i s with
  | .next t => t
  | _ => s

/-- The work ends well. -/
def isOk {α : Type} : Except Stop α → Bool
  | .ok _ => true
  | .error _ => false

/-- Every crossing and every register path of the state is free: nothing waits, stops or is armed there. -/
def free (s : State) : Bool := s.accessQ.isEmpty && s.clk.isEmpty && s.ferry.isEmpty && s.parityFlip.isEmpty

theorem free_paths (s : State) (h : free s = true) :
    (∀ slot, PathFree s slot) ∧ ∀ a b, CrossingFree s a b := by
  simp only [free, Bool.and_eq_true, List.isEmpty_iff] at h
  obtain ⟨⟨⟨q, c⟩, f⟩, p⟩ := h
  have stop (r : Nat) : (getClk s r).stopped = false := by simp [getClk, c, smGet, ClkRegion.reset]
  have cross (a b : Nat) : CrossingFree s a b := by
    refine ⟨?_, stop b, by simp [p]⟩
    simp [launchHeld, stop, slotsTaken, f, smGet]
  refine ⟨fun slot => ⟨q, ?_, fun _ => cross _ _⟩, cross⟩
  unfold inStopped
  split <;> simp [stop]

/-- Jobs may run: RUN, HIF_CTL.EN and MMU_EN, context 0 enabled, and its table maps the first GiB to the basin. -/
def running : State :=
  { setAll State.reset [(GLB_CTL_RUN, 1), (HIF_CTL_EN, 1), (MMU_CTL_MMU_EN, 1), (HIF_CTX_CTL_EN 0, 1),
      (MMU_CTX_ROOT_LO_ADDR 0, 1), (MMU_CTX_ROOT_HI_ADDR 0, 0x11), (HIF_CTX_SQ_BASE_LO_ADDR 0, 0x10),
      (HIF_CTX_CQ_BASE_LO_ADDR 0, 0x20), (HIF_CTX_SIZE_SQ_LOG2 0, 6), (HIF_CTX_SIZE_CQ_LOG2 0, 6)] with
    mem := smWrite 0 (smWrite 0 [] 0x1100001000 (natLE 8 0x1100002001)) 0x1100002000 (natLE 8 0x110000000F) }

/-- A job of context 0 that runs, with a body. -/
def jobOf (sub : W32) (body : JobBody) : Job :=
  { newJob 0 sub 0 ⟨body, 1, false, false, false, 0xF, 0, 0, 0⟩ ⟨0, [], 0, false⟩ with phase := .running }

/-- `running` with jobs in flight. -/
def withJobs (l : List Job) : State := { running with jobs := l }

/-! ### Ill-formed operands are refused -/

theorem test_wf_coldStart : (Instr.coldStart 3 0).wellFormed = false ∧ (Instr.coldStart 4 0).wellFormed = true := by decide
theorem test_wf_regacc : (Instr.jtagRegacc (1 <<< 25)).wellFormed = false ∧ (Instr.jtagRegacc (1 <<< 24)).wellFormed = true := by decide
theorem test_wf_msix : (Instr.msixTableWrite 0x7FFC 0xF 0).wellFormed = false ∧ (Instr.msixTableWrite 0x8400 0xF 0).wellFormed = false ∧
    (Instr.msixTableWrite 0x83FC 0xF 0).wellFormed = true := by decide
theorem test_wf_patrol : (Instr.scrubPatrolRead 4).wellFormed = false ∧ (Instr.scrubPatrolRead 8).wellFormed = true := by decide
theorem test_wf_test : (Instr.testPoolMbist 0 0 0 1).wellFormed = false ∧ (Instr.testReadCheck 0 0 1 1).wellFormed = true := by decide

/-! ### Witnesses: states and operands that meet the hypotheses of the statements, in their order -/

theorem witness_StepRunsFrontCommand : ({ State.reset with pending := [.tapReset] } : State).pending = .tapReset :: [] := rfl
theorem witness_StepOnEmptyQueueIsOneTick : State.reset.pending = [] := rfl
theorem witness_CanonicalMemoryKeptByEveryStep : Canonical State.reset ∧ goesOn (step State.reset) = true :=
  ⟨⟨by decide, by decide⟩, by decide⟩
theorem witness_FusesOnlyBlow : goesOn (step State.reset) = true := by decide
theorem witness_CommandsLeaveQueueAndTime : goesOn (exec .tapReset State.reset) = true := by decide
theorem witness_OnlyPatrolOutsideMemoryStops : populated 0x7FFFFFFF8 = true ∧ State.reset.phase = .ready ∧
    populated 0x800000000 = false ∧ populated 0x1003800000 = false := by decide
theorem witness_NothingActsBeforeReady : ({ State.reset with phase := .inReset false } : State).phase ≠ .ready ∧
    actsBeforeReady .glbSnap = false := by decide
theorem witness_WritesThroughViewsAndBitWords : State.reset.phase = .ready ∧ Canonical State.reset ∧
    (∀ p ∈ [(0x10, 4), (0x1044, 17), (0x20A4, 41), (0x3010, 4), (0xC010, 4)], bitsOf p.1 23 16 = 0 ∧ bitsOf p.1 1 0 = 0 ∧
      bitsOf p.1 11 2 % 64 = p.2) ∧
    (∀ p ∈ [(0x200, 4), (0x8FC, 17), (0x14FC, 41)], bitsOf p.1 19 15 = 0 ∧ bitsOf p.1 1 0 = 0 ∧ bitsOf p.1 14 7 % 64 = p.2) ∧
    State.reset.accessQ = [] ∧ bitsOf 0xA0 11 2 % 64 = 40 ∧ bitsOf 0xA0 13 12 = 0 :=
  ⟨rfl, ⟨by decide, by decide⟩, by decide, by decide, rfl, by decide, by decide⟩
theorem witness_BadAccessIgnoredAndCounted : State.reset.phase = .ready ∧ Canonical State.reset ∧ (0x7 : BitVec 4) ≠ 0xF ∧
    bitsOf (1 : BitVec 24).toNat 1 0 ≠ 0 ∧ bitsOf (2 : BitVec 20).toNat 1 0 ≠ 0 ∧ free State.reset = true :=
  ⟨rfl, ⟨by decide, by decide⟩, by decide, by decide, by decide, by decide⟩
theorem witness_WritesLeaveSeqUnchanged : State.reset.phase = .ready ∧ bitsOf (0xC : BitVec 24).toNat 1 0 = 0 ∧
    bar0Key 0xC = some 3 ∧ bar4Key 0x180 = some 3 ∧ bitsOf (0x180 : BitVec 20).toNat 1 0 = 0 ∧ isSq 3 = true ∧ free State.reset = true := by decide
theorem witness_SequenceClearNeedsCurrentSeq : State.reset.phase = .ready ∧ Canonical State.reset ∧ bar0Key 0xC = some 3 ∧
    bar0Key 0x100C = some 3 ∧ isSq 3 = true ∧ fieldOf (0xFFFFFF : W32) 31 24 = fieldOf (getReg State.reset 3) 31 24 ∧
    fieldOf (0x1FFFFFF : W32) 31 24 ≠ fieldOf (getReg State.reset 3) 31 24 ∧ bitsOf (0x100C : BitVec 24).toNat 13 12 ≠ 0 ∧ free State.reset = true :=
  ⟨rfl, ⟨by decide, by decide⟩, by decide, by decide, by decide, by decide, by decide, by decide, by decide⟩
theorem witness_LowReadsLatchHighHalves : State.reset.phase = .ready ∧ Canonical State.reset ∧ free State.reset = true ∧
    bar0Key 0x30 = some GLB_TICK_LO_TICK.key ∧ bar4Key ((0x600 : BitVec 24).truncate 20) = some GLB_TICK_LO_TICK.key ∧
    bar0Key (BitVec.ofNat 24 (0x50000 + 4 * ((TTB_AX_POS_LO_VALUE 3).key - 0x500))) = some (TTB_AX_POS_LO_VALUE 3).key ∧
    bar0Key (BitVec.ofNat 24 (0x60000 + 4 * ((ETH_PTP_LO_NS 1).key - 0x600))) = some (ETH_PTP_LO_NS 1).key ∧
    bar0Key (BitVec.ofNat 24 (0x40000 + 4 * (PWR_RTC_LO_COUNT.key - 0x400))) = some PWR_RTC_LO_COUNT.key :=
  ⟨rfl, ⟨by decide, by decide⟩, by decide, by decide, by decide, by decide, by decide, by decide⟩

/-- Core 0 is in SHORT_STOP. -/
def stopped0 : State := putClk State.reset 0 { getClk State.reset 0 with stopped := true, changing := true, target := 127 }

theorem witness_StallTimeoutRecordedThreeWays : State.reset.phase = .ready ∧
    inStopped State.reset (bitsOf (0x100000 : BitVec 24).toNat 23 16 * 256) = false ∧
    inStopped stopped0 (bitsOf (0x100000 : BitVec 24).toNat 23 16 * 256) = true ∧ stopped0.phase = .ready ∧ Canonical stopped0 :=
  ⟨rfl, by decide, by decide, rfl, ⟨by decide, by decide⟩⟩
theorem witness_SnapWriteWhileBusyIgnored : ({ State.reset with snapAt := some 200 } : State).phase = .ready ∧
    ({ State.reset with snapAt := some 200 } : State).accessQ = [] ∧ bitOf (readReg { State.reset with snapAt := some 200 } GLB_SNAP_SNAP.key).toNat 1 = true := by decide
theorem witness_SnapshotsCopyEveryCounter : State.reset.snapAt = none ∧ State.reset.accessQ = [] ∧
    ({ State.reset with now := 199, snapAt := some 200 } : State).snapAt = some 200 ∧
    ({ State.reset with now := 199, snapAt := some 200 } : State).now < 200 ∧
    200 ≤ ({ State.reset with now := 200, snapAt := some 200 } : State).now := by decide

/-- Checking is on, and GLB_CFG_REF holds `v`. -/
def drifts (v : W32) : State := putReg (setF State.reset GLB_CFG_CTL_CHECK 1) 17 v

/-- GLB_CFG_REF is no part of the pass. -/
theorem drifts_crc (v : W32) : passCrc (drifts v) = passCrc (drifts 0) := by
  have h : passWord (drifts v) = passWord (drifts 0) := by
    funext key
    have hm : crcMask 17 = 0 := by decide
    by_cases hk : key = 17
    · simp [passWord, drifts, hk, hm]
    · simp [passWord, drifts, getReg_putReg, hk]
  unfold passCrc
  rw [h]

theorem witness_CrcPassServesCaptureAndChecks : ({ State.reset with captureNow := true } : State).phase = .ready ∧
    State.reset.accessQ = [] ∧ ∃ v, (drifts v).phase = .ready ∧ (drifts v).captureNow = false ∧ (drifts v).captureNext = false ∧
      flag (drifts v) GLB_CFG_CTL_CHECK = true ∧ passCrc (drifts v) ≠ getReg (drifts v) GLB_CFG_REF_REF.key ∧
      flag (drifts v) ERR_CTL_DRIFT_FAIL = false := by
  refine ⟨rfl, rfl, ?_⟩
  by_cases h : passCrc (drifts 0) = 0
  · exact ⟨1, rfl, rfl, rfl, by decide, by rw [drifts_crc, h]; decide, by decide⟩
  · exact ⟨0, rfl, rfl, rfl, by decide, by rw [show getReg (drifts 0) GLB_CFG_REF_REF.key = 0 by decide]; exact h, by decide⟩

/-- Berth A is active and on trial, its watchdog running; whether berth B is confirmed. -/
def trial (left : Nat) (b : Bool) : State :=
  let s := setAll State.reset [(GLB_BERTH_STAT_ACTIVE, 1), (GLB_BERTH_STAT_PREVIOUS, 2), (GLB_BERTH_STAT_TRIAL, 1)]
  { s with flash := { s.flash with wdog := some left, confirmedB := b } }

theorem witness_BerthsCommittedConfirmedAbandoned : (trial 1 true).phase = .ready ∧ (trial 1 true).flash.wdog = some (0 + 1) ∧
    getF (trial 1 true) GLB_BERTH_STAT_ACTIVE = 1 ∧ confirmed (trial 1 true) (getF (trial 1 true) GLB_BERTH_STAT_PREVIOUS) = true ∧
    confirmed (trial 1 false) (getF (trial 1 false) GLB_BERTH_STAT_PREVIOUS) = false ∧ (trial 0 true).flash.wdog = some 0 ∧
    State.reset.flash.wdog = none ∧ (trial 0 true).accessQ = [] := by decide

/-- Berth A is active, and GLB_XSPI_ADDR holds an address. -/
def flashAt (a : Nat) : State := setAll State.reset [(GLB_BERTH_STAT_ACTIVE, 1), (GLB_XSPI_ADDR_ADDR, a)]
/-- A flash operation runs. -/
def flashOp (op : Nat) : State := { State.reset with flash := { State.reset.flash with xspiOp := some (op, 0x10000, 0xF0) } }

theorem witness_FlashOperationsBeginAndEnd :
    (∀ a ∈ [0x4000000, 0x3FFFFFC], (flashAt a).phase = .ready ∧ (flashAt a).accessQ = [] ∧ (flashAt a).flash.xspiOp = none ∧ getF (flashAt a) GLB_XSPI_ADDR_ADDR = a ∧
      getF (flashAt a) GLB_BERTH_STAT_ACTIVE = 1) ∧ 0x4000000 ≥ berthBase 1 + berthSpan ∧ 0x3FFFFFC < berthBase 1 + berthSpan ∧
    0x4000000 / 65536 * 65536 ≥ berthBase 1 + berthSpan ∧ 0x3FFFFFC / 65536 * 65536 < berthBase 1 + berthSpan ∧
    (∀ op ∈ [0, 1, 2], (flashOp op).phase = .ready ∧ (flashOp op).flash.xspiOp = some (op, 0x10000, 0xF0)) := by decide

/-- Context 0 of `running`, changed. -/
def ctx0 (f : Ctx → Ctx) : State := putCtx running 0 (f (getCtx running 0))
/-- `running` with a field set. -/
def runningWith (l : List (RField × Nat)) : State := setAll running l

theorem witness_TailDoorbellsOfEveryContext :
    (∀ p ∈ [(0, 0, 63, true), (0, 0, 64, true), (5, 5, 4, true), (5, 9, 7, false)],
      let s := ctx0 (fun c => { c with sqHead := p.1, sqTail := p.2.1 })
      let n := sqSize s 0
      s.phase = .ready ∧ s.accessQ = [] ∧ (getCtx s 0).flushing = false ∧ flag s (HIF_CTX_CTL_CYCLIC 0) = false ∧ n = 64 ∧
      ((fieldOf (BitVec.ofNat 32 p.2.2.1) 11 0 % n + n - (getCtx s 0).sqTail) % n ≤
        ((getCtx s 0).sqHead + 2 * n - (getCtx s 0).sqTail - 1) % n ↔ p.2.2.2 = true)) ∧
    (getCtx (ctx0 (fun c => { c with flushing := true })) 0).flushing = true ∧
    (∀ l ∈ [[], [jobOf 0 .nop]],
      let s := setAll (withJobs l) [(HIF_CTX_CTL_CYCLIC 0, 1)]
      s.phase = .ready ∧ s.accessQ = [] ∧ (getCtx s 0).flushing = false ∧ flag s (HIF_CTX_CTL_CYCLIC 0) = true ∧
      (getCtx s 0).sqHead = (getCtx s 0).sqTail ∧ jobsOf s 0 = l) := by decide

theorem witness_HeadDoorbellPassesWrittenCompletions :
    (let s := ctx0 (fun c => { c with cqTail := 3 });
      s.phase = .ready ∧ s.accessQ = [] ∧ flag s (HIF_CTX_CTL_CQ_OVERWRITE 0) = false ∧ cqSize s 0 = 64 ∧
      (3 + 64 - (getCtx s 0).cqHead) % 64 ≤ ((getCtx s 0).cqTail + 64 - (getCtx s 0).cqHead) % 64 ∧
      ¬ (4 + 64 - (getCtx s 0).cqHead) % 64 ≤ ((getCtx s 0).cqTail + 64 - (getCtx s 0).cqHead) % 64) ∧
    flag (runningWith [(HIF_CTX_CTL_CQ_OVERWRITE 0, 1)]) (HIF_CTX_CTL_CQ_OVERWRITE 0) = true := by decide

/-- A descriptor of zeros, a NOP, stands at position 0 of context 0's ring; or kind 10, which is none. -/
def fetches (kind : Byte) : State :=
  let s := ctx0 (fun c => { c with sqTail := 1 })
  { s with mem := smWrite 0 s.mem 0x1100010000 [kind] }

theorem witness_DescriptorFetchTakesNextSubseq : canFetch State.reset 0 = false ∧
    ∀ p ∈ [((0 : Byte), none), (10, some 0)],
      let s := fetches p.1
      let u := runOp (readVa none 0 (sqVa s 0 (getCtx s 0).sqHead) 64 true) s
      s.phase = .ready ∧ canFetch s 0 = true ∧ (match u.1 with | .ok r => decide (descBad r = p.2) | .error _ => false) = true ∧
      inFlightRoom u.2 0 false = true ∧ (getCtx u.2 0).flushing = false ∧ (getCtx u.2 0).presented = [] ∧
      findJob u.2 0 (getCtx u.2 0).subseq = none ∧ s.raised = [] ∧
      (let j := newJob 0 (getCtx u.2 0).subseq (getCtx u.2 0).sqHead (parseDesc (p.1 :: zeros 63)) ⟨(getCtx u.2 0).sqHead, frameCounts u.2, u.2.writes, false⟩;
        posBad u.2 j = false ∧ waitsOnSelf u.2 j = false) := by decide

theorem witness_NopFenceAndWaitJobsComplete :
    (let s := withJobs [jobOf 0 .nop];
      s.phase = .ready ∧ findJob s 0 0 = some (jobOf 0 .nop)) ∧
    (let s := withJobs [{ jobOf 0 .fence with phase := .queued }];
      let j : Job := { jobOf 0 .fence with phase := .queued };
      findJob s 0 0 = some j ∧ mayStart s j = true ∧ commonEnabled s = true ∧ kindEnabled s j.desc.body = true ∧ isTurn s j = true ∧
        regionOpen s j.desc.body.unit = true ∧ earlierJobs s j = []) ∧
    (let s := putCtx (withJobs [jobOf 0 (.wait 0 1 4 0)]) 1 { getCtx running 1 with completed := 5 };
      findJob s 0 0 = some (jobOf 0 (.wait 0 1 4 0)) ∧ (4 : W32).toNat < (getCtx s 1).completed) ∧
    (let s := { withJobs [jobOf 0 (.wait 1 1 7 0)] with written := [(4096 + 7, 2 ^ 32 + 3)] };
      findJob s 0 0 = some (jobOf 0 (.wait 1 1 7 0)) ∧ smGet 0 s.written (1 * 4096 + 7) / 2 ^ 32 > (jobOf 0 (.wait 1 1 7 0)).writesSeen) ∧
    (let s := setAll (withJobs [jobOf 0 (.wait 2 3 1 0)]) [(CAP_CH_FRAMES_COUNT 3, 1)];
      (getReg s (CAP_CH_FRAMES_COUNT 3).key - (jobOf 0 (.wait 2 3 1 0)).frames.getD 3 0).toNat ≥ 1) ∧
    (let s := withJobs [jobOf 0 (.wait 3 0 0 0)];
      (s.world.word - (0 : W32)).toNat < 2 ^ 31) ∧
    (let s := { withJobs [jobOf 0 (.wait 3 0 1 2)] with now := 200 };
      findJob s 0 0 = some (jobOf 0 (.wait 3 0 1 2)) ∧ s.now ≥ (jobOf 0 (.wait 3 0 1 2)).startedAt + 100 * 2 ∧
        (waitState s (jobOf 0 (.wait 3 0 1 2))).1 = false) ∧
    (withJobs [jobOf 0 (.wait 3 0 1 2)]).now < (jobOf 0 (.wait 3 0 1 2)).startedAt + 100 * 2 := by decide

/-- A job of context 0 that is done. -/
def doneJob : Job := { jobOf 0 .nop with phase := .done }

theorem witness_CompletionWrittenForOldestDoneJob :
    let s := withJobs [doneJob]
    let s1 := (jobsOf s 0).foldl writeList s
    s.phase = .ready ∧ s.raised = [] ∧ jobsOf s1 0 = doneJob :: [] ∧ doneJob.settled = true ∧ recordWaits s1 doneJob = false ∧
    isOk (runOp (writeVa none 0 (cqVa s1 0 (getCtx s1 0).cqTail) (completionBytes doneJob (getCtx s1 0).cqPhase)
      true false (0, 0)) s1).1 = true ∧ (getCtx s1 0).stopping = false := by decide +kernel

theorem witness_CoalescingTimeoutAndMirrorDrop :
    (let s := setAll { ctx0 (fun c => { c with irqSince := some 0 }) with now := 100 } [(HIF_CTX_IRQ_US 0, 1)];
      s.phase = .ready ∧ (getCtx s 0).irqSince = some 0 ∧ getF s (HIF_CTX_IRQ_US 0) ≠ 0 ∧ s.now ≥ 0 + 100 * getF s (HIF_CTX_IRQ_US 0) ∧
        msixBlocked s 0 = true) ∧
    (let s := setAll { State.reset with msixTable := [(3, 0)] } [(HIF_STAT_LINK_UP, 1)];
      msixBlocked s 0 = false) ∧
    (∀ now ∈ [899, 900],
      let s : State := { ctx0 (fun c => { c with mirrorWait := [(0, [], 0)] }) with now := now }
      s.phase = .ready ∧ (getCtx s 0).mirrorWait = (0, [], 0) :: [] ∧ (s.now < 0 + 900 ↔ now = 899)) := by decide

theorem witness_ContextFlushDisableEnable :
    (let s := withJobs [jobOf 0 .nop, { jobOf 1 .nop with phase := .queued }];
      s.phase = .ready ∧ s.accessQ = [] ∧ flag s (HIF_CTX_CTL_EN 0) = true ∧ findJob s 0 1 = some { jobOf 1 .nop with phase := .queued } ∧
        ({ jobOf 1 .nop with phase := .queued } : Job).unstarted = true) ∧
    flag running (HIF_CTX_CTL_EN 1) = false ∧ (getCtx running 1).stopping = false := by decide

theorem witness_CopyAndFillJobsCompleteOk :
    ∀ b ∈ [JobBody.copy 0x30004 0x40001 16 false, .fill 0x40001 16 0x1122334455667788],
      let s := withJobs [jobOf 0 b]
      s.phase = .ready ∧ s.raised = [] ∧ findJob s 0 0 = some (jobOf 0 b) ∧ (jobOf 0 b).phase = .running ∧
      (jobOf 0 b).pendingMoors = [] ∧ (jobOf 0 b).desc.manifest = false ∧ b.copyRange = (0x40001, 16) ∧
      (let u := runOp (eachOp (fun p => copyBurst 0 0 b (p.1 - 0x40001) p.2) (bursts (0x40001 + 0) (16 - 0))) s;
        isOk u.1 = true ∧ (findJob u.2 0 0).map Job.desc = some (jobOf 0 b).desc ∧ (findJob u.2 0 0).map Job.isDone = some false) := by
  decide +kernel

theorem witness_WorldJobCommitsOneGeneration :
    let j := jobOf 0 (.world 0x30000 0)
    let s := withJobs [j]
    s.phase = .ready ∧ s.raised = [] ∧ findJob s 0 0 = some j ∧ j.phase = .running ∧ j.pendingMoors = [] ∧
    (let u := runOp (mergeRecords (some (0, 0)) 0 0 0x30000 ⟨[], (presentBricks s.world).length⟩) s;
      isOk u.1 = true ∧ (findJob u.2 0 0).map Job.isDone = some false) := by decide +kernel

/-- A request of a kind for chain 0, which has no description yet, with its result at 0x38000. -/
def planReq (kind : Nat) : List Byte :=
  natLE 4 kind ++ natLE 4 2 ++ natLE 4 0x3F800000 ++ natLE 4 0x3F800000 ++ natLE 4 0x3F800000 ++ natLE 4 0 ++ natLE 4 0x38000 ++ zeros 100

/-- A PLAN job of that request runs. -/
def plans (kind : Nat) : State :=
  let s := withJobs [jobOf 0 (.plan 0x30000)]
  { s with mem := smWrite 0 s.mem 0x1100030000 (planReq kind) }

/-- The state the search of that job ends in, and the outcome noted there. -/
def planned (kind : Nat) : Option State :=
  let s := plans kind
  let s1 := (runOp (readVa (some (0, 0)) 0 0x30000 128 false) s).2
  let s0 := updJob s1 0 0 (fun y => { y with
    progress := if requestOk (planReq kind) then recNat (planReq kind) 1 1 + 1 else 0, hostWait := none })
  match runOp (if requestPlace s0 0 0x30000 then planRequest 0 0 0 (planReq kind) else pure (some (planEnd 7 0 0, 0))) s0 with
  | (.ok (some (e, q)), s2) => some (noteOutcome s2 ⟨0, 0, 0, [], [], 0, planReq kind⟩ (planReq kind) e q)
  | _ => none

theorem witness_PlanJobsWriteResultAndComplete : ∀ kind ∈ [0, 1, 2, 3, 4],
    let s := plans kind
    let j := jobOf 0 (.plan 0x30000)
    s.phase = .ready ∧ s.raised = [] ∧ findJob s 0 0 = some j ∧ requestOf s j = some (planReq kind) ∧ j.phase = .running ∧
    j.pendingMoors = [] ∧ j.planned = none ∧
    chainBusy s j (recNat (planReq kind) 1 1) = false ∧ recNat (planReq kind) 0 1 = kind ∧
    (match planned kind with
      | some v => match findJob v 0 0 with
        | some y => match y.planned with
          | some d =>
            let u := runOp (writeVa (some (0, 0)) 0 (recNat (planReq kind) 24 4) d.record false true (0, 0)) v
            !y.isDone && isOk u.1 && decide ((findJob u.2 0 0).map Job.isDone = some false)
          | none => false
        | none => false
      | none => false) = true := by decide +kernel

theorem witness_SelfTestsRunAndComplete : ∀ n ∈ [0, 1, 2, 3, 4, 5, 6],
    let j := jobOf 0 (.test n (if n = 0 then 3 else 4) 0x800000 0x1000)
    let s := setF (withJobs [j]) (HIF_CTX_CTL_EN 0) 0
    s.phase = .ready ∧ s.raised = [] ∧ findJob s 0 0 = some j ∧ j.phase = .running ∧ testHolds s j.desc.body.unit = [] ∧ testAllowed s = true ∧
    testRangeFree s n (if n = 0 then 3 else 4) 0x800000 0x1000 = true := by decide +kernel

/-- An image that declares all of a core's pool, 24 slots of each array, four row calderas and one argument. -/
def anImage : Image := ⟨[], ⟨0, 0x3800000, 0xF, 24, 4, 1, 0, 0, 0, 0, 0, 0⟩, [⟨1, 0, 0, 0, [4, 4], 0⟩], [], [], []⟩

/-- A RUN job that has been checked, with its section's steps. -/
def runOf (steps : List StepRec) : Job :=
  { jobOf 0 (.run 0x30000 0 0x38000) with
    unit := 0, run := some ⟨0, 0, [], steps.length, 0x32000, anImage, 0, [0x40000], [], 0, none, 0, 0, some (0, steps), 0⟩ }

/-- `running` with core 0 and its arrays enabled. -/
def arrays : State := runningWith [(CORE_CTL_ENABLE 0, 1), (CORE_CTL_ARR_EN 0, 0xF)]

/-- A RUN job waits for its placement: its image declares the arrays `m`. -/
def places (m : Nat) : Job :=
  { runOf [] with
    phase := .queued, unit := 0xFF
    run := some ⟨4, 0, [], 0, 0x32000, { anImage with decl := { anImage.decl with arrays := m } }, 0, [0x40000], [], 0, none, 0, 0, none, 0⟩ }

/-- A RUN job of a cached image, not yet checked. -/
def unchecked (m : Nat) : State :=
  let s := { arrays with jobs := [{ places m with run := none }] }
  { s with
    mem := smWrite 0 s.mem 0x1100030000 (natLE 4 0x3153424E ++ natLE 2 1)
    images := [⟨0, 0x30000, { anImage with decl := { anImage.decl with arrays := m } }, [(0x2000, 1)], [], [], []⟩] }

/-- Where the RUN job of `unchecked` can go once its image and arguments have been read. -/
def admitted (m : Nat) : Option (Placement × Bool) :=
  match runOp (admitImage 0 0 0x30000 0) (unchecked m) with
  | (.ok (im, va, nsteps, needs), s1) =>
    match runOp (readArgs 0 0 0x38000 im.decl.args) s1 with
    | (.ok l, s2) =>
      let s3 := updJob s2 0 0 (fun x => { x with run := some ⟨4, 0, [], nsteps, va, im, needs, l, [], 0, none, 0, 0, none, 0⟩, hostWait := none })
      match findJob s3 0 0 with
      | some x => some (placement s3 0 x.desc.units im,
          !x.isDone && isNext s3 (corePerformer 0) x (rivalFor s3 0) && coreEnabled s3 0 needs)
      | none => none
    | _ => none
  | _ => none

theorem witness_RunJobsArePlacedOrDoNotFit :
    (let s := { arrays with jobs := [places 0xF] };
      s.phase = .ready ∧ s.raised = [] ∧ findJob s 0 0 = some (places 0xF) ∧ mayStart s (places 0xF) = true ∧ commonEnabled s = true ∧
      placement s 0 (places 0xF).desc.units { anImage with decl := { anImage.decl with arrays := 0xF } } = .at 0 ∧
      isNext s (corePerformer 0) (places 0xF) (rivalFor s 0) = true ∧ coreEnabled s 0 0 = true) ∧
    (let s := { arrays with jobs := [places 0x1F] };
      mayStart s (places 0x1F) = true ∧
      placement s 0 (places 0x1F).desc.units { anImage with decl := { anImage.decl with arrays := 0x1F } } = .noFit 1) ∧
    (let j := { places 0xF with run := none };
      findJob (unchecked 0xF) 0 0 = some j ∧ mayStart (unchecked 0xF) j = true ∧ j.run = none) ∧
    admitted 0xF = some (.at 0, true) ∧ (admitted 0x1F).map Prod.fst = some (.noFit 1) := by decide +kernel

/-- The MOOR job 9 of context 0 names job 1. -/
def moorOf : Job := jobOf 9 (.moor 0 1 false)

theorem witness_MoorJobsReachTheirTarget :
    (withJobs [moorOf]).phase = .ready ∧ findJob (withJobs [moorOf]) 0 9 = some moorOf ∧ findJob (withJobs [moorOf]) 0 1 = none ∧
    (∀ x ∈ [(jobOf 1 .nop, true), (jobOf 1 (.fill 0 8 0), false), ({ jobOf 1 (.fill 0 8 0) with phase := .done }, false),
        ({ jobOf 1 (.fill 0 8 0) with phase := .queued }, false)],
      findJob (withJobs [x.1, moorOf]) 0 1 = some x.1 ∧ findJob (withJobs [x.1, moorOf]) 0 9 = some moorOf ∧
      x.1.desc.body.neverMoors = x.2) ∧ ¬ (0 = (0 : Fin 8).val ∧ (1 : W32) = 9) := by decide +kernel

/-! ### Steps -/

/-- A step record from its non-zero bytes, each as an offset and a value. -/
def recOf (l : List (Nat × Nat)) : StepRec := natLE 32 (l.foldl (fun x p => x + p.2 * 2 ^ (8 * p.1)) 0)

/-- The job of `runOf` runs on core 0, which is otherwise as `f` leaves it. -/
def onCore (steps : List StepRec) (f : Core → Core) : State :=
  let s := { arrays with jobs := [runOf steps] }
  putCore s 0 (f { Core.reset with running := some (0, 0), resident := [(0, 0)] })

/-- The sequencer of the core stands at a step that `accepts`, in a block it has entered. -/
def stands (s : State) (c : Nat) (accepts : StepRec → Bool) : Bool :=
  match coreJob s c with
  | some (_, r) => match r.block with
    | some (m, recs) => decide (r.pc < r.nsteps) && decide (m = r.pc / 64) && accepts (recs.getD (r.pc % 64) [])
    | none => false
  | none => false

/-- What that step works with. -/
def envOf (s : State) (c : Nat) : Env :=
  match coreJob s c with
  | some (j, r) =>
    let recs := match r.block with
      | some (_, recs) => recs
      | none => []
    envFor j r c ⟨(getCore s c).issued, r.pc, recs.getD (r.pc % 64) [], (getCore s c).time.clock, 0⟩
  | none => ⟨0, 0, c, 0, [], 0, anImage, [], 0, 0, 0, 0⟩

/-- The state that step works in. -/
def atStep (s : State) (c : Nat) : State :=
  match coreJob s c with
  | some (j, r) => updRun (putCore s c { getCore s c with seqStep := r.pc }) j.ctx j.sub (fun r => { r with stepAt := r.pc })
  | none => s

theorem stands_at (s : State) (c : Nat) (accepts : StepRec → Bool) (h : stands s c accepts = true) :
    StandsAt s c accepts (envOf s c) (atStep s c) := by
  unfold stands at h
  split at h
  next j r hj =>
    split at h
    next m recs hb =>
      simp only [Bool.and_eq_true, decide_eq_true_eq] at h
      obtain ⟨⟨hpc, hm⟩, ha⟩ := h
      refine ⟨j, r, recs.getD (r.pc % 64) [], s, hj, hpc, ?_, ha, ?_, ?_⟩
      · simp [fetchStep, hb, hm, runOp]; rfl
      · simp [atStep, hj]
      · simp [envOf, hj, hb]
    next => cases h
  next => cases h

/-- Records of steps that work, and of steps that break R497 in their reserved byte 31 or their FORMAT. -/
def goodRecs : List (StepRec × (Env → Op Unit)) :=
  (recOf [(0, 11), (12, 7)], signalStep) ::
  (List.range 12).map (fun op => (recOf [(0, 4), (1, op), (3, 9), (4, 9), (24, 2), (8, 0), (12, 8), (20, 64)], vecStep)) ++
    [(recOf [(0, 4), (1, 12), (3, 9), (24, 2)], rowAdd), (recOf [(0, 4), (1, 13), (20, 64)], rowRead),
     (recOf [(0, 8), (1, 0), (2, 9), (3, 9), (16, 2)], transferStep false), (recOf [(0, 7), (1, 0), (2, 9), (3, 9), (16, 2)], transferStep true)]

/-- The record with byte 31 set. -/
def spoilt (l : List (Nat × Nat)) : StepRec := recOf ((31, 1) :: l)

theorem witness_WorkingStepsGoOn :
    (∀ op ∈ List.range 14, stands (onCore [recOf [(0, 4), (1, op)]] id) 0 (isVec op) = true) ∧
    (∀ p ∈ goodRecs,
      let s := onCore [p.1] id
      let e := envOf s 0
      s.phase = .ready ∧ s.raised = [] ∧ queuedOf (getCore (atStep s 0) 0) (stepClass e.r) < 8 ∧
      mustWait (getCore (atStep s 0) 0) (getCore (atStep s 0) 0).queue e.r = false ∧
      digestRoom (issueStep (atStep s 0) e) e e.issued = true ∧ isOk (runOp (p.2 e) (acting e (atStep s 0))).1 = true) ∧
    (∀ p ∈ [(0, 0), (5, 0), (6, 0), (12, 1)], stands (onCore [recOf [(0, p.1), (2, p.2)]] id) 0
      (fun r => decide (stepOp r = p.1)) = true) ∧
    (∀ l ∈ [0, 1, 2, 3], stands (onCore [recOf [(0, 8), (1, l)]] id) 0 (isDma l) = true) ∧
    (∀ l ∈ [0, 3], stands (onCore [recOf [(0, 7), (1, l)]] id) 0 (isStore l) = true) ∧
    (∀ work ∈ [vecStep, rowAdd, rowRead, geyserStep, quantStep, surveyPool],
      let s := onCore [spoilt [(0, 4)]] id
      (match (runOp (work (envOf s 0)) (acting (envOf s 0) (atStep s 0))).1 with
        | .error (.fail 6 none 0) => true
        | .error (.fail 6 (some 0) 0) => true
        | _ => false) = true) := by decide +kernel

/-- Eight SWAPs wait. -/
def fullQueue : List Issued := (List.range 8).map (fun n => ⟨n, 0, recOf [(0, 1), (1, 1)], 0, 0⟩)
/-- Core 0 with these steps issued and not done. -/
def queued (l : List Issued) (x : Core) : Core := { x with queue := l, issued := 8 }

/-- No issued step of the LOAD, ARRAY and READOUT classes can act. -/
def noneActs (s : State) (e : Env) : Bool := (actable (getCore s e.c) (fun m => decide (m ≤ 2)) (tileReady s e)).isNone

theorem witness_ArrayStepsTakeEffectOrQueue :
    (∀ p ∈ [(recOf [(0, 0), (1, 1)], fun r => decide (stepOp r = 0)), (recOf [(0, 1), (1, 1)], fun r => decide (stepOp r = 1)),
        (recOf [(0, 2)], fun r => decide (stepOp r = 2) && !(bitOf (recNat r 2 1) 0)),
        (recOf [(0, 2), (2, 1)], fun r => decide (stepOp r = 2) && bitOf (recNat r 2 1) 0),
        (recOf [(0, 3)], fun r => decide (stepOp r = 3)),
        (recOf [(0, 12)], fun r => decide (stepOp r = 12) && !(bitOf (recNat r 2 1) 0))],
      stands (onCore [p.1] id) 0 p.2 = true) ∧
    (∀ p ∈ [(1, [(0, true)], true, none), (3, [(0, true)], false, none), (16, [], false, some 6)],
      let s := onCore [recOf [(0, 1), (1, p.1)]] (fun x => { x with shadowFull := p.2.1 })
      let e := envOf s 0
      let w := runOp (performTile e) (acting e (atStep s 0))
      s.phase = .ready ∧ s.raised = [] ∧ (getCore (atStep s 0) 0).queue = [] ∧
      tileReady (issueStep (atStep s 0) e) e e.issued = true ∧
      (match w.1 with
        | .ok done => decide (done = p.2.2.1 ∧ p.2.2.2 = none)
        | .error (.fail st _ _) => decide (p.2.2.2 = some st) && (findJob w.2 e.k e.sub).any (fun x => !x.isDone)
        | _ => false) = true ∧
      (noneActs w.2 e = true ∨ p.1 ≠ 3)) ∧
    (∀ q ∈ [([], true), (fullQueue.take 7, true), (fullQueue, false)],
      let s := onCore [recOf [(0, 1), (1, 1)]] (queued q.1)
      let e := envOf s 0
      stands s 0 (fun r => decide (stepOp r = 1)) = true ∧ (queuedOf (getCore (atStep s 0) 0) (stepClass e.r) < 8 ↔ q.2 = true) ∧
      noneActs (if q.2 then issueStep (atStep s 0) e else atStep s 0) e = true) := by decide +kernel

/-- The job stands at a JUMP, with counter 7 at `n`. -/
def jumps (rec : StepRec) (n : W32) : State :=
  let s := onCore [rec, rec] id
  updRun s 0 0 (fun r => { r with counters := smPut 0 r.counters 7 n })

theorem witness_JumpsMoveTheSequencer :
    (∀ p ∈ [(0, 1), (1, 2), (1, 1), (2, 0)],
      let s := jumps (recOf [(0, 14), (1, p.1), (2, 7), (4, 1), (8, 5)]) p.2
      s.phase = .ready ∧ stands s 0 (isJump p.1) = true ∧ (coreJob (atStep s 0) 0).isSome = true ∧ jumpOk (envOf s 0) = true ∧
      (envOf s 0).f 1 1 = p.1 ∧ ((coreJob (atStep s 0) 0).map (fun q => smGet 0 q.2.counters 7)) = some p.2) := by decide +kernel

theorem witness_WaitStepsPassStayOrTimeOut :
    (let s := onCore [recOf [(0, 10)]] id;
      s.phase = .ready ∧ stands s 0 (isOp 10) = true ∧ waitFieldsOk (envOf s 0).r = true ∧
      classesBusy (getCore (atStep s 0) 0) ((envOf s 0).f 1 1) = false ∧ (envOf s 0).f 2 1 = 0) ∧
    (let s := onCore [recOf [(0, 10), (2, 1)]] id;
      waitFieldsOk (envOf s 0).r = true ∧ (envOf s 0).f 2 1 = 1 ∧
      (let a := runOp ((envOf s 0).extAddr (extAt (envOf s 0).r 4)) (atStep s 0);
        (match a.1 with
          | .ok a' => match (runOp (readVa (envOf s 0).who 0 a' 4 false) a.2).1 with
            | .ok b => reaches (BitVec.ofNat 32 (recNat b 0 4)) (BitVec.ofNat 32 ((envOf s 0).f 12 4))
            | .error _ => false
          | .error _ => false) = true)) ∧
    (let s := onCore [recOf [(0, 10), (1, 2)]] (queued fullQueue);
      stands s 0 (isOp 10) = true ∧ classesBusy (getCore (atStep s 0) 0) ((envOf s 0).f 1 1) = true ∧
      waitFieldsOk (envOf s 0).r = true ∧
      (findJob (atStep s 0) 0 0).map (fun j => j.run.map RunState.waitFrom) = some (some 0)) ∧
    (let w := recOf [(0, 10), (16, 1)];
      let s := updRun { onCore [w] id with now := 100 } 0 0 (fun r => { r with waitFrom := 1 });
      (coreJob s 0).map (fun q => (q.2.record, q.2.waitFrom)) = some (some w, 1) ∧ isOp 10 w = true ∧ waitFieldsOk w = true ∧
        recNat w 16 4 ≠ 0 ∧ s.now + 1 ≥ 1 + 100 * recNat w 16 4) := by
  decide +kernel

theorem witness_SignalFenceMoorPointEnd :
    (let s := onCore [recOf [(0, 11), (12, 7)]] (queued fullQueue);
      let e := envOf s 0;
      s.phase = .ready ∧ s.raised = [] ∧ stands s 0 (isOp 11) = true ∧ (findJob (atStep s 0) e.k e.sub).isSome = true ∧
      (getCore (atStep s 0) 0).queue.any (fun q => decide (q.no < e.no)) = true ∧ queuedOf (getCore (atStep s 0) 0) (some 5) < 8 ∧
      (actable (getCore (issueStep (atStep s 0) e) 0) (fun m => decide (3 ≤ m)) (fun q => isOp 11 q.r)).isNone = true) ∧
    (∀ op ∈ [13, 15], let s := onCore [recOf [(0, op)]] (queued fullQueue)
      stands s 0 (isOp op) = true ∧ onlyUses (envOf s 0).r [] = true ∧ (getCore (atStep s 0) 0).queue ≠ []) ∧
    (∀ p ∈ [(13, []), (9, [1]), (15, [])], let s := onCore [recOf [(0, p.1)]] id
      stands s 0 (isOp p.1) = true ∧ onlyUses (envOf s 0).r p.2 = true ∧ (envOf s 0).f 1 1 < 2 ∧ (getCore (atStep s 0) 0).queue = [] ∧
      (findJob (atStep s 0) 0 0).map (fun j => (j.pendingMoors, j.desc.manifest, j.isDone)) = some ([], false, false)) := by decide +kernel

/-- Core 0 with table words at 0 to 2, and 3 in working register G0 of Geyser 0. -/
def geyCore : State :=
  putCore State.reset 0 { Core.reset with
    geyTable := smWrite 0 [] 0 (natLE 4 0x3F800000 ++ natLE 4 0x40000000 ++ natLE 4 0x40400000)
    geysers := [(0, { Geyser.reset with g := [(0, valOf (qInt 3))] })] }

theorem witness_GeyserStepsWriteTheirRegister :
    geyCore.phase = .ready ∧ (match gReg (smGet Geyser.reset (getCore geyCore 0).geysers 0).g 0 with | .fin _ => true | _ => false) = true ∧
    (∀ i ∈ [0, 1, 2], (tableWord (getCore geyCore 0) i).isSome = true) ∧
    tableWord (getCore geyCore 0) (0xFFF : BitVec 12).toNat = none ∧
    (let a := gReg (smGet Geyser.reset (getCore geyCore 0).geysers 0).g 0;
      (∀ i ∈ [0, 4092], (tableWord (getCore geyCore 0) (i + (if heldInt a < 0 then 0 else min (heldInt a).toNat 1023))).isSome = decide (i = 0))) := by decide +kernel

/-! ### Mooring, errors, link -/

/-- A fault record with no job waits on context 0, whose ring's tail is at `t`. -/
def faultAt (t : Nat) : State := ctx0 (fun c => { c with faultWait := [⟨zeros 32, none⟩], frTail := t })

theorem witness_RecordsWrittenInOrder :
    (∀ p ∈ [(63, 0), (62, 1), (0, 63)], (faultAt p.1).phase = .ready ∧ (faultAt p.1).raised = [] ∧ frFree (faultAt p.1) 0 = p.2) ∧
    (let s := faultAt 62;
      let u := runOp (writeVa none 0 (frVa s 0 + 32 * (getCtx s 0).frTail) (withPhase (zeros 32) 1 (getCtx s 0).frPhase) true false (0, 0)) s;
      isOk u.1 = true ∧ u.2.raised = []) ∧
    Canonical (faultAt 63) ∧
    (∀ t ∈ [62, 63],
      let s := setF { State.reset with errWait := [⟨zeros 32, 0, none⟩] } ERR_RING_PTR_TAIL t
      ((getF s ERR_RING_PTR_TAIL + 1) % errRingSize s = getF s ERR_RING_PTR_HEAD % errRingSize s ↔ t = 63) ∧
        getF s ERR_RING_BASE_OFFSET * 4096 + 32 * getF s ERR_RING_PTR_TAIL + 32 ≤ basinSize) ∧
    (∀ full ∈ [0, 1], flag (setF { State.reset with errWait := [⟨zeros 32, 0, none⟩] } ERR_EVENT_RING_FULL full) ERR_EVENT_RING_FULL = decide (full = 1)) ∧
    Canonical (setF { State.reset with errWait := [⟨zeros 32, 0, none⟩] } ERR_RING_PTR_TAIL 62) :=
  ⟨by decide +kernel, by decide +kernel, ⟨by decide, by decide⟩, by decide +kernel, by decide +kernel, ⟨by decide, by decide⟩⟩

/-- A job that a fault moored. -/
def mooredJob : Job := { jobOf 0 (.copy 0x30004 0x40001 16 false) with phase := .moored .fault, unit := 8, faultSeq := 7 }
/-- A RUN job whose core another resident job waits for. -/
def ranOut : State :=
  let s := onCore [recOf [(0, 15)]] (fun x => { x with resident := [(0, 0), (0, 1)] })
  { setAll s [(HIF_CTX_CTL_ADMIT 0, 1), (HIF_CTX_QUANTUM_US 0, 1)] with now := 100, jobs := s.jobs ++ [{ runOf [] with sub := 1 }] }

theorem witness_MooredJobsCastOff :
    (let s := withJobs [mooredJob];
      s.phase = .ready ∧ s.accessQ = [] ∧ findJob s 0 (BitVec.ofNat 32 (getF s MMU_CAST_SUBSEQ_SUBSEQ)) = some mooredJob ∧
      (getCtx s 0).faultWait = [] ∧ mooredJob.poisonList = none ∧ mooredJob.run = none ∧ unitFree s mooredJob = true ∧ mooredJob.unit ≠ 0xFF) ∧
    (let j := { mooredJob with poisonList := some false };
      findJob (withJobs [j]) 0 0 = some j ∧ j.phase = .moored .fault ∧ j.poisonList ≠ none) ∧
    findJob running 0 (BitVec.ofNat 32 (getF running MMU_CAST_SUBSEQ_SUBSEQ)) = none ∧
    (let j := { mooredJob with phase := .moored .test };
      let s := withJobs [j];
      findJob s 0 0 = some j ∧ j.bySlice = true ∧ j.poisonList = none ∧ j.run = none ∧ unitFree s j = true ∧ j.unit ≠ 0xFF) ∧
    (let s := ranOut;
      (getCore s 0).running = some (0, 0) ∧ (findJob s 0 0).map (fun j => j.run.map RunState.ranSince) = some (some 0) ∧
      flag s (HIF_CTX_CTL_ADMIT 0) = true ∧ (getCore s 0).resident.any (waitsTurn s 0) = true ∧
      s.now ≥ 0 + 100 * max 1 (getF s (HIF_CTX_QUANTUM_US 0))) ∧
    Canonical (withJobs [mooredJob]) :=
  ⟨by decide +kernel, by decide +kernel, by decide +kernel, by decide +kernel, by decide +kernel, ⟨by decide, by decide⟩⟩

theorem witness_InvalidateAndRootWriteForgetImages :
    (∀ size ∈ [0, 1, 2, 3], (setF running MMU_INV_CTL_SIZE size).phase = .ready ∧ (setF running MMU_INV_CTL_SIZE size).accessQ = [] ∧ getF (setF running MMU_INV_CTL_SIZE size) MMU_INV_CTL_SIZE = size) ∧
    getReg running (MMU_CTX_ROOT_HI_ADDR 0).key ≠ 0 ∧ getReg running (MMU_CTX_ROOT_LO_ADDR 0).key ≠ 0xFFFFFFFF &&& 0xFFFFF001 ∧
    (findJob (withJobs [jobOf 0 .nop]) 0 0).isSome = true := by decide +kernel

/-- An injection is armed; window 0 is open, or not, while tests are held back in it. -/
def armed (x : Option (Nat × Nat)) (at_ : Option Nat) (win : Option Nat) : State :=
  let s := setF State.reset MMU_CTL_TEST_DEFER 1
  { s with inject := x, injectAt := at_, rtio := { s.rtio with windows := [(0, win)] } }

theorem witness_InjectionsArmAndAct :
    (∀ p ∈ [(8, 0), (8, 8), (2, 0), (2, 5)],
      let s := setAll State.reset [(ERR_INJECT_SOURCE, p.1), (ERR_INJECT_UNIT, p.2)]
      s.phase = .ready ∧ free s = true ∧ s.inject = none ∧ getF s ERR_INJECT_SOURCE = p.1 ∧ getF s ERR_INJECT_UNIT = p.2) ∧
    (armed (some (8, 3)) none none).inject.isSome = true ∧ testAllowed (armed (some (8, 3)) none none) = true ∧
    testAllowed (armed (some (1, 3)) (some 64) none) = true ∧ (armed (some (1, 3)) (some 64) none).injectAt = some 64 ∧
    testAllowed (armed none none (some 1)) = false ∧ 
    (∀ now ∈ [899, 900],
      let s : State := { State.reset with errMirror := [(0, [], 0)], now := now }
      s.errMirror = (0, [], 0) :: [] ∧ (0 + 900 ≤ s.now ↔ now = 900)) := by
  decide +kernel

/-- A job waits for the link since tick 0. -/
def waitsHost (now : Nat) : State := { withJobs [{ jobOf 0 (.fill 0 8 0) with hostWait := some (0x1000, 0) }] with now := now }

theorem witness_CrossingsReinitAndLinkErrors :
    (let s := State.reset;
      s.phase = .ready ∧ (0 : Fin 9) ≠ 8 ∧ free s = true ∧ (getClk s 0).stretched = false ∧ (getClk s 8).stretched = false ∧
      promote s 0 2 = 2 ∧ s.parityFlip.contains 8 = false ∧ bitOf (getF s ERR_REGION_STAT_REINIT) 8 = false) ∧
    (let s : State := { State.reset with ferry := [(0 * 16 + 8, 4)] }; launchHeld s 0 8 = true) ∧
    (let s := putClk State.reset 8 { getClk State.reset 8 with stopped := true };
      launchHeld s 0 8 = false ∧ (getClk s 8).stopped = true) ∧
    bitOf (getF (setF State.reset ERR_REGION_STAT_REINIT 0x100) ERR_REGION_STAT_REINIT) 8 = true ∧
    (let s := waitsHost 5000000;
      findJob s 0 0 = some { jobOf 0 (.fill 0 8 0) with hostWait := some (0x1000, 0) } ∧
      (jobOf 0 (.fill 0 8 0)).isDone = false ∧ flag s HIF_STAT_LINK_UP = false ∧ s.now ≥ 0 + 5000000) := by decide +kernel

theorem witness_LinkConfigurationAndMessageTable :
    State.reset.phase = .ready ∧ State.reset.accessQ = [] ∧ flag (setF State.reset HIF_STAT_LINK_UP 1) HIF_STAT_LINK_UP = true ∧
    (let s := { ctx0 (fun c => { c with mirrorWait := [(0, [], 0)] }) with errMirror := [(0, [], 0)], now := 1100 };
      s.phase = .ready ∧ (∀ k, k < 8 → ∀ p ∈ (getCtx s k).mirrorWait, s.now ≤ p.2.2 + 1100) ∧ ∀ p ∈ s.errMirror, s.now ≤ p.2.2 + 1100) ∧
    ({ State.reset with phase := .starting false 1 } : State).phase = .starting false 1 ∧
    0x8000 ≤ (0x8000 : BitVec 16).toNat ∧ (0x83FC : BitVec 16).toNat < 0x8400 :=
  ⟨by decide, by decide, by decide, by decide, by decide, by decide, by decide⟩

/-- A granule is latent with `n` flipped bits, or marked. -/
def patrols (g n : Nat) (marked : Bool) : State :=
  { setF State.reset BSN_SCRUB_CTL_SCRUB_EN 1 with latent := [(g, n)], poison := if marked then [g] else [] }

theorem witness_PatrolRefreshAndHotReports :
    (∀ p ∈ [(poolBase 0, some (MemKind.pool 0)), (poolBase 3 + poolSize - 1, some (.pool 3)), (basinBase, some .basin),
        (basinBase + basinSize - 1, some .basin), (storeBase, some .store), (0, some .hbm)],
      p.1 < 2 ^ 40 ∧ memKind p.1 = p.2 ∧ memKind p.1 = memKind (p.1 / 8 * 8) ∧ populated p.1 = true ∧
      (∀ n ∈ [0, 1, 2, 3],
        let s := patrols (p.1 / 8 * 8) n false
        s.phase = .ready ∧ flag s BSN_SCRUB_CTL_SCRUB_EN = true ∧ s.poison.contains (p.1 / 8 * 8) = false ∧
        smGet 0 s.latent (p.1 / 8 * 8) = n)) ∧
    (patrols 0 1 true).poison.contains 0 = true ∧ populated 0x800000000 = false ∧
    flag (setF State.reset BSN_SCRUB_CTL_SCRUB_EN 0) BSN_SCRUB_CTL_SCRUB_EN = false ∧
    (1360 : BitVec 16).toInt ≥ 1360 ∧ (1359 : BitVec 16).toInt < 1360 := by decide +kernel

/-! ### The timetable -/

/-- Axis 0 has the source, on channel 0, with INCR 5; other fields as given. -/
def axis0 (src : Nat) (l : List (RField × Nat)) : State :=
  setAll State.reset ([(TTB_AX_CFG_SOURCE 0, src), (TTB_AX_CFG_CHANNEL 0, 0), (TTB_AX_INCR_INCR 0, 5), (TTB_CTL_TT_EN, 1)] ++ l)

/-- Entry 3 triggers at 5 on axis 0 with DIR `dir`, DOORBELL its action. -/
def entry3 (dir : Nat) (armed : Bool) (trigger : Nat) : State :=
  let s := axis0 1 []
  { s with rtio := { s.rtio with entries := [(3, ⟨BitVec.ofNat 256 (trigger + dir * 2 ^ 130), armed, none⟩)] } }

theorem witness_AxesFollowTheirSources :
    (let s := axis0 1 [(TTB_AX_CFG_Z_LOAD 0, 1)];
      s.phase = .ready ∧ reinitOn s 7 = false ∧ axisSource s 0 = 1 ∧ axisChannel s 0 = 0 ∧
      getF s (TTB_AX_INCR_INCR 0) % axisMod s 0 ≠ 0 ∧ flag s (TTB_AX_CFG_Z_LOAD 0) = true ∧
      entField (getEntry (entry3 1 true 5) 3).bits 131 130 ≠ 0) ∧
    (∀ p ∈ [(0, 0), (2, 1), (3, 2), (1, 3)], (quadPhase p.1 + 4 - quadPhase (smGet 0 (axis0 1 []).rtio.enc 0)) % 4 = p.2) ∧
    (∀ b ∈ [8, 48],
      let s := axis0 2 [(TTB_AX_CFG_SSI_BITS 0, b), (TTB_AX_CFG_GRAY 0, b / 48)]
      let u : State := { s with rtio := { s.rtio with ssiRun := [(0, true)] } }
      free s = true ∧ smGet 0 s.rtio.ssiAt 0 = 0 ∧ axisSource s 0 = 2 ∧ axisChannel s 0 < 4 ∧ axisSource u 0 = 2 ∧ smGet false u.rtio.ssiRun 0 = true ∧
      getF u (TTB_AX_CFG_SSI_BITS 0) = b) ∧
    (∀ now ∈ [999, 1000],
      let s := axis0 2 [(TTB_AX_CFG_SSI_PERIOD 0, 10)]
      let u : State := { s with now := now, rtio := { s.rtio with ssiAt := [(0, 1)] } }
      let last := smGet 0 u.rtio.ssiAt 0
      last ≠ 0 ∧ (u.now + 1 < last + 100 * max 1 (getF u (TTB_AX_CFG_SSI_PERIOD 0)) ↔ now ≠ 1000)) ∧
    (∀ p ∈ [(1, true, 1), (3, true, 5), (1, false, 5), (3, false, 1)],
      let s := entry3 p.1 p.2.1 p.2.2
      let v := (getAxis s 0).value
      let d := signedDiff (axisMod s 0) ((v + getF s (TTB_AX_INCR_INCR 0) % axisMod s 0) % axisMod s 0) v
      let e := getEntry s 3
      s.phase = .ready ∧ reinitOn s 7 = false ∧ axesOn s 1 0 = [0] ∧ flag s (TTB_AX_CFG_INVERT 0) = false ∧
      entField e.bits 129 128 = 0 ∧ d > 0 ∧ signedDiff (axisMod s 0) v (entField e.bits 63 0) < 0 ∧
      signedDiff (axisMod s 0) v (entField e.bits 63 0) + d ≥ 0 ∧ entField e.bits 131 130 = p.1 ∧ flag s TTB_CTL_TT_EN = true ∧
      entryReserved e.bits = false ∧ bitOf e.bits.toNat 135 = false ∧ e.armed = p.2.1 ∧ s.rtio.entries = [(3, e)]) := by decide +kernel

/-- The last edge of mains input 0 was at tick 0, after `good` good periods. -/
def edges (now good : Nat) : State :=
  let s := axis0 4 []
  { s with now := now, rtio := { s.rtio with mains := [(0, ⟨some 0, 2000000, good⟩)] } }

theorem witness_MainsAndNetworkTime :
    (∀ now ∈ [9999, 10000, 1538461, 1538462, 2222222, 2222223], (edges now 0).phase = .ready ∧ reinitOn (edges now 0) 7 = false ∧
      (getMains (edges now 0) 0).lastEdge = some 0 ∧ (edges now 0).now - 0 = now) ∧
    9999 < 10000 ∧ 65 * 1538461 < 100000000 ∧ 100000000 ≤ 65 * 1538462 ∧ 45 * 2222222 ≤ 100000000 ∧ 100000000 < 45 * 2222223 ∧
    axesOn (edges 10000 0) 4 0 ≠ [] ∧ mainsLocked (edges 0 (Config.mainsLock.val + 1)) 0 = true ∧
    (∀ slave ∈ [0, 1],
      let s := setAll (axis0 3 []) [(ETH_MAC_CTL_EN 0, 1), (ETH_MAC_CTL_GPTP_SLAVE 0, slave), (ETH_PTP_STAT_LOCK 0, 1)]
      flag s (ETH_MAC_CTL_EN 0) = true ∧ flag s (ETH_MAC_CTL_GPTP_SLAVE 0) = decide (slave = 1) ∧ flag s (ETH_PTP_STAT_LOCK 0) = true ∧
      axesOn s 3 0 ≠ [] ∧ (getMac s 0).gptp = 0 ∧ (getMac s 0).peerDelay = 0 ∧ (getMac s 0).reqSent = none) ∧
    flag State.reset (ETH_MAC_CTL_EN 0) = false ∧
    (getMac { State.reset with rtio := { Rtio.reset with macs := [(0, { Mac.reset with reqSent := some 4 })] } } 0).reqSent = some 4 ∧
    (0 - ((100 : BitVec 64).toNat : Int) - 0).natAbs ≤ 100 ∧ 100 < (0 - ((101 : BitVec 64).toNat : Int) - 0).natAbs :=
  ⟨by decide +kernel, by decide, by decide, by decide, by decide, by decide, by decide +kernel,
    decide_eq_true (Nat.lt_succ_self _), by decide +kernel, by decide, by decide +kernel, by decide, by decide⟩

/-- A fired entry with an action and its argument. -/
def fired (action arg : Nat) : Fired := ⟨0, BitVec.ofNat 256 (arg * 2 ^ 96 + action * 2 ^ 132), 0, 0, 0⟩
/-- That entry is the oldest that acts. -/
def acts (s : State) (action arg : Nat) : State := { s with rtio := { s.rtio with acting := [fired action arg] } }
/-- Window 0 is open since tick 0. -/
def openWindow (now : Nat) : State :=
  let s := setF State.reset TTB_WIN_MAX_CYCLES 10
  { s with now := now, rtio := { s.rtio with windows := [(0, some 1)], openings := 1 } }

theorem witness_EntriesAndWindows :
    State.reset.phase = .ready ∧ free State.reset = true ∧ entryReserved (entData State.reset) = false ∧
    entryReserved (entData (setF State.reset (TTB_ENT_DATA_DATA 4) 0x70)) = true ∧
    (∀ n ∈ [1, 17],
      let s : State := { State.reset with rtio := { Rtio.reset with deferred := List.replicate n (fired 3 0) } }
      s.rtio.acting = [] ∧ s.rtio.deferred ≠ [] ∧ reinitOn s 7 = false) ∧
    (getWindow (openWindow 2) 0).isSome = true ∧ getF (openWindow 2) TTB_WIN_MAX_CYCLES ≠ 0 ∧
    rtioNow (openWindow 2) ≥ 5 * smGet 0 (openWindow 2).rtio.winSince 0 + getF (openWindow 2) TTB_WIN_MAX_CYCLES ∧
    rtioNow (openWindow 1) < 5 * smGet 0 (openWindow 1).rtio.winSince 0 + getF (openWindow 1) TTB_WIN_MAX_CYCLES ∧
    (∀ d ∈ [0, 1], entField (fired 6 (8 * d)).bits 134 132 = 6 ∧ argField (fired 6 (8 * d)) 3 3 = d ∧
      reinitOn (acts State.reset 6 (8 * d)) 7 = false) := by decide +kernel

/-- STEP channel 0 is enabled, bound or not, and HOLD_N is low or not. -/
def stepOn (bind : Nat) (low : Bool) : State :=
  let s := acts (setAll State.reset [(TTB_STEP_CFG_EN 0, 1), (TTB_STEP_CFG_BIND 0, bind)]) 4 0x38
  { s with rtio := { s.rtio with holdLow := low } }
/-- The completion at position 2 of context 0's ring was written as number 3, or not. -/
def checked (w : Nat) (writes arg : Nat) : State :=
  let s := acts State.reset 5 arg
  { s with written := [(2, w)], rtio := { s.rtio with acting := [{ fired 5 arg with writes := writes }] } }

theorem witness_ActionsTakeEffect :
    (∀ a ∈ [0, 1, 3, 4, 5], (acts running a 0).phase = .ready ∧ (acts running a 0).raised = [] ∧ free (acts running a 0) = true ∧ (acts running a 0).rtio.acting = fired a 0 :: [] ∧
      reinitOn (acts running a 0) 7 = false ∧ entField (fired a 0).bits 134 132 = a) ∧
    ringLocal running (argField (fired 0 9) 2 0) = false ∧ ringLocal running (argField (fired 0 (8 * 63)) 2 0) = true ∧
    (let s := acts running 0 (8 * 63);
      (getCtx s 0).flushing = false ∧ flag s (HIF_CTX_CTL_CYCLIC 0) = false ∧ argField (fired 0 (8 * 63)) 14 3 = 63 ∧ 63 < sqSize s 0 ∧
      (63 + sqSize s 0 - (getCtx s 0).sqTail) % sqSize s 0 ≤ ((getCtx s 0).sqHead + 2 * sqSize s 0 - (getCtx s 0).sqTail - 1) % sqSize s 0) ∧
    (let s : State := { acts running 1 0 with now := 3, rtio := { (acts running 1 0).rtio with fsync := [(0, 15)] } };
      smGet 0 s.rtio.fsync 0 ≠ 0 ∧ smGet 0 s.rtio.fsync 0 ≤ rtioNow s) ∧
    (flag (stepOn 0 false) (TTB_STEP_CFG_EN 0) = true ∧ flag (stepOn 0 false) (TTB_STEP_CFG_BIND 0) = false ∧
      (stepOn 0 false).rtio.holdLow = false ∧ flag (stepOn 1 false) (TTB_STEP_CFG_BIND 0) = true ∧ (stepOn 0 true).rtio.holdLow = true) ∧
    (∀ p ∈ [(3 * 2 ^ 32 + 2, 3, true), (3 * 2 ^ 32 + 2, 2, false), (0, 3, false)],
      let s := checked p.1 p.2.1 16
      let f : Fired := { fired 5 16 with writes := p.2.1 }
      s.rtio.acting = f :: [] ∧ argField f 19 16 = 0 ∧ argField f 20 20 = 0 ∧
      (max s.rtio.ttEnBase (smGet 0 s.rtio.checkBase 2) < smGet 0 s.written (argField f 2 0 * 4096 + argField f 14 3) / 2 ^ 32 ∧
        smGet 0 s.written (argField f 2 0 * 4096 + argField f 14 3) / 2 ^ 32 ≤ f.writes ↔ p.2.2 = true)) := by decide +kernel

/-! ### Emission, Ethernet and capture -/

/-- An item of a trajectory. -/
def anItem (n : W32) (last : Bool) : Item := ⟨n, 0, last, false, [(0x3F800000, 0)]⟩
/-- Chain 0 has `live` items to commit and `queued` ones waiting; the feeder runs and chain 0 emits. -/
def chains0 (live queued : Nat) : State :=
  let s := setAll State.reset [(PLN_CTL_FEED_EN, 1), (TTB_CH_CTL_EMIT_EN 0, 1), (PLN_CH_CFG_AHEAD 0, 4)]
  putChain s 0 { Chain.reset with
    live := if live = 0 then none else some ⟨[], [], 0, (List.range live).map (fun i => (anItem (BitVec.ofNat 32 i) (i + 1 = live), ⟨[], 0⟩)), 9, 9⟩
    queue := (List.range queued).map (fun i => anItem (BitVec.ofNat 32 i) false) }

theorem witness_FeederFlushAndResume :
    (∀ q ∈ [0, 3],
      let s := chains0 2 q
      s.phase = .ready ∧ ((getChain s 0).live.map (fun l => l.items.isEmpty)) = some false ∧ (getChain s 0).splice = none ∧
      flag s PLN_CTL_FEED_EN = true ∧ (getClk s 4).stopped = false ∧ (getChain s 0).queue.length < aheadOf s 0) ∧
    (let s := putChain (chains0 2 0) 0 { getChain (chains0 2 0) 0 with splice := some 0xFFFFFFFF };
      (getChain s 0).splice = some 0xFFFFFFFF ∧ before 0xFFFFFFFF (anItem 0 false).number = true) ∧
    (let s := putClk (chains0 2 0) 4 { getClk (chains0 2 0) 4 with stopped := true }; (getClk s 4).stopped = true) ∧
    flag (setF State.reset PLN_CTL_FEED_EN 0) PLN_CTL_FEED_EN = false ∧ aheadOf (chains0 2 4) 0 ≤ (getChain (chains0 2 4) 0).queue.length ∧
    (getChain (chains0 0 1) 0).live = none ∧
    (let j := { jobOf 0 (.plan 0x30000) with progress := 1 };
      free (withJobs [j]) = true ∧ findJob (withJobs [j]) 0 0 = some j ∧ j.desc.body.isPlan = true ∧ j.isDone = false ∧ j.progress = (0 : Fin 4).val + 1 ∧ j.planned.any Planned.installed = false) ∧
    (let j := { jobOf 0 (.plan 0x30000) with phase := .queued };
      let s := { plans 0 with jobs := [j] };
      findJob s 0 0 = some j ∧ j.isDone = false ∧ j.progress = 0 ∧ requestChain s j = some 0) := by
  decide +kernel

/-- Chain 0 stands at an instant of its run, or not yet; what fires is as `acts` says. -/
def emits (queued now : Nat) (s : State → State) : State :=
  let s := s (chains0 0 queued)
  { putEmit s 0 { getEmit s 0 with run := true, nextAt := 15 } with now := now }

theorem witness_EmissionSendsOldestItem :
    (∀ q ∈ [0, 2],
      let s := emits q 3 id
      s.phase = .ready ∧ reinitOn s 7 = false ∧ flag s (TTB_CH_CTL_EMIT_EN 0) = true ∧ (getEmit s 0).held = false ∧
      (getEmit s 0).holdPending = false ∧ (getChain s 0).queue.length = q ∧ (getEmit s 0).run = true ∧
      runClock s (getEmit s 0).runGptp ≥ (getEmit s 0).nextAt) ∧
    (∀ m ∈ [0, 1, 2],
      let f := fired 2 (1 + 16 * m)
      entField f.bits 134 132 = 2 ∧ bitOf (argField f 3 0) 0 = true ∧ argField f 5 4 = m ∧
      (emits 2 3 (acts · 2 (1 + 16 * m))).rtio.acting = f :: []) ∧
    (getEmit State.reset 0).run = false ∧ runClock (emits 2 2 id) (getEmit (emits 2 2 id) 0).runGptp < (getEmit (emits 2 2 id) 0).nextAt ∧
    (∀ l ∈ [0, 1, 2], getF (setF (emits 0 3 id) (TTB_CH_CTL_LATE 0) l) (TTB_CH_CTL_LATE 0) = l) := by decide +kernel

/-- Channel 0 has a pulse due at cycle 15, or one that falls then. -/
def pulses (now : Nat) (level : Bool) : State :=
  let s := setF State.reset (TTB_STEP_CFG_EN 0) 1
  { putStep s 0 { StepCh.reset with base := 15, total := 2, num := 10, level := level, fallAt := 15 } with now := now }

theorem witness_PulsesAndHoldInput :
    (let s := pulses 3 false; let x := getStep s 0;
      s.phase = .ready ∧ x.level = false ∧ flag s (TTB_STEP_CFG_EN 0) = true ∧ x.started < x.total ∧
      x.base + x.started * x.num / max 1 x.den ≤ rtioNow s) ∧
    (let s := setF (pulses 3 false) (TTB_STEP_CFG_EN 0) 0; flag s (TTB_STEP_CFG_EN 0) = false ∧ (getStep s 0).level = false) ∧
    (let s := pulses 3 true; (getStep s 0).level = true ∧ (getStep s 0).fallAt ≤ rtioNow s) ∧
    (let s := pulses 2 true; (getStep s 0).level = true ∧ rtioNow s < (getStep s 0).fallAt) ∧
    (let s := pulses 2 false; let x := getStep s 0; x.level = false ∧ rtioNow s < x.base + x.started * x.num / max 1 x.den) ∧
    (let x := getStep State.reset 0; x.level = false ∧ x.total ≤ x.started) := by decide +kernel

/-- A MAC with frames of the classes queued, busy until a time in tenths of nanoseconds. -/
def sends (l : List Nat) (busy : Nat) : State :=
  let s := setF State.reset (ETH_MAC_CTL_EN 0) 1
  { s with rtio := { s.rtio with macs := [(0, { Mac.reset with
      txq := l.map (fun c => ⟨c, c, List.replicate 60 (BitVec.ofNat 8 c), false⟩), busyUntil := busy })] } }
/-- A gate list waits for its cycle start at 2,000 ns. -/
def swaps (now : Nat) : State :=
  { State.reset with rtio := { Rtio.reset with macs := [(0, { Mac.reset with gptp := now, store := [(0, 1)], swapArmed := true, activeFrom := 2000 })] } }

theorem witness_FramesGatesAndTemplates :
    (let s := sends [3, 7, 7] 0;
      s.phase = .ready ∧ free s = true ∧ reinitOn s 7 = false ∧ flag s (ETH_MAC_CTL_EN 0) = true ∧ flag s (ETH_MAC_CTL_QBV_EN 0) = false ∧
      (getMac s 0).busyUntil ≤ 100 * s.now ∧ (getMac s 0).txq.map Frame.cls = [3, 7, 7]) ∧
    (let s := setF { sends [3, 7] 0 with rtio := { (sends [3, 7] 0).rtio with macs := [(0, { getMac (sends [3, 7] 0) 0 with active := [(0, 0x00000100)] })] } } (ETH_MAC_CTL_QBV_EN 0) 1;
      (getMac s 0).busyUntil ≤ 100 * s.now ∧ (getMac s 0).txq ≠ [] ∧
      (getMac s 0).txq.all (fun f => !(gateAllows s 0 f.cls (byteTime s 0 * (f.bytes.length + 12)))) = true) ∧
    100 * (sends [3] 1).now < (getMac (sends [3] 1) 0).busyUntil ∧
    (∀ now ∈ [1999, 2000], (getMac (swaps now) 0).swapArmed = true ∧ ((getMac (swaps now) 0).activeFrom ≤ (getMac (swaps now) 0).gptp ↔ now = 2000)) ∧
    flag State.reset (ETH_TPL_CFG_EN (getF State.reset ETH_TPL_SEL_WORD / 512)) = false ∧
    flag (setF State.reset (ETH_TPL_CFG_EN 0) 1) (ETH_TPL_CFG_EN (getF State.reset ETH_TPL_SEL_WORD / 512)) = true := by decide +kernel

/-- Channel 0 is enabled and receives; its buffers are 16 bytes each. -/
def receives : State :=
  let s := setAll State.reset [(CAP_CH_CFG_EN 0, 1), (CAP_CH_CFG_DATATYPE 0, 0x2A), (CAP_CH_CFG_BUFFERS 0, 1), (CAP_CH_SIZE_BYTES 0, 16)]
  { s with rtio := { s.rtio with receiving := [(0, true)] } }

theorem witness_CaptureFramesLand :
    receives.phase = .ready ∧ free receives = true ∧ reinitOn receives 7 = false ∧ flag receives (CAP_CH_CFG_EN 0) = true ∧
    getF receives (CAP_CH_CFG_VC 0) = 0 ∧ getF receives (CAP_CH_CFG_DATATYPE 0) = (0x2A : BitVec 6).toNat ∧
    csiSupported (0x2A : BitVec 6).toNat = true ∧ getF receives (CAP_CH_CFG_DATATYPE 0) ≠ (0x2B : BitVec 6).toNat ∧
    getF receives (CAP_CH_CFG_VC 0) ≠ (1 : Fin 4) ∧ smGet false receives.rtio.receiving 0 = true ∧ receives.poison = [] ∧ receives.latent = [] ∧
    (∀ c ∈ [0, 1],
      let s := setF receives (CAP_CH_FRAMES_COUNT 0) c
      basinBase + getF s (CAP_CH_BASE_OFFSET 0) / 256 * 256 + getF s (CAP_CH_FRAMES_COUNT 0) % (getF s (CAP_CH_CFG_BUFFERS 0) + 1) *
        getF s (CAP_CH_SIZE_BYTES 0) + getF s (CAP_CH_SIZE_BYTES 0) ≤ basinBase + basinSize) := by decide +kernel

/-! ### Clocks, supplies, starts, keys and the TAP -/

/-- Region 0's clock as `f` leaves it, some fields set, at a tick. -/
def clk0 (now : Nat) (l : List (RField × Nat)) (f : ClkRegion → ClkRegion) : State :=
  let s := { setAll State.reset l with now := now }
  putClk s 0 (f (getClk s 0))

theorem witness_FrequencyChangesRun :
    ((getClk State.reset 0).armed = false ∧ (getClk State.reset 0).changing = false ∧ State.reset.phase = .ready ∧ free State.reset = true) ∧
    (∀ p ∈ [(0, none), (1, none), (0, some 3)],
      (getClk (clk0 0 [(CLK_CTL_MODE, p.1)] (fun c => { c with armed := true, winAt := p.2 })) 0).armed = true) ∧
    (∀ p ∈ [(0, some 3, 23, 24), (1, none, 15, 16)], ∀ cfg ∈ [0x100, 0x10F, 0x00F],
      let s (now : Nat) := clk0 now [(CLK_CTL_MODE, p.1)] (fun c => { c with armed := true, goAt := 0, winAt := p.2.1, cfg := cfg })
      let d := p.2.1.getD 0
      (timedMode (s 0) = decide (p.1 = 0)) ∧ p.2.2.1 < boundaryFrom (s p.2.2.1) (d + 16) ∧ boundaryFrom (s p.2.2.2) (d + 16) ≤ p.2.2.2 ∧
      bitOf cfg 8 = decide (cfg ≠ 0x00F) ∧ mooringBusy (s 0) 0 = false ∧
      (cfg = 0x100 → getF (setF (s 0) (CLK_RGN_STAT_CUR 0) 40) (CLK_RGN_STAT_CUR 0) ≠ opMult 0 (bitsOf cfg 3 0))) ∧
    (∀ cur ∈ [30, 31, 33, 34],
      let s (now : Nat) := clk0 now [(CLK_RGN_STAT_CUR 0, cur)] (fun c => { c with changing := true, target := 32 })
      (getClk (s 0) 0).changing = true ∧ (getClk (s 0) 0).stopped = false ∧ (getClk (s 0) 0).target < 128 ∧
      getF (s 0) (CLK_RGN_STAT_CUR 0) ≠ (getClk (s 0) 0).target ∧ (s 103).now < 0 + 8 * ((25 * (0 + 1) + 1) / 2) ∧
      0 + 8 * ((25 * (0 + 1) + 1) / 2) ≤ (s 104).now) ∧
    (let s (now : Nat) := clk0 now [] (fun c => { c with changing := true, stopped := true, target := 127 });
      (getClk (s 0) 0).stopped = true ∧ (getClk (s 0) 0).target < 128 ∧ (s 319).now < 0 + 320 ∧ 0 + 320 ≤ (s 320).now ∧
      (s 319).accessQ = [] ∧ (s 320).raised = [] ∧ (Access.write 0 0x100000 0xF 0).stalls (shortStopEnd (s 320) 0) = false) := by decide +kernel
theorem witness_FrequencyChangesRun_canonical : Canonical (clk0 319 [] (fun c => { c with changing := true, stopped := true, target := 127 })) :=
  ⟨by decide, by decide⟩

theorem witness_MonitorsActAndReport :
    (∀ m ∈ [0, 1], ∀ st ∈ [true, false],
      let s := clk0 0 [(CLK_CTL_MODE, m)] (fun c => { c with stretched := st })
      s.phase = .ready ∧ timedMode s = decide (m = 0) ∧ (getClk s 0).stretched = st ∧ promote s 0 2 = 2) ∧
    (let s := clk0 100000 [(CLK_CTL_MODE, 1), (CLK_RGN_STAT_CUR 0, 40), (CLK_RGN_CFG_OP 0, 5)] id;
      stepFree s 0 = true ∧ lowerPoint s 0 = some 36 ∧ higherPoint s 0 = some 44 ∧ coolEnough s 0 = true ∧
      (getClk s 0).downDue = false ∧ (getClk s 0).calmSince + 100000 ≤ s.now) ∧
    (let s := clk0 99999 [(CLK_CTL_MODE, 1)] (fun c => { c with armed := true });
      stepFree s 0 = false ∧ timedMode s = false ∧ s.now < (getClk s 0).calmSince + 100000) ∧
    coolEnough (setF State.reset (CLK_TEMP_TEMP 0) 0x7FF) 0 = false ∧
    (∀ r ∈ [CLK_THERM_CFG_THERM_HI, CLK_THERM_CFG_THERM_TRIP],
      let lim := getF State.reset r
      (BitVec.ofNat 16 (16 * lim)).toInt ≥ 16 * (lim : Int) ∧ (BitVec.ofNat 16 (16 * lim - 1)).toInt < 16 * (lim : Int) ∧
      ¬ (BitVec.ofNat 16 (getF State.reset (CLK_TEMP_TEMP 0))).toInt ≥ 16 * (lim : Int) ∧
      (BitVec.ofNat 16 (getF (setF State.reset (CLK_TEMP_TEMP 0) 0x7FF) (CLK_TEMP_TEMP 0))).toInt ≥ 16 * (lim : Int)) ∧
    ({ State.reset with phase := .starting true 8 } : State).phase = .starting true 8 := by decide +kernel

/-- PMBus is enabled, a command was sent at tick 0, and VOK has fallen. -/
def sent (now : Nat) : State :=
  { setAll State.reset [(PWR_PMB_CFG_EN, 1), (PWR_VCORE_TARGET, 800), (PWR_STAT_VOK, 0)] with now := now, pmb := ⟨0x17, some 0, 0, 0⟩ }

theorem witness_SuppliesFollowCommands :
    State.reset.phase = .ready ∧ free State.reset = true ∧ flag State.reset PWR_PMB_CFG_EN = false ∧ flag (sent 0) PWR_PMB_CFG_EN = true ∧
    (sent 0).pmb.sentAt = some 0 ∧ flag (sent 0) PWR_STAT_VOK = false ∧ 0 + 200000 ≤ (sent 200000).now ∧ (sent 199999).now < 0 + 200000 ∧
    State.reset.warmAsked = none ∧
    (∀ now ∈ [898, 1099],
      let s : State := { State.reset with warmAsked := some 0, now := now }
      s.phase = .ready ∧ s.warmAsked = some 0 ∧ s.flash.wdog = none ∧ s.pending = [] ∧ (0 + 1100 ≤ s.now + 1 ↔ now = 1099) ∧
      (s.now + 1 < 0 + 900 ↔ now = 898)) ∧
    (1749 : BitVec 12).toNat < 1750 ∧ 1850 ≤ (1850 : BitVec 12).toNat ∧ (1399 : BitVec 12).toNat < 1400 ∧
    (790 : BitVec 10).toNat ≤ getF (sent 0) PWR_VCORE_TARGET + 10 ∧ getF (sent 0) PWR_VCORE_TARGET ≤ (790 : BitVec 10).toNat + 10 := by decide +kernel

/-- A start has begun, with a valid backup or a lost one, and the life cycle's fuses. -/
def starts (warm valid : Bool) (lc : BitVec 4) : State :=
  { State.reset with
    phase := .starting warm 1, sec := { State.reset.sec with lc := lc }
    backup := { State.reset.backup with store := storeUpdate [] [], witness := valid } }
/-- A berth is active, its load area empty, with the CRC given. -/
def loadedWith (crc : W32) : State :=
  let s := setF (starts true true 0) GLB_BERTH_STAT_ACTIVE 1
  { s with flash := { s.flash with loadCrc := crc } }

/-- In VOID no berth passes. -/
theorem void_noBerth (s : State) (b : Nat) (g : s.sec.state = 4) : loadable s b = false := by
  have h : berthSigned s b = false := by
    unfold berthSigned
    split <;> simp [g]
  have k : berthCheck s b ≠ 1 := by
    unfold berthCheck
    rw [h]
    split <;> simp
  simp [loadable, k]

theorem witness_StartsReachReady :
    (∀ p ∈ [Phase.ready, .inReset true, .starting false 1], ({ State.reset with phase := p } : State).phase = p) ∧
    (∀ b, State.reset.phase ≠ .inReset b) ∧ State.reset.phase = .ready ∧ 899 < 900 ∧
    (starts false true 7).phase = .starting false 1 ∧ lcState (starts false true 7).sec.lc = 3 ∧ (starts false true 7).sec.erasedAll = false ∧
    lcState (starts false false 0xF).sec.lc ≠ 3 ∧
    (∀ b, loadable (coldSteps (starts false false 0xF) 1 0 7).2 b = false) ∧ (starts true true 0).phase = .starting true 1 ∧
    backupValid (starts true true 0) = true ∧ backupValid (starts true false 0) = false ∧
    getF (setF (starts true true 0) CLK_STAT_LOCKED 0x100) CLK_STAT_LOCKED % 256 = 0 ∧ getF (starts true true 0) CLK_STAT_LOCKED % 256 ≠ 0 ∧
    getF (starts true true 0) GLB_BERTH_STAT_ACTIVE = 0 ∧ backupValid (loadedWith 1) = true ∧
    getF (loadedWith 1) CLK_STAT_LOCKED % 256 ≠ 0 ∧ getF (loadedWith 1) GLB_BERTH_STAT_ACTIVE ≠ 0 ∧ (loadedWith 1).flash.loaded ≤ 62914560 ∧
    crc32c (loadArea (loadedWith 1)) ≠ (loadedWith 1).flash.loadCrc ∧
    ({ State.reset with phase := .refclkHold 1 7 0 } : State).phase = .refclkHold 1 7 0 ∧
    (∀ cause us since, State.reset.phase ≠ .refclkHold cause us since) :=
  ⟨by decide, by intro b; simp [State.reset], rfl, by decide, rfl, by decide, rfl, by decide,
    fun b => void_noBerth _ b (by decide +kernel), rfl, backupValid_storeUpdate _ [] [] rfl rfl, by decide +kernel,
    by decide +kernel, by decide +kernel, by decide +kernel, backupValid_storeUpdate _ [] [] rfl rfl, by decide +kernel, by decide +kernel, by decide +kernel,
    by decide +kernel, rfl, by intro a b c; simp [State.reset]⟩

/-- A public key at the neutral point, whose hash slot 0 holds, in SEALED. -/
def neutral : List Byte := 1 :: zeros 31
/-- A token of a kind for the device's UID, signed under that key, lies at the start of the basin and is being checked. -/
def tokens (kind slot : Nat) (magic : Nat) : State :=
  let b := natLE 4 magic ++ natLE 1 kind ++ natLE 1 slot ++ zeros 26 ++ neutral ++ neutral ++ zeros 32
  { State.reset with
    mem := smWrite 0 [] basinBase b
    sec := ⟨3, [(0, ⟨sha256 neutral, true, false, false⟩)], false, 0, 2, none, true, false⟩ }
/-- Life cycle state `st`, with slot 0 holding a hash or none. -/
def cycle (st : Nat) (valid : Bool) : State :=
  { State.reset with sec := { State.reset.sec with state := st, slots := if valid then [(0, ⟨List.replicate 32 7, true, false, false⟩)] else [] } }
/-- A fuse operation runs. -/
def fuses (op : FuseOp) : State := { State.reset with sec := { State.reset.sec with op := some op } }

theorem witness_LifeCycleAndKeyCommands :
    (∀ op ∈ [FuseOp.lc 0xF, .key 0 (List.replicate 32 7), .revoke 0],
      (fuses op).phase = .ready ∧ free (fuses op) = true ∧ (fuses op).raised = [] ∧ secBusy (fuses op) = true ∧ (fuses op).sec.op = some op ∧ (fuses op).sec.opFromToken = false) ∧
    (fuses (.lc 0xF)).sec.lc ||| 0xF ≠ (fuses (.lc 0xF)).sec.lc ∧
    (∀ st ∈ [0, 1, 2, 4], secBusy (cycle st true) = false ∧ free (cycle st true) = true ∧ (cycle st true).sec.state = st) ∧
    (∃ i, i < 4 ∧ slotState (cycle 1 true) i = 1) ∧ slotState (cycle 0 false) 0 = 0 ∧ slotState (cycle 0 true) 0 ≠ 0 ∧
    keyData (setF (cycle 0 false) (SEC_KEY_DATA_HASH 0) 1) ≠ zeros 32 ∧ keyData (cycle 0 false) = zeros 32 ∧
    (getSlotFuses (cycle 1 true) 0).erased = false ∧ (getSlotFuses (cycle 1 true) 0).hash.length = 32 ∧
    (∀ p ∈ [(1, 0, 0x4E4B4F54, 1), (2, 1, 0x4E4B4F54, 1), (2, 0, 0x4E4B4F54, 7), (1, 0, 0, 2)],
      let s := tokens p.1 p.2.1 p.2.2.1
      let r := runOp (readDev none (basinBase + getF s SEC_TOKEN_OFF_OFFSET * 64) (min 128 (basinSize - getF s SEC_TOKEN_OFF_OFFSET * 64))) s
      s.raised = [] ∧ s.sec.tokenBusy = true ∧ (match r.1 with | .ok b => recNat b 4 1 == p.1 && tokenResult r.2 b == p.2.2.2 | .error _ => false) = true) :=
  ⟨by decide +kernel, by decide +kernel, by decide +kernel, ⟨0, by decide, by decide⟩, by decide +kernel, by decide +kernel, by decide +kernel, by decide +kernel,
    by decide +kernel, by decide +kernel, by decide +kernel⟩

theorem witness_TapInstructionsAct :
    State.reset.sec.state ≠ 4 ∧ (cycle 4 false).sec.state = 4 ∧ (cycle 4 false).phase = .ready ∧ 4 < (5 : BitVec 8).toNat ∧
    State.reset.accessQ = [] ∧ debugOpen State.reset = true ∧ debugOpen (cycle 2 false) = false ∧ flag State.reset DBG_CTL_HOST_LOCK = false ∧
    flag (setF State.reset DBG_CTL_HOST_LOCK 1) DBG_CTL_HOST_LOCK = true ∧
    bitsOf (16 : BitVec 64).toNat 23 0 = 16 ∧ (16 : BitVec 64).getLsbD 24 = false ∧ bitsOf (0x123401000010 : BitVec 64).toNat 23 0 = 16 ∧
    (0x123401000010 : BitVec 64).getLsbD 24 = true := by decide +kernel

end Sys2Proof.Tests
end

section
/-! The state after reset: what a sparse store reads at a key it does not list, and from it the registers that
`State.reset` leaves at their table values (R14). -/

namespace Sys2Proof.Machine

/-- A key that a sparse store does not list reads as the default. -/
theorem smGet_of_not_listed {α : Type} (d : α) (m : SMap α) (j : Nat) (h : ∀ p ∈ m, p.1 ≠ j) : smGet d m j = d := by
  simpa [smGet] using smGet_append d m [] j h

/-- A register whose key the state does not list holds its table value (R14). -/
theorem getReg_of_not_listed (s : State) (k : Nat) (h : k ∉ smKeys s.regs) : getReg s k = regReset k :=
  smGet_of_not_listed _ _ _ fun p hp hk => h (List.mem_map.2 ⟨p, hp, hk⟩)

/-- Nothing is placed in device or host memory at reset (log entry 7), and the empty store is canonical. -/
theorem canonical_reset : Canonical State.reset := ⟨rfl, rfl⟩

/-- The registers that the start itself sets: CLK_STAT, PWR_RESET_CAUSE and BSN_HBM_STAT. -/
theorem smKeys_reset_regs : smKeys State.reset.regs = [0x301, 0x403, 0x801] := rfl

/-- With no life-cycle fuse blown the device is in TEST (R664). -/
theorem lcState_reset : lcState State.reset.sec.lc = 0 := rfl

/-- Settles O4: the start's own registers are all that `State.reset` lists, so every other register reads its
table value; the queue, the jobs and the waiting accesses are empty as the state gives them. -/
theorem resetStateMeetsCanonical : Obligations.ResetStateMeetsCanonical := by
  unfold Obligations.ResetStateMeetsCanonical
  refine ⟨canonical_reset, rfl, isReady_of rfl, rfl, rfl, rfl, lcState_reset, fun k hk => ?_⟩
  exact getReg_of_not_listed State.reset k (smKeys_reset_regs ▸ hk)

end Sys2Proof.Machine
end

section
/-! SUPPORT. What the device's events and a core's flags leave in their registers (R66, R133 to R137), and what a
command answers whose work is kept. -/

namespace Sys2Proof.Machine

/-- Bits set in an event register leave its others below SEQ (R66). -/
theorem testBit_or_eventMask (w : W32) (mask : Nat) {i : Nat} (hi : i < 24) :
    (w ||| BitVec.ofNat 32 (mask % 16777216)).toNat.testBit i = (w.toNat.testBit i || mask.testBit i) := by
  have h32 : i < 32 := by omega
  rw [BitVec.toNat_or, Nat.testBit_or, BitVec.toNat_ofNat, Nat.testBit_mod_two_pow,
    show (16777216 : Nat) = 2 ^ 24 from rfl, Nat.testBit_mod_two_pow]
  simp [hi, h32]

/-- Whether or not SEQ rises with it, an event sets its bits and leaves every other bit below SEQ (R66, R67). -/
theorem testBit_setEvents (s : State) (key mask : Nat) {i : Nat} (hi : i < 24) :
    (getReg (setEvents s key mask) key).toNat.testBit i = ((getReg s key).toNat.testBit i || mask.testBit i) := by
  by_cases h : key ∈ s.raised
  · rw [setEvents, if_pos (by simpa using h), getReg_putReg_same, testBit_or_eventMask _ _ hi]
  · rw [getReg_congr (setEvents_regs s key mask h), getReg_putReg_same, eventWord, testBit_withField, if_neg (by omega),
      testBit_or_eventMask _ _ hi, decide_eq_true (show i < 32 by omega), Bool.true_and]

theorem getReg_setEvents_other (s : State) (key mask : Nat) {j : Nat} (h : j ≠ key) :
    getReg (setEvents s key mask) j = getReg s j := by
  obtain ⟨w, r, o, p, he⟩ := setEvents_eq s key mask
  rw [he]
  exact (getReg_congr (t := putReg s key w) rfl j).trans (getReg_putReg_other _ _ h)

/-! ### Flags of a core (R136, R137) -/

@[simp] theorem raiseFlags_zero (s : State) (c : Nat) (who : Option (Nat × W32)) : raiseFlags s c who 0 = s := rfl

/-- Flags change registers, what an event announces, and the books of the job that raised them. -/
theorem raiseFlags_eq (s : State) (c : Nat) (who : Option (Nat × W32)) (f : Flags) :
    ∃ rs r o p j, raiseFlags s c who f = { s with regs := rs, raised := r, out := o, msixPending := p, jobs := j } := by
  by_cases hf : f = 0
  · exact ⟨_, _, _, _, _, by rw [hf, raiseFlags_zero]⟩
  · obtain ⟨w, r, o, p, he⟩ := setEvents_eq s (coreFlagsKey c) f.toNat
    rw [raiseFlags, if_neg hf, he]
    cases who with
    | none => exact ⟨_, _, _, _, _, rfl⟩
    | some job => exact ⟨_, _, _, _, _, rfl⟩

@[simp] theorem raiseFlags_cores (s : State) (c : Nat) (who : Option (Nat × W32)) (f : Flags) :
    (raiseFlags s c who f).cores = s.cores := by
  obtain ⟨_, _, _, _, _, h⟩ := raiseFlags_eq s c who f
  rw [h]

@[simp] theorem raiseFlags_phase (s : State) (c : Nat) (who : Option (Nat × W32)) (f : Flags) :
    (raiseFlags s c who f).phase = s.phase := by
  obtain ⟨_, _, _, _, _, h⟩ := raiseFlags_eq s c who f
  rw [h]

/-- Of the registers, flags are an event of CORE_FLAGS. -/
theorem raiseFlags_regs (s : State) (c : Nat) (who : Option (Nat × W32)) {f : Flags} (hf : f ≠ 0) :
    (raiseFlags s c who f).regs = (setEvents s (coreFlagsKey c) f.toNat).regs := by
  rw [raiseFlags, if_neg hf]
  cases who with
  | none => rfl
  | some job => rfl

theorem getReg_raiseFlags_other (s : State) (c : Nat) (who : Option (Nat × W32)) (f : Flags) {j : Nat}
    (h : j ≠ coreFlagsKey c) : getReg (raiseFlags s c who f) j = getReg s j := by
  by_cases hf : f = 0
  · rw [hf, raiseFlags_zero]
  · rw [getReg_congr (raiseFlags_regs s c who hf), getReg_setEvents_other _ _ _ h]

/-- Flags raised join those of CORE_FLAGS. -/
theorem bitOf_raiseFlags (s : State) (c : Nat) (who : Option (Nat × W32)) {f : Flags} (hf : f ≠ 0) {i : Nat} (hi : i < 5) :
    bitOf (getReg (raiseFlags s c who f) (coreFlagsKey c)).toNat i =
      (bitOf (getReg s (coreFlagsKey c)).toNat i || f.getLsbD i) := by
  rw [bitOf_eq, bitOf_eq, getReg_congr (raiseFlags_regs s c who hf), testBit_setEvents _ _ _ (by omega)]
  rfl

/-! ### Answers -/

/-- A command whose work is kept answers with the registers and cores of its work, and the rest of the frame as it was. -/
theorem keep_frame (s u : State) (h : u.phase = s.phase) :
    ∃ t, keep s u = .next t ∧ t.regs = u.regs ∧ t.cores = u.cores ∧ SameFrame s t :=
  ⟨_, rfl, rfl, rfl, rfl, rfl, sameBytes_of rfl rfl, h, rfl, rfl⟩

/-- A command that works on the cores alone answers with them changed and nothing else. -/
theorem keep_cores (s : State) (cs : SMap Core) : keep s { newCycle s with cores := cs } = .next { s with cores := cs } := rfl

theorem getCore_congr {s t : State} (h : s.cores = t.cores) (i : Nat) : getCore s i = getCore t i := by unfold getCore; rw [h]

end Sys2Proof.Machine
end

section
/-! SUPPORT. The Geysers: what a read of a working register or of a Geyser gives after a write, what each microprogram step
computes (R256, R257), and what the device holds after it. -/

namespace Sys2Proof.Machine

/-- A working register reads the value written to it, and every other register its own. -/
theorem gReg_gSet (g : SMap Val) (i j : Nat) (v : Val) : gReg (gSet g i v) j = if j = i then v else gReg g j :=
  smGet_smPut _ g i j v

/-- Geyser `g` of core `c`. -/
def geyserAt (s : State) (c g : Nat) : Geyser := smGet Geyser.reset (getCore s c).geysers g

/-- Core `c` with its Geyser `g` replaced. -/
def withGeyser (x : Core) (g : Nat) (y : Geyser) : Core := { x with geysers := smPut Geyser.reset x.geysers g y }

/-- The state with Geyser `g` of core `c` replaced. -/
def putGeyser (s : State) (c g : Nat) (y : Geyser) : State := putCore s c (withGeyser (getCore s c) g y)

/-- Of all cores and their Geysers, Geyser `g` of core `c` alone differs: it is `y`. -/
structure GeyserReplaced (c g : Nat) (y : Geyser) (s t : State) : Prop where
  cores : ∀ i, i ≠ c → getCore t i = getCore s i
  geysers : ∀ i, i ≠ g → geyserAt t c i = geyserAt s c i
  here : geyserAt t c g = y

theorem geyserReplaced_of_cores {s t : State} {c g : Nat} {y : Geyser}
    (h : t.cores = (putGeyser s c g y).cores) : GeyserReplaced c g y s t := by
  have hc : getCore t c = withGeyser (getCore s c) g y := (getCore_congr h c).trans (smGet_smPut_same _ _ _ _)
  refine ⟨fun i hi => (getCore_congr h i).trans (smGet_smPut_other _ _ _ hi), fun i hi => ?_, ?_⟩
  · rw [geyserAt, hc]; exact smGet_smPut_other _ _ _ hi
  · rw [geyserAt, hc]; exact smGet_smPut_same _ _ _ _

/-! ### The steps of R256 -/

section
variable (x : Core) (dst sa sb imm : Nat) (g : SMap Val)

theorem geyStep_rreduce {t0 t1 t2 : Val} (h0 : tableWord x imm = some t0) (h1 : tableWord x (imm + 1) = some t1)
    (h2 : tableWord x (imm + 2) = some t2) :
    geyStep x 0 dst sa sb imm g =
      let a := gReg g sa
      let n := nearestInt (vMul a t0).1
      let u := vAdd a (vMul n t1).1.neg
      let v := vAdd u.1 (vMul n t2).1.neg
      .regs (gSet (gSet g dst (workVal v.1)) 15 (workVal n))
        ((vMul a t0).2 ||| (vMul n t1).2 ||| (vMul n t2).2 ||| u.2 ||| v.2) := by
  simp only [geyStep, h0, h1, h2]

theorem geyStep_rreduce_outside (h : tableWord x imm = none) : geyStep x 0 dst sa sb imm g = .bad := by
  simp only [geyStep, h]

/-- The table word that LOOKUP reads: IMM and the integer held in SA, limited to 0 to 1,023 (R256). -/
def lookupIndex (imm : Nat) (a : Val) : Nat := imm + (if heldInt a < 0 then 0 else min (heldInt a).toNat 1023)

theorem geyStep_lookup {t : Val} (h : tableWord x (lookupIndex imm (gReg g sa)) = some t) :
    geyStep x 1 dst sa sb imm g = .regs (gSet g dst (workVal t)) (anySig [gReg g sa, t]) := by
  simp only [lookupIndex] at h
  simp only [geyStep, h]

theorem geyStep_lookup_outside (h : tableWord x (lookupIndex imm (gReg g sa)) = none) : geyStep x 1 dst sa sb imm g = .bad := by
  simp only [lookupIndex] at h
  simp only [geyStep, h]

theorem geyStep_horner {t : Val} (h : tableWord x imm = some t) :
    geyStep x 2 dst sa sb imm g =
      let m := vMul (gReg g dst) (gReg g sa)
      .regs (gSet g dst (workVal (vAdd m.1 t).1)) (m.2 ||| (vAdd m.1 t).2) := by
  simp only [geyStep, h]

theorem geyStep_horner_outside (h : tableWord x imm = none) : geyStep x 2 dst sa sb imm g = .bad := by
  simp only [geyStep, h]

theorem geyStep_mul : geyStep x 3 dst sa sb imm g =
    .regs (gSet g dst (workVal (vMul (gReg g sa) (gReg g sb)).1)) (vMul (gReg g sa) (gReg g sb)).2 := rfl

theorem geyStep_add : geyStep x 4 dst sa sb imm g =
    .regs (gSet g dst (workVal (vAdd (gReg g sa) (gReg g sb)).1)) (vAdd (gReg g sa) (gReg g sb)).2 := rfl

theorem geyStep_select : geyStep x 5 dst sa sb imm g =
    .regs (gSet g dst (workVal (if compareVals (gReg g 14) (.zero false) = .lt then gReg g sa else gReg g sb)))
      (anySig [gReg g 14, gReg g sa, gReg g sb]) := by
  simp only [geyStep, decide_eq_true_eq]

theorem geyStep_clamp {lo hi : Val} (h0 : tableWord x imm = some lo) (h1 : tableWord x (imm + 1) = some hi) :
    geyStep x 6 dst sa sb imm g =
      let a := gReg g sa
      .regs (gSet g dst (workVal (if compareVals a lo = .lt then lo else if compareVals a hi = .gt then hi else a)))
        (anySig [a, lo, hi]) := by
  simp only [geyStep, h0, h1, decide_eq_true_eq]

theorem geyStep_clamp_outside (h : tableWord x imm = none) : geyStep x 6 dst sa sb imm g = .bad := by
  simp only [geyStep, h]

/-- A value times 2^n: what EXPADJ writes (R256). -/
def scaledBy (a : Val) (n : Int) : Val :=
  match a with
  | .fin q => .fin (qScale2 q n)
  | v => v

theorem geyStep_expadj : geyStep x 7 dst sa sb imm g =
    .regs (gSet g dst (workVal (scaledBy (gReg g sa) (heldInt (gReg g sb))))) (anySig [gReg g sa, gReg g sb]) := rfl

theorem geyStep_end : geyStep x 8 dst sa sb imm g = .ended (gReg g 1) := rfl

end

/-! ### What the device holds after a step -/

/-- The flags of a command of core `c`: with none, the cores alone differ; else CORE_FLAGS gains them, and no other
register differs. -/
def FlagsJoined (c : Nat) (fl : Flags) (s t : State) : Prop :=
  SameFrame s t ∧ (fl = 0 → t = { s with cores := t.cores }) ∧
    (fl ≠ 0 → RegsBut [coreFlagsKey c] s t ∧
      ∀ i, i < 5 → bitOf (getReg t (coreFlagsKey c)).toNat i = (bitOf (getReg s (coreFlagsKey c)).toNat i || fl.getLsbD i))

/-- A command that replaces a Geyser of core `c` and raises flags of the core leaves both. -/
theorem keep_raiseFlags_putGeyser (s : State) (c g : Nat) (y : Geyser) (who : Option (Nat × W32)) (fl : Flags) :
    ∃ t, keep s (raiseFlags (putGeyser (newCycle s) c g y) c who fl) = .next t ∧ FlagsJoined c fl s t ∧
      GeyserReplaced c g y s t := by
  by_cases hf : fl = 0
  · subst hf
    exact ⟨_, keep_cores s _, ⟨⟨rfl, rfl, sameBytes_of rfl rfl, rfl, rfl, rfl⟩, fun _ => rfl, fun h => absurd rfl h⟩,
      geyserReplaced_of_cores rfl⟩
  · obtain ⟨t, ht, hregs, hcores, hframe⟩ := keep_frame s (raiseFlags (putGeyser (newCycle s) c g y) c who fl)
      (raiseFlags_phase _ _ _ _)
    refine ⟨t, ht, ⟨hframe, fun h => absurd h hf, fun _ => ⟨fun k hk => ?_, fun i hi => ?_⟩⟩,
      geyserReplaced_of_cores (hcores.trans (raiseFlags_cores _ _ _ _))⟩
    · rw [getReg_congr hregs, getReg_raiseFlags_other _ _ _ _ (by simpa using hk)]; rfl
    · rw [getReg_congr hregs, bitOf_raiseFlags _ _ _ hf hi]; rfl

/-- What a bad step leaves (R257, R258): a NaN as its Geyser's result, GEY_BADSTEP raised and INV set. -/
def BadStep (c g : Nat) (s t : State) : Prop :=
  (geyserAt t c g).result = some (.nan false) ∧ Raised (CORE_VEC_EVENT_GEY_BADSTEP c) s t ∧
    bitOf (getReg t (coreFlagsKey c)).toNat 3 = true ∧
    RegsBut [coreFlagsKey c, (CORE_VEC_EVENT_GEY_BADSTEP c).key] s t ∧ SameBytes s t

/-- CORE_VEC_EVENT and CORE_FLAGS are two registers, so the event and the flag stand beside each other. -/
theorem keep_badStep (s : State) (c g : Nat) (y : Geyser) (who : Option (Nat × W32)) (hy : y.result = some (.nan false)) :
    ∃ t, keep s (raiseFlags (setEvent (putGeyser (newCycle s) c g y) (CORE_VEC_EVENT_GEY_BADSTEP c)) c who fINV) = .next t ∧
      BadStep c g s t := by
  have hkey : (CORE_VEC_EVENT_GEY_BADSTEP c).key ≠ coreFlagsKey c := by
    simp [CORE_VEC_EVENT_GEY_BADSTEP, coreFlagsKey, CORE_FLAGS_ALL]
  have hraised : Raised (CORE_VEC_EVENT_GEY_BADSTEP c) s
      (setEvent (putGeyser (newCycle s) c g y) (CORE_VEC_EVENT_GEY_BADSTEP c)) :=
    raised_from (raised_setEvent _ _ (show 0 < 24 by decide) List.not_mem_nil) rfl
  obtain ⟨t, ht, hregs, hcores, -, -, hbytes, -⟩ :=
    keep_frame s (raiseFlags (setEvent (putGeyser (newCycle s) c g y) (CORE_VEC_EVENT_GEY_BADSTEP c)) c who fINV)
      ((raiseFlags_phase _ _ _ _).trans (setEvent_phase _ _))
  have hgey : GeyserReplaced c g y s t :=
    geyserReplaced_of_cores (hcores.trans ((raiseFlags_cores _ _ _ _).trans (setEvent_cores _ _)))
  refine ⟨t, ht, by rw [hgey.here, hy], raised_congr hraised ?_, ?_, fun k hk => ?_, hbytes⟩
  · rw [getReg_congr hregs, getReg_raiseFlags_other _ _ _ _ hkey]
  · rw [getReg_congr hregs, bitOf_raiseFlags _ _ _ (by decide) (by decide), show fINV.getLsbD 3 = true from rfl, Bool.or_true]
  · obtain ⟨hflags, hevent⟩ : k ≠ coreFlagsKey c ∧ k ≠ (CORE_VEC_EVENT_GEY_BADSTEP c).key := by simpa using hk
    rw [getReg_congr hregs, getReg_raiseFlags_other _ _ _ _ hflags, getReg_setEvent_other _ _ hevent]
    rfl

/-! ### The command of a step, by what the step computes -/

section
variable {s : State} {c g op dst sa sb imm : Nat}

theorem geyMicro_of_regs {r : SMap Val} {fl : Flags}
    (h : geyStep (getCore s c) op dst sa sb imm (geyserAt s c g).g = .regs r fl) :
    geyMicro s c g op dst sa sb imm =
      raiseFlags (putGeyser s c g { geyserAt s c g with g := r, result := none }) c (getCore s c).running fl := by
  rw [geyserAt] at h
  simp only [geyMicro, h]
  rfl

theorem geyMicro_of_ended {v : Val} (h : geyStep (getCore s c) op dst sa sb imm (geyserAt s c g).g = .ended v) :
    geyMicro s c g op dst sa sb imm = putGeyser s c g { geyserAt s c g with result := some v } := by
  rw [geyserAt] at h
  simp only [geyMicro, h]
  rfl

theorem geyMicro_of_bad (h : geyStep (getCore s c) op dst sa sb imm (geyserAt s c g).g = .bad) :
    geyMicro s c g op dst sa sb imm =
      raiseFlags (setEvent (putGeyser s c g { geyserAt s c g with result := some (.nan false) }) (CORE_VEC_EVENT_GEY_BADSTEP c))
        c (getCore s c).running fINV := by
  rw [geyserAt] at h
  simp only [geyMicro, h]
  rfl

/-- What a step that writes one register leaves: it alone of its Geyser's differs, and that Geyser alone of all. -/
def RegWritten (c g dst : Nat) (v : Val) (fl : Flags) (s t : State) : Prop :=
  FlagsJoined c fl s t ∧ (∀ i, i ≠ c → getCore t i = getCore s i) ∧
    (∀ i, i ≠ g → geyserAt t c i = geyserAt s c i) ∧ (geyserAt t c g).result = none ∧
    ∀ i, gReg (geyserAt t c g).g i = if i = dst then workVal v else gReg (geyserAt s c g).g i

variable (hs : s.phase = .ready)
include hs

/-- A step that writes registers leaves them in its Geyser, with no result, and joins its flags. -/
theorem whenReady_geyMicro_regs {r : SMap Val} {fl : Flags}
    (h : geyStep (getCore s c) op dst sa sb imm (geyserAt s c g).g = .regs r fl) :
    ∃ t, whenReady s (fun s => geyMicro s c g op dst sa sb imm) = .next t ∧ FlagsJoined c fl s t ∧
      GeyserReplaced c g { geyserAt s c g with g := r, result := none } s t := by
  rw [whenReady_of _ hs, geyMicro_of_regs (s := newCycle s) h]
  exact keep_raiseFlags_putGeyser s c g _ _ fl

theorem whenReady_geyMicro_writes {v : Val} {fl : Flags}
    (h : geyStep (getCore s c) op dst sa sb imm (geyserAt s c g).g = .regs (gSet (geyserAt s c g).g dst (workVal v)) fl) :
    ∃ t, whenReady s (fun s => geyMicro s c g op dst sa sb imm) = .next t ∧ RegWritten c g dst v fl s t := by
  obtain ⟨t, ht, hfl, hgey⟩ := whenReady_geyMicro_regs hs h
  exact ⟨t, ht, hfl, hgey.cores, hgey.geysers, by rw [hgey.here], fun i => by rw [hgey.here, gReg_gSet]⟩

/-- A step that ends its program leaves the result in its Geyser, and nothing else differs. -/
theorem whenReady_geyMicro_ended {v : Val} (h : geyStep (getCore s c) op dst sa sb imm (geyserAt s c g).g = .ended v) :
    ∃ t, whenReady s (fun s => geyMicro s c g op dst sa sb imm) = .next t ∧ t = { s with cores := t.cores } ∧
      GeyserReplaced c g { geyserAt s c g with result := some v } s t := by
  rw [whenReady_of _ hs, geyMicro_of_ended (s := newCycle s) h]
  exact ⟨_, keep_cores s _, rfl, geyserReplaced_of_cores rfl⟩

theorem whenReady_geyMicro_bad (h : geyStep (getCore s c) op dst sa sb imm (geyserAt s c g).g = .bad) :
    ∃ t, whenReady s (fun s => geyMicro s c g op dst sa sb imm) = .next t ∧ BadStep c g s t := by
  rw [whenReady_of _ hs, geyMicro_of_bad (s := newCycle s) h]
  exact keep_badStep s c g _ _ rfl

end

/-- RREDUCE leaves n in G15 and the reduced value in DST (R256). -/
theorem whenReady_geyMicro_rreduce {s : State} {c g dst sa sb imm : Nat} {t0 t1 t2 : Val} (hs : s.phase = .ready)
    (h0 : tableWord (getCore s c) imm = some t0) (h1 : tableWord (getCore s c) (imm + 1) = some t1)
    (h2 : tableWord (getCore s c) (imm + 2) = some t2) :
    let a := gReg (geyserAt s c g).g sa
    let n := nearestInt (vMul a t0).1
    let u := vAdd a (vMul n t1).1.neg
    let v := vAdd u.1 (vMul n t2).1.neg
    ∃ t, whenReady s (fun s => geyMicro s c g 0 dst sa sb imm) = .next t ∧
      FlagsJoined c ((vMul a t0).2 ||| (vMul n t1).2 ||| (vMul n t2).2 ||| u.2 ||| v.2) s t ∧
      gReg (geyserAt t c g).g 15 = workVal n ∧
      ∀ i, i ≠ 15 → gReg (geyserAt t c g).g i = if i = dst then workVal v.1 else gReg (geyserAt s c g).g i := by
  intro a n u v
  obtain ⟨t, ht, hfl, hgey⟩ := whenReady_geyMicro_regs hs (geyStep_rreduce _ dst sa sb imm _ h0 h1 h2)
  refine ⟨t, ht, hfl, ?_, fun i hi => ?_⟩
  · rw [hgey.here, gReg_gSet, if_pos rfl]
  · rw [hgey.here, gReg_gSet, if_neg hi, gReg_gSet]

/-- Settles O38: each command performs the microprogram step of its operation; what the step computes and what it leaves are
the lemmas above. -/
theorem geyserStepsWriteTheirRegister : Obligations.GeyserStepsWriteTheirRegister := by
  unfold Obligations.GeyserStepsWriteTheirRegister
  refine ⟨fun s c g dst sa sb imm hs => ⟨?mul, ?add, ?select, ?expadj, ?lookup, ?horner, ?clamp, ?rreduce, ?ended⟩, ?bad⟩
  case mul => exact whenReady_geyMicro_writes hs (geyStep_mul ..)
  case add => exact whenReady_geyMicro_writes hs (geyStep_add ..)
  case select => exact whenReady_geyMicro_writes hs (geyStep_select ..)
  case expadj => exact whenReady_geyMicro_writes hs (geyStep_expadj ..)
  case lookup => exact fun t1 h => whenReady_geyMicro_writes hs (geyStep_lookup _ _ _ _ _ _ h)
  case horner => exact fun t1 h => whenReady_geyMicro_writes hs (geyStep_horner _ _ _ _ _ _ h)
  case clamp => exact fun lo hi h0 h1 => whenReady_geyMicro_writes hs (geyStep_clamp _ _ _ _ _ _ h0 h1)
  case rreduce => exact fun t0 t1 t2 h0 h1 h2 => whenReady_geyMicro_rreduce hs h0 h1 h2
  case ended =>
    obtain ⟨t, ht, hcores, hgey⟩ := whenReady_geyMicro_ended hs
      (geyStep_end (getCore s c) 0 0 0 0 (geyserAt s c g).g)
    exact ⟨t, ht, hcores, hgey.here⟩
  case bad =>
    intro s c g dst sa imm i hs a
    rintro (⟨h, hi⟩ | ⟨h, rfl⟩)
    · simp only [List.mem_cons, List.not_mem_nil, or_false] at hi
      obtain rfl | rfl | rfl := hi
      · exact whenReady_geyMicro_bad hs (geyStep_horner_outside _ _ _ _ _ _ h)
      · exact whenReady_geyMicro_bad hs (geyStep_clamp_outside _ _ _ _ _ _ h)
      · exact whenReady_geyMicro_bad hs (geyStep_rreduce_outside _ _ _ _ _ _ h)
    · exact whenReady_geyMicro_bad hs (geyStep_lookup_outside _ _ _ _ _ _ h)

end Sys2Proof.Machine
end

section
/-! What every command and every step keeps, for whatever answer it gives: a command stops only where the patrol reads
outside the populated ranges of R261. -/

namespace Sys2Proof.Machine

/-- A patrol read where no memory is populated is a fault, in every phase of the device. -/
theorem exec_scrubPatrolRead_unpopulated (s : State) {a : BitVec 40} (h : populated a.toNat = false) :
    exec (.scrubPatrolRead a) s = .fault .unpopulated := by
  change execScrubPatrolRead a s = _
  rw [execScrubPatrolRead, h]
  rfl

/-- A command that answers a next state keeps the queue, the time, canonical memories and the fuses blown. -/
theorem kept_of_exec {i : Instr} {s t : State} (h : exec i s = .next t) : Kept s t := by
  by_cases hp : ∀ a, i = .scrubPatrolRead a → populated a.toNat = true
  · obtain ⟨u, hu, hk⟩ := exec_tame i s hp
    rw [h] at hu
    cases hu
    exact hk
  · simp only [Classical.not_forall] at hp
    obtain ⟨a, rfl, ha⟩ := hp
    rw [exec_scrubPatrolRead_unpopulated s (Bool.eq_false_iff.2 ha)] at h
    cases h

/-- Canonical memories are a matter of the memories alone. -/
theorem canonical_congr {s t : State} (hm : t.mem = s.mem) (hh : t.host = s.host) (h : Canonical s) : Canonical t := by
  unfold Canonical
  rw [hm, hh]
  exact h

/-- Settles O7: `exec_tame` gives the next state of every command but the patrol read outside the populated ranges. -/
theorem onlyPatrolOutsideMemoryStops : Obligations.OnlyPatrolOutsideMemoryStops := by
  unfold Obligations.OnlyPatrolOutsideMemoryStops
  refine ⟨fun i s h => ?_, fun a s _ ha => exec_scrubPatrolRead_unpopulated s ha⟩
  obtain ⟨t, ht, -⟩ := exec_tame i s h
  exact ⟨t, ht⟩

/-- Settles O3: a tick writes no memory, and a command that answers next keeps canonical memories. -/
theorem canonicalMemoryKeptByEveryStep : Obligations.CanonicalMemoryKeptByEveryStep := by
  unfold Obligations.CanonicalMemoryKeptByEveryStep
  intro s t hs ht
  cases hq : s.pending with
  | nil =>
    simp only [step, hq, keep] at ht
    cases ht
    exact canonical_congr rfl rfl hs
  | cons c rest =>
    simp only [step, hq] at ht
    exact (kept_of_exec ht).canonical (canonical_congr rfl rfl hs)

end Sys2Proof.Machine
end

section
/-! SUPPORT. The books of errors (R546 to R556): what counting and reporting an error changes, and which registers. -/

namespace Sys2Proof.Machine

theorem RegsBut.trans {k : List Nat} {s t u : State} (h : RegsBut k s t) (h' : RegsBut k t u) : RegsBut k s u :=
  fun j hj => (h' j hj).trans (h j hj)

theorem RegsBut.mono {k l : List Nat} {s t : State} (h : RegsBut k s t) (hkl : k ⊆ l) : RegsBut l s t :=
  fun j hj => h j (fun hk => hj (hkl hk))

theorem regsBut_congr {s t : State} (k : List Nat) (h : t.regs = s.regs) : RegsBut k s t := fun j _ => getReg_congr h j

theorem regsBut_setF (s : State) (f : RField) (v : Nat) : RegsBut [f.key] s (setF s f v) :=
  fun _ hj => getReg_setF_other s f v (by simpa using hj)

theorem regsBut_incF (s : State) (f : RField) : RegsBut [f.key] s (incF s f) :=
  fun _ hj => getReg_addF_other s f 1 (by simpa using hj)

theorem regsBut_setEvent (s : State) (f : RField) : RegsBut [f.key] s (setEvent s f) :=
  fun _ hj => getReg_setEvent_other s f (by simpa using hj)

/-- Nothing but registers, what events announce, the books of errors and the backup differs. -/
def OnlyBooks (s t : State) : Prop :=
  t = { s with
    regs := t.regs, raised := t.raised, out := t.out, msixPending := t.msixPending, backup := t.backup, fseq := t.fseq,
    errWait := t.errWait }

theorem OnlyBooks.trans {s t u : State} (h : OnlyBooks s t) (h' : OnlyBooks t u) : OnlyBooks s u := by
  unfold OnlyBooks at h h'
  rw [h', h]
  rfl

theorem OnlyBooks.phase {s t : State} (h : OnlyBooks s t) : t.phase = s.phase := by
  unfold OnlyBooks at h; rw [h]
theorem OnlyBooks.jobs {s t : State} (h : OnlyBooks s t) : t.jobs = s.jobs := by
  unfold OnlyBooks at h; rw [h]
theorem OnlyBooks.latent {s t : State} (h : OnlyBooks s t) : t.latent = s.latent := by
  unfold OnlyBooks at h; rw [h]
theorem OnlyBooks.poison {s t : State} (h : OnlyBooks s t) : t.poison = s.poison := by
  unfold OnlyBooks at h; rw [h]

theorem onlyBooks_setF (s : State) (f : RField) (v : Nat) : OnlyBooks s (setF s f v) := rfl

theorem onlyBooks_incF (s : State) (f : RField) : OnlyBooks s (incF s f) := by
  obtain ⟨r, h⟩ := addF_eq s f 1
  rw [incF, h]
  rfl

theorem onlyBooks_setEvent (s : State) (f : RField) : OnlyBooks s (setEvent s f) := by
  obtain ⟨w, r, o, p, h⟩ := setEvent_eq s f
  rw [h]
  rfl

theorem onlyBooks_count (s : State) (cnt ev : RField) : OnlyBooks s (setEvent (incF s cnt) ev) :=
  (onlyBooks_incF s cnt).trans (onlyBooks_setEvent _ ev)

/-! ### Counting an error (R548, R553, R659) -/

/-- ERR_SUMMARY with an error of a source and a class, in the register and, when it changes there, in the backup. -/
def summarise (s : State) (src cls : Nat) : State :=
  let t := setF s ERR_SUMMARY_CLASSES (getF s ERR_SUMMARY_CLASSES ||| 2 ^ cls)
  let t := setF t ERR_SUMMARY_SOURCES (getF t ERR_SUMMARY_SOURCES ||| 2 ^ (src - 1))
  if errSummary t = errSummary s then t else backupUpdate t [(24, natLE 4 (errSummary t))]

theorem onlyBooks_summarise (s : State) (src cls : Nat) : OnlyBooks s (summarise s src cls) := by
  unfold summarise
  dsimp only
  split <;> rfl

theorem regsBut_summarise (s : State) (src cls : Nat) : RegsBut [ERR_SUMMARY_CLASSES.key] s (summarise s src cls) := by
  have hset := (regsBut_setF s ERR_SUMMARY_CLASSES (getF s ERR_SUMMARY_CLASSES ||| 2 ^ cls)).trans
    (regsBut_setF _ ERR_SUMMARY_SOURCES
      (getF (setF s ERR_SUMMARY_CLASSES (getF s ERR_SUMMARY_CLASSES ||| 2 ^ cls)) ERR_SUMMARY_SOURCES ||| 2 ^ (src - 1)))
  unfold summarise
  dsimp only
  split
  · exact hset
  · exact hset

/-- The counter of a class of errors that are not FATAL. -/
def classCount : Nat → RField
  | 0 => ERR_CORRECTED_COUNT
  | 1 => ERR_CONTAINED_COUNT
  | _ => ERR_REGION_COUNT

/-- The event bit of a class of errors that are not FATAL. -/
def classEvent : Nat → RField
  | 0 => ERR_EVENT_CORRECTED
  | 1 => ERR_EVENT_CONTAINED
  | _ => ERR_EVENT_REGION

theorem countError_eq (s : State) (src : Nat) {cls : Nat} (h : cls < 3) :
    countError s src cls = setEvent (incF (summarise s src cls) (classCount cls)) (classEvent cls) := by
  obtain rfl | rfl | rfl : cls = 0 ∨ cls = 1 ∨ cls = 2 := by omega
  · rfl
  · rfl
  · rfl

theorem classEvent_key (cls : Nat) : (classEvent cls).key = ERR_EVENT_SEQ.key := by
  unfold classEvent
  split <;> rfl

/-- The counters of the classes are the registers 16 to 18 of the block ERR, each a whole word. -/
theorem classCount_eq {cls : Nat} (h : cls < 3) : classCount cls = ⟨2320 + cls, 31, 0⟩ := by
  obtain rfl | rfl | rfl : cls = 0 ∨ cls = 1 ∨ cls = 2 := by omega
  · rfl
  · rfl
  · rfl

/-! ### The record of an error (R551 to R556) -/

/-- The record of an error on its way to the ring: none while RING_EN is 0, a CORRECTED one only where 32 entries are free. -/
def fileRecord (s : State) (r : ErrRec) : State :=
  if !(flag s ERR_CTL_RING_EN) then s
  else if r.cls = 0 ∧ errFree s < 32 then setEvent (incF s ERR_CE_LOST_COUNT) ERR_EVENT_CE_LOST
  else if decide (errFree s = 0) then setEvent { s with errWait := s.errWait ++ [r] } ERR_EVENT_RING_FULL
  else { s with errWait := s.errWait ++ [r] }

/-- A report of an error that is not FATAL counts it and files its record under the next number. -/
theorem reportPlain_eq (s : State) (e : ErrInfo) {cls : Nat} (h : cls ≠ 3) :
    ∃ r, (reportPlain s e cls).2 = fileRecord (countError (takeSeq s).2 e.src cls) r := by
  unfold reportPlain
  generalize takeSeq s = p
  obtain ⟨q, u⟩ := p
  dsimp only
  generalize countError u e.src cls = v
  refine ⟨⟨errBytes v e cls q, cls, e.job⟩, ?_⟩
  rw [if_neg h]
  unfold fileRecord
  split
  · rfl
  · split
    · rfl
    · rfl

theorem onlyBooks_fileRecord (s : State) (r : ErrRec) : OnlyBooks s (fileRecord s r) := by
  unfold fileRecord
  split
  · rfl
  · split
    · exact onlyBooks_count s _ _
    · split
      · exact OnlyBooks.trans (t := { s with errWait := s.errWait ++ [r] }) rfl (onlyBooks_setEvent _ _)
      · rfl

theorem regsBut_fileRecord (s : State) (r : ErrRec) :
    RegsBut [ERR_CE_LOST_COUNT.key, ERR_EVENT_SEQ.key] s (fileRecord s r) := by
  unfold fileRecord
  split
  · exact regsBut_congr _ rfl
  · split
    · exact ((regsBut_incF s ERR_CE_LOST_COUNT).mono (by decide)).trans ((regsBut_setEvent _ ERR_EVENT_CE_LOST).mono (by decide))
    · split
      · exact (regsBut_congr (t := { s with errWait := s.errWait ++ [r] }) _ rfl).trans
          ((regsBut_setEvent _ ERR_EVENT_RING_FULL).mono (by decide))
      · exact regsBut_congr _ rfl

/-- What the report of one error of a class leaves: it is counted, and the registers of the block ERR alone differ. -/
structure Reported (cls : Nat) (s t : State) : Prop where
  counted : Counted (classCount cls) 1 s t
  books : OnlyBooks s t
  regs : RegsBut [ERR_SUMMARY_CLASSES.key, (classCount cls).key, ERR_CE_LOST_COUNT.key, ERR_EVENT_SEQ.key] s t

theorem reported_countError (s : State) (src : Nat) {cls : Nat} (h : cls < 3) : Reported cls s (countError s src cls) := by
  rw [countError_eq s src h]
  have hsum := regsBut_summarise s src cls
  have hinc := regsBut_incF (summarise s src cls) (classCount cls)
  have hev := regsBut_setEvent (incF (summarise s src cls) (classCount cls)) (classEvent cls)
  rw [classEvent_key] at hev
  refine ⟨?_, (onlyBooks_summarise s src cls).trans (onlyBooks_count _ _ _),
    ((hsum.mono (by simp)).trans (hinc.mono (by simp))).trans (hev.mono (by simp))⟩
  have hgrown : Counted (classCount cls) 1 (summarise s src cls) (incF (summarise s src cls) (classCount cls)) := by
    rw [classCount_eq h]
    refine counted_incF _ _ (show 31 < 32 by decide) (Nat.zero_le _) ?_
    obtain rfl | rfl | rfl : cls = 0 ∨ cls = 1 ∨ cls = 2 := by omega
    · rfl
    · rfl
    · rfl
  refine counted_congr (counted_from hgrown (hsum _ ?_)) (hev _ ?_)
  · rw [classCount_eq h]
    simp only [ERR_SUMMARY_CLASSES, List.mem_cons, List.not_mem_nil, or_false]
    omega
  · rw [classCount_eq h]
    simp only [ERR_EVENT_SEQ, List.mem_cons, List.not_mem_nil, or_false]
    omega

/-- What becomes of the record leaves the counter of the error's class. -/
theorem Reported.fileRecord {cls : Nat} {s t : State} (hcls : cls < 3) (h : Reported cls s t) (r : ErrRec) :
    Reported cls s (fileRecord t r) := by
  have hfile := regsBut_fileRecord t r
  refine ⟨counted_congr h.counted (hfile _ ?_), h.books.trans (onlyBooks_fileRecord t r), h.regs.trans (hfile.mono (by simp))⟩
  rw [classCount_eq hcls]
  simp only [ERR_CE_LOST_COUNT, ERR_EVENT_SEQ, List.mem_cons, List.not_mem_nil, or_false]
  omega

theorem reported_reportPlain (s : State) (e : ErrInfo) {cls : Nat} (h : cls < 3) : Reported cls s (reportPlain s e cls).2 := by
  obtain ⟨r, hr⟩ := reportPlain_eq s e (cls := cls) (by omega)
  rw [hr]
  have hrep := (reported_countError (takeSeq s).2 e.src h).fileRecord h r
  exact ⟨counted_from hrep.counted rfl, OnlyBooks.trans (t := (takeSeq s).2) rfl hrep.books,
    (regsBut_congr (t := (takeSeq s).2) _ rfl).trans hrep.regs⟩

end Sys2Proof.Machine
end

section
/-! SUPPORT. The memories of R261: the granules, and what a bit error of a core pool or of the basin leaves in its memory's
counters and events (R271, R272, R275). -/

namespace Sys2Proof.Machine

/-- Every memory begins and ends on a multiple of a granule, so that a granule lies in one memory whole. -/
theorem memKind_granule (a : Nat) : memKind (a / 8 * 8) = memKind a := by
  have hhbm : a / 8 * 8 < 0x800000000 ↔ a < 0x800000000 := by omega
  have hpool : (poolBase 0 ≤ a / 8 * 8 ∧ a / 8 * 8 < poolBase 4 ∧ (a / 8 * 8 - poolBase 0) % 0x4000000 < poolSize) ↔
      (poolBase 0 ≤ a ∧ a < poolBase 4 ∧ (a - poolBase 0) % 0x4000000 < poolSize) := by
    simp only [poolBase, poolSize]
    omega
  have hbasin : (basinBase ≤ a / 8 * 8 ∧ a / 8 * 8 < basinBase + basinSize) ↔ (basinBase ≤ a ∧ a < basinBase + basinSize) := by
    simp only [basinBase, basinSize]
    omega
  have hstore : (storeBase ≤ a / 8 * 8 ∧ a / 8 * 8 < storeBase + storeSize) ↔ (storeBase ≤ a ∧ a < storeBase + storeSize) := by
    simp only [storeBase, storeSize]
    omega
  have hcore : (a / 8 * 8 - poolBase 0) / 0x4000000 = (a - poolBase 0) / 0x4000000 := by
    simp only [poolBase]
    omega
  simp only [memKind, hhbm, hpool, hbasin, hstore, hcore]

theorem populated_of_memKind {a : Nat} {k : MemKind} (h : memKind a = some k) : populated a = true := by
  rw [populated, h]
  rfl

/-- There is a pool for each of the four cores. -/
theorem lt_four_of_memKind_pool {a c : Nat} (h : memKind a = some (.pool c)) : c < 4 := by
  unfold memKind at h
  split at h
  · cases h
  · split at h
    · rename_i hp
      cases h
      simp only [poolBase] at hp ⊢
      omega
    · split at h
      · cases h
      · split at h
        · cases h
        · cases h

/-! ### The counters of a stopped core (R629) -/

/-- The registers of core `c` lie in the core's region. -/
theorem inStopped_core (s : State) {c key : Nat} (hc : c < 4) (hk : key / 256 = 16 + c) :
    inStopped s key = (getClk s c).stopped := by
  unfold inStopped
  rw [hk]
  obtain rfl | rfl | rfl | rfl : c = 0 ∨ c = 1 ∨ c = 2 ∨ c = 3 := by omega
  · rfl
  · rfl
  · rfl
  · rfl

/-- A counter that counts one grows while its region runs, and stands else. -/
theorem counted_incF_unless_stopped (s : State) (f : RField) (h : f.hi < 32) (hl : f.lo ≤ f.hi) :
    Counted f (b2n (!(inStopped s f.key))) s (incF s f) := by
  cases hr : inStopped s f.key with
  | false => exact counted_incF s f h hl hr
  | true =>
    simp only [Counted, incF, addF, hr, if_true, Bool.not_true, b2n, Bool.false_eq_true, if_false, Nat.add_zero]
    exact (Nat.mod_eq_of_lt (bitsOf_lt _ _ _)).symm

/-! ### What an error leaves in the registers of its memory -/

/-- An error stands in a counter and an event of its memory; the block ERR (slot 9) does not know of it yet. -/
structure MemNoted (cnt ev : RField) (n : Nat) (s t : State) : Prop where
  counted : Counted cnt n s t
  raised : Raised ev s t
  books : OnlyBooks s t
  err : ∀ k, k / 256 = 9 → getReg t k = getReg s k
  outside : cnt.key / 256 ≠ 9 ∧ ev.key / 256 ≠ 9

theorem memNoted_count {s : State} {cnt ev : RField} {n : Nat} (hr : s.raised = []) (hn : n = b2n (!(inStopped s cnt.key)))
    (hcnt : cnt.hi = 31 ∧ cnt.lo = 0) (hev : ev.lo < 24) (hne : cnt.key ≠ ev.key) (hc9 : cnt.key / 256 ≠ 9)
    (he9 : ev.key / 256 ≠ 9) : MemNoted cnt ev n s (setEvent (incF s cnt) ev) := by
  have hraised : ev.key ∉ (incF s cnt).raised := by rw [incF_raised, hr]; exact List.not_mem_nil
  refine ⟨?_, ?_, onlyBooks_count s cnt ev, fun k hk => ?_, hc9, he9⟩
  · rw [hn]
    exact counted_congr (counted_incF_unless_stopped s cnt (by omega) (by omega)) (getReg_setEvent_other _ _ hne)
  · exact raised_from (raised_setEvent _ ev hev hraised) (getReg_addF_other s cnt 1 hne.symm)
  · rw [getReg_setEvent_other _ _ (by rintro rfl; exact he9 hk), incF, getReg_addF_other _ _ _ (by rintro rfl; exact hc9 hk)]

/-- The address of the error goes to a register of its own. -/
theorem MemNoted.setF {cnt ev : RField} {n : Nat} {s t : State} (h : MemNoted cnt ev n s t) (f : RField) (v : Nat)
    (hcnt : cnt.key ≠ f.key) (hev : ev.key ≠ f.key) (h9 : f.key / 256 ≠ 9) : MemNoted cnt ev n s (setF t f v) := by
  refine ⟨counted_congr h.counted (getReg_setF_other _ _ _ hcnt), raised_congr h.raised (getReg_setF_other _ _ _ hev),
    h.books.trans (onlyBooks_setF t f v), fun k hk => ?_, h.outside⟩
  rw [getReg_setF_other _ _ _ (by rintro rfl; exact h9 hk), h.err k hk]

theorem memNoted_countCe_basin {s : State} (hr : s.raised = []) :
    MemNoted BSN_SRAM_CE_COUNT BSN_EVENT_SRAM_CE 1 s (countCe s .basin) :=
  memNoted_count hr rfl ⟨rfl, rfl⟩ (by decide) (by decide) (by decide) (by decide)

theorem memNoted_countUe_basin {s : State} (g : Nat) (hr : s.raised = []) :
    MemNoted BSN_SRAM_UE_COUNT BSN_EVENT_SRAM_UE 1 s (countUe s .basin g) := by
  have h : MemNoted BSN_SRAM_UE_COUNT BSN_EVENT_SRAM_UE 1 s (setEvent (incF s BSN_SRAM_UE_COUNT) BSN_EVENT_SRAM_UE) :=
    memNoted_count hr rfl ⟨rfl, rfl⟩ (by decide) (by decide) (by decide) (by decide)
  simp only [countUe, if_true]
  split
  · exact h
  · exact ((h.setF BSN_ERR_ADDR_LO_GRANULE _ (by decide) (by decide) (by decide)).setF BSN_ERR_ADDR_HI_GRANULE _
      (by decide) (by decide) (by decide)).setF BSN_ERR_ADDR_HI_VALID _ (by decide) (by decide) (by decide)

theorem memNoted_countCe_pool {s : State} {c : Nat} (hc : c < 4) (hr : s.raised = []) :
    MemNoted (CORE_POOL_CE_COUNT c) (CORE_POOL_EVENT_CE c) (b2n (!(getClk s c).stopped)) s (countCe s (.pool c)) := by
  refine memNoted_count hr ?_ ⟨rfl, rfl⟩ (by simp [CORE_POOL_EVENT_CE]) ?_ ?_ ?_
  · rw [inStopped_core s hc (by simp only [CORE_POOL_CE_COUNT]; omega)]
  all_goals
    simp only [CORE_POOL_CE_COUNT, CORE_POOL_EVENT_CE]
    omega

theorem memNoted_countUe_pool {s : State} {c : Nat} (g : Nat) (hc : c < 4) (hr : s.raised = []) :
    MemNoted (CORE_POOL_UE_COUNT c) (CORE_POOL_EVENT_UE c) (b2n (!(getClk s c).stopped)) s (countUe s (.pool c) g) := by
  have h : MemNoted (CORE_POOL_UE_COUNT c) (CORE_POOL_EVENT_UE c) (b2n (!(getClk s c).stopped)) s
      (setEvent (incF s (CORE_POOL_UE_COUNT c)) (CORE_POOL_EVENT_UE c)) := by
    refine memNoted_count hr ?_ ⟨rfl, rfl⟩ (by simp [CORE_POOL_EVENT_UE]) ?_ ?_ ?_
    · rw [inStopped_core s hc (by simp only [CORE_POOL_UE_COUNT]; omega)]
    all_goals
      simp only [CORE_POOL_UE_COUNT, CORE_POOL_EVENT_UE]
      omega
  simp only [countUe]
  split
  · exact h
  · refine (h.setF (CORE_POOL_ERR_ADDR_GRANULE c) _ ?_ ?_ ?_).setF (CORE_POOL_ERR_ADDR_VALID c) _ ?_ ?_ ?_
    all_goals
      simp only [CORE_POOL_UE_COUNT, CORE_POOL_EVENT_UE, CORE_POOL_ERR_ADDR_GRANULE, CORE_POOL_ERR_ADDR_VALID]
      omega

end Sys2Proof.Machine
end

section
/-! The patrol, refresh and temperature reports (R275, R279, R280). -/

namespace Sys2Proof.Machine

/-! ### Answers of commands that leave memory alone -/

/-- A command that finds nothing to do answers with the state as it was. -/
theorem keep_newCycle (s : State) : keep s (newCycle s) = .next s := rfl

/-- A command that stores one field leaves all else. -/
theorem keep_setF (s : State) (f : RField) (v : Nat) : keep s (setF (newCycle s) f v) = .next (setF s f v) := rfl

theorem onlyRegs_setF (s : State) (f : RField) (v : Nat) : OnlyRegs [f.key] s (setF s f v) := ⟨rfl, regsBut_setF s f v⟩

theorem onlyRegs_incF (s : State) (f : RField) : OnlyRegs [f.key] s (incF s f) := by
  refine ⟨?_, regsBut_incF s f⟩
  obtain ⟨r, h⟩ := addF_eq s f 1
  rw [incF, h]

/-! ### What the patrol does with a granule -/

/-- The memories that the patrol reads (R275). -/
def MemKind.patrolled : MemKind → Bool
  | .pool _ | .basin => true
  | .hbm | .store => false

theorem MemKind.patrolled_cases {k : MemKind} (h : k.patrolled = true) : (∃ c, k = .pool c) ∨ k = .basin := by
  cases k with
  | pool c => exact .inl ⟨c, rfl⟩
  | basin => exact .inr rfl
  | hbm => cases h
  | store => cases h

theorem errGranules_patrolled {k : MemKind} (h : k.patrolled = true) (g : Nat) : errGranules k g = [g] := by
  obtain ⟨c, rfl⟩ | rfl := MemKind.patrolled_cases h
  · rfl
  · rfl

theorem patrolRead_patrolled {s : State} {a : Nat} {k : MemKind} (hk : memKind a = some k) (hp : k.patrolled = true)
    (hon : flag s BSN_SCRUB_CTL_SCRUB_EN = true) : patrolRead s a = (eccRead s none (a / 8 * 8)).2 := by
  obtain ⟨c, rfl⟩ | rfl := MemKind.patrolled_cases hp
  · simp only [patrolRead, hk, hon, if_true]
  · simp only [patrolRead, hk, hon, if_true]

/-- Where the patrol does not read it does nothing: in a memory that is not patrolled, and while SCRUB_EN is 0. -/
theorem patrolRead_elsewhere {s : State} {a : Nat} {k : MemKind} (hk : memKind a = some k)
    (h : k.patrolled = false ∨ flag s BSN_SCRUB_CTL_SCRUB_EN = false) : patrolRead s a = s := by
  cases hp : k.patrolled with
  | true =>
    have hoff := h.resolve_left (by simp [hp])
    obtain ⟨c, rfl⟩ | rfl := MemKind.patrolled_cases hp
    · simp [patrolRead, hk, hoff]
    · simp [patrolRead, hk, hoff]
  | false =>
    cases k with
    | pool c => cases hp
    | basin => cases hp
    | hbm => simp only [patrolRead, hk]
    | store => simp only [patrolRead, hk]

/-- The state in which a flipped granule's error is counted: its bits are set right, or it has joined the marked ones. -/
def granuleCleared (s : State) (g : Nat) (p : List Nat) : State := newCycle { s with latent := smPut 0 s.latent g 0, poison := p }

section
variable {s : State} {g : Nat} {k : MemKind} (hk : memKind g = some k) (hp : k.patrolled = true)
include hk hp

/-- A granule that is marked, or has no flipped bit, reads without an event. -/
theorem eccRead_nothing (h : s.poison.contains g = true ∨ smGet 0 s.latent g = 0) : (eccRead s none g).2 = s := by
  simp only [eccRead, hk, errGranules_patrolled hp, List.foldl_cons, List.foldl_nil, Nat.zero_add]
  split
  · rfl
  · rename_i hpo
    rw [if_pos (h.resolve_left hpo)]

/-- One flipped bit is corrected, counted and reported as CORRECTED (R271). -/
theorem eccRead_single (hpo : s.poison.contains g = false) (hl : smGet 0 s.latent g = 1) :
    ∃ e, (eccRead s none g).2 = (reportPlain (countCe (granuleCleared s g s.poison) k) e 0).2 := by
  simp only [eccRead, hk, errGranules_patrolled hp, List.foldl_cons, List.foldl_nil, Nat.zero_add, hpo, hl, Nat.one_ne_zero,
    Bool.false_eq_true, if_true, if_false]
  exact ⟨_, rfl⟩

/-- Two flipped bits mark the granule, and are counted and reported as CONTAINED (R272). -/
theorem eccRead_double (hpo : s.poison.contains g = false) (hl : 2 ≤ smGet 0 s.latent g) :
    ∃ e, (eccRead s none g).2 = (reportPlain (countUe (granuleCleared s g (natInsert g s.poison)) k g) e 1).2 := by
  have h0 : smGet 0 s.latent g ≠ 0 := by omega
  have h1 : smGet 0 s.latent g ≠ 1 := by omega
  simp only [eccRead, hk, errGranules_patrolled hp, List.foldl_cons, List.foldl_nil, Nat.zero_add, hpo, h0, h1,
    Bool.false_eq_true, if_false]
  exact ⟨_, rfl⟩

end

/-- A report changes no register outside the block ERR (slot 9). -/
theorem Reported.getReg_outside {cls : Nat} {s t : State} (h : Reported cls s t) (hcls : cls < 3) {j : Nat} (hj : j / 256 ≠ 9) :
    getReg t j = getReg s j := by
  refine h.regs j ?_
  rw [classCount_eq hcls]
  simp only [ERR_SUMMARY_CLASSES, ERR_CE_LOST_COUNT, ERR_EVENT_SEQ, List.mem_cons, List.not_mem_nil, or_false]
  omega

/-- What a patrol read that found an error of a class leaves: the granule has no flipped bit, the error stands in its memory's
counter and event and in the counter of its class, and no job is touched. -/
def PatrolNoted (g : Nat) (cnt ev errs : RField) (n : Nat) (p : List Nat) (s t : State) : Prop :=
  (t.jobs = s.jobs ∧ SameFrame s t ∧ smGet 0 t.latent g = 0 ∧ ∀ h, h ≠ g → smGet 0 t.latent h = smGet 0 s.latent h) ∧
    Counted cnt n s t ∧ Raised ev s t ∧ Counted errs 1 s t ∧ t.poison = p

theorem keep_patrolNoted {s v w : State} {g cls n : Nat} {p : List Nat} {cnt ev : RField} (hcls : cls < 3)
    (hv : MemNoted cnt ev n (granuleCleared s g p) v) (hw : Reported cls v w) :
    ∃ t, keep s w = .next t ∧ PatrolNoted g cnt ev (classCount cls) n p s t := by
  have hbooks := hv.books.trans hw.books
  have hlatent : w.latent = smPut 0 s.latent g 0 := hbooks.latent
  have hcnt := hw.getReg_outside hcls hv.outside.1
  have hev := hw.getReg_outside hcls hv.outside.2
  have hclass : (classCount cls).key / 256 = 9 := by
    rw [classCount_eq hcls]
    simp only
    omega
  refine ⟨_, rfl, ⟨hbooks.jobs, ⟨rfl, rfl, sameBytes_of rfl rfl, hbooks.phase, rfl, rfl⟩, ?_, fun h hne => ?_⟩, ?_, ?_, ?_,
    hbooks.poison⟩
  · change smGet 0 w.latent g = 0
    rw [hlatent, smGet_smPut_same]
  · change smGet 0 w.latent h = smGet 0 s.latent h
    rw [hlatent, smGet_smPut_other _ _ _ hne]
  · exact counted_from (counted_congr hv.counted hcnt) rfl
  · exact raised_from (raised_congr hv.raised hev) rfl
  · exact counted_from hw.counted (hv.err _ hclass)

/-! ### The command of the patrol -/

section
variable {s : State} {a : BitVec 40} {k : MemKind} (hs : s.phase = .ready) (hk : memKind a.toNat = some k)
include hs hk

theorem exec_patrol : exec (.scrubPatrolRead a) s = keep s (patrolRead (newCycle s) a.toNat) := by
  change execScrubPatrolRead a s = _
  rw [execScrubPatrolRead, if_pos (populated_of_memKind hk), whenReady_of _ hs]

theorem exec_patrol_elsewhere (h : k.patrolled = false ∨ flag s BSN_SCRUB_CTL_SCRUB_EN = false) :
    exec (.scrubPatrolRead a) s = .next s := by
  rw [exec_patrol hs hk, patrolRead_elsewhere (s := newCycle s) hk h, keep_newCycle]

variable (hp : k.patrolled = true) (hon : flag s BSN_SCRUB_CTL_SCRUB_EN = true)
include hp hon

theorem exec_patrol_on : exec (.scrubPatrolRead a) s = keep s (eccRead (newCycle s) none (a.toNat / 8 * 8)).2 := by
  rw [exec_patrol hs hk, patrolRead_patrolled (s := newCycle s) hk hp hon]

theorem exec_patrol_nothing
    (h : s.poison.contains (a.toNat / 8 * 8) = true ∨ smGet 0 s.latent (a.toNat / 8 * 8) = 0) :
    exec (.scrubPatrolRead a) s = .next s := by
  rw [exec_patrol_on hs hk hp hon, eccRead_nothing (s := newCycle s) ((memKind_granule _).trans hk) hp h, keep_newCycle]

variable {cnt ev : RField} {n : Nat} (hpo : s.poison.contains (a.toNat / 8 * 8) = false)
include hpo

theorem exec_patrol_single (hl : smGet 0 s.latent (a.toNat / 8 * 8) = 1)
    (hc : ∀ u : State, u.raised = [] → u.clk = s.clk → MemNoted cnt ev n u (countCe u k)) :
    ∃ t, exec (.scrubPatrolRead a) s = .next t ∧
      PatrolNoted (a.toNat / 8 * 8) cnt ev ERR_CORRECTED_COUNT n s.poison s t := by
  obtain ⟨e, he⟩ := eccRead_single (s := newCycle s) ((memKind_granule _).trans hk) hp hpo hl
  rw [exec_patrol_on hs hk hp hon, he]
  exact keep_patrolNoted (cls := 0) (by decide) (hc _ rfl rfl) (reported_reportPlain _ e (by decide))

theorem exec_patrol_double (hl : 2 ≤ smGet 0 s.latent (a.toNat / 8 * 8))
    (hc : ∀ u : State, u.raised = [] → u.clk = s.clk → MemNoted cnt ev n u (countUe u k (a.toNat / 8 * 8))) :
    ∃ t, exec (.scrubPatrolRead a) s = .next t ∧
      PatrolNoted (a.toNat / 8 * 8) cnt ev ERR_CONTAINED_COUNT n (natInsert (a.toNat / 8 * 8) s.poison) s t := by
  obtain ⟨e, he⟩ := eccRead_double (s := newCycle s) ((memKind_granule _).trans hk) hp hpo hl
  rw [exec_patrol_on hs hk hp hon, he]
  exact keep_patrolNoted (cls := 1) (by decide) (hc _ rfl rfl) (reported_reportPlain _ e (by decide))

end

/-! ### Refresh and temperature -/

/-- A refresh that delays an access adds one to BSN_REFRESH_STALL, whose block stands in no region that stops (R279). -/
theorem exec_hbmRefresh_delayed {s : State} (hs : s.phase = .ready) :
    exec (.hbmRefresh true) s = .next (incF s BSN_REFRESH_STALL_COUNT) := by
  change execHbmRefresh true s = _
  rw [execHbmRefresh, whenReady_of _ hs]
  rfl

theorem exec_hbmRefresh_undelayed {s : State} (hs : s.phase = .ready) : exec (.hbmRefresh false) s = .next s := by
  change execHbmRefresh false s = _
  rw [execHbmRefresh, whenReady_of _ hs]
  rfl

theorem exec_hbmHot_hot {s : State} (hs : s.phase = .ready) (st : Fin 2) {temp : BitVec 16} (h : temp.toInt ≥ 1360) :
    exec (.hbmHot st temp) s = .next (setF s BSN_HBM_STAT_HOT (getF s BSN_HBM_STAT_HOT ||| 2 ^ st.val)) := by
  change execHbmHot st temp s = _
  rw [execHbmHot, whenReady_of _ hs, hbmHot, if_pos h]
  exact keep_setF s _ _

theorem exec_hbmHot_cooler {s : State} (hs : s.phase = .ready) (st : Fin 2) {temp : BitVec 16} (h : temp.toInt < 1360) :
    exec (.hbmHot st temp) s = .next s := by
  change execHbmHot st temp s = _
  rw [execHbmHot, whenReady_of _ hs, hbmHot, if_neg (by omega), keep_newCycle]

/-- HOT has a bit for each of the two stacks; a bit set in it leaves the other. -/
theorem bitOf_hot_set (s : State) (st : Fin 2) {i : Nat} (hi : i < 2) :
    bitOf (getF (setF s BSN_HBM_STAT_HOT (getF s BSN_HBM_STAT_HOT ||| 2 ^ st.val)) BSN_HBM_STAT_HOT) i =
      (bitOf (getF s BSN_HBM_STAT_HOT) i || decide (i = st.val)) := by
  rw [getF_setF_same _ _ _ (by decide) (by decide), bitOf_eq, bitOf_eq, Nat.testBit_mod_two_pow, Nat.testBit_or,
    Nat.testBit_two_pow, decide_eq_true (show i < BSN_HBM_STAT_HOT.hi - BSN_HBM_STAT_HOT.lo + 1 from hi), Bool.true_and]
  simp only [eq_comm]

/-- Settles O45: the patrol by what it finds in the granule and by the memory the granule lies in, then refresh and
temperature. -/
theorem patrolRefreshAndHotReports : Obligations.PatrolRefreshAndHotReports := by
  unfold Obligations.PatrolRefreshAndHotReports
  intro s hs
  refine ⟨?patrol, ?otherMemory, ?scrubOff, fun a ha => exec_scrubPatrolRead_unpopulated s ha, ?delayed,
    exec_hbmRefresh_undelayed hs, ?hot, fun st temp h => exec_hbmHot_cooler hs st h⟩
  case patrol =>
    rintro a k ce ceBit ue ueBit n hk hon (⟨rfl, rfl, rfl, rfl, rfl, rfl⟩ | ⟨c, rfl, rfl, rfl, rfl, rfl, rfl⟩)
    · exact ⟨exec_patrol_nothing hs hk rfl hon,
        fun hpo hl => exec_patrol_single hs hk rfl hon hpo hl fun u hr _ => memNoted_countCe_basin hr,
        fun hpo hl => exec_patrol_double hs hk rfl hon hpo hl fun u hr _ => memNoted_countUe_basin _ hr⟩
    · have hc := lt_four_of_memKind_pool hk
      have hclk (u : State) (h : u.clk = s.clk) : getClk s c = getClk u c := by rw [getClk, getClk, h]
      exact ⟨exec_patrol_nothing hs hk rfl hon,
        fun hpo hl => exec_patrol_single hs hk rfl hon hpo hl fun u hr h => hclk u h ▸ memNoted_countCe_pool hc hr,
        fun hpo hl => exec_patrol_double hs hk rfl hon hpo hl fun u hr h => hclk u h ▸ memNoted_countUe_pool _ hc hr⟩
  case otherMemory =>
    rintro a (hk | hk)
    · exact exec_patrol_elsewhere hs hk (.inl rfl)
    · exact exec_patrol_elsewhere hs hk (.inl rfl)
  case scrubOff =>
    intro a ha hoff
    obtain ⟨k, hk⟩ := Option.isSome_iff_exists.1 ha
    exact exec_patrol_elsewhere hs hk (.inr hoff)
  case delayed =>
    exact ⟨_, exec_hbmRefresh_delayed hs, counted_incF s _ (by decide) (by decide) rfl, onlyRegs_incF s _⟩
  case hot =>
    exact fun st temp h => ⟨_, exec_hbmHot_hot hs st h, fun i hi => bitOf_hot_set s st hi, onlyRegs_setF s _ _⟩

end Sys2Proof.Machine
end

section
/-! SUPPORT. A job that is ready works in the state `working`, and when it ends it is done with its status and its DETAIL,
and nothing but jobs and cores differs (R446, R447, R459). -/

namespace Sys2Proof.Machine

/-! ### Finding a job -/

/-- The job found is the one asked for. -/
theorem key_of_findJob {s : State} {k : Nat} {sub : W32} {j : Job} (h : findJob s k sub = some j) : j.ctx = k ∧ j.sub = sub := by
  simpa using List.find?_some h

/-- A change of each job that leaves its context and number changes the job found. -/
theorem findJob_map {s t : State} {f : Job → Job} (h : t.jobs = s.jobs.map f) (hf : ∀ j, (f j).ctx = j.ctx ∧ (f j).sub = j.sub)
    (k : Nat) (sub : W32) : findJob t k sub = (findJob s k sub).map f := by
  simp only [findJob, h, List.find?_map, Function.comp_def, hf]

theorem findJob_congr {s t : State} (h : t.jobs = s.jobs) (k : Nat) (sub : W32) : findJob t k sub = findJob s k sub := by
  rw [findJob, h, findJob]

/-- A job is found as it was changed. -/
theorem findJob_updJob_same {s : State} {k : Nat} {sub : W32} {j : Job} {f : Job → Job} (h : findJob s k sub = some j)
    (hf : ∀ j, (f j).ctx = j.ctx ∧ (f j).sub = j.sub) : findJob (updJob s k sub f) k sub = some (f j) := by
  refine (findJob_map (s := s) rfl (fun x => ?_) k sub).trans ?_
  · split
    · exact hf x
    · exact ⟨rfl, rfl⟩
  · rw [h, Option.map_some, if_pos (key_of_findJob h)]

/-! ### The end of a job -/

/-- The end of a MOOR's target leaves a job that is done. -/
theorem findJob_resolveMoors_of_done {s : State} {k k' : Nat} {sub sub' : W32} {j : Job} (h : findJob s k sub = some j)
    (hj : j.phase = .done) (d : Nat) : findJob (resolveMoors s k' sub' d) k sub = some j := by
  refine (findJob_map (s := s) rfl (fun m => ?_) k sub).trans ?_
  · split
    · split
      · exact ⟨rfl, rfl⟩
      · exact ⟨rfl, rfl⟩
    · exact ⟨rfl, rfl⟩
  · rw [h, Option.map_some]
    split
    · rename_i hrun
      cases hj.symm.trans hrun
    · rfl

theorem releaseCore_eq (s : State) (j : Job) : ∃ cores, releaseCore s j = { s with cores := cores } := by
  unfold releaseCore
  split
  · exact ⟨s.cores, rfl⟩
  · exact ⟨_, rfl⟩

@[simp] theorem releaseCore_jobs (s : State) (j : Job) : (releaseCore s j).jobs = s.jobs := by
  obtain ⟨_, h⟩ := releaseCore_eq s j; rw [h]

/-- The end of a job changes jobs and cores alone. -/
theorem endJob_eq (s : State) (k : Nat) (sub : W32) (status : Nat) (detail : Option W32) (q : W32) :
    ∃ cores jobs, endJob s k sub status detail q = { s with cores := cores, jobs := jobs } := by
  unfold endJob
  split
  · exact ⟨s.cores, s.jobs, rfl⟩
  · split
    · exact ⟨s.cores, s.jobs, rfl⟩
    · rename_i j _ _
      obtain ⟨cores, h⟩ := releaseCore_eq s j
      rw [h]
      exact ⟨cores, _, rfl⟩

@[simp] theorem endJob_world (s : State) (k : Nat) (sub : W32) (status : Nat) (detail : Option W32) (q : W32) :
    (endJob s k sub status detail q).world = s.world := by
  obtain ⟨_, _, h⟩ := endJob_eq s k sub status detail q; rw [h]

theorem endJob_sameBytes (s : State) (k : Nat) (sub : W32) (status : Nat) (detail : Option W32) (q : W32) :
    SameBytes s (endJob s k sub status detail q) := by
  obtain ⟨_, _, h⟩ := endJob_eq s k sub status detail q
  rw [h]
  exact sameBytes_of rfl rfl

/-- A job that is not yet done ends with the status and the DETAIL given. -/
theorem doneDetail_endJob {s : State} {k : Nat} {sub : W32} (h : (findJob s k sub).map Job.isDone = some false) (status : Nat)
    (d q : W32) : DoneDetail (endJob s k sub status (some d) q) k sub status d := by
  obtain ⟨j, hj, hdone⟩ := Option.map_eq_some_iff.1 h
  have hreleased : findJob (releaseCore s j) k sub = some j := (findJob_congr (releaseCore_jobs s j) k sub).trans hj
  simp only [endJob, hj, hdone, Bool.false_eq_true, if_false]
  refine ⟨_, findJob_resolveMoors_of_done (findJob_updJob_same hreleased ?keys) ?done _, rfl, rfl, ?detail⟩
  case keys => exact fun _ => ⟨rfl, rfl⟩
  case done => rfl
  case detail => rw [BitVec.ofNat_toNat, BitVec.setWidth_eq]

/-! ### A job at work -/

@[simp] theorem working_world (s : State) (j : Job) : (working s j).world = s.world := by
  unfold working
  split
  · rfl
  · rfl

/-- A ready job of the wanted kind does its work, in the state in which it has taken its unit. -/
theorem performJob_of_jobReady {s : State} {k : Nat} {sub : W32} {j x : Job} {wants : JobBody → Bool} {free : Bool}
    (run : State → Job → State) (hj : findJob s k sub = some j) (hw : wants j.desc.body = true)
    (hr : JobReady s j (free && isTurn s j)) (hx : findJob (working s j) k sub = some x) :
    performJob s k sub wants free run = run (working s j) x := by
  obtain ⟨hclk, hstart⟩ := hr
  simp only [performJob, performWhen, hj, hw, hclk, Bool.not_true, Bool.or_false, Bool.false_eq_true, if_false]
  by_cases hrun : j.phase = .running
  · rw [working, if_pos hrun] at hx ⊢
    rw [if_pos hrun, Option.some.inj (hj.symm.trans hx)]
  · obtain ⟨hmay, hcommon, hkind, hturn, hopen⟩ := hstart.resolve_left hrun
    rw [working, if_neg hrun] at hx ⊢
    simp only [hrun, hmay, hcommon, hkind, hturn, hopen, hx, Bool.and_self, Bool.not_true, Bool.false_eq_true, if_true, if_false]

/-! ### The answer -/

theorem SameBytes.refl (s : State) : SameBytes s s := sameBytes_of rfl rfl

theorem SameBytes.trans {s t u : State} (h : SameBytes s t) (h' : SameBytes t u) : SameBytes s u :=
  ⟨fun a => (h'.1 a).trans (h.1 a), fun a => (h'.2 a).trans (h.2 a)⟩

theorem doneDetail_congr {s t : State} {k : Nat} {sub : W32} {status : Nat} {d : W32} (ht : t.jobs = s.jobs)
    (h : DoneDetail s k sub status d) : DoneDetail t k sub status d := by
  rw [DoneDetail, findJob_congr ht]
  exact h

/-- A command that may write memory answers a state with the jobs, the world and the bytes it computes. -/
theorem commit_next (s t : State) : ∃ u, commit s t = .next u ∧ u.jobs = t.jobs ∧ u.world = t.world ∧ SameBytes t u :=
  ⟨_, rfl, rfl, rfl, fun a => smGet_smNorm 0 t.mem a, fun a => smGet_smNorm 0 t.host a⟩

end Sys2Proof.Machine
end

section
/-! A WORLD job whose records merge commits one generation (R308, R311, R312). -/

namespace Sys2Proof.Machine

/-! ### Placing a brick's copy (R315)

A new copy is written to its slot and to its home granule by granule, each with the bytes it holds: what a copy looks like
in memory is free (log entry 56). -/

/-- The jobs, the generation, the bricks and every byte are as they were. -/
structure WorldStands (s t : State) : Prop where
  jobs : t.jobs = s.jobs
  gen : t.world.gen = s.world.gen
  bricks : t.world.bricks = s.world.bricks
  bytes : SameBytes s t

theorem WorldStands.refl (s : State) : WorldStands s s := ⟨rfl, rfl, rfl, .refl s⟩

theorem WorldStands.trans {s t u : State} (h : WorldStands s t) (h' : WorldStands t u) : WorldStands s u :=
  ⟨h'.jobs.trans h.jobs, h'.gen.trans h.gen, h'.bricks.trans h.bricks, h.bytes.trans h'.bytes⟩

/-- What leaves the world standing at each step of a fold leaves it standing over the whole. -/
theorem WorldStands.foldl {α : Type} {f : State → α → State} (h : ∀ s x, WorldStands s (f s x)) (l : List α) (s : State) :
    WorldStands s (l.foldl f s) :=
  List.foldlRecOn l f (.refl s) fun t ht x _ => ht.trans (h t x)

/-- Bytes written back where they were read leave every byte as it was. -/
theorem smGet_smWrite_smRead {α : Type} [DecidableEq α] (d : α) (m : SMap α) (a n j : Nat) :
    smGet d (smWrite d m a (smRead d m a n)) j = smGet d m j := by
  have hlen : (smRead d m a n).length = n := by simp [smRead]
  rw [smGet_smWrite, hlen]
  split
  · rename_i hj
    have hlt : j - a < n := by omega
    rw [smRead_eq, List.getD_eq_getElem?_getD, List.getElem?_map, List.getElem?_range hlt, Option.map_some, Option.getD_some,
      Nat.add_sub_cancel' hj.1]
  · rfl

/-- A whole granule is written without a read, and its error and its mark go (R273). -/
theorem granuleWrite_whole (s : State) (who : Option (Nat × W32)) (a : Nat) {l : List Byte} (h : l.length = 8) :
    ∃ poison latent injectAt, (granuleWrite s who a l).2 =
      { rawWrite s a l with poison := poison, latent := latent, injectAt := injectAt } := by
  simp only [granuleWrite, h, if_true]
  split
  · split
    · exact ⟨_, _, _, rfl⟩
    · exact ⟨_, _, _, rfl⟩
  · exact ⟨_, _, _, rfl⟩

theorem worldStands_granuleWrite_rawRead (s : State) (who : Option (Nat × W32)) (g : Nat) :
    WorldStands s (granuleWrite s who g (rawRead s g 8)).2 := by
  obtain ⟨_, _, _, h⟩ := granuleWrite_whole s who g (l := rawRead s g 8) (by simp [rawRead, smRead])
  rw [h]
  exact ⟨rfl, rfl, rfl, fun a => smGet_smWrite_smRead 0 s.mem g 8 a, fun _ => rfl⟩

theorem worldStands_storePut (s : State) (kind i n : Nat) : WorldStands s (storePut s kind i n) :=
  .foldl (fun t _ => worldStands_granuleWrite_rawRead t none _) _ s

theorem worldStands_homePut (s : State) (n : Nat) : WorldStands s (homePut s n) :=
  .foldl (fun t _ => .foldl (fun u _ => worldStands_granuleWrite_rawRead u none _) _ t) _ s

theorem worldStands_setSlots (s : State) (l : List Nat) : WorldStands s { s with world := { s.world with slots := l } } :=
  ⟨rfl, rfl, rfl, sameBytes_of rfl rfl⟩

theorem worldStands_incF (s : State) (f : RField) : WorldStands s (incF s f) :=
  ⟨incF_jobs s f, by rw [incF_world], by rw [incF_world], sameBytes_of (incF_mem s f) (incF_host s f)⟩

theorem worldStands_evictBrick (s : State) : WorldStands s (evictBrick s) := by
  unfold evictBrick
  split
  · exact .refl s
  · split
    · exact (worldStands_setSlots s _).trans (worldStands_incF _ _)
    · exact .refl s

theorem worldStands_placeBrick (s : State) (n : Nat) : WorldStands s (placeBrick s n) := by
  have hroom : WorldStands s (if s.world.slots.contains n then s else evictBrick s) := by
    split
    · exact .refl s
    · exact worldStands_evictBrick s
  exact ((hroom.trans (worldStands_setSlots _ _)).trans (worldStands_storePut _ _ _ _)).trans (worldStands_homePut _ n)

/-! ### One generation (R311, R312) -/

/-- Writing the changed bricks leaves each brick that is not among them. -/
theorem smGet_foldl_smPut_other {α β : Type} [DecidableEq α] (d : α) (v : SMap α → Nat × β → α) (ch : List (Nat × β)) {n : Nat}
    (h : ∀ p ∈ ch, p.1 ≠ n) (m : SMap α) : smGet d (ch.foldl (fun m p => smPut d m p.1 (v m p)) m) n = smGet d m n :=
  List.foldlRecOn (motive := fun t => smGet d t n = smGet d m n) ch _ rfl fun t ht p hp =>
    (smGet_smPut_other d t _ (h p hp).symm).trans ht

theorem worldStands_repin (s : State) : WorldStands s (repin s) := ⟨rfl, rfl, rfl, sameBytes_of rfl rfl⟩

/-- A commit makes one generation more, leaves each brick that no change names, and then places the new copies. -/
theorem commitWorld_stands (s : State) (changes : SMap (Option (Option (List Nat)))) (all : Bool) :
    ∃ w : World, w.gen = s.world.gen + 1 ∧ (∀ n, (∀ p ∈ changes, p.1 ≠ n) → getBrick w n = getBrick s.world n) ∧
      WorldStands { s with world := w } (commitWorld s changes all) := by
  refine ⟨_, ?gen, ?bricks, (WorldStands.foldl (fun t p => ?place) _ _).trans (worldStands_repin _)⟩
  case gen => rfl
  case bricks =>
    refine fun n hn => smGet_foldl_smPut_other _ _ _ (fun q hq => ?_) _
    obtain ⟨p, hp, hpq⟩ := List.mem_filterMap.1 hq
    obtain ⟨l, -, rfl⟩ := Option.map_eq_some_iff.1 hpq
    exact hn p hp
  case place =>
    split
    · exact worldStands_placeBrick t p.1
    · exact .refl t

@[simp] theorem commitWorld_jobs (s : State) (changes : SMap (Option (Option (List Nat)))) (all : Bool) :
    (commitWorld s changes all).jobs = s.jobs := by
  obtain ⟨_, -, -, h⟩ := commitWorld_stands s changes all
  exact h.jobs

@[simp] theorem commitWorld_gen (s : State) (changes : SMap (Option (Option (List Nat)))) (all : Bool) :
    (commitWorld s changes all).world.gen = s.world.gen + 1 := by
  obtain ⟨_, hgen, -, h⟩ := commitWorld_stands s changes all
  exact h.gen.trans hgen

theorem getBrick_commitWorld_other (s : State) {changes : SMap (Option (Option (List Nat)))} (all : Bool) {n : Nat}
    (hn : ∀ p ∈ changes, p.1 ≠ n) : getBrick (commitWorld s changes all).world n = getBrick s.world n := by
  obtain ⟨w, -, hbricks, h⟩ := commitWorld_stands s changes all
  rw [getBrick, h.bricks]
  exact hbricks n hn

theorem commitWorld_sameBytes (s : State) (changes : SMap (Option (Option (List Nat)))) (all : Bool) :
    SameBytes s (commitWorld s changes all) := by
  obtain ⟨_, -, -, h⟩ := commitWorld_stands s changes all
  exact h.bytes

/-! ### The job -/

/-- A WORLD job whose records merge commits what they changed, and ends with the new generation as its DETAIL (R308, R311). -/
theorem worldWork_merged {s u : State} {j : Job} {list count : Nat} {m : Merge} (hm : j.pendingMoors = [])
    (hb : j.desc.body = .world list count)
    (h : runOp (mergeRecords (some (j.ctx, j.sub)) j.ctx count list ⟨[], (presentBricks s.world).length⟩) s = (.ok m, u)) :
    worldWork s j = endJob (commitWorld u m.changes false) j.ctx j.sub 0 (some (BitVec.ofNat 32 (u.world.gen + 1))) 0 := by
  simp only [worldWork, pointMoor, hm, hb, h, World.word, commitWorld_gen]

theorem exec_jobWorld {s : State} (hs : s.phase = .ready) (hr : s.raised = []) (k : Fin 8) (sub : W32) :
    exec (.jobWorld k sub) s = commit s (worldJob s k sub) := by
  have hcycle : newCycle s = s := by rw [newCycle, ← hr]
  change execJobWorld k sub s = _
  rw [execJobWorld, whenReadyMem_of _ hs, hcycle]

/-- Settles O28: the ready job does its work, whose commit is the one generation; the end of the job and the canonical form
of the answer's memories leave the world and every byte. -/
theorem worldJobCommitsOneGeneration : Obligations.WorldJobCommitsOneGeneration := by
  unfold Obligations.WorldJobCommitsOneGeneration
  intro s u k sub j x list count m hs hr hj hbody hready hx hmoors hxbody hmerge
  have hwork : worldJob s k sub =
      endJob (commitWorld u m.changes false) k sub 0 (some (BitVec.ofNat 32 (u.world.gen + 1))) 0 := by
    obtain ⟨hctx, hsub⟩ := key_of_findJob hx
    rw [worldJob, performJob_of_jobReady worldWork hj (by rw [hbody, JobBody.isWorld]) hready hx,
      worldWork_merged hmoors hxbody (by rw [hctx, hsub, working_world]; exact hmerge), hctx, hsub]
  obtain ⟨t, ht, hjobs, hworld, hbytes⟩ := commit_next s (worldJob s k sub)
  rw [hwork] at hjobs hworld hbytes
  rw [endJob_world] at hworld
  refine ⟨t, (exec_jobWorld hs hr k sub).trans ht, ?gen, fun hdone => ?done, fun n _ hn => ?bricks, ?bytes⟩
  case gen => rw [hworld, commitWorld_gen]
  case done =>
    rw [← findJob_congr (commitWorld_jobs u m.changes false)] at hdone
    exact doneDetail_congr hjobs (doneDetail_endJob hdone 0 _ 0)
  case bricks => rw [hworld, getBrick_commitWorld_other u false hn]
  case bytes => exact ((commitWorld_sameBytes u m.changes false).trans (endJob_sameBytes _ _ _ _ _ _)).trans hbytes

end Sys2Proof.Machine
end

section
/-! PLAN jobs: a search that has ended writes its result record, and the job completes OK (R336, R446). -/

namespace Sys2Proof.Machine

/-! ### A job at work -/

/-- A ready job of the wanted kind does its work, in the state in which it has taken its unit, whatever decides its turn. -/
theorem performWhen_of_jobReady {s : State} {k : Nat} {sub : W32} {j x : Job} {wants : JobBody → Bool} {ready : Job → Bool}
    (run : State → Job → State) (hj : findJob s k sub = some j) (hw : wants j.desc.body = true)
    (hr : JobReady s j (ready j)) (hx : findJob (working s j) k sub = some x) :
    performWhen s k sub wants ready run = run (working s j) x := by
  obtain ⟨hclk, hstart⟩ := hr
  simp only [performWhen, hj, hw, hclk, Bool.not_true, Bool.or_false, Bool.false_eq_true, if_false]
  by_cases hrun : j.phase = .running
  · rw [working, if_pos hrun] at hx ⊢
    rw [if_pos hrun, Option.some.inj (hj.symm.trans hx)]
  · obtain ⟨hmay, hcommon, hkind, hturn, hopen⟩ := hstart.resolve_left hrun
    rw [working, if_neg hrun] at hx ⊢
    simp only [hrun, hmay, hcommon, hkind, hturn, hopen, hx, Bool.and_self, Bool.not_true, Bool.false_eq_true, if_true, if_false]

/-! ### The search and its result record -/

/-- The state a search begins in: the job keeps the number of its chain, plus one, as its progress. -/
def searchBegun (s : State) (k : Nat) (sub : W32) (r : List Byte) : State :=
  updJob s k sub (fun y => { y with progress := if requestOk r then recNat r 1 1 + 1 else 0, hostWait := none })

/-- The outcome of a search that has ended stands with the job (log entry 56). -/
def outcomeNoted (s : State) (k : Nat) (sub : W32) (seed : W64) (r : List Byte) (e : PlanEnd) (q : Nat) : State :=
  noteOutcome s ⟨k, sub, recNat r 1 1, [], [], seed, r⟩ r e q

/-- A result record that is written ends its job OK, with the result code in DETAIL (R336). -/
theorem writePlanned_of_written {s u : State} {k : Nat} {sub : W32} {r : List Byte} {d : Planned}
    (h : runOp (writeVa (some (k, sub)) k (recNat r 24 4) d.record false true (0, 0)) s = (.ok (), u)) :
    writePlanned r d s k sub = endJob u k sub 0 (some (BitVec.ofNat 32 d.code)) 0 := by
  simp only [writePlanned, h]

/-- A PLAN job whose request is read and whose search ends writes the outcome noted for it. -/
theorem planWork_of_searched {s s1 s2 : State} {j y : Job} {request q : Nat} {r : List Byte} {e : PlanEnd} {d : Planned}
    (hmoors : j.pendingMoors = []) (hplanned : j.planned = none)
    (hread : runOp (readVa (some (j.ctx, j.sub)) j.ctx request 128 false) s = (.ok r, s1))
    (hfree : chainBusy s j (recNat r 1 1) = false)
    (hsearch : runOp (if requestPlace (searchBegun s1 j.ctx j.sub r) j.ctx request then planRequest j.ctx j.sub j.desc.seed r
      else pure (some (planEnd 7 0 0, 0))) (searchBegun s1 j.ctx j.sub r) = (.ok (some (e, q)), s2))
    (hy : findJob (outcomeNoted s2 j.ctx j.sub j.desc.seed r e q) j.ctx j.sub = some y) (hd : y.planned = some d) :
    planWork request s j = writePlanned r d (outcomeNoted s2 j.ctx j.sub j.desc.seed r e q) j.ctx j.sub := by
  rw [outcomeNoted] at hy
  rw [searchBegun] at hsearch
  simp only [planWork, pointMoor, hmoors, hplanned, hread, hfree, hsearch, hy, Option.bind_some, hd, outcomeNoted,
    Bool.and_false, Bool.false_eq_true, if_false]

/-- A PLAN job of the KIND asked for, with a request that can be read, goes to work when it is ready. -/
theorem planJob_of_jobReady {s : State} {k : Nat} {sub : W32} {j x : Job} {request kind : Nat} {r : List Byte}
    (hj : findJob s k sub = some j) (hbody : j.desc.body = .plan request) (hr : requestOf s j = some r) (hkind : recNat r 0 1 = kind)
    (hready : JobReady s j (chainTurn s j)) (hx : findJob (working s j) k sub = some x) (hdesc : x.desc = j.desc) :
    planJob s k sub kind = planWork request (working s j) x := by
  have hgo : planJob s k sub kind = planJob.go s k sub := by
    simp only [planJob, hj, Option.bind_some, hr, hkind, true_or, if_true]
  rw [hgo, planJob.go, performWhen_of_jobReady _ hj (by rw [hbody, JobBody.isPlan]) hready hx, hdesc, hbody]

/-! ### The answer -/

@[simp] theorem endJob_chains (s : State) (k : Nat) (sub : W32) (status : Nat) (detail : Option W32) (q : W32) :
    (endJob s k sub status detail q).chains = s.chains := by
  obtain ⟨_, _, h⟩ := endJob_eq s k sub status detail q; rw [h]

/-- A command that may write memory answers a state with the chains it computes. -/
theorem commit_chains {s t u : State} (h : commit s t = .next u) : u.chains = t.chains := by
  cases h
  rfl

/-- The command of each KIND does the PLAN jobs of that KIND. -/
theorem exec_plan {s : State} (hs : s.phase = .ready) (hr : s.raised = []) (k : Fin 8) (sub : W32) :
    ∀ p ∈ [(Instr.planTree k sub, 0), (.planRoadmapGrow k sub, 1), (.planRoadmapQuery k sub, 2), (.planRepair k sub, 3),
      (.planLoadChain k sub, 4)], exec p.1 s = commit s (planJob s k sub p.2) := by
  have hcycle : newCycle s = s := by rw [newCycle, ← hr]
  have hready (kind : Nat) : whenReadyMem s (fun s => planJob s k sub kind) = commit s (planJob s k sub kind) := by
    rw [whenReadyMem_of _ hs, hcycle]
  intro p hp
  simp only [List.mem_cons, List.not_mem_nil, or_false] at hp
  obtain rfl | rfl | rfl | rfl | rfl := hp
  · exact hready 0
  · exact hready 1
  · exact hready 2
  · exact hready 3
  · exact hready 4

/-- Settles O29: whatever its KIND, the ready job goes to work, its search ends in the outcome noted, and the record written
ends it; the end of the job and the canonical form of the answer's memories leave the chains and every byte. -/
theorem planJobsWriteResultAndComplete : Obligations.PlanJobsWriteResultAndComplete := by
  unfold Obligations.PlanJobsWriteResultAndComplete
  intro s s0 s1 s2 u k sub j x y request r e q d hs hr hj hbody hreq hready hx hmoors hplanned hdesc hctx hsub hread hfree hs0
    hsearch hy hd _ hwrite hdone p hp hkind
  subst hs0
  have hwork : planJob s k sub p.2 = endJob u k sub 0 (some (BitVec.ofNat 32 d.code)) 0 := by
    subst hsub
    rw [← hdesc] at hsearch hy hwrite
    rw [← hctx] at hread hsearch hy hwrite
    rw [planJob_of_jobReady hj hbody hreq hkind hready hx hdesc,
      planWork_of_searched hmoors hplanned hread hfree hsearch hy hd, outcomeNoted, writePlanned_of_written hwrite, hctx]
  obtain ⟨t, ht, hjobs, -, hbytes⟩ := commit_next s (planJob s k sub p.2)
  have hchains := commit_chains ht
  rw [hwork] at hjobs hbytes hchains
  exact ⟨t, (exec_plan hs hr k sub p hp).trans ht, doneDetail_congr hjobs (doneDetail_endJob hdone 0 _ 0),
    (endJob_sameBytes _ _ _ _ _ _).trans hbytes, hchains.trans (endJob_chains _ _ _ _ _ _)⟩

end Sys2Proof.Machine
end

section
/-! SUPPORT. An access to a register whose path is free is performed at once (R24, R50, R628). -/

namespace Sys2Proof.Machine

theorem natErase_of_not_contains {k : Nat} {l : List Nat} (h : l.contains k = false) : natErase k l = l := by
  refine List.filter_eq_self.2 fun x hx => decide_eq_true fun hxk => ?_
  rw [List.contains_eq_mem, decide_eq_false_iff_not] at h
  exact h (hxk ▸ hx)

/-- A crossing that is free delivers what passes through it. -/
theorem crossing_of_free {s : State} {src dst : Nat} (h : CrossingFree s src dst) (act : State → State) :
    crossing s src dst act = act s := by
  obtain ⟨hlaunch, hruns, hflip⟩ := h
  simp only [crossing, hlaunch, hruns, deliver, hflip, natErase_of_not_contains hflip, Bool.or_self, Bool.not_true, Bool.xor_false,
    Bool.false_eq_true, if_false]

theorem arrive_of_pathFree {s : State} {a : Access} (h : PathFree s a.slot) (act : State → State) : arrive s a act = act s := by
  obtain ⟨hqueue, hruns, hcross⟩ := h
  have hstall : a.stalls s = false := hruns
  simp only [arrive, hqueue, hstall, List.isEmpty_nil, Bool.not_true, Bool.or_self, Bool.false_eq_true, if_false, enter]
  split
  · rfl
  · rename_i hr
    exact crossing_of_free (hcross hr) act

/-- A write of action bits reaches the block of its register. -/
theorem slot_setBits {key : Nat} (h : key < 65536) (mask : Nat) : (setBits key mask).slot = key / 256 := by
  simp only [setBits, Access.slot, regOff, bitsOf]
  omega

/-- A command that writes action bits of a register whose path is free answers with what they do. -/
theorem whenReady_arrive_setBits {s : State} {key slot mask : Nat} (hs : s.phase = .ready) (hkey : key < 65536)
    (hslot : key / 256 = slot) (hpath : PathFree s slot) (act : State → State) :
    whenReady s (fun s => arrive s (setBits key mask) act) = keep s (act (newCycle s)) := by
  rw [← hslot, ← slot_setBits hkey mask] at hpath
  rw [whenReady_of _ hs, arrive_of_pathFree (s := newCycle s) hpath]

end Sys2Proof.Machine
end

section
/-! SUPPORT. Jobs that a fold of ends leaves open or ended (R446, R459). -/

namespace Sys2Proof.Machine

theorem isMoor_of_isPlan {b : JobBody} (h : b.isPlan = true) : b.isMoor = false := by
  cases b with
  | plan => rfl
  | _ => cases h

/-- A change of another job leaves the job found. -/
theorem findJob_updJob_other {s : State} {k k' : Nat} {sub sub' : W32} {j : Job} {f : Job → Job} (h : findJob s k sub = some j)
    (hf : ∀ j, (f j).ctx = j.ctx ∧ (f j).sub = j.sub) (hne : ¬ (k = k' ∧ sub = sub')) :
    findJob (updJob s k' sub' f) k sub = some j := by
  refine (findJob_map (s := s) rfl (fun x => ?_) k sub).trans ?_
  · split
    · exact hf x
    · exact ⟨rfl, rfl⟩
  · obtain ⟨hctx, hsub⟩ := key_of_findJob h
    rw [h, Option.map_some, if_neg (by rw [hctx, hsub]; exact hne)]

/-- The end of a MOOR's target leaves a job that is no MOOR. -/
theorem findJob_resolveMoors_of_not_moor {s : State} {k k' : Nat} {sub sub' : W32} {j : Job} (h : findJob s k sub = some j)
    (hj : j.desc.body.isMoor = false) (d : Nat) : findJob (resolveMoors s k' sub' d) k sub = some j := by
  refine (findJob_map (s := s) rfl (fun m => ?_) k sub).trans ?_
  · split
    · split
      · exact ⟨rfl, rfl⟩
      · exact ⟨rfl, rfl⟩
    · exact ⟨rfl, rfl⟩
  · rw [h, Option.map_some]
    split
    · rename_i hbody _
      rw [hbody] at hj
      cases hj
    · rfl

/-- The end of a job that is not yet done: its core is released, it is done with its status, and the MOOR jobs that wait on it
complete. -/
theorem endJob_of_open {s : State} {k : Nat} {sub : W32} {j : Job} (hj : findJob s k sub = some j) (hopen : j.isDone = false)
    (status : Nat) (detail : Option W32) (q : W32) :
    ∃ f : Job → Job, (∀ x, (f x).ctx = x.ctx ∧ (f x).sub = x.sub) ∧ (∀ x, (f x).phase = .done ∧ (f x).status = status) ∧
      endJob s k sub status detail q = resolveMoors (updJob (releaseCore s j) k sub f) k sub 2 := by
  simp only [endJob, hj, hopen, Bool.false_eq_true, if_false]
  refine ⟨_, ?keys, ?done, rfl⟩
  case keys => exact fun _ => ⟨rfl, rfl⟩
  case done => exact fun _ => ⟨rfl, rfl⟩

/-- A job that is gone or done does not end again (R446). -/
theorem endJob_of_not_open {s : State} {k : Nat} {sub : W32} (h : ∀ j, findJob s k sub = some j → j.isDone = true)
    (status : Nat) (detail : Option W32) (q : W32) : endJob s k sub status detail q = s := by
  cases hj : findJob s k sub with
  | none => simp only [endJob, hj]
  | some j => simp only [endJob, hj, h j hj, if_true]

/-- The end of another job leaves a job that is done, or that is no MOOR. -/
theorem findJob_endJob_other {s : State} {k k' : Nat} {sub sub' : W32} {j : Job} (h : findJob s k sub = some j)
    (hj : j.phase = .done ∨ j.desc.body.isMoor = false) (hne : ¬ (k = k' ∧ sub = sub')) (status : Nat) (detail : Option W32) (q : W32) :
    findJob (endJob s k' sub' status detail q) k sub = some j := by
  by_cases hopen : ∃ x, findJob s k' sub' = some x ∧ x.isDone = false
  · obtain ⟨x, hx, hxopen⟩ := hopen
    obtain ⟨f, hkeys, -, heq⟩ := endJob_of_open hx hxopen status detail q
    have hreleased : findJob (releaseCore s x) k sub = some j := (findJob_congr (releaseCore_jobs s x) k sub).trans h
    have hupdated := findJob_updJob_other hreleased hkeys hne
    rw [heq]
    exact hj.elim (findJob_resolveMoors_of_done hupdated · 2) (findJob_resolveMoors_of_not_moor hupdated · 2)
  · rw [endJob_of_not_open (fun x hx => Bool.not_eq_false _ ▸ fun hxopen => hopen ⟨x, hx, hxopen⟩)]
    exact h

/-- A job that is not yet done ends with the status given. -/
theorem doneWith_endJob {s : State} {k : Nat} {sub : W32} {j : Job} (hj : findJob s k sub = some j) (hopen : j.isDone = false)
    (status : Nat) (detail : Option W32) (q : W32) : DoneWith (endJob s k sub status detail q) k sub status := by
  obtain ⟨f, hkeys, hdone, heq⟩ := endJob_of_open hj hopen status detail q
  have hreleased : findJob (releaseCore s j) k sub = some j := (findJob_congr (releaseCore_jobs s j) k sub).trans hj
  obtain ⟨hphase, hstatus⟩ := hdone j
  rw [heq]
  exact ⟨f j, findJob_resolveMoors_of_done (findJob_updJob_same hreleased hkeys) hphase 2, hphase, hstatus⟩

/-- A job that is done keeps its status at every end (R446). -/
theorem doneWith_endJob_of_doneWith {s : State} {k : Nat} {sub : W32} {status : Nat} (h : DoneWith s k sub status) (k' : Nat)
    (sub' : W32) (status' : Nat) (detail : Option W32) (q : W32) : DoneWith (endJob s k' sub' status' detail q) k sub status := by
  obtain ⟨x, hx, hdone, hstatus⟩ := h
  by_cases hkey : k = k' ∧ sub = sub'
  · obtain ⟨rfl, rfl⟩ := hkey
    rw [endJob_of_not_open (fun y hy => Option.some.inj (hx.symm.trans hy) ▸ decide_eq_true hdone)]
    exact ⟨x, hx, hdone, hstatus⟩
  · exact ⟨x, findJob_endJob_other hx (.inl hdone) hkey _ _ _, hdone, hstatus⟩

theorem doneWith_congr {s t : State} {k : Nat} {sub : W32} {status : Nat} (ht : t.jobs = s.jobs) (h : DoneWith s k sub status) :
    DoneWith t k sub status := by
  rw [DoneWith, findJob_congr ht]
  exact h

end Sys2Proof.Machine
end

section
/-! The feeder, and the flush and the resume of a chain (R356 to R360, R394, R396, R398). -/

namespace Sys2Proof.Machine

/-! ### Chains and their emission -/

@[simp] theorem getEmit_putEmit_same (s : State) (c : Nat) (x : EmitCh) : getEmit (putEmit s c x) c = x := smGet_smPut_same _ _ _ _

theorem getEmit_putEmit_other (s : State) {c d : Nat} (x : EmitCh) (h : d ≠ c) : getEmit (putEmit s c x) d = getEmit s d :=
  smGet_smPut_other _ _ _ h

theorem getChain_congr {s t : State} (h : t.chains = s.chains) (c : Nat) : getChain t c = getChain s c := by
  rw [getChain, h, getChain]

theorem getEmit_congr {s t : State} (h : t.rtio = s.rtio) (c : Nat) : getEmit t c = getEmit s c := by
  rw [getEmit, h, getEmit]

/-- A command that leaves memory alone answers with the registers, jobs, chains and timetable of its work, and the frame as
it was. -/
theorem keep_chains (s u : State) (h : u.phase = s.phase) :
    ∃ t, keep s u = .next t ∧ t.regs = u.regs ∧ t.jobs = u.jobs ∧ t.chains = u.chains ∧ t.rtio = u.rtio ∧ SameFrame s t :=
  ⟨_, rfl, rfl, rfl, rfl, rfl, rfl, rfl, sameBytes_of rfl rfl, h, rfl, rfl⟩

/-! ### The feeder (R356 to R359) -/

/-- PLAN's writes into its store change the books of granules and the memory they are written to. -/
theorem storePut_eq (s : State) (kind i n : Nat) : ∃ mem poison latent injectAt,
    storePut s kind i n = { s with mem := mem, poison := poison, latent := latent, injectAt := injectAt } := by
  refine List.foldlRecOn (motive := fun t => ∃ mem poison latent injectAt,
    t = { s with mem := mem, poison := poison, latent := latent, injectAt := injectAt }) (List.range n) _ ?none fun t ht m _ => ?more
  case none => exact ⟨_, _, _, _, rfl⟩
  case more =>
    obtain ⟨_, _, _, _, rfl⟩ := ht
    obtain ⟨_, _, _, h⟩ := granuleWrite_whole _ none (storeGranule kind (i + m)) (l := rawRead _ (storeGranule kind (i + m)) 8)
      (by simp [rawRead, smRead])
    exact ⟨_, _, _, _, h⟩

/-- The chain once the feeder has committed item `i`, with `rest` left of its trajectory. -/
def committed (x : Chain) (l : Live) (i : Item × Shaped) (rest : List (Item × Shaped)) : Chain :=
  { x with
    queue := x.queue ++ [i.1], live := some { l with items := rest }, lastItem := i.1.number
    everCommitted := true, rest := i.1.joints.map Prod.fst, lastSet := some i }

/-- The commit of item `i`: it is written to the store, and the chain has something to resume with. -/
def commitItem (s : State) (c : Nat) (l : Live) (i : Item × Shaped) (rest : List (Item × Shaped)) : State :=
  let u := storePut s 1 ((c * 4096 + i.1.number.toNat % 4096) * 10) 10
  putChain (putEmit u c { getEmit u c with committedSince := true }) c (committed (getChain s c) l i rest)

/-- The item numbered `n` lies beyond the chain's splice (R349, R350). -/
def beyondSplice (x : Chain) (n : W32) : Bool := x.splice.any (fun m => before m n)

theorem beyondSplice_eq_false_iff {x : Chain} {n : W32} : beyondSplice x n = false ↔ ∀ m, x.splice = some m → before m n = false := by
  cases h : x.splice <;> simp [beyondSplice, h]

/-- What keeps the feeder from committing whatever item comes next. -/
def feederOff (s : State) (c : Nat) : Bool :=
  !(flag s PLN_CTL_FEED_EN) || (getClk s 4).stopped || decide (aheadOf s c ≤ (getChain s c).queue.length)

theorem feederOff_eq_true_iff {s : State} {c : Nat} : feederOff s c = true ↔
    flag s PLN_CTL_FEED_EN = false ∨ (getClk s 4).stopped = true ∨ aheadOf s c ≤ (getChain s c).queue.length := by
  simp only [feederOff, Bool.or_eq_true, Bool.not_eq_true', decide_eq_true_eq, or_assoc]

theorem feederCommit_of_none {s : State} {c : Nat} (hl : (getChain s c).live = none) : feederCommit s c = s := by
  simp only [feederCommit, hl]

theorem feederCommit_of_nil {s : State} {c : Nat} {l : Live} (hl : (getChain s c).live = some l) (hi : l.items = []) :
    feederCommit s c = s := by
  simp only [feederCommit, hl, hi]

theorem feederCommit_of_cons {s : State} {c : Nat} {l : Live} {i : Item × Shaped} {rest : List (Item × Shaped)}
    (hl : (getChain s c).live = some l) (hi : l.items = i :: rest) :
    feederCommit s c =
      if feederOff s c || beyondSplice (getChain s c) i.1.number then s else commitItem s c l i rest := by
  cases hsplice : (getChain s c).splice with
  | none =>
    simp only [feederCommit, hl, hi, hsplice, feederOff, beyondSplice, commitItem, committed, Option.any_none, Bool.or_false, ge_iff_le]
  | some n =>
    simp only [feederCommit, hl, hi, hsplice, feederOff, beyondSplice, commitItem, committed, Option.any_some, Bool.or_right_comm,
      ge_iff_le]

theorem feederCommit_of_off {s : State} {c : Nat} (h : feederOff s c = true) : feederCommit s c = s := by
  cases hl : (getChain s c).live with
  | none => exact feederCommit_of_none hl
  | some l =>
    cases hi : l.items with
    | nil => exact feederCommit_of_nil hl hi
    | cons i rest => rw [feederCommit_of_cons hl hi, h, Bool.true_or, if_pos rfl]

theorem exec_feederCommit {s : State} (hs : s.phase = .ready) (c : Fin 4) :
    exec (.feederCommit c) s = keep s (feederCommit (newCycle s) c) := whenReady_of (fun s => feederCommit s c) hs

/-- A feeder that commits nothing leaves the state as it was. -/
theorem exec_feederCommit_of_self {s : State} (hs : s.phase = .ready) {c : Fin 4}
    (h : feederCommit (newCycle s) c = newCycle s) : exec (.feederCommit c) s = .next s := by
  rw [exec_feederCommit hs, h, keep_newCycle]

section
variable (s : State) (c : Nat) (l : Live) (i : Item × Shaped) (rest : List (Item × Shaped))

theorem commitItem_frame : (commitItem s c l i rest).phase = s.phase ∧ (commitItem s c l i rest).regs = s.regs ∧
    (commitItem s c l i rest).jobs = s.jobs := by
  obtain ⟨_, _, _, _, h⟩ := storePut_eq s 1 ((c * 4096 + i.1.number.toNat % 4096) * 10) 10
  rw [commitItem, h]
  exact ⟨rfl, rfl, rfl⟩

theorem getChain_commitItem (d : Nat) :
    getChain (commitItem s c l i rest) d = if d = c then committed (getChain s c) l i rest else getChain s d := by
  obtain ⟨_, _, _, _, h⟩ := storePut_eq s 1 ((c * 4096 + i.1.number.toNat % 4096) * 10) 10
  rw [commitItem, h]
  exact smGet_smPut _ _ _ _ _

theorem getEmit_commitItem (d : Nat) :
    getEmit (commitItem s c l i rest) d = if d = c then { getEmit s c with committedSince := true } else getEmit s d := by
  obtain ⟨_, _, _, _, h⟩ := storePut_eq s 1 ((c * 4096 + i.1.number.toNat % 4096) * 10) 10
  rw [commitItem, h]
  exact smGet_smPut _ _ _ _ _

end

/-- The commit changes the chain and its emission, and no other. -/
theorem exec_feederCommit_commits {s : State} (hs : s.phase = .ready) {c : Fin 4} {l : Live} {i : Item × Shaped}
    {rest : List (Item × Shaped)} (hl : (getChain s c).live = some l) (hi : l.items = i :: rest) (hon : feederOff s c = false)
    (hfree : beyondSplice (getChain s c) i.1.number = false) :
    ∃ t, exec (.feederCommit c) s = .next t ∧ getChain t c = committed (getChain s c) l i rest ∧
      getEmit t c = { getEmit s c with committedSince := true } ∧ (∀ d, d ≠ c.val → getEmit t d = getEmit s d) ∧
      (∀ d, d ≠ c.val → getChain t d = getChain s d) ∧ t.regs = s.regs ∧ t.jobs = s.jobs ∧ SameFrame s t := by
  have hcommit : feederCommit (newCycle s) c = commitItem (newCycle s) c l i rest := by
    have hgo : (feederOff (newCycle s) c || beyondSplice (getChain (newCycle s) c) i.1.number) = false :=
      Bool.or_eq_false_iff.2 ⟨hon, hfree⟩
    rw [feederCommit_of_cons (s := newCycle s) hl hi, hgo, if_neg Bool.false_ne_true]
  obtain ⟨hphase, hregs, hjobs⟩ := commitItem_frame (newCycle s) c l i rest
  obtain ⟨t, ht, htregs, htjobs, htchains, htrtio, hframe⟩ := keep_chains s _ hphase
  refine ⟨t, ?answer, ?chain, ?emit, fun d hd => ?emits, fun d hd => ?chains, htregs.trans hregs, htjobs.trans hjobs, hframe⟩
  case answer => rw [exec_feederCommit hs, hcommit, ht]
  case chain => rw [getChain_congr htchains, getChain_commitItem, if_pos rfl]; rfl
  case emit => rw [getEmit_congr htrtio, getEmit_commitItem, if_pos rfl]; rfl
  case emits => rw [getEmit_congr htrtio, getEmit_commitItem, if_neg hd]; rfl
  case chains => rw [getChain_congr htchains, getChain_commitItem, if_neg hd]; rfl

/-! ### Flush (R360, R394, R398) -/

/-- The queue and the live trajectory of chain `c` are discarded, and what it had to resume with. -/
def emptied (s : State) (c : Nat) : State :=
  let u := putChain s c { (getChain s c).dropLive with queue := [] }
  putEmit u c { getEmit u c with committedSince := false, resumed := false }

theorem getChain_emptied (s : State) (c d : Nat) :
    getChain (emptied s c) d = if d = c then { (getChain s c).dropLive with queue := [] } else getChain s d := smGet_smPut _ _ _ _ _

theorem getEmit_emptied_same (s : State) (c : Nat) :
    getEmit (emptied s c) c = { getEmit s c with committedSince := false, resumed := false } := getEmit_putEmit_same _ _ _

/-- A flush of chain `c` ends job `j` FLUSHED: a PLAN job of the chain that is not done and has not installed. -/
def flushes (c : Nat) (s : State) (j : Job) : Bool :=
  j.desc.body.isPlan && !j.isDone && !(j.planned.any Planned.installed) &&
    (decide (j.progress = c + 1) || decide (requestChain s j = some c))

/-- What a flush of chain `c` does with a job. -/
def flushJob (c : Nat) (s : State) (j : Job) : State := if flushes c s j then endJob s j.ctx j.sub 4 none 0 else s

theorem flushChain_eq (s : State) (c : Nat) : flushChain s c = s.jobs.foldl (flushJob c) (emptied s c) := rfl

/-- A job is ended or passed over. -/
theorem flushJob_cases {P : State → Prop} {c : Nat} {s : State} {j : Job} (hend : P (endJob s j.ctx j.sub 4 none 0)) (hpass : P s) :
    P (flushJob c s j) := by
  unfold flushJob
  split
  · exact hend
  · exact hpass

/-- Nothing but jobs and cores differs. -/
def OnlyJobs (s t : State) : Prop := t = { s with jobs := t.jobs, cores := t.cores }

theorem OnlyJobs.trans {s t u : State} (h : OnlyJobs s t) (h' : OnlyJobs t u) : OnlyJobs s u := by
  unfold OnlyJobs at h h' ⊢
  rw [h'.trans (by rw [h])]

theorem onlyJobs_endJob (s : State) (k : Nat) (sub : W32) (status : Nat) (detail : Option W32) (q : W32) :
    OnlyJobs s (endJob s k sub status detail q) := by
  obtain ⟨_, _, h⟩ := endJob_eq s k sub status detail q
  rw [h]
  rfl

theorem onlyJobs_foldl_flushJob (c : Nat) (l : List Job) (s : State) : OnlyJobs s (l.foldl (flushJob c) s) :=
  List.foldlRecOn (motive := OnlyJobs s) l _ rfl fun _ ht _ _ => ht.trans (flushJob_cases (onlyJobs_endJob _ _ _ _ _ _) rfl)

theorem onlyJobs_flushChain (s : State) (c : Nat) : OnlyJobs (emptied s c) (flushChain s c) := by
  rw [flushChain_eq]
  exact onlyJobs_foldl_flushJob c s.jobs (emptied s c)

/-- The PLAN job is not done yet, or a flush has ended it. -/
def OpenOrFlushed (k : Nat) (sub : W32) (s : State) : Prop :=
  (∃ x, findJob s k sub = some x ∧ x.desc.body.isPlan = true ∧ x.isDone = false) ∨ DoneWith s k sub 4

theorem doneWith_endJob_of_openOrFlushed {s : State} {k : Nat} {sub : W32} (h : OpenOrFlushed k sub s) :
    DoneWith (endJob s k sub 4 none 0) k sub 4 := by
  obtain ⟨x, hx, -, hopen⟩ | hdone := h
  · exact doneWith_endJob hx hopen 4 none 0
  · exact doneWith_endJob_of_doneWith hdone k sub 4 none 0

theorem openOrFlushed_endJob {s : State} {k : Nat} {sub : W32} (h : OpenOrFlushed k sub s) (k' : Nat) (sub' : W32) :
    OpenOrFlushed k sub (endJob s k' sub' 4 none 0) := by
  by_cases hkey : k = k' ∧ sub = sub'
  · obtain ⟨rfl, rfl⟩ := hkey
    exact .inr (doneWith_endJob_of_openOrFlushed h)
  · obtain ⟨x, hx, hplan, hopen⟩ | hdone := h
    · exact .inl ⟨x, findJob_endJob_other hx (.inr (isMoor_of_isPlan hplan)) hkey 4 none 0, hplan, hopen⟩
    · exact .inr (doneWith_endJob_of_doneWith hdone k' sub' 4 none 0)

/-- A job that the flush ends when its turn comes is FLUSHED at the end of the flush. -/
theorem doneWith_foldl_flushJob {c : Nat} {s : State} {j : Job} {l : List Job} (hj : j ∈ l) (hs : OpenOrFlushed j.ctx j.sub s)
    (hflush : ∀ u, OnlyJobs s u → flushes c u j = true) : DoneWith (l.foldl (flushJob c) s) j.ctx j.sub 4 := by
  obtain ⟨l₁, l₂, rfl⟩ := List.append_of_mem hj
  have hcome : OpenOrFlushed j.ctx j.sub (l₁.foldl (flushJob c) s) :=
    List.foldlRecOn (motive := OpenOrFlushed j.ctx j.sub) l₁ _ hs fun _ ht x _ =>
      flushJob_cases (openOrFlushed_endJob ht x.ctx x.sub) ht
  have hturn : DoneWith (flushJob c (l₁.foldl (flushJob c) s) j) j.ctx j.sub 4 := by
    rw [flushJob, hflush _ (onlyJobs_foldl_flushJob c l₁ s), if_pos rfl]
    exact doneWith_endJob_of_openOrFlushed hcome
  rw [List.foldl_append, List.foldl_cons]
  exact List.foldlRecOn (motive := fun t => DoneWith t j.ctx j.sub 4) l₂ _ hturn fun _ ht x _ =>
    flushJob_cases (P := fun t => DoneWith t j.ctx j.sub 4) (doneWith_endJob_of_doneWith ht x.ctx x.sub 4 none 0) ht

/-- A PLAN job of the chain that is not done and has not installed is FLUSHED. -/
theorem doneWith_flushChain {s : State} {c k : Nat} {sub : W32} {j : Job} (hj : findJob s k sub = some j)
    (hplan : j.desc.body.isPlan = true) (hopen : j.isDone = false) (hinst : j.planned.any Planned.installed = false)
    (hchain : j.progress = c + 1 ∨ ∀ u, OnlyJobs (emptied s c) u → requestChain u j = some c) :
    DoneWith (flushChain s c) k sub 4 := by
  obtain ⟨rfl, rfl⟩ := key_of_findJob hj
  have hfound : findJob (emptied s c) j.ctx j.sub = some j := hj
  rw [flushChain_eq]
  refine doneWith_foldl_flushJob (List.mem_of_find?_eq_some hj) (.inl ⟨j, hfound, hplan, hopen⟩) fun u hu => ?_
  have hmine : j.progress = c + 1 ∨ requestChain u j = some c := hchain.imp_right (· u hu)
  simpa [flushes, hplan, hopen, hinst] using hmine

/-! ### The commands of a chain -/

theorem exec_chainFlush {s : State} (hs : s.phase = .ready) {c : Fin 4} (hpath : PathFree s 5) :
    exec (.chainFlush c) s = keep s (flushChain (newCycle s) c) :=
  whenReady_arrive_setBits hs (by omega) (by omega) hpath (fun s => flushChain s c)

theorem exec_chainResume {s : State} (hs : s.phase = .ready) {c : Fin 4} (hpath : PathFree s 5) :
    exec (.chainResume c) s = keep s (chainResume (newCycle s) c) :=
  whenReady_arrive_setBits hs (by omega) (by omega) hpath (fun s => chainResume s c)

/-- Settles O50: the feeder by what keeps it idle, by the splice and by its commit; the flush by what it discards and the jobs
it ends one after the other; the resume by the mark it leaves. -/
theorem feederFlushAndResume : Obligations.FeederFlushAndResume := by
  unfold Obligations.FeederFlushAndResume
  intro s c hs
  refine ⟨fun l i rest hl hi => ⟨fun hfree hen hrun hroom => ?commits, fun hfree => ?spliced⟩, fun hidle => ?idle,
    fun hpath => ?flush, fun hpath => ?resume⟩
  case commits =>
    have hon : feederOff s c = false := by
      simp only [feederOff, hen, hrun, decide_eq_false (Nat.not_le.2 hroom), Bool.not_true, Bool.or_self]
    exact exec_feederCommit_commits hs hl hi hon (beyondSplice_eq_false_iff.2 hfree)
  case spliced =>
    have hbeyond : beyondSplice (getChain (newCycle s) c) i.1.number = true :=
      Bool.not_eq_false _ ▸ fun h => hfree (beyondSplice_eq_false_iff.1 h)
    refine exec_feederCommit_of_self hs ?_
    rw [feederCommit_of_cons (s := newCycle s) hl hi, hbeyond, Bool.or_true, if_pos rfl]
  case idle =>
    refine exec_feederCommit_of_self hs ?_
    obtain hen | hstop | hfull | hnone | ⟨l, hl, hi⟩ := hidle
    · exact feederCommit_of_off (s := newCycle s) (feederOff_eq_true_iff.2 (.inl hen))
    · exact feederCommit_of_off (s := newCycle s) (feederOff_eq_true_iff.2 (.inr (.inl hstop)))
    · exact feederCommit_of_off (s := newCycle s) (feederOff_eq_true_iff.2 (.inr (.inr hfull)))
    · exact feederCommit_of_none hnone
    · exact feederCommit_of_nil hl hi
  case flush =>
    have honly := onlyJobs_flushChain (newCycle s) c
    obtain ⟨t, ht, hregs, hjobs, hchains, hrtio, hframe⟩ := keep_chains s (flushChain (newCycle s) c) (by rw [honly]; rfl)
    have hchain (d : Nat) : getChain t d = getChain (emptied (newCycle s) c) d := getChain_congr (hchains.trans (by rw [honly])) d
    have hemit : getEmit t c = getEmit (emptied (newCycle s) c) c := getEmit_congr (hrtio.trans (by rw [honly])) c
    refine ⟨t, (exec_chainFlush hs hpath).trans ht, ?queue, ?live, ?held, fun d hd => ?chains, hregs.trans (by rw [honly]; rfl),
      hframe, fun k sub j hj hplan hopen hinst hmine => ?ended⟩
    case queue => rw [hchain, getChain_emptied, if_pos rfl]
    case live => rw [hchain, getChain_emptied, if_pos rfl]; rfl
    case held => rw [hemit, getEmit_emptied_same]; rfl
    case chains => rw [hchain, getChain_emptied, if_neg hd]; rfl
    case ended =>
      refine doneWith_congr hjobs (doneWith_flushChain (s := newCycle s) hj hplan hopen hinst (hmine.imp_right fun h u hu => h u ?_))
      rw [hu]
      rfl
  case resume =>
    obtain ⟨t, ht, hregs, hjobs, -, hrtio, hframe⟩ := keep_chains s (chainResume (newCycle s) c) rfl
    refine ⟨t, (exec_chainResume hs hpath).trans ht, ?emit, fun d hd => ?emits, hregs, hjobs, hframe⟩
    case emit => rw [getEmit_congr hrtio, chainResume, getEmit_putEmit_same]; rfl
    case emits => rw [getEmit_congr hrtio, chainResume, getEmit_putEmit_other _ _ hd]; rfl

end Sys2Proof.Machine
end

section
/-! SUPPORT. The registers and pages of HIF, which an access reaches at once (R24, R50); what a context reads as after it is
replaced; and what a command answers that counts and raises an event (R66, R462). -/

namespace Sys2Proof.Machine

/-! ### Contexts -/

@[simp] theorem getCtx_putCtx_same (s : State) (k : Nat) (c : Ctx) : getCtx (putCtx s k c) k = c := smGet_smPut_same _ _ _ _

theorem getCtx_putCtx_other (s : State) {k i : Nat} (c : Ctx) (h : i ≠ k) : getCtx (putCtx s k c) i = getCtx s i :=
  smGet_smPut_other _ _ _ h

theorem getCtx_congr {s t : State} (h : t.ctxs = s.ctxs) (k : Nat) : getCtx t k = getCtx s k := by
  rw [getCtx, h, getCtx]

/-! ### Access to HIF -/

/-- The clock of HOST, where the registers of HIF lie, never stops. -/
theorem inStopped_hif (s : State) {key : Nat} (h : key / 256 = 1) : inStopped s key = false := by
  simp only [inStopped, h, stopRegion]

/-- A command that accesses HIF while no access waits answers with what it does. -/
theorem whenReady_arrive_hif {s : State} {a : Access} (hs : s.phase = .ready) (hq : s.accessQ = []) (ha : a.slot = 1)
    (act : State → State) : whenReady s (fun s => arrive s a act) = keep s (act (newCycle s)) := by
  have hpath : PathFree s a.slot := by
    rw [ha]
    exact ⟨hq, inStopped_hif s rfl, fun h => absurd rfl h⟩
  rw [whenReady_of _ hs, arrive_of_pathFree (s := newCycle s) hpath]

/-! ### Events -/

/-- Nothing but registers, the marks of the cycle's events, and the messages sent and pending differs. -/
def OnlyAnnounces (s t : State) : Prop :=
  t = { s with regs := t.regs, raised := t.raised, msixPending := t.msixPending, out := { s.out with msix := t.out.msix } }

theorem OnlyAnnounces.trans {s t u : State} (h : OnlyAnnounces s t) (h' : OnlyAnnounces t u) : OnlyAnnounces s u := by
  unfold OnlyAnnounces at h h'
  rw [h', h]
  rfl

theorem onlyAnnounces_sendMsix (s : State) (v : Nat) : OnlyAnnounces s (sendMsix s v) := by
  unfold sendMsix
  split
  · rfl
  · rfl

theorem onlyAnnounces_notifyOf (s : State) (key : Nat) : OnlyAnnounces s (notifyOf s key) := by
  unfold notifyOf
  split
  · exact onlyAnnounces_sendMsix s _
  · rfl

theorem onlyAnnounces_putReg (s : State) (key : Nat) (w : W32) (marks : List Nat) :
    OnlyAnnounces s { putReg s key w with raised := marks } := rfl

theorem onlyAnnounces_setEvent (s : State) (ev : RField) : OnlyAnnounces s (setEvent s ev) := by
  unfold setEvent setEvents
  split
  · exact onlyAnnounces_putReg s _ _ s.raised
  · exact (onlyAnnounces_putReg s _ _ _).trans (onlyAnnounces_notifyOf _ _)

theorem onlyAnnounces_incF (s : State) (f : RField) : OnlyAnnounces s (incF s f) := by
  obtain ⟨r, h⟩ := addF_eq s f 1
  rw [incF, h]
  rfl

/-- A command that announces events answers with its registers and messages, and nothing else differs. -/
theorem keep_onlyAnnounces {s u : State} {keys : List Nat} (h : OnlyAnnounces (newCycle s) u) (hregs : RegsBut keys s u) :
    ∃ t, keep s u = .next t ∧ t.regs = u.regs ∧ OnlyEvents keys s t := by
  refine ⟨_, rfl, rfl, ?_, fun k hk => hregs k hk⟩
  rw [h]
  rfl

/-- The event of a command that raises no other. -/
theorem keep_setEvent (s : State) {ev : RField} (hev : ev.lo < 24) :
    ∃ t, keep s (setEvent (newCycle s) ev) = .next t ∧ Raised ev s t ∧ OnlyEvents [ev.key] s t := by
  obtain ⟨t, ht, hregs, honly⟩ := keep_onlyAnnounces (s := s) (onlyAnnounces_setEvent _ ev) (regsBut_setEvent (newCycle s) ev)
  exact ⟨t, ht, raised_congr (raised_from (raised_setEvent (newCycle s) ev hev List.not_mem_nil) rfl) (getReg_congr hregs _), honly⟩

/-- A whole-word counter of HIF and an event of another register, after a command that counts one and raises the event. -/
theorem keep_count_setEvent (s : State) {cnt ev : RField} (hcnt : cnt.hi = 31 ∧ cnt.lo = 0 ∧ cnt.key / 256 = 1)
    (hev : ev.lo < 24) (hne : cnt.key ≠ ev.key) :
    ∃ t, keep s (setEvent (incF (newCycle s) cnt) ev) = .next t ∧ Raised ev s t ∧ Counted cnt 1 s t ∧
      OnlyEvents [cnt.key, ev.key] s t := by
  obtain ⟨hhi, hlo, hslot⟩ := hcnt
  have hraised : Raised ev s (setEvent (incF (newCycle s) cnt) ev) :=
    raised_from (raised_setEvent _ ev hev (by rw [incF_raised]; exact List.not_mem_nil)) (getReg_addF_other (newCycle s) cnt 1 hne.symm)
  have hcounted : Counted cnt 1 s (setEvent (incF (newCycle s) cnt) ev) :=
    counted_congr (counted_from (counted_incF (newCycle s) cnt (by omega) (by omega) (inStopped_hif _ hslot)) rfl)
      (getReg_setEvent_other _ ev hne)
  obtain ⟨t, ht, hregs, honly⟩ := keep_onlyAnnounces (s := s) (keys := [cnt.key, ev.key])
    ((onlyAnnounces_incF _ cnt).trans (onlyAnnounces_setEvent _ ev))
    (((regsBut_incF (newCycle s) cnt).mono (by simp)).trans ((regsBut_setEvent _ ev).mono (by simp)))
  exact ⟨t, ht, raised_congr hraised (getReg_congr hregs _), counted_congr hcounted (getReg_congr hregs _), honly⟩

end Sys2Proof.Machine
end

section
/-! The doorbells of a context (R430 to R432, R435, R465). -/

namespace Sys2Proof.Machine

/-! ### Accepted doorbells -/

/-- Context `k` alone of all is replaced, the doorbell counts, and nothing else differs. -/
def DoorbellTaken (k : Nat) (c : Ctx) (s t : State) : Prop :=
  getCtx t k = c ∧ Counted HIF_DB_WRITES_COUNT 1 s t ∧ (∀ j, j ≠ k → getCtx t j = getCtx s j) ∧
    t = { s with regs := t.regs, ctxs := t.ctxs } ∧ RegsBut [HIF_DB_WRITES_COUNT.key] s t

theorem keep_putCtx_counted (s : State) (k : Nat) (c : Ctx) :
    ∃ t, keep s (incF (putCtx (newCycle s) k c) HIF_DB_WRITES_COUNT) = .next t ∧ DoorbellTaken k c s t := by
  have hcounted : Counted HIF_DB_WRITES_COUNT 1 s (incF (putCtx (newCycle s) k c) HIF_DB_WRITES_COUNT) :=
    counted_from (counted_incF (putCtx (newCycle s) k c) _ (by decide) (by decide) (inStopped_hif _ rfl)) rfl
  have hregs : RegsBut [HIF_DB_WRITES_COUNT.key] s (incF (putCtx (newCycle s) k c) HIF_DB_WRITES_COUNT) :=
    (regsBut_congr (t := putCtx (newCycle s) k c) _ rfl).trans (regsBut_incF _ _)
  obtain ⟨r, h⟩ := addF_eq (putCtx (newCycle s) k c) HIF_DB_WRITES_COUNT 1
  rw [incF, h] at hcounted hregs ⊢
  exact ⟨_, rfl, smGet_smPut_same _ _ _ _, hcounted, fun j hj => smGet_smPut_other _ _ _ hj, rfl, hregs⟩

/-- What an accepted tail leaves (R431, R435). -/
theorem keep_acceptTail (s : State) (k head from_ tail : Nat) :
    ∃ t, keep s (acceptTail (newCycle s) k head from_ tail) = .next t ∧ (getCtx t k).sqTail = tail ∧ (getCtx t k).sqHead = head ∧
      Counted HIF_DB_WRITES_COUNT 1 s t ∧ (∀ j, j ≠ k → getCtx t j = getCtx s j) ∧
      t = { s with regs := t.regs, ctxs := t.ctxs } ∧ RegsBut [HIF_DB_WRITES_COUNT.key] s t := by
  obtain ⟨t, ht, hctx, hrest⟩ := keep_putCtx_counted s k { getCtx s k with
    sqHead := head, sqTail := tail
    presented := (getCtx s k).presented ++ presentAll (newCycle s) (sqSize s k) ((tail + sqSize s k - from_) % sqSize s k) from_ }
  exact ⟨t, ht, by rw [hctx], by rw [hctx], hrest⟩

/-! ### The commands of a doorbell page -/

/-- A doorbell of the page of a context reaches HIF, whatever stands in its word. -/
theorem exec_tailDoorbell {s : State} (hs : s.phase = .ready) (hq : s.accessQ = []) (k : Fin 8) (be : BitVec 4) (data : W32) :
    exec (.tailDoorbell k be data) s = keep s (tailWrite (newCycle s) k be data) :=
  whenReady_arrive_hif hs hq rfl (fun s => tailWrite s k be data)

theorem exec_headDoorbell {s : State} (hs : s.phase = .ready) (hq : s.accessQ = []) (k : Fin 8) (be : BitVec 4) (data : W32) :
    exec (.headDoorbell k be data) s = keep s (headWrite (newCycle s) k be data) :=
  whenReady_arrive_hif hs hq rfl (fun s => headWrite s k be data)

/-- A refused doorbell counts as bad and sets DB_BAD (R432). -/
theorem keep_badDoorbell (s : State) :
    ∃ t, keep s (badDoorbell (newCycle s)) = .next t ∧ Raised HIF_EVENT_DB_BAD s t ∧ Counted HIF_DB_BAD_COUNT 1 s t ∧
      OnlyEvents [HIF_DB_BAD_COUNT.key, HIF_EVENT_DB_BAD.key] s t :=
  keep_count_setEvent s ⟨rfl, rfl, rfl⟩ (by decide) (by decide)

/-- A TAIL on a cyclic context that has not completed its cycle counts as an overrun (R435). -/
theorem keep_cycleOverrun (s : State) (k : Fin 8) :
    ∃ t, keep s (setEvent (incF (newCycle s) (HIF_CTX_OVERRUN_COUNT k)) HIF_EVENT_CYC_OVERRUN) = .next t ∧
      Raised HIF_EVENT_CYC_OVERRUN s t ∧ Counted (HIF_CTX_OVERRUN_COUNT k) 1 s t ∧
      OnlyEvents [(HIF_CTX_OVERRUN_COUNT k).key, HIF_EVENT_CYC_OVERRUN.key] s t := by
  refine keep_count_setEvent s ⟨rfl, rfl, ?_⟩ (by decide) ?_
  all_goals
    simp only [HIF_CTX_OVERRUN_COUNT, HIF_EVENT_CYC_OVERRUN]
    omega

/-! ### What a TAIL does (R431, R435, R465) -/

theorem tailWrite_of_partial (s : State) (k : Nat) {be : BitVec 4} (data : W32) (h : be ≠ 0xF) :
    tailWrite s k be data = badDoorbell s := by
  rw [tailWrite, if_pos h]

theorem tailWrite_whole (s : State) (k : Nat) (data : W32) : tailWrite s k 0xF data = ringTail s k (fieldOf data 11 0) := by
  rw [tailWrite, if_neg (not_not_intro rfl)]

section
variable {s : State} {k tail : Nat}

theorem ringTail_of_flushing (h : (getCtx s k).flushing = true) : ringTail s k tail = setEvent s HIF_EVENT_DB_FLUSHED := by
  simp only [ringTail, h, if_true]

variable (hf : (getCtx s k).flushing = false)
include hf

theorem ringTail_of_cyclic_idle (hc : flag s (HIF_CTX_CTL_CYCLIC k) = true)
    (h : (getCtx s k).sqHead = (getCtx s k).sqTail ∧ jobsOf s k = []) :
    ringTail s k tail = acceptTail s k (getF s (HIF_CTX_CYC_START k) % sqSize s k) (getF s (HIF_CTX_CYC_START k) % sqSize s k)
      (tail % sqSize s k) := by
  simp only [ringTail, hf, hc, h.1, h.2, decide_true, List.isEmpty_nil, Bool.and_self, Bool.false_eq_true, if_true, if_false]

theorem ringTail_of_cyclic_busy (hc : flag s (HIF_CTX_CTL_CYCLIC k) = true)
    (h : ¬ ((getCtx s k).sqHead = (getCtx s k).sqTail ∧ jobsOf s k = [])) :
    ringTail s k tail = setEvent (incF s (HIF_CTX_OVERRUN_COUNT k)) HIF_EVENT_CYC_OVERRUN := by
  simp only [ringTail, hf, hc, Bool.and_eq_true, decide_eq_true_eq, List.isEmpty_iff, h, Bool.false_eq_true, if_true, if_false]

variable (hc : flag s (HIF_CTX_CTL_CYCLIC k) = false)
include hc

theorem ringTail_of_room (h : (tail % sqSize s k + sqSize s k - (getCtx s k).sqTail) % sqSize s k ≤
      ((getCtx s k).sqHead + 2 * sqSize s k - (getCtx s k).sqTail - 1) % sqSize s k) :
    ringTail s k tail = acceptTail s k (getCtx s k).sqHead (getCtx s k).sqTail (tail % sqSize s k) := by
  simp only [ringTail, hf, hc, h, Bool.false_eq_true, if_true, if_false]

theorem ringTail_of_no_room (h : ¬ (tail % sqSize s k + sqSize s k - (getCtx s k).sqTail) % sqSize s k ≤
      ((getCtx s k).sqHead + 2 * sqSize s k - (getCtx s k).sqTail - 1) % sqSize s k) :
    ringTail s k tail = badDoorbell s := by
  simp only [ringTail, hf, hc, h, Bool.false_eq_true, if_false]

end

/-- Settles O20: what a TAIL does is decided by its byte enables, by FLUSHING, by CYCLIC and by the room of the ring, in this
order, and each of the six outcomes is the whole answer. -/
theorem tailDoorbellsOfEveryContext : Obligations.TailDoorbellsOfEveryContext := by
  unfold Obligations.TailDoorbellsOfEveryContext
  intro s k be data hs hq c n tail room idle moves bad
  rw [exec_tailDoorbell hs hq]
  by_cases hbe : be = 0xF
  case neg =>
    rw [tailWrite_of_partial _ _ data hbe]
    obtain ⟨t, ht, hbad⟩ := keep_badDoorbell s
    exact ⟨t, ht, by simpa only [hbe, ne_eq, not_false_eq_true, true_implies, false_implies, and_true] using hbad⟩
  subst hbe
  rw [tailWrite_whole]
  simp only [ne_eq, not_true_eq_false, true_implies, false_implies, true_and]
  cases hf : c.flushing with
  | true =>
    rw [ringTail_of_flushing (s := newCycle s) hf]
    obtain ⟨t, ht, hflushed⟩ := keep_setEvent s (ev := HIF_EVENT_DB_FLUSHED) (by decide)
    exact ⟨t, ht, by simpa only [true_implies, reduceCtorEq, false_implies, and_true] using hflushed⟩
  | false =>
    simp only [true_implies, reduceCtorEq, false_implies, true_and]
    cases hcyc : flag s (HIF_CTX_CTL_CYCLIC k) with
    | true =>
      simp only [true_implies, reduceCtorEq, false_implies, and_true]
      by_cases hidle : idle
      · rw [ringTail_of_cyclic_idle (s := newCycle s) hf hcyc hidle]
        obtain ⟨t, ht, hmoves⟩ := keep_acceptTail s k _ _ tail
        exact ⟨t, ht, fun _ => hmoves, fun hn => absurd hidle hn⟩
      · rw [ringTail_of_cyclic_busy (s := newCycle s) hf hcyc hidle]
        obtain ⟨t, ht, hover⟩ := keep_cycleOverrun s k
        exact ⟨t, ht, fun hi => absurd hi hidle, fun _ => hover⟩
    | false =>
      simp only [true_implies, reduceCtorEq, false_implies, true_and]
      by_cases hroom : room
      · rw [ringTail_of_room (s := newCycle s) hf hcyc hroom]
        obtain ⟨t, ht, hmoves⟩ := keep_acceptTail s k _ _ tail
        exact ⟨t, ht, fun _ => hmoves, fun hn => absurd hroom hn⟩
      · rw [ringTail_of_no_room (s := newCycle s) hf hcyc hroom]
        obtain ⟨t, ht, hbad⟩ := keep_badDoorbell s
        exact ⟨t, ht, fun hr => absurd hr hroom, fun _ => hbad⟩

/-! ### What a HEAD does (R430, R432, R452) -/

theorem headWrite_of_partial (s : State) (k : Nat) {be : BitVec 4} (data : W32) (h : be ≠ 0xF) :
    headWrite s k be data = badDoorbell s := by
  simp only [headWrite, ne_eq, h, not_false_eq_true, if_true]

section
variable {s : State} {k : Nat} {data : W32}

theorem headWrite_of_overwrite (ho : flag s (HIF_CTX_CTL_CQ_OVERWRITE k) = true) : headWrite s k 0xF data = s := by
  simp only [headWrite, ne_eq, not_true_eq_false, if_false, ho, if_true]

variable (ho : flag s (HIF_CTX_CTL_CQ_OVERWRITE k) = false)
include ho

/-- A head passes completions that are written, when it is a position of the ring not beyond their tail. -/
theorem headWrite_of_written (h : fieldOf data 11 0 < cqSize s k ∧
      (fieldOf data 11 0 + cqSize s k - (getCtx s k).cqHead) % cqSize s k ≤
        ((getCtx s k).cqTail + cqSize s k - (getCtx s k).cqHead) % cqSize s k) :
    headWrite s k 0xF data = incF (putCtx s k { getCtx s k with cqHead := fieldOf data 11 0 }) HIF_DB_WRITES_COUNT := by
  simp only [headWrite, ne_eq, not_true_eq_false, ho, h, and_self, Bool.false_eq_true, if_true, if_false]

theorem headWrite_of_beyond (h : ¬ (fieldOf data 11 0 < cqSize s k ∧
      (fieldOf data 11 0 + cqSize s k - (getCtx s k).cqHead) % cqSize s k ≤
        ((getCtx s k).cqTail + cqSize s k - (getCtx s k).cqHead) % cqSize s k)) :
    headWrite s k 0xF data = badDoorbell s := by
  simp only [headWrite, ne_eq, not_true_eq_false, ho, h, Bool.false_eq_true, if_false]

end

/-- Settles O21: what a HEAD does is decided by its byte enables, by CQ_OVERWRITE and by the completions written, in this
order. -/
theorem headDoorbellPassesWrittenCompletions : Obligations.HeadDoorbellPassesWrittenCompletions := by
  unfold Obligations.HeadDoorbellPassesWrittenCompletions
  intro s k be data hs hq h n room
  rw [exec_headDoorbell hs hq]
  refine ⟨fun ho hbe hh hroom => ?passes, fun hbad => ?refused, fun ho hbe => ?none⟩
  case passes =>
    subst hbe
    rw [headWrite_of_written (s := newCycle s) ho ⟨hh, hroom⟩]
    exact keep_putCtx_counted s k _
  case refused =>
    suffices hwrite : headWrite (newCycle s) k be data = badDoorbell (newCycle s) by
      rw [hwrite]
      exact keep_badDoorbell s
    by_cases hbe : be = 0xF
    · obtain ⟨ho, hout⟩ := hbad.resolve_left (not_not_intro hbe)
      subst hbe
      exact headWrite_of_beyond (s := newCycle s) ho fun hin => hout.elim (Nat.not_le.2 hin.1) (· hin.2)
    · exact headWrite_of_partial _ _ data hbe
  case none =>
    subst hbe
    rw [headWrite_of_overwrite (s := newCycle s) ho, keep_newCycle]

end Sys2Proof.Machine
end

section
/-! SUPPORT. Reading memory and translating an address are blind to the marks of the cycle's events (R67), and with them the
order in which a unit takes its jobs (R427, R457, R458). -/

namespace Sys2Proof.Machine

section
variable {α β : Type}

/-- Work after work: it goes on with what the first answers, where the first leaves it. -/
theorem runOp_bind (x : Op α) (f : α → Op β) (s : State) :
    runOp (x >>= f) s = match runOp x s with
      | (.ok a, t) => runOp (f a) t
      | (.error e, t) => (.error e, t) := by
  change (match runOp x s with | (r, t) => (ExceptT.bindCont f r : StateM State (Except Stop β)) t) = _
  rcases runOp x s with ⟨e | a, t⟩
  · rfl
  · rfl

/-- The state with other marks of the cycle's events. -/
def withRaised (s : State) (r : List Nat) : State := { s with raised := r }

/-- The work answers the same, and leaves the same but for the marks, whatever marks it begins with. -/
def Blind (x : Op α) : Prop := ∀ s r, ∃ r', runOp x (withRaised s r) = ((runOp x s).1, withRaised (runOp x s).2 r')

/-! ### Composing work -/

theorem blind_pure (a : α) : Blind (pure a : Op α) := fun _ r => ⟨r, rfl⟩

theorem blind_throw (e : Stop) : Blind (throw e : Op α) := fun _ r => ⟨r, rfl⟩

theorem blind_failWith (status : Nat) (d : Option W32) (q : W32) : Blind (failWith status d q : Op α) := blind_throw _

theorem Blind.bind {x : Op α} {f : α → Op β} (hx : Blind x) (hf : ∀ a, Blind (f a)) : Blind (x >>= f) := by
  intro s r
  obtain ⟨r', h⟩ := hx s r
  simp only [runOp_bind, h]
  rcases runOp x s with ⟨e | a, t⟩
  · exact ⟨r', rfl⟩
  · exact hf a t r'

theorem blind_get_bind {f : State → Op β} (hblind : ∀ s r, f (withRaised s r) = f s) (hf : ∀ s, Blind (f s)) :
    Blind (get >>= f) := by
  intro s r
  change ∃ r', runOp (f (withRaised s r)) (withRaised s r) = ((runOp (f s) s).1, withRaised (runOp (f s) s).2 r')
  rw [hblind]
  exact hf s s r

theorem blind_set (t : State) : Blind (set t : Op PUnit) := fun _ _ => ⟨t.raised, rfl⟩

theorem blind_modify {f : State → State} (h : ∀ s r, ∃ r', f (withRaised s r) = withRaised (f s) r') :
    Blind (modify f : Op PUnit) := by
  intro s r
  obtain ⟨r', h'⟩ := h s r
  exact ⟨r', congrArg (Prod.mk _) h'⟩

/-- A change of the state that answers something, and work that goes on with the answer. -/
theorem blind_change {f : State → α × State} {g : α → Op β}
    (h : ∀ s r, ∃ r', f (withRaised s r) = ((f s).1, withRaised (f s).2 r')) (hg : ∀ a, Blind (g a)) :
    Blind (do let s ← get; set (f s).2; g (f s).1) := by
  intro s r
  obtain ⟨r', h'⟩ := h s r
  change ∃ r', runOp (g (f (withRaised s r)).1) (f (withRaised s r)).2 =
    ((runOp (g (f s).1) (f s).2).1, withRaised (runOp (g (f s).1) (f s).2).2 r')
  rw [h']
  exact hg _ _ _

/-- Work that stops where a condition holds, and else goes on. -/
theorem blind_unless {c : Prop} [Decidable c] {e : Stop} {rest : PUnit → Op α} (h : Blind (rest ⟨⟩)) :
    Blind (if c then (throw e : Op PUnit) >>= rest else rest ⟨⟩) := by
  split
  · exact (blind_throw e).bind fun _ => h
  · exact h

theorem blind_eachOp {f : α → Op Unit} (hf : ∀ a, Blind (f a)) (l : List α) : Blind (eachOp f l) := by
  induction l with
  | nil => exact blind_pure _
  | cons x xs ih => exact (hf x).bind fun _ => ih

/-! ### Reading memory (R271 to R274, R548) -/

theorem blind_hbmGate (a : Nat) : Blind (hbmGate a) := by
  unfold hbmGate
  refine blind_get_bind (fun s r => rfl) fun s => ?_
  split
  · exact blind_failWith _ _ _
  · exact blind_pure _

/-- An error found in a granule is an event of a cycle of its own; without one nothing is marked. -/
theorem eccRead_withRaised (s : State) (who : Option (Nat × W32)) (g : Nat) (r : List Nat) :
    ∃ r', eccRead (withRaised s r) who g = ((eccRead s who g).1, withRaised (eccRead s who g).2 r') := by
  unfold eccRead
  split
  · exact ⟨r, rfl⟩
  · rename_i k hk
    dsimp only
    by_cases hp : s.poison.contains g = true
    · rw [if_pos hp, if_pos (by exact hp)]
      cases who with
      | none => exact ⟨r, rfl⟩
      | some j => exact ⟨_, rfl⟩
    · rw [if_neg hp, if_neg (by exact hp)]
      by_cases hl : (errGranules k g).foldl (fun m x => m + smGet 0 s.latent x) 0 = 0
      · rw [if_pos hl, if_pos (by exact hl)]
        exact ⟨r, rfl⟩
      · rw [if_neg hl, if_neg (by exact hl)]
        exact ⟨_, rfl⟩

theorem blind_readDev (who : Option (Nat × W32)) (a n : Nat) : Blind (readDev who a n) := by
  unfold readDev
  refine (blind_hbmGate a).bind fun _ => (blind_eachOp (fun p => ?granule) _).bind fun _ =>
    blind_get_bind (fun _ _ => rfl) fun _ => blind_pure _
  case granule =>
    refine blind_change (f := fun s => eccRead s who (p.1 / 8 * 8))
      (g := fun q => match q with | some q => failWith 9 none q | none => pure ()) (fun s r => eccRead_withRaised s who _ r)
      fun q => ?_
    cases q with
    | none => exact blind_pure _
    | some q => exact blind_failWith _ _ _

theorem blind_hostGate (who : Option (Nat × W32)) (a : Nat) (write : Bool) : Blind (hostGate who a write) := by
  unfold hostGate
  refine blind_get_bind (fun s r => rfl) fun s => blind_unless ?_
  split
  · exact blind_pure _
  · exact (blind_set _).bind fun _ => blind_failWith _ _ _

/-! ### Translation (R503 to R506) -/

/-- A table entry is read from the memory that holds its table. -/
theorem blind_entryRead {c : Prop} [Decidable c] {who : Option (Nat × W32)} {a : Nat} {rest : List Byte → Op α}
    (h : ∀ b, Blind (rest b)) :
    Blind (if c then hostGate who a false >>= fun _ => get >>= fun s => pure (hostRead s a 8) >>= rest
      else readDev who a 8 >>= rest) := by
  split
  · exact (blind_hostGate _ _ _).bind fun _ => blind_get_bind (fun _ _ => rfl) fun s => (blind_pure _).bind h
  · exact (blind_readDev _ _ _).bind h

theorem blind_walk (who : Option (Nat × W32)) (va : Nat) (write pinned : Bool) (f : Nat) :
    ∀ level t h, Blind (walk who va write pinned f level t h) := by
  induction f with
  | zero => exact fun _ _ _ => blind_throw _
  | succ f ih =>
    intro level t h
    unfold walk
    refine blind_unless (blind_entryRead fun bytes => blind_unless ?_)
    split
    · exact blind_unless (blind_unless (blind_unless (blind_unless (blind_unless (blind_pure _)))))
    · exact ih _ _ _

theorem incF_withRaised (s : State) (f : RField) (r : List Nat) : incF (withRaised s r) f = withRaised (incF s f) r := by
  unfold incF addF
  split
  · rename_i h
    rw [if_pos (by exact h)]
  · rename_i h
    rw [if_neg (by exact h)]
    rfl

theorem blind_translate (who : Option (Nat × W32)) (k va : Nat) (write pinned : Bool) :
    Blind (translate who k va write pinned) := by
  unfold translate translateLeaf
  refine Blind.bind ((blind_modify fun s r => ⟨r, incF_withRaised _ _ _⟩).bind fun _ => ?_) fun _ => blind_pure _
  exact blind_get_bind (fun s r => rfl) fun s => blind_walk _ _ _ _ _ _ _ _

end

/-! ### The order of jobs -/

theorem ringLocal_newCycle (s : State) (k : Nat) : ringLocal (newCycle s) k = ringLocal s k := by
  have hpage (va : Nat) : (runOp (translate none k va false true) (newCycle s)).1 = (runOp (translate none k va false true) s).1 := by
    obtain ⟨r, h⟩ := blind_translate none k va false true s []
    rw [show newCycle s = withRaised s [] from rfl, h]
  unfold ringLocal
  simp only [hpage]
  rfl

theorem effClass_newCycle (s : State) (j : Job) : effClass (newCycle s) j = effClass s j := by
  unfold effClass
  rw [ringLocal_newCycle]
  rfl

theorem isNext_newCycle (s : State) (p : Nat) (j : Job) (rival : Job → Bool) :
    isNext (newCycle s) p j rival = isNext s p j rival := by
  unfold isNext takenBefore
  simp only [effClass_newCycle]
  rfl

theorem isTurn_newCycle (s : State) (j : Job) : isTurn (newCycle s) j = isTurn s j := isNext_newCycle _ _ _ _

/-- A job ready for a command is ready in the cycle the command begins. -/
theorem jobReady_newCycle {s : State} {j : Job} (h : JobReady s j (isTurn s j)) :
    JobReady (newCycle s) j (true && isTurn (newCycle s) j) := by
  rw [isTurn_newCycle, Bool.true_and]
  exact h

end Sys2Proof.Machine
end

section
/-! SUPPORT. The job of a unit at work: what taking the unit changes (R446, R458), and what a command answers whose effect is on
jobs. -/

namespace Sys2Proof.Machine

/-- A ready job as it works: it runs on its unit from now, when it did not run already. -/
def atWork (s : State) (j : Job) : Job :=
  if j.phase = .running then j else { j with phase := .running, unit := j.desc.body.unit, startedAt := s.now }

theorem atWork_phase (s : State) (j : Job) : (atWork s j).phase = .running := by
  unfold atWork
  split
  · assumption
  · rfl

theorem atWork_not_done (s : State) (j : Job) : (atWork s j).isDone = false := by
  rw [Job.isDone, atWork_phase]
  rfl

@[simp] theorem atWork_ctx (s : State) (j : Job) : (atWork s j).ctx = j.ctx := by
  unfold atWork
  split
  · rfl
  · rfl

@[simp] theorem atWork_sub (s : State) (j : Job) : (atWork s j).sub = j.sub := by
  unfold atWork
  split
  · rfl
  · rfl

/-- Taking a unit leaves the keys of every job. -/
theorem working_jobs (s : State) (j : Job) :
    ∃ f : Job → Job, (∀ x, (f x).ctx = x.ctx ∧ (f x).sub = x.sub) ∧ (working s j).jobs = s.jobs.map f := by
  unfold working
  split
  · exact ⟨id, fun _ => ⟨rfl, rfl⟩, (List.map_id _).symm⟩
  · refine ⟨_, fun x => ?_, rfl⟩
    split
    · exact ⟨rfl, rfl⟩
    · exact ⟨rfl, rfl⟩

/-- Taking a unit changes the jobs and the books of the units alone. -/
theorem working_eq (s : State) (j : Job) : ∃ served jobs, working s j = { s with served := served, jobs := jobs } := by
  unfold working
  split
  · exact ⟨s.served, s.jobs, rfl⟩
  · exact ⟨_, _, rfl⟩

theorem findJob_takeJob {s : State} {k : Nat} {sub : W32} {j : Job} (hj : findJob s k sub = some j) (p unit : Nat) :
    findJob (takeJob s p j unit) k sub = some { j with phase := .running, unit := unit, startedAt := s.now } := by
  obtain ⟨rfl, rfl⟩ := key_of_findJob hj
  exact findJob_updJob_same (s := { s with served := smPut 7 s.served p j.ctx })
    (f := fun x => { x with phase := .running, unit := unit, startedAt := s.now }) hj fun _ => ⟨rfl, rfl⟩

theorem findJob_working {s : State} {k : Nat} {sub : W32} {j : Job} (hj : findJob s k sub = some j) :
    findJob (working s j) k sub = some (atWork s j) := by
  unfold working atWork
  split
  · exact hj
  · exact findJob_takeJob hj _ _

/-- A change of each job that leaves its context and number changes those fetched before a job. -/
theorem earlierJobs_map {s t : State} {f : Job → Job} (h : t.jobs = s.jobs.map f) (hf : ∀ j, (f j).ctx = j.ctx ∧ (f j).sub = j.sub)
    {x j : Job} (hctx : x.ctx = j.ctx) (hsub : x.sub = j.sub) : earlierJobs t x = (earlierJobs s j).map f := by
  simp only [earlierJobs, jobsOf, h, hctx, hsub, List.filter_map, List.takeWhile_map, Function.comp_def, hf]

/-- A command whose effect leaves the phase answers with its jobs, registers and contexts, and the frame as it was. -/
theorem keep_jobs (s u : State) (h : u.phase = s.phase) :
    ∃ t, keep s u = .next t ∧ t.jobs = u.jobs ∧ t.regs = u.regs ∧ t.ctxs = u.ctxs ∧ SameFrame s t :=
  ⟨_, rfl, rfl, rfl, rfl, rfl, rfl, sameBytes_of rfl rfl, h, rfl, rfl⟩

/-- A command that ends a job leaves every register, the contexts and the frame. -/
theorem keep_endJob (s : State) {u : State} (hu : ∃ served jobs, u = { newCycle s with served := served, jobs := jobs }) (k : Nat)
    (sub : W32) (status : Nat) (detail : Option W32) (q : W32) :
    ∃ t, keep s (endJob u k sub status detail q) = .next t ∧ t.jobs = (endJob u k sub status detail q).jobs ∧ t.regs = s.regs ∧
      t.ctxs = s.ctxs ∧ SameFrame s t := by
  obtain ⟨served, jobs, rfl⟩ := hu
  obtain ⟨cores, ended, h⟩ := endJob_eq { newCycle s with served := served, jobs := jobs } k sub status detail q
  rw [h]
  exact keep_jobs s _ rfl

end Sys2Proof.Machine
end

section
/-! NOP, FENCE and WAIT jobs (R441 to R443, R446, R460). -/

namespace Sys2Proof.Machine

section
variable {s : State} {k : Nat} {sub : W32} {j : Job}

/-- A job at work is not done. -/
theorem open_working (hj : findJob s k sub = some j) : (findJob (working s j) k sub).map Job.isDone = some false := by
  rw [findJob_working hj, Option.map_some, atWork_not_done]

/-- A ready job whose work is its end has ended, and no register, no ring and nothing of the frame differs. -/
theorem whenReady_performJob_ends {wants : JobBody → Bool} {run : State → Job → State} {detail : Option W32}
    (hs : s.phase = .ready) (hj : findJob s k sub = some j) (hr : JobReady s j (isTurn s j)) (hw : wants j.desc.body = true)
    (hrun : run (working (newCycle s) j) (atWork (newCycle s) j) = endJob (working (newCycle s) j) k sub 0 detail 0) :
    ∃ t, whenReady s (fun s => performJob s k sub wants true run) = .next t ∧
      t.jobs = (endJob (working (newCycle s) j) k sub 0 detail 0).jobs ∧ t.regs = s.regs ∧ t.ctxs = s.ctxs ∧ SameFrame s t := by
  rw [whenReady_of _ hs, performJob_of_jobReady (s := newCycle s) run hj hw (jobReady_newCycle hr)
    (findJob_working (s := newCycle s) hj), hrun]
  exact keep_endJob s (working_eq _ _) k sub 0 detail 0

/-! ### NOP and FENCE -/

theorem exec_jobNop_completes {k : Fin 8} (hs : s.phase = .ready) (hj : findJob s k sub = some j) (hr : JobReady s j (isTurn s j))
    (hbody : j.desc.body = .nop) :
    ∃ t, exec (.jobNop k sub) s = .next t ∧ DoneWith t k sub 0 ∧ t.regs = s.regs ∧ t.ctxs = s.ctxs ∧ SameFrame s t := by
  obtain ⟨t, ht, hjobs, hframe⟩ := whenReady_performJob_ends (wants := JobBody.isNop)
    (run := fun s _ => endJob s k sub 0 none 0) hs hj hr (by rw [hbody]; rfl) rfl
  exact ⟨t, ht, doneWith_congr hjobs (doneWith_endJob (findJob_working (s := newCycle s) hj) (atWork_not_done _ _) 0 none 0), hframe⟩

/-- A FENCE at work sees the jobs fetched before it as they were. -/
theorem earlierJobs_working_eq_nil (h : earlierJobs s j = []) : earlierJobs (working s j) (atWork s j) = [] := by
  obtain ⟨f, hf, hjobs⟩ := working_jobs s j
  rw [earlierJobs_map hjobs hf (atWork_ctx s j) (atWork_sub s j), h, List.map_nil]

theorem exec_jobFence_completes {k : Fin 8} (hs : s.phase = .ready) (hj : findJob s k sub = some j) (hr : JobReady s j (isTurn s j))
    (hbody : j.desc.body = .fence) (hfirst : earlierJobs s j = []) :
    ∃ t, exec (.jobFence k sub) s = .next t ∧ DoneWith t k sub 0 ∧ t.regs = s.regs ∧ t.ctxs = s.ctxs ∧ SameFrame s t := by
  have hnone : earlierJobs (working (newCycle s) j) (atWork (newCycle s) j) = [] := earlierJobs_working_eq_nil (s := newCycle s) hfirst
  obtain ⟨t, ht, hjobs, hframe⟩ := whenReady_performJob_ends (wants := JobBody.isFence) (detail := none)
    (run := fun s j => if (earlierJobs s j).isEmpty then endJob s k sub 0 none 0 else s) hs hj hr (by rw [hbody]; rfl)
    (by rw [hnone]; rfl)
  exact ⟨t, ht, doneWith_congr hjobs (doneWith_endJob (findJob_working (s := newCycle s) hj) (atWork_not_done _ _) 0 none 0), hframe⟩

/-! ### WAIT -/

/-- A WAIT at work sees its condition as it was. -/
theorem waitState_working (s : State) (j : Job) : waitState (working s j) (atWork s j) = waitState s j := by
  unfold working atWork
  split
  · rfl
  · rfl

/-- A ready WAIT whose condition holds completes OK with the value observed in DETAIL (R441, R447). -/
theorem whenReady_waitJob_holds {c w tmo : Nat} {v : W32} (hs : s.phase = .ready) (hj : findJob s k sub = some j)
    (hr : JobReady s j (isTurn s j)) (hbody : j.desc.body = .wait c w v tmo) {d : W32} (hc : waitState s j = (true, d)) :
    ∃ t, whenReady s (fun s => waitJob s k sub c) = .next t ∧ DoneDetail t k sub 0 d ∧ t.regs = s.regs ∧ t.ctxs = s.ctxs ∧
      SameFrame s t := by
  have hstate : waitState (working (newCycle s) j) (atWork (newCycle s) j) = (true, d) := (waitState_working _ _).trans hc
  obtain ⟨t, ht, hjobs, hframe⟩ := whenReady_performJob_ends (wants := JobBody.isWaitOn c) (detail := some d)
    (run := fun s j => if (waitState s j).1 then endJob s k sub 0 (some (waitState s j).2) 0 else s) hs hj hr
    (by rw [hbody]; exact decide_eq_true rfl) (by rw [hstate]; rfl)
  exact ⟨t, ht, doneDetail_congr hjobs (doneDetail_endJob (open_working (s := newCycle s) hj) 0 d 0), hframe⟩

/-- A started WAIT whose TIMEOUT has elapsed with its condition not holding ends LATE (R443). -/
theorem waitTimeout_of_elapsed {c w tmo : Nat} {v : W32} (hj : findJob s k sub = some j) (hbody : j.desc.body = .wait c w v tmo)
    (hrun : j.phase = .running) (htmo : tmo ≠ 0) (hnow : s.now ≥ j.startedAt + 100 * tmo) (hc : (waitState s j).1 = false) :
    waitTimeout s k sub = endJob s k sub 3 (some (waitState s j).2) 0 := by
  simp only [waitTimeout, hj, hbody, hrun, htmo, hnow, hc, ne_eq, not_false_eq_true, Bool.not_false, and_self, if_true]

theorem waitTimeout_of_not_elapsed {c w tmo : Nat} {v : W32} (hj : findJob s k sub = some j)
    (hbody : j.desc.body = .wait c w v tmo) (h : tmo = 0 ∨ s.now < j.startedAt + 100 * tmo) : waitTimeout s k sub = s := by
  simp only [waitTimeout, hj, hbody]
  rw [if_neg fun ⟨_, htmo, hnow, _⟩ => h.elim htmo (Nat.not_lt.2 hnow)]

theorem exec_jobWaitTimeout {k : Fin 8} (hs : s.phase = .ready) :
    exec (.jobWaitTimeout k sub) s = keep s (waitTimeout (newCycle s) k sub) :=
  whenReady_of (fun s => waitTimeout s k sub) hs

theorem exec_jobWaitTimeout_late {k : Fin 8} {c w tmo : Nat} {v : W32} (hs : s.phase = .ready) (hj : findJob s k sub = some j)
    (hbody : j.desc.body = .wait c w v tmo) (hrun : j.phase = .running) (htmo : tmo ≠ 0)
    (hnow : s.now ≥ j.startedAt + 100 * tmo) (hc : (waitState s j).1 = false) :
    ∃ t, exec (.jobWaitTimeout k sub) s = .next t ∧ DoneDetail t k sub 3 (waitState s j).2 ∧ t.regs = s.regs ∧ t.ctxs = s.ctxs ∧
      SameFrame s t := by
  have hopen : (findJob (newCycle s) k sub).map Job.isDone = some false := by
    rw [show findJob (newCycle s) k sub = some j from hj, Option.map_some, Job.isDone, hrun]
    rfl
  rw [exec_jobWaitTimeout hs, waitTimeout_of_elapsed (s := newCycle s) hj hbody hrun htmo hnow hc]
  obtain ⟨t, ht, hjobs, hframe⟩ := keep_endJob s ⟨s.served, s.jobs, rfl⟩ k sub 3 (some (waitState s j).2) 0
  exact ⟨t, ht, doneDetail_congr hjobs (doneDetail_endJob hopen 3 _ 0), hframe⟩

end

/-- Settles O23: a ready NOP, and a ready FENCE with none before it, end at once; each of the four conditions of a WAIT is the
one `waitState` judges, and so is that of its timeout. -/
theorem nopFenceAndWaitJobsComplete : Obligations.NopFenceAndWaitJobsComplete := by
  unfold Obligations.NopFenceAndWaitJobsComplete
  refine ⟨fun s k sub j hs hj hr => ⟨?nop, ?fence⟩, fun s k sub j w tmo v hs hj hr => ⟨?seq, ?pos, ?landing, ?gen⟩,
    fun s k sub j c w tmo v hs hj hbody hrun => ⟨?late, ?early⟩⟩
  case nop => exact exec_jobNop_completes hs hj hr
  case fence => exact exec_jobFence_completes hs hj hr
  case seq =>
    exact fun hbody hc => whenReady_waitJob_holds hs hj hr hbody (by simp only [waitState, hbody, hc, decide_true])
  case pos =>
    exact fun hbody hc => whenReady_waitJob_holds hs hj hr hbody (by simp only [waitState, hbody, hc, decide_true])
  case landing =>
    exact fun hbody hc => whenReady_waitJob_holds hs hj hr hbody (by simp only [waitState, hbody, hc, decide_true])
  case gen =>
    exact fun hbody hc => whenReady_waitJob_holds hs hj hr hbody (by simp only [waitState, hbody, reaches, hc, decide_true])
  case late => exact exec_jobWaitTimeout_late hs hj hbody hrun
  case early =>
    intro h
    rw [exec_jobWaitTimeout hs, waitTimeout_of_not_elapsed (s := newCycle s) hj hbody h, keep_newCycle]

end Sys2Proof.Machine
end

section
/-! SUPPORT. Messages sent and pending (R462), and what a command leaves that announces events alone. -/

namespace Sys2Proof.Machine

theorem mem_natInsert (k x : Nat) (l : List Nat) : x ∈ natInsert k l ↔ x = k ∨ x ∈ l := by
  induction l with
  | nil => simp [natInsert]
  | cons y l ih =>
    unfold natInsert
    split
    · simp
    · split
      · subst_vars
        simp
      · rw [List.mem_cons, ih, List.mem_cons]
        exact or_left_comm

theorem mem_natErase (k x : Nat) (l : List Nat) : x ∈ natErase k l ↔ x ∈ l ∧ x ≠ k := by
  simp [natErase]

/-- A vector that is masked, or that the link cannot take, becomes pending (R462). -/
theorem sendMsix_of_blocked {s : State} {v : Nat} (h : msixBlocked s v = true) :
    sendMsix s v = { s with msixPending := natInsert v s.msixPending } := by
  rw [sendMsix, if_pos h]

/-- A vector that is free is sent with its data word, and is not pending (R462). -/
theorem sendMsix_of_free {s : State} {v : Nat} (h : msixBlocked s v = false) :
    ∃ a, sendMsix s v = { s with
      out := { s.out with msix := (v, a, msixWord s (4 * v + 2)) :: s.out.msix }, msixPending := natErase v s.msixPending } := by
  rw [sendMsix, if_neg (Bool.eq_false_iff.1 h)]
  exact ⟨_, rfl⟩

theorem OnlyEvents.ctxs {keys : List Nat} {s t : State} (h : OnlyEvents keys s t) : t.ctxs = s.ctxs := by rw [h.1]

theorem OnlyEvents.jobs {keys : List Nat} {s t : State} (h : OnlyEvents keys s t) : t.jobs = s.jobs := by rw [h.1]

theorem OnlyEvents.frame {keys : List Nat} {s t : State} (h : OnlyEvents keys s t) : SameFrame s t := by
  obtain ⟨heq, -⟩ := h
  exact ⟨by rw [heq], by rw [heq], sameBytes_of (by rw [heq]) (by rw [heq]), by rw [heq], by rw [heq], by rw [heq]⟩

end Sys2Proof.Machine
end

section
/-! The coalescing timeout and the drop of a mirror write (R453, R462, R463). -/

namespace Sys2Proof.Machine

/-! ### Coalescing -/

/-- What an announcement of context `k` leaves: a new count, and the context's vector sent, or pending while it is blocked. -/
def Announced (k : Nat) (s t : State) : Prop :=
  getCtx t k = { getCtx s k with irqCount := 0, irqSince := none } ∧ (∀ j, j ≠ k → getCtx t j = getCtx s j) ∧ t.regs = s.regs ∧
    SameFrame s t ∧ (msixBlocked s k = true → k ∈ t.msixPending ∧ t.out = s.out) ∧
    (msixBlocked s k = false → k ∉ t.msixPending ∧ ∃ a, t.out.msix = (k, a, msixWord s (4 * k + 2)) :: s.out.msix)

theorem keep_announce (s : State) (k : Nat) : ∃ t, keep s (announce (newCycle s) k) = .next t ∧ Announced k s t := by
  have hsame : msixBlocked (putCtx (newCycle s) k { getCtx (newCycle s) k with irqCount := 0, irqSince := none }) k =
      msixBlocked s k := rfl
  have hframe (t : State) (hp : t.phase = s.phase) : SameFrame s { t with
      pending := s.pending, now := s.now, raised := s.raised, sec := sameFuses s t, mem := s.mem, host := s.host } :=
    ⟨rfl, rfl, sameBytes_of rfl rfl, hp, rfl, rfl⟩
  unfold announce
  cases hb : msixBlocked s k with
  | true =>
    rw [sendMsix_of_blocked (hsame.trans hb)]
    exact ⟨_, rfl, smGet_smPut_same _ _ _ _, fun j hj => smGet_smPut_other _ _ _ hj, rfl, hframe _ rfl,
      fun _ => ⟨(mem_natInsert k k _).2 (.inl rfl), rfl⟩, fun h => absurd (hb.symm.trans h) (by decide)⟩
  | false =>
    obtain ⟨a, ha⟩ := sendMsix_of_free (hsame.trans hb)
    rw [ha]
    exact ⟨_, rfl, smGet_smPut_same _ _ _ _, fun j hj => smGet_smPut_other _ _ _ hj, rfl, hframe _ rfl,
      fun h => absurd (hb.symm.trans h) (by decide), fun _ => ⟨fun h => ((mem_natErase k k _).1 h).2 rfl, a, rfl⟩⟩

theorem irqTimeout_of_elapsed {s : State} {k since : Nat} (hsince : (getCtx s k).irqSince = some since)
    (hus : getF s (HIF_CTX_IRQ_US k) ≠ 0) (hnow : s.now ≥ since + 100 * getF s (HIF_CTX_IRQ_US k)) :
    irqTimeout s k = announce s k := by
  simp only [irqTimeout, hsince, ne_eq, hus, hnow, not_false_eq_true, and_self, if_true]

/-! ### Dropped mirror writes -/

section
variable {s : State} {k a since : Nat} {bytes : List Byte} {r : List (Nat × List Byte × Nat)}
  (hwait : (getCtx s k).mirrorWait = (a, bytes, since) :: r)
include hwait

theorem dropMirror_of_early (hnow : s.now < since + 900) : dropMirror s k = s := by
  simp only [dropMirror, hwait, hnow, if_true]

theorem dropMirror_of_late (hnow : since + 900 ≤ s.now) :
    dropMirror s k = loseMirror (putCtx s k { getCtx s k with mirrorWait := r }) := by
  simp only [dropMirror, hwait, Nat.not_lt.2 hnow, if_false]

end

/-- A mirror write of context `k` that is lost leaves the others waiting; it counts, and sets MIRROR_DROP (R453). -/
theorem keep_loseMirror (s : State) (k : Nat) (c : Ctx) :
    ∃ t, keep s (loseMirror (putCtx (newCycle s) k c)) = .next t ∧ getCtx t k = c ∧ Raised HIF_EVENT_MIRROR_DROP s t ∧
      Counted HIF_MIRROR_DROP_COUNT 1 s t ∧ RegsBut [HIF_MIRROR_DROP_COUNT.key, HIF_EVENT_MIRROR_DROP.key] s t ∧ t.jobs = s.jobs ∧
      SameFrame s t := by
  obtain ⟨t, ht, hraised, hcounted, honly⟩ := keep_count_setEvent (putCtx s k c) (cnt := HIF_MIRROR_DROP_COUNT)
    (ev := HIF_EVENT_MIRROR_DROP) ⟨rfl, rfl, rfl⟩ (by decide) (by decide)
  exact ⟨t, ht, (getCtx_congr honly.ctxs k).trans (getCtx_putCtx_same s k c), raised_from hraised rfl, counted_from hcounted rfl,
    (regsBut_congr (t := putCtx s k c) _ rfl).trans honly.2, honly.jobs, honly.frame⟩

/-- Settles O25: US after the first unannounced completion the timeout is an announcement; a mirror write waits 900 ticks, and
is lost from then on. -/
theorem coalescingTimeoutAndMirrorDrop : Obligations.CoalescingTimeoutAndMirrorDrop := by
  unfold Obligations.CoalescingTimeoutAndMirrorDrop
  intro s k hs
  have hirq : exec (.irqCoalesceTimeout k) s = keep s (irqTimeout (newCycle s) k) := whenReady_of (fun s => irqTimeout s k) hs
  have hdrop : exec (.completionMirrorDrop k) s = keep s (dropMirror (newCycle s) k) := whenReady_of (fun s => dropMirror s k) hs
  refine ⟨fun since hsince hus hnow => ?announces, fun a bytes since r hwait hnow => ?waits, fun a bytes since r hwait hnow => ?lost⟩
  case announces =>
    rw [hirq, irqTimeout_of_elapsed (s := newCycle s) hsince hus hnow]
    exact keep_announce s k
  case waits => rw [hdrop, dropMirror_of_early (s := newCycle s) hwait hnow, keep_newCycle]
  case lost =>
    rw [hdrop, dropMirror_of_late (s := newCycle s) hwait hnow]
    exact keep_loseMirror s k _

end Sys2Proof.Machine
end

section
/-! The completion of the oldest job in flight (R447, R448, R452, R456, R460). -/

namespace Sys2Proof.Machine

/-- What follows a completion's write leaves its books: device memory, the jobs, the numbers of the writes and their counter, and
while the context is not stopping the tail of its completion ring. -/
structure CompletionStands (k : Nat) (s t : State) : Prop where
  mem : t.mem = s.mem
  jobs : t.jobs = s.jobs
  writes : t.writes = s.writes
  written : t.written = s.written
  count : getReg t HIF_COMPLETED_COUNT.key = getReg s HIF_COMPLETED_COUNT.key
  ring : (getCtx s k).stopping = false → (getCtx t k).stopping = false ∧ (getCtx t k).cqTail = (getCtx s k).cqTail ∧
    (getCtx t k).completed = (getCtx s k).completed

theorem CompletionStands.trans {k : Nat} {s t u : State} (h : CompletionStands k s t) (h' : CompletionStands k t u) :
    CompletionStands k s u := by
  refine ⟨h'.mem.trans h.mem, h'.jobs.trans h.jobs, h'.writes.trans h.writes, h'.written.trans h.written, h'.count.trans h.count,
    fun hs => ?_⟩
  obtain ⟨ht, htail, hcompleted⟩ := h.ring hs
  obtain ⟨hu, htail', hcompleted'⟩ := h'.ring ht
  exact ⟨hu, htail'.trans htail, hcompleted'.trans hcompleted⟩

/-- A change of other parts of the context leaves the books. -/
theorem completionStands_putCtx (s : State) {k : Nat} {c : Ctx} (hstop : (getCtx s k).stopping = false → c.stopping = false)
    (htail : c.cqTail = (getCtx s k).cqTail) (hcompleted : c.completed = (getCtx s k).completed) :
    CompletionStands k s (putCtx s k c) := by
  refine ⟨rfl, rfl, rfl, rfl, rfl, fun hs => ?_⟩
  rw [getCtx_putCtx_same]
  exact ⟨hstop hs, htail, hcompleted⟩

theorem completionStands_sendMsix (k : Nat) (s : State) (v : Nat) : CompletionStands k s (sendMsix s v) := by
  obtain ⟨o, p, h⟩ := sendMsix_eq s v
  rw [h]
  exact ⟨rfl, rfl, rfl, rfl, rfl, fun hs => ⟨hs, rfl, rfl⟩⟩

/-! ### What follows the write -/

/-- A mirrored completion goes to host memory, or waits for the link (R453). -/
theorem completionStands_mirrorCompletion (s : State) (k pos : Nat) (bytes : List Byte) :
    CompletionStands k s (mirrorCompletion s k pos bytes) := by
  unfold mirrorCompletion
  split
  · exact ⟨rfl, rfl, rfl, rfl, rfl, fun hs => ⟨hs, rfl, rfl⟩⟩
  · split
    · exact ⟨rfl, rfl, rfl, rfl, rfl, fun hs => ⟨hs, rfl, rfl⟩⟩
    · exact completionStands_putCtx s id rfl rfl

theorem mirrorCompletion_regs (s : State) (k pos : Nat) (bytes : List Byte) : (mirrorCompletion s k pos bytes).regs = s.regs := by
  unfold mirrorCompletion
  split
  · rfl
  · split
    · rfl
    · rfl

theorem completionStands_announce (s : State) (k : Nat) : CompletionStands k s (announce s k) :=
  (completionStands_putCtx s (c := { getCtx s k with irqCount := 0, irqSince := none }) id rfl rfl).trans
    (completionStands_sendMsix k _ k)

theorem completionStands_countIrq (s : State) (k : Nat) (irq : Bool) : CompletionStands k s (countIrq s k irq) := by
  have hcount := completionStands_putCtx s (k := k)
    (c := { getCtx s k with irqCount := (getCtx s k).irqCount + 1, irqSince := some ((getCtx s k).irqSince.getD s.now) }) id rfl rfl
  unfold countIrq
  dsimp only
  split
  · exact hcount.trans (completionStands_announce _ k)
  · exact hcount

/-- Context `k` as `settleCtx` leaves it where no new session begins. -/
def settled (s : State) (k : Nat) : Ctx :=
  let c := getCtx s k
  let idle := (jobsOf s k).isEmpty
  let c1 := if c.flushing && idle && decide (c.sqHead = c.sqTail) then { c with flushing := false } else c
  { c1 with stopping := c1.stopping && !idle }

theorem settleCtx_eq (s : State) (k : Nat) :
    settleCtx s k = if (getCtx s k).stopping && (jobsOf s k).isEmpty && flag s (HIF_CTX_CTL_EN k) then
      resetSession (putCtx s k (settled s k)) k else putCtx s k (settled s k) := rfl

/-- Where no new session begins, only FLUSHING and the stop of a context can end. -/
theorem settled_eq (s : State) (k : Nat) :
    ∃ f, settled s k = { getCtx s k with flushing := f, stopping := (getCtx s k).stopping && !(jobsOf s k).isEmpty } := by
  unfold settled
  dsimp only
  split
  · exact ⟨_, rfl⟩
  · exact ⟨_, rfl⟩

theorem getReg_resetSession_other (s : State) (k : Nat) {j : Nat} (h : j ≠ (MMU_CTX_STAT_FR_HEAD k).key) :
    getReg (resetSession s k) j = getReg s j := getReg_setF_other s (MMU_CTX_STAT_FR_HEAD k) 0 h

/-- The books of the write stand when the last job of a context has completed; its rings begin anew only where it was
stopping. -/
theorem completionStands_settleCtx (s : State) {k : Nat} (hk : k < 8) : CompletionStands k s (settleCtx s k) := by
  have hkey : HIF_COMPLETED_COUNT.key ≠ (MMU_CTX_STAT_FR_HEAD k).key := by
    simp only [HIF_COMPLETED_COUNT, MMU_CTX_STAT_FR_HEAD]
    omega
  have hsettled : CompletionStands k s (putCtx s k (settled s k)) := by
    obtain ⟨f, hf⟩ := settled_eq s k
    rw [hf]
    exact completionStands_putCtx s (fun h => by rw [h, Bool.false_and]) rfl rfl
  rw [settleCtx_eq]
  split
  · rename_i hreset
    have hstop : (getCtx s k).stopping = true := by
      simp only [Bool.and_eq_true] at hreset
      exact hreset.1.1
    exact ⟨rfl, rfl, rfl, rfl, getReg_resetSession_other _ k hkey, fun h => absurd (h.symm.trans hstop) (by decide)⟩
  · exact hsettled

/-! ### The write -/

/-- The oldest job has left flight, and the write of its completion is numbered. -/
def completionNoted (s : State) (k : Nat) (j : Job) : State :=
  { s with
    writes := s.writes + 1, written := smPut 0 s.written (k * 4096 + j.pos) ((s.writes + 1) * 2 ^ 32 + j.sub.toNat)
    jobs := s.jobs.filter (fun x => !(x.is k j.sub)) }

/-- The completion of the oldest job, done and settled with no record waiting, is written when the ring takes its bytes. -/
theorem completeOldest_of_written {s s1 s2 : State} {k : Nat} {j : Job} {rest : List Job}
    (hlists : (jobsOf s k).foldl writeList s = s1) (hj : jobsOf s1 k = j :: rest) (hsettled : j.settled = true)
    (hrecord : recordWaits s1 j = false)
    (hwrite : runOp (writeVa none k (cqVa s1 k (getCtx s1 k).cqTail) (completionBytes j (getCtx s1 k).cqPhase) true false (0, 0)) s1 =
      (.ok (), s2)) :
    ∃ bytes, completeOldest s k = settleCtx (countIrq (incF (advanceCq (completionNoted
      (mirrorCompletion s2 k (getCtx s1 k).cqTail bytes) k j) k) HIF_COMPLETED_COUNT) k j.desc.irq) k := by
  refine ⟨completionBytes j (getCtx s1 k).cqPhase, ?_⟩
  simp only [completeOldest, hlists, hj, hsettled, hrecord, hwrite, Bool.not_true, Bool.or_self, Bool.false_eq_true, if_false]
  rfl

theorem findJob_completionNoted (s : State) (k : Nat) (j : Job) : findJob (completionNoted s k j) k j.sub = none := by
  refine List.find?_eq_none.2 fun x hx => ?_
  simpa only [Job.is, Bool.not_eq_true, Bool.not_eq_true'] using (List.mem_filter.1 hx).2

/-- The completion ring moves on by one (R428, R448). -/
theorem getCtx_advanceCq (s : State) (k : Nat) :
    (getCtx (advanceCq s k) k).stopping = (getCtx s k).stopping ∧
      (getCtx (advanceCq s k) k).cqTail = ((getCtx s k).cqTail + 1) % cqSize s k ∧
      (getCtx (advanceCq s k) k).completed = (getCtx s k).completed + 1 := by
  unfold advanceCq
  simp only [getCtx_putCtx_same, and_self]

theorem exec_completionWrite {s : State} (hs : s.phase = .ready) (hr : s.raised = []) (k : Fin 8) :
    exec (.completionWrite k) s = commit s (completeOldest s k) := by
  have hcycle : newCycle s = s := by rw [newCycle, ← hr]
  change execCompletionWrite k s = _
  rw [execCompletionWrite, whenReadyMem_of _ hs, hcycle]

/-- A command that may write memory answers a state with the contexts, the registers and the numbered writes it computes. -/
theorem commit_writes (s t : State) : ∃ u, commit s t = .next u ∧ u.jobs = t.jobs ∧ u.ctxs = t.ctxs ∧ u.regs = t.regs ∧
    u.writes = t.writes ∧ u.written = t.written ∧ SameBytes t u :=
  ⟨_, rfl, rfl, rfl, rfl, rfl, rfl, fun a => smGet_smNorm 0 t.mem a, fun a => smGet_smNorm 0 t.host a⟩

/-- Settles O24: the books are made as the completion is noted, and what follows (the mirror, the coalescing count, the end of a
flush or a stop) leaves them. -/
theorem completionWrittenForOldestDoneJob : Obligations.CompletionWrittenForOldestDoneJob := by
  unfold Obligations.CompletionWrittenForOldestDoneJob
  intro s s1 s2 k j rest hs hr hlists hj hsettled hrecord hwrite
  obtain ⟨bytes, hcomplete⟩ := completeOldest_of_written hlists hj hsettled hrecord hwrite
  have hmirror := completionStands_mirrorCompletion s2 k (getCtx s1 k).cqTail bytes
  have hregs := mirrorCompletion_regs s2 k (getCtx s1 k).cqTail bytes
  generalize mirrorCompletion s2 k (getCtx s1 k).cqTail bytes = m at hcomplete hmirror hregs
  have hafter := (completionStands_countIrq (incF (advanceCq (completionNoted m k j) k) HIF_COMPLETED_COUNT) k j.desc.irq).trans
    (completionStands_settleCtx _ k.isLt)
  rw [← hcomplete] at hafter
  obtain ⟨t, ht, hjobs, hctxs, htregs, hwrites, hwritten, hbytes⟩ := commit_writes s (completeOldest s k)
  refine ⟨t, (exec_completionWrite hs hr k).trans ht, fun a => ?mem, ?gone, ?writes, ?written, ?counted, fun hstop => ?ring⟩
  case mem =>
    rw [hbytes.1 a, memByte, hafter.mem, incF_mem]
    exact congrArg (fun m => smGet 0 m a) hmirror.mem
  case gone =>
    rw [findJob_congr (hjobs.trans (hafter.jobs.trans (incF_jobs _ _)))]
    exact findJob_completionNoted m k j
  case writes =>
    rw [hwrites, hafter.writes, incF_writes]
    exact congrArg (· + 1) hmirror.writes
  case written =>
    rw [hwritten, hafter.written, incF_written, ← hmirror.writes]
    exact smGet_smPut_same _ _ _ _
  case counted =>
    refine counted_congr ?_ ((getReg_congr htregs _).trans hafter.count)
    exact counted_from (counted_incF _ _ (by decide) (by decide) (inStopped_hif _ rfl)) (getReg_congr hregs _)
  case ring =>
    obtain ⟨hmstop, hmtail, hmcompleted⟩ := hmirror.ring hstop
    obtain ⟨hastop, hatail, hacompleted⟩ := getCtx_advanceCq (completionNoted m k j) k
    have hcounted : getCtx (incF (advanceCq (completionNoted m k j) k) HIF_COMPLETED_COUNT) k =
        getCtx (advanceCq (completionNoted m k j) k) k := getCtx_congr (incF_ctxs _ _) k
    have hsize : cqSize (completionNoted m k j) k = cqSize s2 k := by
      rw [cqSize, cqSize, getF_congr (s := completionNoted m k j) (t := s2) hregs]
    obtain ⟨-, htail, hcompleted⟩ := hafter.ring (by rw [hcounted, hastop]; exact hmstop)
    rw [getCtx_congr hctxs, htail, hcompleted, hcounted, hatail, hacompleted, hsize, ← hmtail, ← hmcompleted]
    exact ⟨rfl, rfl⟩

end Sys2Proof.Machine
end

section
/-! The fetch of a descriptor (R429, R433, R440). -/

namespace Sys2Proof.Machine

theorem OnlyJobs.refl (s : State) : OnlyJobs s s := rfl

theorem OnlyJobs.ctxs {s t : State} (h : OnlyJobs s t) : t.ctxs = s.ctxs := by unfold OnlyJobs at h; rw [h]

theorem OnlyJobs.regs {s t : State} (h : OnlyJobs s t) : t.regs = s.regs := by unfold OnlyJobs at h; rw [h]

/-- What the doorbell saw for the position at the head, or what stands now where no doorbell noted it (R441). -/
def presentAtHead (s : State) (k : Nat) : Present :=
  ((getCtx s k).presented.find? (fun p => decide (p.pos = (getCtx s k).sqHead))).getD
    ⟨(getCtx s k).sqHead, frameCounts s, s.writes, false⟩

/-- The job that the descriptor at the head becomes. -/
def fetchedJob (s : State) (k : Nat) (r : List Byte) : Job :=
  newJob k (getCtx s k).subseq (getCtx s k).sqHead (parseDesc r) (presentAtHead s k)

/-- The context with its head moved on by one and the next SUBSEQ taken. -/
def nextDescriptor (s : State) (k : Nat) : Ctx :=
  let c := getCtx s k
  { c with sqHead := (c.sqHead + 1) % sqSize s k, subseq := c.subseq + 1, presented := c.presented.drop 1 }

/-- The job of the descriptor at the head joins the jobs in flight. -/
def joinedFlight (s : State) (k : Nat) (r : List Byte) : State :=
  { putCtx s k (nextDescriptor s k) with jobs := s.jobs ++ [fetchedJob s k r] }

/-- The job of the descriptor at the head is in flight, and counted. -/
def fetchedState (s : State) (k : Nat) (r : List Byte) : State := incF (joinedFlight s k r) HIF_FETCHED_COUNT

section
variable {s : State} {k : Nat} {r : List Byte}

theorem fetchedState_jobs : (fetchedState s k r).jobs = s.jobs ++ [fetchedJob s k r] := incF_jobs _ _

theorem getCtx_fetchedState : getCtx (fetchedState s k r) k = nextDescriptor s k :=
  (getCtx_congr (s := joinedFlight s k r) (incF_ctxs _ _) k).trans (getCtx_putCtx_same s k _)

theorem regsBut_fetchedState : RegsBut [HIF_FETCHED_COUNT.key] s (fetchedState s k r) :=
  (regsBut_congr (t := joinedFlight s k r) _ rfl).trans (regsBut_incF _ _)

theorem counted_fetchedState : Counted HIF_FETCHED_COUNT 1 s (fetchedState s k r) :=
  counted_from (t := joinedFlight s k r) (counted_incF _ _ (by decide) (by decide) (inStopped_hif _ rfl)) rfl

/-- The size of every submission ring is as it was. -/
theorem sqSize_fetchedState (w : Nat) : sqSize (fetchedState s k r) w = sqSize s w := by
  have hkey : (HIF_CTX_SIZE_SQ_LOG2 w).key ∉ [HIF_FETCHED_COUNT.key] := by
    simp only [HIF_CTX_SIZE_SQ_LOG2, HIF_FETCHED_COUNT, List.mem_singleton]
    omega
  rw [sqSize, sqSize, getF, getF, regsBut_fetchedState _ hkey]

theorem posBad_fetchedState (j : Job) : posBad (fetchedState s k r) j = posBad s j := by
  unfold posBad
  split
  · rw [sqSize_fetchedState]
  · rfl

/-- The job judges its own ring by the tail, which stands. -/
theorem waitsOnSelf_fetchedState : waitsOnSelf (fetchedState s k r) (fetchedJob s k r) = waitsOnSelf s (fetchedJob s k r) := by
  unfold waitsOnSelf
  split
  · rfl
  · simp only [sqSize_fetchedState, show (fetchedJob s k r).ctx = k from rfl, getCtx_fetchedState, nextDescriptor]
  · rfl

/-- A descriptor of a ring that does not flush, whose CHECKs have not failed, is in flight, and ends at once where it is bad
(R440, R444). -/
theorem admitDesc_of_room (hroom : inFlightRoom s k (decide (effClass s (fetchedJob s k r) = 0)) = true)
    (hflush : (getCtx s k).flushing = false) (hlate : (presentAtHead s k).late = false) :
    admitDesc s k r = match descBad r with
      | some off => endJob (fetchedState s k r) k (getCtx s k).subseq 6 (some (BitVec.ofNat 32 (0xFFFF0000 + off))) 0
      | none => if posBad (fetchedState s k r) (fetchedJob s k r) || waitsOnSelf (fetchedState s k r) (fetchedJob s k r) then
          endJob (fetchedState s k r) k (getCtx s k).subseq 6 (some 0xFFFF001C) 0 else fetchedState s k r := by
  have hfull : ¬ (!(inFlightRoom s k (decide (effClass s (fetchedJob s k r) = 0)))) = true := by
    rw [hroom]
    decide
  unfold admitDesc
  exact (if_neg hfull).trans ((if_neg (Bool.eq_false_iff.1 hflush)).trans (if_neg (Bool.eq_false_iff.1 hlate)))

/-- A sound descriptor waits for its start. -/
theorem admitDesc_of_sound (hroom : inFlightRoom s k (decide (effClass s (fetchedJob s k r) = 0)) = true)
    (hflush : (getCtx s k).flushing = false) (hlate : (presentAtHead s k).late = false) (hgood : descBad r = none)
    (hpos : posBad s (fetchedJob s k r) = false) (hself : waitsOnSelf s (fetchedJob s k r) = false) :
    admitDesc s k r = fetchedState s k r := by
  rw [admitDesc_of_room hroom hflush hlate, hgood]
  exact if_neg (by rw [posBad_fetchedState, waitsOnSelf_fetchedState, hpos, hself]; decide)

/-- Whatever becomes of the job, the descriptor is fetched, and jobs and cores alone can differ else. -/
theorem onlyJobs_admitDesc (hroom : inFlightRoom s k (decide (effClass s (fetchedJob s k r) = 0)) = true)
    (hflush : (getCtx s k).flushing = false) (hlate : (presentAtHead s k).late = false) :
    OnlyJobs (fetchedState s k r) (admitDesc s k r) := by
  rw [admitDesc_of_room hroom hflush hlate]
  split
  · exact onlyJobs_endJob _ _ _ _ _ _
  · split
    · exact onlyJobs_endJob _ _ _ _ _ _
    · exact OnlyJobs.refl _

theorem fetchDesc_of_stopped (h : canFetch s k = false) : fetchDesc s k = s := by
  rw [fetchDesc, if_neg (Bool.eq_false_iff.1 h)]

/-- A fetch that reads its descriptor whole takes it. -/
theorem fetchDesc_of_read {s' : State} (h : canFetch s k = true)
    (hread : runOp (readVa none k (sqVa s k (getCtx s k).sqHead) 64 true) s = (.ok r, s')) : fetchDesc s k = admitDesc s' k r := by
  simp only [fetchDesc, h, hread, if_true]

/-- The number the job takes finds it, where no job in flight has it. -/
theorem findJob_fetchedState (h : findJob s k (getCtx s k).subseq = none) :
    findJob (fetchedState s k r) k (getCtx s k).subseq = some (fetchedJob s k r) := by
  rw [findJob] at h ⊢
  rw [fetchedState_jobs, List.find?_append, h, Option.none_or]
  exact List.find?_cons_of_pos (by simp only [fetchedJob, newJob, decide_true, Bool.and_self])

end

theorem exec_descriptorFetch {s : State} (hs : s.phase = .ready) (hr : s.raised = []) (k : Fin 8) :
    exec (.descriptorFetch k) s = keep s (fetchDesc s k) := by
  have hcycle : newCycle s = s := by rw [newCycle, ← hr]
  change execDescriptorFetch k s = _
  rw [execDescriptorFetch, whenReady_of _ hs, hcycle]

/-- Settles O22: the fetched descriptor becomes a job in flight, and the first bad field of its record decides whether it ends at
once. -/
theorem descriptorFetchTakesNextSubseq : Obligations.DescriptorFetchTakesNextSubseq := by
  unfold Obligations.DescriptorFetchTakesNextSubseq
  intro s s' k r hs hr
  refine ⟨fun hstop => ?stopped, fun hcan hread => ?fetched⟩
  case stopped =>
    rw [exec_descriptorFetch hs hr, fetchDesc_of_stopped hstop]
    exact keep_self rfl rfl rfl rfl rfl rfl
  case fetched =>
    intro c p j hroom hflush hlate
    have honly : OnlyJobs (fetchedState s' k r) (admitDesc s' k r) := onlyJobs_admitDesc hroom hflush hlate
    have hctx : getCtx (admitDesc s' k r) k = nextDescriptor s' k := (getCtx_congr honly.ctxs k).trans getCtx_fetchedState
    rw [exec_descriptorFetch hs hr, fetchDesc_of_read hcan hread]
    refine ⟨_, rfl, congrArg Ctx.sqHead hctx, congrArg Ctx.subseq hctx,
      counted_congr counted_fetchedState (getReg_congr honly.regs _), sameBytes_of rfl rfl, fun hgood hpos hself => ?sound,
      fun off hbad hfresh => ?bad⟩
    case sound =>
      exact (congrArg State.jobs (admitDesc_of_sound hroom hflush hlate hgood hpos hself)).trans fetchedState_jobs
    case bad =>
      have hopen : (findJob (fetchedState s' k r) k c.subseq).map Job.isDone = some false := by
        rw [findJob_fetchedState hfresh]
        rfl
      refine doneDetail_congr ?_ (doneDetail_endJob hopen 6 (BitVec.ofNat 32 (0xFFFF0000 + off)) 0)
      change (admitDesc s' k r).jobs = _
      rw [admitDesc_of_room hroom hflush hlate, hbad]

end Sys2Proof.Machine
end

section
/-! COPY and FILL jobs whose bursts are all written (R446, R520). -/

namespace Sys2Proof.Machine

theorem endJob_regs (s : State) (k : Nat) (sub : W32) (status : Nat) (detail : Option W32) (q : W32) :
    (endJob s k sub status detail q).regs = s.regs := (onlyJobs_endJob s k sub status detail q).regs

/-- Success without a manifest is the end of the job (R593). -/
theorem succeed_of_no_manifest (s : State) {j : Job} (h : j.desc.manifest = false) :
    succeed s j = endJob s j.ctx j.sub 0 none 0 := by
  unfold succeed
  dsimp only
  split
  · rfl
  · rw [h]
    rfl

/-- A job with all its bursts written, no mooring pending and no manifest to write ends OK. -/
theorem copyWork_of_written {s u : State} {j : Job} {dst len : Nat} (hmoors : j.pendingMoors = [])
    (hmanifest : j.desc.manifest = false)
    (hroom : j.desc.body.isDigest = true → j.digestData = [] → openDigests s < 32) (hrange : j.desc.body.copyRange = (dst, len))
    (hwrite : runOp (eachOp (fun p => copyBurst j.ctx j.sub j.desc.body (p.1 - dst) p.2)
      (bursts (dst + j.progress) (len - j.progress))) s = (.ok (), u))
    (hstays : (findJob u j.ctx j.sub).map Job.desc = some j.desc) :
    copyWork s j = endJob u j.ctx j.sub 0 none 0 := by
  have hopens : (j.desc.body.isDigest && j.digestData.isEmpty && decide (openDigests s ≥ 32)) = false := by
    rw [Bool.eq_false_iff]
    simp only [ne_eq, Bool.and_eq_true, List.isEmpty_iff, decide_eq_true_eq]
    exact fun ⟨⟨hd, hnone⟩, hfull⟩ => absurd (hroom hd hnone) (Nat.not_lt.2 hfull)
  obtain ⟨y, hy, hdesc⟩ := Option.map_eq_some_iff.1 hstays
  obtain ⟨hctx, hsub⟩ := key_of_findJob hy
  simp only [copyWork, pointMoor, hmoors, hrange, hopens, hwrite, hy, Bool.false_eq_true, if_false]
  rw [succeed_of_no_manifest u (by rw [hdesc, hmanifest]), hctx, hsub]

/-- A command of the copy engine that ends its job leaves memory and registers as the bursts left them. -/
theorem commit_copied (s u : State) (k : Nat) (sub : W32) :
    ∃ t, commit s (endJob u k sub 0 none 0) = .next t ∧
      ((findJob u k sub).map Job.isDone = some false → DoneWith t k sub 0) ∧ SameBytes u t ∧ t.regs = u.regs := by
  obtain ⟨t, ht, hjobs, -, hregs, -, -, hbytes⟩ := commit_writes s (endJob u k sub 0 none 0)
  refine ⟨t, ht, fun h => ?_, (endJob_sameBytes _ _ _ _ _ _).trans hbytes, hregs.trans (endJob_regs _ _ _ _ _ _)⟩
  obtain ⟨y, hy, hopen⟩ := Option.map_eq_some_iff.1 h
  exact doneWith_congr hjobs (doneWith_endJob hy hopen 0 none 0)

/-- The two commands of the copy engine do the jobs of their kind. -/
theorem exec_copyJob {s : State} (hs : s.phase = .ready) (hr : s.raised = []) (k : Fin 8) (sub : W32) :
    exec (.jobCopy k sub) s = commit s (performJob s k sub JobBody.isCopy (copyFree s) copyWork) ∧
      exec (.jobFill k sub) s = commit s (performJob s k sub JobBody.isFill (copyFree s) copyWork) := by
  have hcycle : newCycle s = s := by rw [newCycle, ← hr]
  constructor
  · change execJobCopy k sub s = _
    rw [execJobCopy, whenReadyMem_of _ hs, hcycle]
  · change execJobFill k sub s = _
    rw [execJobFill, whenReadyMem_of _ hs, hcycle]

/-- Settles O27: the ready job of either kind goes to work, and with its bursts written its work is its end. -/
theorem copyAndFillJobsCompleteOk : Obligations.CopyAndFillJobsCompleteOk := by
  unfold Obligations.CopyAndFillJobsCompleteOk
  intro s u k sub j x dst len hs hr hj hready hx hmoors hbody hmanifest hroom hrange hwrite hstays
  obtain ⟨hcopy, hfill⟩ := exec_copyJob hs hr k sub
  obtain ⟨hctx, hsub⟩ := key_of_findJob hx
  have hwork {wants : JobBody → Bool} (hw : wants j.desc.body = true) :
      performJob s k sub wants (copyFree s) copyWork = endJob u k sub 0 none 0 := by
    rw [← hctx, ← hsub] at hstays
    rw [performJob_of_jobReady copyWork hj hw hready hx,
      copyWork_of_written hmoors hmanifest hroom (by rw [hbody, hrange]) hwrite hstays, hctx, hsub]
  refine ⟨fun src d hkind => ?copy, fun p hkind => ?fill⟩
  case copy =>
    rw [hcopy, hwork (by rw [hkind]; rfl)]
    exact commit_copied s u k sub
  case fill =>
    rw [hfill, hwork (by rw [hkind]; rfl)]
    exact commit_copied s u k sub

end Sys2Proof.Machine
end

section
/-! RUN jobs that are placed on a core, or fit on none (R456, R458, R485, R486, R488). -/

namespace Sys2Proof.Machine

@[simp] theorem getCore_putCore_same (s : State) (c : Nat) (x : Core) : getCore (putCore s c x) c = x := smGet_smPut_same _ _ _ _

/-! ### On the core -/

/-- Registers and both memories are as they were. -/
def BytesAndRegs (s t : State) : Prop := t.mem = s.mem ∧ t.host = s.host ∧ t.regs = s.regs

/-- The state in which a job has been placed on core `c` and waits there for its turn. -/
def placedOn (s : State) (j : Job) (c : Nat) : State :=
  let u := takeJob s (corePerformer c) j c
  let v := putCore u c { getCore u c with resident := (getCore u c).resident ++ [(j.ctx, j.sub)] }
  updRun { v with admits := v.admits + 1 } j.ctx j.sub (fun r => { r with core := c, admitNo := v.admits })

/-- The job runs on core `c`, resident. -/
def RunsOn (k : Nat) (sub : W32) (c : Nat) (t : State) : Prop :=
  (∃ x, findJob t k sub = some x ∧ x.phase = .running ∧ x.unit = c) ∧ (k, sub) ∈ (getCore t c).resident

theorem runsOn_placedOn {s : State} {k : Nat} {sub : W32} {j : Job} (hj : findJob s k sub = some j) (c : Nat) :
    RunsOn k sub c (placedOn s j c) := by
  obtain ⟨rfl, rfl⟩ := key_of_findJob hj
  constructor
  · exact ⟨_, findJob_updJob_same (s := { putCore (takeJob s (corePerformer c) j c) c _ with admits := _ })
      (findJob_takeJob hj (corePerformer c) c) fun _ => ⟨rfl, rfl⟩, rfl, rfl⟩
  · change _ ∈ (getCore (putCore (takeJob s (corePerformer c) j c) c _) c).resident
    rw [getCore_putCore_same]
    exact List.mem_append_right _ (List.mem_singleton.2 rfl)

/-- What a job holds of its run leaves where it stands and its unit. -/
theorem findJob_updRun {s : State} {k : Nat} {sub : W32} {x : Job} (h : findJob s k sub = some x) (k' : Nat) (sub' : W32)
    (f : RunState → RunState) : ∃ y, findJob (updRun s k' sub' f) k sub = some y ∧ y.phase = x.phase ∧ y.unit = x.unit := by
  have hmap := findJob_map (s := s) (t := updRun s k' sub' f) rfl (fun m => by
    split
    · exact ⟨rfl, rfl⟩
    · exact ⟨rfl, rfl⟩) k sub
  rw [h, Option.map_some] at hmap
  refine ⟨_, hmap, ?_⟩
  split
  · exact ⟨rfl, rfl⟩
  · exact ⟨rfl, rfl⟩

/-- The turn of a resident job, taken or not, leaves every resident job where it stands. -/
theorem runsOn_takeTurn {s : State} {k : Nat} {sub : W32} {c : Nat} (h : RunsOn k sub c s) (j : Job) :
    RunsOn k sub c (takeTurn s j) := by
  obtain ⟨⟨x, hx, hphase, hunit⟩, hres⟩ := h
  unfold takeTurn
  split
  · rename_i r _
    split
    · obtain ⟨y, hy, hyphase, hyunit⟩ := findJob_updRun
        (s := putCore s r.core { loadGeyser (clearCore (getCore s r.core)) r.image with running := some (j.ctx, j.sub) })
        hx j.ctx j.sub (fun r => { r with ranSince := s.now })
      refine ⟨⟨y, hy, hyphase.trans hphase, hyunit.trans hunit⟩, ?_⟩
      by_cases hc : c = r.core
      · subst hc
        change _ ∈ (getCore (putCore s r.core _) r.core).resident
        rw [getCore_putCore_same]
        exact hres
      · change _ ∈ (getCore (putCore s r.core _) c).resident
        rw [getCore, show (putCore s r.core _).cores = smPut Core.reset s.cores r.core _ from rfl, smGet_smPut_other _ _ _ hc]
        exact hres
    · exact ⟨⟨x, hx, hphase, hunit⟩, hres⟩
  · exact ⟨⟨x, hx, hphase, hunit⟩, hres⟩

theorem bytesAndRegs_takeTurn (s : State) (j : Job) : BytesAndRegs s (takeTurn s j) := by
  unfold takeTurn
  split
  · split
    · exact ⟨rfl, rfl, rfl⟩
    · exact ⟨rfl, rfl, rfl⟩
  · exact ⟨rfl, rfl, rfl⟩

/-- A job enters a core where the functions it needs are on (R64): it is placed, and takes its turn where that is its own. -/
theorem enterCore_placed {s : State} {k : Nat} {sub : W32} {j : Job} (hj : findJob s k sub = some j) {r : RunState} {c : Nat}
    (hon : coreEnabled s c r.needs = true) :
    RunsOn k sub c (enterCore s j r c) ∧ BytesAndRegs s (enterCore s j r c) := by
  have hplaced := runsOn_placedOn hj c
  obtain ⟨rfl, rfl⟩ := key_of_findJob hj
  obtain ⟨⟨x, hx, -⟩, -⟩ := hplaced
  have henter : enterCore s j r c = takeTurn (placedOn s j c) x := by
    have hoff : ¬ (!(coreEnabled s c r.needs)) = true := by
      rw [hon]
      decide
    unfold enterCore
    refine (if_neg hoff).trans ?_
    dsimp only
    split
    · rename_i y hy
      rw [← Option.some.inj (hy.symm.trans hx)]
      rfl
    · rename_i hnone
      cases hx.symm.trans hnone
  rw [henter]
  exact ⟨runsOn_takeTurn (runsOn_placedOn hj c) x, bytesAndRegs_takeTurn (placedOn s j c) x⟩

/-! ### Placement -/

section
variable {s : State} {k : Nat} {sub : W32} {j : Job} {r : RunState}

theorem placeRun_of_noFit {code : Nat} (hj : findJob s k sub = some j)
    (h : placement s k j.desc.units r.image = .noFit code) :
    placeRun s j r = endJob s k sub 2 (some (BitVec.ofNat 32 code)) 0 := by
  obtain ⟨rfl, rfl⟩ := key_of_findJob hj
  simp only [placeRun, h]

/-- A job enters the core its placement names when it is the next for it (R458). -/
theorem placeRun_of_at {c : Nat} (hj : findJob s k sub = some j) (h : placement s k j.desc.units r.image = .at c)
    (hnext : isNext s (corePerformer c) j (rivalFor s c) = true) : placeRun s j r = enterCore s j r c := by
  obtain ⟨rfl, rfl⟩ := key_of_findJob hj
  simp only [placeRun, h, hnext, if_true]

/-! ### The check -/

/-- Work after work that ends well goes on with its answer. -/
theorem runOp_bind_of_ok {α β : Type} {x : Op α} {f : α → Op β} {s t : State} {a : α} (h : runOp x s = (.ok a, t)) :
    runOp (x >>= f) s = runOp (f a) t := by
  rw [runOp_bind, h]

/-- A job whose image is admitted and whose arguments are read is placed as it then stands. -/
theorem checkRun_of_read {x : Job} {image sect args va nsteps needs : Nat} {im : Image} {l : List Nat} {s1 s2 : State}
    (hj : findJob s k sub = some j) (hadmit : runOp (admitImage k sub image sect) s = (.ok (im, va, nsteps, needs), s1))
    (hargs : runOp (readArgs k sub args im.decl.args) s1 = (.ok l, s2)) :
    let r : RunState := {
      core := 4, pc := 0, counters := [], nsteps := nsteps, stepsVa := va, image := im, needs := needs, args := l, cover := []
      waitFrom := 0, saved := none, ranSince := 0, admitNo := 0, block := none, stepAt := 0 }
    let s3 := updJob s2 k sub (fun x => { x with run := some r, hostWait := none })
    findJob s3 k sub = some x → checkRun s j image sect args = placeRun s3 x r := by
  obtain ⟨rfl, rfl⟩ := key_of_findJob hj
  intro r s3 hx
  unfold checkRun
  dsimp only
  split
  · rename_i r' s' hread
    cases hread.symm.trans ((runOp_bind_of_ok hadmit).trans (runOp_bind_of_ok hargs))
    split
    · rename_i y hy
      rw [Option.some.inj (hy.symm.trans hx)]
    · rename_i hnone
      cases hx.symm.trans hnone
  · rename_i st s' hread
    cases hread.symm.trans ((runOp_bind_of_ok hadmit).trans (runOp_bind_of_ok hargs))

/-! ### The command -/

theorem queued_of_mayStart (h : mayStart s j = true) : j.phase = .queued := by
  rw [mayStart, Bool.and_eq_true] at h
  exact of_decide_eq_true h.1

theorem not_done_of_mayStart (h : mayStart s j = true) : j.isDone = false := by
  rw [Job.isDone, queued_of_mayStart h]
  rfl

section
variable {image sect args : Nat} (hj : findJob s k sub = some j) (hbody : j.desc.body = .run image sect args)
  (hstart : mayStart s j = true) (hon : commonEnabled s = true)
include hj hbody hstart hon

/-- A RUN job that may start is placed when its image is checked. -/
theorem runJob_of_checked (hr : j.run = some r) : runJob s k sub = placeRun s j r := by
  simp only [runJob, hj, hbody, queued_of_mayStart hstart, reduceCtorEq, hstart, hon, hr, Bool.not_true, Bool.false_eq_true,
    if_true, if_false]

theorem runJob_of_unchecked (hr : j.run = none) : runJob s k sub = checkRun s j image sect args := by
  simp only [runJob, hj, hbody, queued_of_mayStart hstart, reduceCtorEq, hstart, hon, hr, Bool.not_true, Bool.false_eq_true,
    if_true, if_false]

end

/-- The command answers with the jobs and cores of its work, and with its registers and every byte of memory. -/
theorem exec_jobRun {k : Fin 8} (hs : s.phase = .ready) (hr : s.raised = []) :
    ∃ t, exec (.jobRun k sub) s = .next t ∧ t.jobs = (runJob s k sub).jobs ∧ t.cores = (runJob s k sub).cores ∧
      t.regs = (runJob s k sub).regs ∧ SameBytes (runJob s k sub) t := by
  have hcycle : newCycle s = s := by rw [newCycle, ← hr]
  have hexec : exec (.jobRun k sub) s = commit s (runJob s k sub) := by
    change execJobRun k sub s = _
    rw [execJobRun, whenReadyMem_of _ hs, hcycle]
  exact ⟨_, hexec, rfl, rfl, rfl, fun a => smGet_smNorm 0 _ a, fun a => smGet_smNorm 0 _ a⟩

theorem RunsOn.congr {c : Nat} {t : State} (h : RunsOn k sub c s) (hjobs : t.jobs = s.jobs) (hcores : t.cores = s.cores) :
    RunsOn k sub c t := by
  rw [RunsOn, findJob_congr hjobs, getCore_congr hcores]
  exact h

end

/-- Settles O31: a job that starts is placed as its check leaves it; its placement names a core, which it enters when it is the
next for it, or says why none fits. -/
theorem runJobsArePlacedOrDoNotFit : Obligations.RunJobsArePlacedOrDoNotFit := by
  unfold Obligations.RunJobsArePlacedOrDoNotFit
  intro s k sub j image sect args hs hr hj hbody hstart hon
  obtain ⟨t, ht, hjobs, hcores, hregs, hbytes⟩ := exec_jobRun (k := k) (sub := sub) hs hr
  refine ⟨fun r c hr hplace hnext hneeds => ?placed, fun r code hr hplace => ?refused,
    fun im va nsteps needs l s1 s2 hr hadmit hargs => ?unchecked⟩
  case placed =>
    rw [(runJob_of_checked hj hbody hstart hon hr).trans (placeRun_of_at hj hplace hnext)] at hjobs hcores hregs hbytes
    obtain ⟨hruns, hmem, hhost, hrs⟩ := enterCore_placed hj hneeds
    obtain ⟨hphase, hres⟩ := hruns.congr hjobs hcores
    exact ⟨t, ht, hphase, hres, (sameBytes_of hmem hhost).trans hbytes, hregs.trans hrs⟩
  case refused =>
    rw [(runJob_of_checked hj hbody hstart hon hr).trans (placeRun_of_noFit hj hplace)] at hjobs hregs hbytes
    have hopen : (findJob s k sub).map Job.isDone = some false := by
      rw [hj, Option.map_some, not_done_of_mayStart hstart]
    exact ⟨t, ht, doneDetail_congr hjobs (doneDetail_endJob hopen 2 _ 0), (endJob_sameBytes _ _ _ _ _ _).trans hbytes,
      hregs.trans (endJob_regs _ _ _ _ _ _)⟩
  case unchecked =>
    intro r s3 x hx hopen
    have hplace : runJob s k sub = placeRun s3 x r :=
      (runJob_of_unchecked hj hbody hstart hon hr).trans (checkRun_of_read hj hadmit hargs hx)
    refine ⟨fun code hnofit => ?_, fun c hat hnext hneeds => ?_⟩
    · rw [hplace.trans (placeRun_of_noFit hx hnofit)] at hjobs
      exact ⟨t, ht, doneDetail_congr hjobs (doneDetail_endJob (by rw [hx, Option.map_some, hopen]) 2 _ 0)⟩
    · rw [hplace.trans (placeRun_of_at hx hat hnext)] at hjobs hcores
      obtain ⟨hphase, hres⟩ := (enterCore_placed (r := r) hx hneeds).1.congr hjobs hcores
      exact ⟨t, ht, hphase, hres⟩

end Sys2Proof.Machine
end

section
/-! A flush of a context that is not enabled (R428, R464). -/

namespace Sys2Proof.Machine

/-- A flush of context `k` whose EN is 0 and which holds no job, but a submitted descriptor not yet fetched: FLUSHING stands until
the descriptor is fetched, which it cannot be (R464). -/
theorem flushing_ctxFlush_of_disabled {s : State} {k : Nat} (hen : flag s (HIF_CTX_CTL_EN k) = false) (hjobs : jobsOf s k = [])
    (hring : (getCtx s k).sqHead ≠ (getCtx s k).sqTail) : (getCtx (ctxFlush s k) k).flushing = true := by
  have hend : endUnstarted (putCtx s k { getCtx s k with flushing := true }) k 4 = putCtx s k { getCtx s k with flushing := true } := by
    have hnone : jobsOf (putCtx s k { getCtx s k with flushing := true }) k = [] := hjobs
    rw [endUnstarted, hnone, List.foldl_nil]
  have hdisabled (c : Ctx) : flag (putCtx (putCtx s k { getCtx s k with flushing := true }) k c) (HIF_CTX_CTL_EN k) = false := hen
  rw [ctxFlush, hend, settleCtx]
  simp only [getCtx_putCtx_same, hdisabled, hring, decide_false, Bool.and_false, Bool.false_eq_true, if_false]

/-- The device as it resets, but for a TAIL of 1 that context 0 took while its EN is 0 (log entry 106). -/
def submittedWhileDisabled : State := putCtx State.reset 0 { Ctx.reset with sqTail := 1 }

/-- The flush of context 0 is performed: it does not look at EN. -/
theorem exec_hifCtxFlush_submittedWhileDisabled :
    exec (.hifCtxFlush 0) submittedWhileDisabled = keep submittedWhileDisabled (ctxFlush (newCycle submittedWhileDisabled) 0) :=
  whenReady_arrive_hif (s := submittedWhileDisabled) (a := setBits (HIF_CTX_CTL_EN 0).key 2) rfl rfl (by decide) (fun s => ctxFlush s 0)

/-- Refutes O26: its last part says that a flush of a context with EN 0 changes nothing. Context 0 with EN 0 and a descriptor
submitted begins to flush. -/
theorem not_contextFlushDisableEnable : ¬ Obligations.ContextFlushDisableEnable := by
  unfold Obligations.ContextFlushDisableEnable
  intro h
  obtain ⟨-, -, -, -, hidle⟩ := h submittedWhileDisabled 0 rfl rfl
  obtain ⟨hflush, -⟩ := hidle (by decide)
  have hsame : (keep submittedWhileDisabled (ctxFlush (newCycle submittedWhileDisabled) 0)) = .next submittedWhileDisabled :=
    exec_hifCtxFlush_submittedWhileDisabled.symm.trans hflush
  have hflushing : (getCtx (ctxFlush (newCycle submittedWhileDisabled) 0) 0).flushing = true :=
    flushing_ctxFlush_of_disabled (by decide) rfl (by decide)
  have hctxs : (ctxFlush (newCycle submittedWhileDisabled) 0).ctxs = submittedWhileDisabled.ctxs :=
    congrArg State.ctxs (Host.Outcome.next.inj hsame)
  rw [getCtx_congr hctxs] at hflushing
  exact absurd hflushing (by decide)

end Sys2Proof.Machine
end

section
/-! SUPPORT. What goes out when a link comes up: the messages that are no longer blocked (R462), and the mirror writes
(R453, R555). -/

namespace Sys2Proof.Machine

/-! ### Messages -/

/-- A vector's turn in a flush sends it when it is free; none becomes pending, and it does not stay so. -/
theorem flushed_vector (s : State) (v : Nat) :
    ∃ o p, (if msixBlocked s v then s else sendMsix s v) = { s with out := o, msixPending := p } ∧ p ⊆ s.msixPending ∧
      (v ∈ p → msixBlocked s v = true) := by
  cases hb : msixBlocked s v with
  | true => exact ⟨s.out, s.msixPending, rfl, List.Subset.refl _, fun _ => rfl⟩
  | false =>
    obtain ⟨a, ha⟩ := sendMsix_of_free hb
    exact ⟨_, _, ha, fun x hx => ((mem_natErase v x _).1 hx).1, fun hv => absurd rfl ((mem_natErase v v _).1 hv).2⟩

theorem flushed_vectors (l : List Nat) (s : State) :
    ∃ o p, l.foldl (fun s v => if msixBlocked s v then s else sendMsix s v) s = { s with out := o, msixPending := p } ∧
      p ⊆ s.msixPending ∧ ∀ v ∈ l, v ∈ p → msixBlocked s v = true := by
  induction l generalizing s with
  | nil => exact ⟨s.out, s.msixPending, rfl, List.Subset.refl _, fun _ hv => absurd hv List.not_mem_nil⟩
  | cons w l ih =>
    obtain ⟨o, p, hw, hp, hfree⟩ := flushed_vector s w
    obtain ⟨o', p', hl, hp', hfree'⟩ := ih { s with out := o, msixPending := p }
    rw [List.foldl_cons, hw]
    refine ⟨o', p', hl, List.Subset.trans hp' hp, fun v hv hvp => ?_⟩
    rcases List.mem_cons.1 hv with rfl | hv
    · exact hfree (hp' hvp)
    · exact hfree' v hv hvp

/-- A flush changes what is sent and pending alone, and leaves the vectors pending that are blocked. -/
theorem flushMsix_eq (s : State) :
    ∃ o p, flushMsix s = { s with out := o, msixPending := p } ∧ ∀ v ∈ p, msixBlocked s v = true := by
  obtain ⟨o, p, h, hp, hfree⟩ := flushed_vectors s.msixPending s
  exact ⟨o, p, h, fun v hv => hfree v (hp hv) hv⟩

/-! ### Mirror writes -/

/-- The registers of a dropped mirror write: its counters and events (R453, R555). -/
def dropKeys : List Nat :=
  [HIF_MIRROR_DROP_COUNT.key, HIF_EVENT_MIRROR_DROP.key, ERR_MIRROR_DROP_COUNT.key, ERR_EVENT_MIRROR_DROP.key]

/-- Nothing but host memory, what events announce, the registers of drops and the contexts differs; when no mirror write waited too
long (`early`), no register does. -/
def MirrorsSent (early : Prop) (s t : State) : Prop :=
  t = { s with
    regs := t.regs, raised := t.raised, msixPending := t.msixPending, out := t.out, host := t.host, ctxs := t.ctxs } ∧
  RegsBut dropKeys s t ∧ (early → RegsBut [] s t)

theorem MirrorsSent.refl (early : Prop) (s : State) : MirrorsSent early s s := ⟨rfl, fun _ _ => rfl, fun _ _ _ => rfl⟩

theorem MirrorsSent.trans {early : Prop} {s t u : State} (h : MirrorsSent early s t) (h' : MirrorsSent early t u) :
    MirrorsSent early s u := by
  obtain ⟨heq, hregs, hnone⟩ := h
  obtain ⟨heq', hregs', hnone'⟩ := h'
  refine ⟨?_, hregs.trans hregs', fun he => (hnone he).trans (hnone' he)⟩
  rw [heq', heq]

theorem MirrorsSent.mono {early early' : Prop} {s t : State} (h : MirrorsSent early s t) (hearly : early' → early) :
    MirrorsSent early' s t := by
  obtain ⟨heq, hregs, hnone⟩ := h
  exact ⟨heq, hregs, fun he => hnone (hearly he)⟩

theorem MirrorsSent.errMirror {early : Prop} {s t : State} (h : MirrorsSent early s t) : t.errMirror = s.errMirror := by rw [h.1]

theorem MirrorsSent.now {early : Prop} {s t : State} (h : MirrorsSent early s t) : t.now = s.now := by rw [h.1]

/-- A mirror write that is dropped: it counts, and raises its event. -/
theorem mirrorsSent_drop {s : State} {cnt ev : RField} (hcnt : cnt.key ∈ dropKeys) (hev : ev.key ∈ dropKeys) :
    MirrorsSent False s (setEvent (incF s cnt) ev) ∧ (setEvent (incF s cnt) ev).ctxs = s.ctxs := by
  have honly := (onlyAnnounces_incF s cnt).trans (onlyAnnounces_setEvent (incF s cnt) ev)
  have hregs : RegsBut dropKeys s (setEvent (incF s cnt) ev) :=
    ((regsBut_incF s cnt).mono (by simpa using hcnt)).trans ((regsBut_setEvent _ ev).mono (by simpa using hev))
  unfold OnlyAnnounces at honly
  refine ⟨⟨?_, hregs, False.elim⟩, by rw [honly]⟩
  rw [honly]

/-- What a waiting mirror write may do: be written, or dropped when it waited too long. -/
def SentOrLost (drop : State → State) : Prop := ∀ s, MirrorsSent False s (drop s) ∧ (drop s).ctxs = s.ctxs

theorem sentOrLost_loseMirror : SentOrLost loseMirror := fun _ => mirrorsSent_drop (by decide) (by decide)

theorem sentOrLost_loseErrMirror : SentOrLost loseErrMirror := fun _ => mirrorsSent_drop (by decide) (by decide)

theorem mirrorsSent_mirrorOrDrop {drop : State → State} (hdrop : SentOrLost drop) (s : State) (p : Nat × List Byte × Nat) :
    MirrorsSent (s.now ≤ p.2.2 + 1100) s (mirrorOrDrop drop s p) ∧ (mirrorOrDrop drop s p).ctxs = s.ctxs := by
  unfold mirrorOrDrop
  split
  next => exact ⟨⟨rfl, fun _ _ => rfl, fun _ _ _ => rfl⟩, rfl⟩
  next hlate => exact ⟨(hdrop s).1.mono hlate, (hdrop s).2⟩

/-- The mirror writes of one ring go out, oldest first. -/
theorem mirrorsSent_foldl {drop : State → State} (hdrop : SentOrLost drop) (l : List (Nat × List Byte × Nat)) (s : State) :
    MirrorsSent (∀ p ∈ l, s.now ≤ p.2.2 + 1100) s (l.foldl (mirrorOrDrop drop) s) ∧
      (l.foldl (mirrorOrDrop drop) s).ctxs = s.ctxs := by
  induction l generalizing s with
  | nil => exact ⟨.refl _ s, rfl⟩
  | cons p l ih =>
    obtain ⟨hp, hctxs⟩ := mirrorsSent_mirrorOrDrop hdrop s p
    obtain ⟨hl, hctxs'⟩ := ih (mirrorOrDrop drop s p)
    rw [hp.now] at hl
    exact ⟨(hp.mono fun h => h p List.mem_cons_self).trans (hl.mono fun h q hq => h q (List.mem_cons_of_mem p hq)),
      hctxs'.trans hctxs⟩

/-- The mirror writes of context `k` go out. -/
def sendMirrors (s : State) (k : Nat) : State :=
  putCtx ((getCtx s k).mirrorWait.foldl (mirrorOrDrop loseMirror) s) k { getCtx s k with mirrorWait := [] }

theorem mirrorsSent_sendMirrors (s : State) (k : Nat) :
    MirrorsSent (∀ p ∈ (getCtx s k).mirrorWait, s.now ≤ p.2.2 + 1100) s (sendMirrors s k) := by
  obtain ⟨⟨heq, hregs, hnone⟩, -⟩ := mirrorsSent_foldl sentOrLost_loseMirror (getCtx s k).mirrorWait s
  refine ⟨?_, hregs, hnone⟩
  rw [sendMirrors, heq]
  rfl

theorem getCtx_sendMirrors_same (s : State) (k : Nat) : (getCtx (sendMirrors s k) k).mirrorWait = [] := by
  rw [sendMirrors, getCtx_putCtx_same]

theorem getCtx_sendMirrors_other (s : State) {k i : Nat} (h : i ≠ k) : getCtx (sendMirrors s k) i = getCtx s i := by
  rw [sendMirrors, getCtx_putCtx_other _ _ h]
  exact getCtx_congr (mirrorsSent_foldl sentOrLost_loseMirror _ s).2 i

/-- After the mirror writes of a context went out, what waits in any context waited before. -/
theorem mirrorWait_sendMirrors_subset (s : State) (k i : Nat) :
    (getCtx (sendMirrors s k) i).mirrorWait ⊆ (getCtx s i).mirrorWait := by
  by_cases h : i = k
  · rw [h, getCtx_sendMirrors_same]
    exact List.nil_subset _
  · rw [getCtx_sendMirrors_other s h]
    exact List.Subset.refl _

/-- The mirror writes of the contexts listed go out. -/
theorem mirrorsSent_contexts (ks : List Nat) (s : State) :
    MirrorsSent (∀ k ∈ ks, ∀ p ∈ (getCtx s k).mirrorWait, s.now ≤ p.2.2 + 1100) s (ks.foldl sendMirrors s) ∧
      (∀ k, (getCtx (ks.foldl sendMirrors s) k).mirrorWait ⊆ (getCtx s k).mirrorWait) ∧
      ∀ k ∈ ks, (getCtx (ks.foldl sendMirrors s) k).mirrorWait = [] := by
  induction ks generalizing s with
  | nil => exact ⟨.refl _ s, fun _ => List.Subset.refl _, fun _ hk => absurd hk List.not_mem_nil⟩
  | cons k ks ih =>
    obtain ⟨hrest, hsub, hempty⟩ := ih (sendMirrors s k)
    have hk := mirrorsSent_sendMirrors s k
    rw [hk.now] at hrest
    refine ⟨(hk.mono fun h => h k List.mem_cons_self).trans (hrest.mono fun h i hi p hp => ?early), fun i => ?subset, fun i hi => ?none⟩
    case early => exact h i (List.mem_cons_of_mem k hi) p (mirrorWait_sendMirrors_subset s k i hp)
    case subset => exact List.Subset.trans (hsub i) (mirrorWait_sendMirrors_subset s k i)
    case none =>
      rcases List.mem_cons.1 hi with rfl | hi
      · exact List.eq_nil_of_subset_nil (getCtx_sendMirrors_same s i ▸ hsub i)
      · exact hempty i hi

/-- No mirror write waited longer than 11 µs. -/
def MirrorsEarly (s : State) : Prop :=
  (∀ k, k < 8 → ∀ p ∈ (getCtx s k).mirrorWait, s.now ≤ p.2.2 + 1100) ∧ ∀ p ∈ s.errMirror, s.now ≤ p.2.2 + 1100

theorem MirrorsEarly.of_onlyRegs {keys : List Nat} {s t : State} (h : OnlyRegs keys s t) (hs : MirrorsEarly s) :
    MirrorsEarly t := by
  obtain ⟨heq, -⟩ := h
  rw [heq]
  exact hs

theorem flushMirrors_eq (s : State) : flushMirrors s =
    { ((List.range 8).foldl sendMirrors s).errMirror.foldl (mirrorOrDrop loseErrMirror) ((List.range 8).foldl sendMirrors s) with
      errMirror := [] } := rfl

/-- What the waiting mirror writes leave as the link comes up: none waits. -/
theorem flushMirrors_sent (s : State) : ∃ u, flushMirrors s = { u with errMirror := [] } ∧ MirrorsSent (MirrorsEarly s) s u ∧
    ∀ k, k < 8 → (getCtx u k).mirrorWait = [] := by
  obtain ⟨hctx, -, hempty⟩ := mirrorsSent_contexts (List.range 8) s
  rw [flushMirrors_eq]
  generalize (List.range 8).foldl sendMirrors s = c at hctx hempty
  obtain ⟨herr, hctxs⟩ := mirrorsSent_foldl sentOrLost_loseErrMirror c.errMirror c
  refine ⟨_, rfl, (hctx.mono fun h k hk => ?early).trans (herr.mono fun h => ?earlyErr), fun k hk => ?none⟩
  case early => exact h.1 k (List.mem_range.1 hk)
  case earlyErr =>
    rw [hctx.now, hctx.errMirror]
    exact h.2
  case none =>
    rw [getCtx_congr hctxs]
    exact hempty k (List.mem_range.2 hk)

end Sys2Proof.Machine
end

section
/-! The link (R40, R420, R453, R462, R555, R652), configuration requests (R419, R652) and the message table (R462). -/

namespace Sys2Proof.Machine

/-! ### The fields of HIF_STAT -/

/-- HIF_STAT with its three fields of the link stored. -/
def linkFields (s : State) (up speed width : Nat) : State :=
  setF (setF (setF s HIF_STAT_LINK_UP up) HIF_STAT_SPEED speed) HIF_STAT_WIDTH width

theorem OnlyRegs.trans {keys : List Nat} {s t u : State} (h : OnlyRegs keys s t) (h' : OnlyRegs keys t u) : OnlyRegs keys s u := by
  obtain ⟨heq, hregs⟩ := h
  obtain ⟨heq', hregs'⟩ := h'
  refine ⟨?_, RegsBut.trans hregs hregs'⟩
  rw [heq', heq]

theorem onlyRegs_linkFields (s : State) (up speed width : Nat) : OnlyRegs [HIF_STAT_LINK_UP.key] s (linkFields s up speed width) :=
  (onlyRegs_setF s HIF_STAT_LINK_UP up).trans ((onlyRegs_setF _ HIF_STAT_SPEED speed).trans (onlyRegs_setF _ HIF_STAT_WIDTH width))

theorem getF_linkFields_up (s : State) (up speed width : Nat) : getF (linkFields s up speed width) HIF_STAT_LINK_UP = up % 2 := by
  rw [linkFields, getF_setF_other _ _ _ _ (.inr (by decide)), getF_setF_other _ _ _ _ (.inr (by decide)),
    getF_setF_same _ _ _ (by decide) (by decide)]
  rfl

theorem getF_linkFields_speed (s : State) (up speed width : Nat) : getF (linkFields s up speed width) HIF_STAT_SPEED = speed % 8 := by
  rw [linkFields, getF_setF_other _ _ _ _ (.inr (by decide)), getF_setF_same _ _ _ (by decide) (by decide)]
  rfl

theorem getF_linkFields_width (s : State) (up speed width : Nat) : getF (linkFields s up speed width) HIF_STAT_WIDTH = width % 16 := by
  rw [linkFields, getF_setF_same _ _ _ (by decide) (by decide)]
  rfl

/-! ### The link goes down -/

theorem setF_newCycle (s : State) (f : RField) (v : Nat) : setF (newCycle s) f v = newCycle (setF s f v) := rfl

/-- A command that changes registers alone answers with them. -/
theorem keep_of_onlyRegs {s u : State} {keys : List Nat} (h : OnlyRegs keys s u) : keep s (newCycle u) = .next u := by
  obtain ⟨heq, -⟩ := h
  rw [heq]
  rfl

theorem exec_pcieLinkDown {s : State} (hs : s.phase = .ready) : exec .pcieLinkDown s = .next (linkFields s 0 0 0) := by
  have hdown : linkDown (newCycle s) = newCycle (linkFields s 0 0 0) := by
    rw [linkDown, setF_newCycle, setF_newCycle, setF_newCycle, linkFields]
  refine (whenReady_of linkDown hs).trans ?_
  rw [hdown, keep_of_onlyRegs (onlyRegs_linkFields s 0 0 0)]

/-! ### The link comes up -/

/-- What a link that comes up leaves (`t`), from the state with its fields stored (`l`). -/
structure LinkIsUp (l t : State) : Prop where
  mem : t.mem = l.mem
  noErrMirror : t.errMirror = []
  noMirror : ∀ k, k < 8 → (getCtx t k).mirrorWait = []
  blocked : ∀ v ∈ t.msixPending, msixBlocked t v = true
  drops : RegsBut dropKeys l t
  noDrops : MirrorsEarly l → RegsBut [] l t

/-- The waiting mirror writes go out, then the messages that are free. -/
theorem linkIsUp_flush (l : State) : LinkIsUp l (flushMsix (flushMirrors l)) := by
  obtain ⟨u, hu, ⟨heq, hregs, hnone⟩, hempty⟩ := flushMirrors_sent l
  obtain ⟨o, p, hflush, hblocked⟩ := flushMsix_eq (flushMirrors l)
  rw [hu] at hflush hblocked ⊢
  rw [hflush]
  exact ⟨by rw [heq], rfl, hempty, hblocked, hregs, hnone⟩

theorem exec_pcieLinkUp {s : State} (hs : s.phase = .ready) (speed : Fin 5) (width : Fin 4) :
    exec (.pcieLinkUp speed width) s = commit s (flushMsix (flushMirrors (linkFields (newCycle s) 1 (speed + 1) (2 ^ width.val)))) :=
  whenReadyMem_of (fun s => linkUp s (speed + 1) (2 ^ width.val)) hs

theorem LinkIsUp.getF_stat {l t : State} (h : LinkIsUp l t) {f : RField} (hf : f.key = HIF_STAT_LINK_UP.key) : getF t f = getF l f := by
  have hkey : f.key ∉ dropKeys := by
    rw [hf]
    decide
  rw [getF, h.drops f.key hkey, getF]

/-- The answer to a link that comes up. -/
theorem commit_linkIsUp {s t : State} {speed width : Nat} (h : LinkIsUp (linkFields (newCycle s) 1 speed width) t) :
    ∃ u, commit s t = .next u ∧ flag u HIF_STAT_LINK_UP = true ∧ getF u HIF_STAT_SPEED = speed % 8 ∧
      getF u HIF_STAT_WIDTH = width % 16 ∧ u.errMirror = [] ∧ (∀ k, k < 8 → (getCtx u k).mirrorWait = []) ∧
      (∀ v ∈ u.msixPending, msixBlocked u v = true) ∧ RegsBut (HIF_STAT_LINK_UP.key :: dropKeys) s u ∧
      (MirrorsEarly s → RegsBut [HIF_STAT_LINK_UP.key] s u) ∧ ∀ a, memByte u a = memByte s a := by
  have hlink := onlyRegs_linkFields (newCycle s) 1 speed width
  refine ⟨_, rfl, ?up, ?speed, ?width, h.noErrMirror, h.noMirror, h.blocked, ?drops, fun hearly => ?noDrops, fun a => ?mem⟩
  case up => exact decide_eq_true ((h.getF_stat rfl).trans (getF_linkFields_up _ _ _ _))
  case speed => exact (h.getF_stat (f := HIF_STAT_SPEED) rfl).trans (getF_linkFields_speed _ _ _ _)
  case width => exact (h.getF_stat (f := HIF_STAT_WIDTH) rfl).trans (getF_linkFields_width _ _ _ _)
  case drops => exact RegsBut.trans (RegsBut.mono hlink.2 (by simp)) (h.drops.mono (List.subset_cons_self _ _))
  case noDrops =>
    exact RegsBut.trans hlink.2 ((h.noDrops (MirrorsEarly.of_onlyRegs hlink hearly)).mono (List.nil_subset _))
  case mem =>
    have hmem : t.mem = s.mem := by
      rw [h.mem, hlink.1]
      rfl
    rw [memByte, memByte, ← hmem]
    exact smGet_smNorm 0 t.mem a

/-- A speed from 1 to 5 and 1, 2, 4 or 8 lanes (R420) fit their fields. -/
theorem speed_mod (speed : Fin 5) : (speed.val + 1) % 8 = speed.val + 1 := Nat.mod_eq_of_lt (by omega)

theorem lanes_mod (width : Fin 4) : 2 ^ width.val % 16 = 2 ^ width.val :=
  Nat.mod_eq_of_lt (Nat.pow_lt_pow_right (a := 2) (n := 4) (by decide) width.isLt)

/-! ### Configuration requests -/

theorem configRequest_of_up {s : State} (hs : s.phase = .ready) (hup : flag s HIF_STAT_LINK_UP = true) (n : Nat) :
    configRequest s n = { s with out := { s.out with cfg := some (configWord n) } } := by
  simp only [configRequest, hs, hup, if_true]

theorem configRequest_of_starting {s : State} {warm : Bool} {cause : Nat} (hs : s.phase = .starting warm cause) (n : Nat) :
    configRequest s n = { s with out := { s.out with cfg := none } } := by
  simp only [configRequest, hs]

/-! ### The message table -/

/-- What a write of word `i` of the message table leaves: the word, no other, and only messages besides. -/
def TableWritten (i : Nat) (w : W32) (s t : State) : Prop :=
  t.regs = s.regs ∧ SameFrame s t ∧ msixWord t i = w ∧ ∀ j, j ≠ i → msixWord t j = msixWord s j

theorem keep_msixTableWrite (s : State) (i : Nat) (be : BitVec 4) (data : W32) :
    ∃ t, keep s (msixTableWrite (newCycle s) i be data) = .next t ∧
      TableWritten i ((msixWord s i &&& ~~~(laneMask be &&& msixBits i)) ||| (data &&& (laneMask be &&& msixBits i))) s t := by
  unfold msixTableWrite
  obtain ⟨o, p, hflush, -⟩ := flushMsix_eq { newCycle s with
    msixTable := smPut (msixReset i) s.msixTable i
      ((msixWord s i &&& ~~~(laneMask be &&& msixBits i)) ||| (data &&& (laneMask be &&& msixBits i))) }
  refine ⟨_, congrArg (keep s) hflush, rfl, ⟨rfl, rfl, sameBytes_of rfl rfl, rfl, rfl, rfl⟩, ?word, fun j hj => ?others⟩
  case word => exact smGet_smPut_same _ _ _ _
  case others => exact smGet_smPut_ne _ _ _ _ hj

theorem bar2Write_of_table (s : State) {off : Nat} (hlo : 0x8000 ≤ off) (hhi : off < 0x8400) (be : BitVec 4) (data : W32) :
    bar2Write s off be data = msixTableWrite s ((off - 0x8000) / 4) (laneEnables off be) data := by
  rw [bar2Write, if_neg (by omega), if_pos hhi]

theorem exec_msixTableWrite {s : State} (hs : s.phase = .ready) (hq : s.accessQ = []) (off : BitVec 16) (be : BitVec 4)
    (data : W32) : exec (.msixTableWrite off be data) s = keep s (bar2Write (newCycle s) off.toNat be data) :=
  whenReady_arrive_hif (a := .write 2 off.toNat be data) hs hq rfl (fun s => bar2Write s off.toNat be data)

/-- Settles O44: the fields of the link are stored as it goes down and as it comes up, and then what waited goes out; a request
is answered by the phase; a write of the table is one word's. -/
theorem linkConfigurationAndMessageTable : Obligations.LinkConfigurationAndMessageTable := by
  unfold Obligations.LinkConfigurationAndMessageTable
  intro s
  refine ⟨fun hs => ?down, fun hs speed width => ?up, fun hs hup w => ?answered, fun warm cause hs w => ?retried,
    fun hs hq off be data hlo hhi => ?table⟩
  case down =>
    exact ⟨_, exec_pcieLinkDown hs, decide_eq_false (by rw [getF_linkFields_up]; decide), getF_linkFields_speed s 0 0 0,
      getF_linkFields_width s 0 0 0, onlyRegs_linkFields s 0 0 0⟩
  case up =>
    obtain ⟨t, ht, hup, hspeed, hwidth, herr, hctx, hblocked, hdrops, hearly, hmem⟩ := commit_linkIsUp (s := s) (linkIsUp_flush _)
    exact ⟨t, (exec_pcieLinkUp hs speed width).trans ht, hup, hspeed.trans (speed_mod speed), hwidth.trans (lanes_mod width), herr,
      hctx, hblocked, hdrops, fun h h' => hearly ⟨h, h'⟩, hmem⟩
  case answered =>
    exact ⟨_, congrArg (keep s) (configRequest_of_up hs hup w.toNat), rfl, rfl⟩
  case retried =>
    exact ⟨_, congrArg (keep s) (configRequest_of_starting hs w.toNat), rfl, rfl⟩
  case table =>
    rw [exec_msixTableWrite hs hq, bar2Write_of_table _ hlo hhi]
    exact keep_msixTableWrite s _ _ data

end Sys2Proof.Machine
end

section
/-! SUPPORT. A mooring that becomes pending on a job (R539, R541, R543). -/

namespace Sys2Proof.Machine

/-- A request leaves a job where it stands. -/
theorem findJob_requestMoor_same {s : State} {k : Nat} {sub : W32} {j : Job} (hj : findJob s k sub = some j) (why : MoorWhy)
    (dryOnly : Bool) :
    ∃ x, findJob (requestMoor s k sub why dryOnly) k sub = some x ∧ x.phase = j.phase ∧ (why, dryOnly) ∈ x.pendingMoors := by
  refine ⟨_, findJob_updJob_same hj fun x => ?keys, ?phase, ?pending⟩
  case keys =>
    split
    · exact ⟨rfl, rfl⟩
    · exact ⟨rfl, rfl⟩
  case phase =>
    split
    · rfl
    · rfl
  case pending =>
    split
    · rename_i hthere
      exact List.contains_iff_mem.1 hthere
    · exact List.mem_append_right _ (List.mem_singleton.2 rfl)

theorem findJob_requestMoor_other {s : State} {k k' : Nat} {sub sub' : W32} {j : Job} (hj : findJob s k sub = some j)
    (hne : ¬ (k = k' ∧ sub = sub')) (why : MoorWhy) (dryOnly : Bool) :
    findJob (requestMoor s k' sub' why dryOnly) k sub = some j := by
  refine findJob_updJob_other hj (fun x => ?_) hne
  split
  · exact ⟨rfl, rfl⟩
  · exact ⟨rfl, rfl⟩

/-- Of a command's state, the jobs and the books of the units alone differ. -/
def JobsMoved (s u : State) : Prop := ∃ served jobs, u = { newCycle s with served := served, jobs := jobs }

theorem JobsMoved.updJob {s u : State} (h : JobsMoved s u) (k : Nat) (sub : W32) (f : Job → Job) :
    JobsMoved s (updJob u k sub f) := by
  obtain ⟨served, _, rfl⟩ := h
  exact ⟨served, _, rfl⟩

/-- A command that moves jobs answers with them, and no register and nothing of the frame differs. -/
theorem JobsMoved.keep {s u : State} (h : JobsMoved s u) :
    ∃ t, keep s u = .next t ∧ t.jobs = u.jobs ∧ t.regs = s.regs ∧ SameFrame s t := by
  obtain ⟨_, _, rfl⟩ := h
  exact ⟨_, rfl, rfl, rfl, rfl, rfl, sameBytes_of rfl rfl, rfl, rfl, rfl⟩

end Sys2Proof.Machine
end

section
/-! MOOR jobs, by the state of their target (R539). -/

namespace Sys2Proof.Machine

@[simp] theorem atWork_desc (s : State) (j : Job) : (atWork s j).desc = j.desc := by
  unfold atWork
  split
  · rfl
  · rfl

/-- A job that takes its unit leaves every other job, found or not. -/
theorem findJob_working_other {s : State} {k k' : Nat} {sub sub' : W32} {j : Job} (hj : findJob s k sub = some j)
    (hne : ¬ (k' = k ∧ sub' = sub)) : findJob (working s j) k' sub' = findJob s k' sub' := by
  cases hx : findJob s k' sub' with
  | none =>
    obtain ⟨f, hf, hjobs⟩ := working_jobs s j
    rw [findJob_map hjobs hf, hx, Option.map_none]
  | some x =>
    obtain ⟨rfl, rfl⟩ := key_of_findJob hj
    unfold working
    split
    · exact hx
    · exact findJob_updJob_other (s := { s with served := _ }) hx (fun _ => ⟨rfl, rfl⟩) hne

/-! ### What a MOOR does to its target -/

/-- A MOOR job shows the unit its target has taken (R447). -/
def unitShown (s : State) (k : Nat) (sub : W32) (x : Job) : State :=
  if x.unit = 0xFF then s else updJob s k sub (fun y => { y with unit := x.unit })

theorem JobsMoved.unitShown {s u : State} (h : JobsMoved s u) (k : Nat) (sub : W32) (x : Job) :
    JobsMoved s (unitShown u k sub x) := by
  unfold Machine.unitShown
  split
  · exact h
  · exact h.updJob _ _ _

theorem findJob_unitShown_same {s : State} {k : Nat} {sub : W32} {j : Job} (hj : findJob s k sub = some j) (x : Job) :
    ∃ m, findJob (unitShown s k sub x) k sub = some m ∧ m.phase = j.phase := by
  unfold unitShown
  split
  · exact ⟨j, hj, rfl⟩
  · exact ⟨_, findJob_updJob_same hj fun _ => ⟨rfl, rfl⟩, rfl⟩

theorem findJob_unitShown_other {s : State} {k k' : Nat} {sub sub' : W32} {j : Job} (hj : findJob s k sub = some j)
    (hne : ¬ (k = k' ∧ sub = sub')) (x : Job) : findJob (unitShown s k' sub' x) k sub = some j := by
  unfold unitShown
  split
  · exact hj
  · exact findJob_updJob_other hj (fun _ => ⟨rfl, rfl⟩) hne

/-- The target is held before its start, which counts as a mooring. -/
def heldBack (s : State) (tc : Nat) (ts : W32) : State :=
  updJob s tc ts (fun y => { y with phase := .held, moorings := y.moorings + 1 })

theorem findJob_heldBack_same {s : State} {tc : Nat} {ts : W32} {x : Job} (hx : findJob s tc ts = some x) :
    findJob (heldBack s tc ts) tc ts = some { x with phase := .held, moorings := x.moorings + 1 } :=
  findJob_updJob_same (f := fun y => { y with phase := .held, moorings := y.moorings + 1 }) hx fun _ => ⟨rfl, rfl⟩

theorem findJob_heldBack_other {s : State} {k tc : Nat} {sub ts : W32} {m : Job} (hm : findJob s k sub = some m)
    (hne : ¬ (k = tc ∧ sub = ts)) : findJob (heldBack s tc ts) k sub = some m :=
  findJob_updJob_other hm (fun _ => ⟨rfl, rfl⟩) hne

section
variable {s : State} {k tc : Nat} {sub ts : W32} {m x : Job} {dry : Bool} (hm : m.desc.body = .moor tc ts dry)
include hm

theorem moorTarget_of_gone (hx : findJob s tc ts = none) : moorTarget s k sub m = endJob s k sub 0 (some 2) 0 := by
  simp only [moorTarget, hm, hx]
  rfl

variable (hx : findJob s tc ts = some x)
include hx

theorem moorTarget_of_neverMoors (hn : x.desc.body.neverMoors = true) :
    moorTarget s k sub m = endJob (unitShown s k sub x) k sub 0 (some 3) 0 := by
  simp only [moorTarget, hm, hx, hn, if_true]
  rfl

variable (hn : x.desc.body.neverMoors = false)
include hn

theorem moorTarget_of_done (hphase : x.phase = .done) :
    moorTarget s k sub m = endJob (unitShown s k sub x) k sub 0 (some 2) 0 := by
  have hdone : x.isDone = true := decide_eq_true hphase
  simp only [moorTarget, hm, hx, hn, hdone, Bool.false_eq_true, if_true, if_false]
  rfl

theorem moorTarget_of_queued (hphase : x.phase = .queued) :
    moorTarget s k sub m = endJob (heldBack (unitShown s k sub x) tc ts) k sub 0 (some 0) 0 := by
  simp only [moorTarget, hm, hx, hn, Job.isDone, hphase, reduceCtorEq, decide_false, Bool.false_eq_true, if_false]
  rfl

theorem moorTarget_of_running (hphase : x.phase = .running) :
    moorTarget s k sub m = requestMoor (unitShown s k sub x) tc ts .moorJob (dry && x.run.isSome) := by
  simp only [moorTarget, hm, hx, hn, Job.isDone, hphase, reduceCtorEq, decide_false, Bool.false_eq_true, if_false]
  rfl

end

/-! ### The command -/

/-- A ready MOOR job does its work on its target. -/
theorem exec_jobMoor {s : State} {k : Fin 8} {sub : W32} {j : Job} (hs : s.phase = .ready) (hj : findJob s k sub = some j)
    (hr : JobReady s j (isTurn s j)) (hw : j.desc.body.isMoor = true) :
    exec (.jobMoor k sub) s = keep s (moorTarget (working (newCycle s) j) k sub (atWork (newCycle s) j)) := by
  refine (whenReady_of (fun s => performJob s k sub JobBody.isMoor true fun s j => moorTarget s k sub j) hs).trans ?_
  rw [performJob_of_jobReady (s := newCycle s) _ hj hw (jobReady_newCycle hr) (findJob_working (s := newCycle s) hj)]

/-- A MOOR job that completes OK with a DETAIL. -/
theorem keep_moorEnds {s u : State} {k : Nat} {sub : W32} {m : Job} (hu : JobsMoved s u) (hm : findJob u k sub = some m)
    (hphase : m.phase = .running) (d : W32) :
    ∃ t, keep s (endJob u k sub 0 (some d) 0) = .next t ∧ DoneDetail t k sub 0 d ∧
      t.jobs = (endJob u k sub 0 (some d) 0).jobs ∧ t.regs = s.regs ∧ SameFrame s t := by
  have hopen : (findJob u k sub).map Job.isDone = some false := by
    rw [hm, Option.map_some, Job.isDone, hphase]
    rfl
  obtain ⟨t, ht, hjobs, hregs, -, hframe⟩ := keep_endJob s hu k sub 0 (some d) 0
  exact ⟨t, ht, doneDetail_congr hjobs (doneDetail_endJob hopen 0 d 0), hjobs, hregs, hframe⟩

theorem isMoor_of_neverMoors_eq_false {b : JobBody} (h : b.neverMoors = false) : b.isMoor = false := by
  cases b with
  | moor => cases h
  | _ => rfl

/-- Settles O32: the MOOR job at work sees its target as it was, and what it does to it is decided by the target's kind and
phase; the end of the MOOR job, and the unit it shows, leave the target. -/
theorem moorJobsReachTheirTarget : Obligations.MoorJobsReachTheirTarget := by
  unfold Obligations.MoorJobsReachTheirTarget
  intro s k sub j tc ts dry hs hj hbody hr hself
  have hother : ¬ (k.val = tc ∧ sub = ts) := fun ⟨h, h'⟩ => hself ⟨h.symm, h'.symm⟩
  have hexec := exec_jobMoor hs hj hr (by rw [hbody]; rfl)
  have hm : (atWork (newCycle s) j).desc.body = .moor tc ts dry := by rw [atWork_desc, hbody]
  have hmoor : findJob (working (newCycle s) j) k sub = some (atWork (newCycle s) j) := findJob_working (s := newCycle s) hj
  have htarget : findJob (working (newCycle s) j) tc ts = findJob s tc ts := findJob_working_other (s := newCycle s) hj hself
  have hmoved : JobsMoved s (working (newCycle s) j) := working_eq (newCycle s) j
  have hrunning := atWork_phase (newCycle s) j
  generalize working (newCycle s) j = w at hexec hmoor htarget hmoved
  generalize atWork (newCycle s) j = a at hexec hm hmoor hrunning
  have hshown (x : Job) : ∃ m, findJob (unitShown w k sub x) k sub = some m ∧ m.phase = .running := by
    obtain ⟨m, hfound, hphase⟩ := findJob_unitShown_same hmoor x
    exact ⟨m, hfound, hphase.trans hrunning⟩
  have hends (x : Job) (d : W32) : ∃ t, keep s (endJob (unitShown w k sub x) k sub 0 (some d) 0) = .next t ∧
      DoneDetail t k sub 0 d ∧ t.regs = s.regs ∧ SameFrame s t := by
    obtain ⟨m, hfound, hphase⟩ := hshown x
    obtain ⟨t, ht, hdone, -, hframe⟩ := keep_moorEnds (hmoved.unitShown k sub x) hfound hphase d
    exact ⟨t, ht, hdone, hframe⟩
  simp only [hexec]
  refine ⟨fun hx => ?gone, fun x hx hn => ?never, fun x hx hn hp => ?done, fun x hx hn hp => ?queued, fun x hx hn hp => ?running⟩
  case gone =>
    rw [moorTarget_of_gone hm (htarget.trans hx)]
    obtain ⟨t, ht, hdone, -, hframe⟩ := keep_moorEnds hmoved hmoor hrunning 2
    exact ⟨t, ht, hdone, hframe⟩
  case never =>
    rw [moorTarget_of_neverMoors hm (htarget.trans hx) hn]
    exact hends x 3
  case done =>
    rw [moorTarget_of_done hm (htarget.trans hx) hn hp]
    exact hends x 2
  case queued =>
    obtain ⟨m, hfound, hphase⟩ := hshown x
    have hheld := findJob_heldBack_same (findJob_unitShown_other (htarget.trans hx) hself x)
    have hstays := findJob_endJob_other hheld (.inr (isMoor_of_neverMoors_eq_false hn)) hself 0 (some 0) 0
    rw [moorTarget_of_queued hm (htarget.trans hx) hn hp]
    obtain ⟨t, ht, hdone, hjobs, hframe⟩ := keep_moorEnds ((hmoved.unitShown k sub x).updJob _ _ _)
      (findJob_heldBack_other hfound hother) hphase 0
    exact ⟨t, ht, hdone, ⟨_, (findJob_congr hjobs _ _).trans hstays, rfl, rfl⟩, hframe⟩
  case running =>
    obtain ⟨m, hfound, hphase⟩ := hshown x
    obtain ⟨y, hy, hyphase, hpending⟩ :=
      findJob_requestMoor_same (findJob_unitShown_other (htarget.trans hx) hself x) .moorJob (dry && x.run.isSome)
    rw [moorTarget_of_running hm (htarget.trans hx) hn hp]
    obtain ⟨t, ht, hjobs, hregs, hframe⟩ := JobsMoved.keep ((hmoved.unitShown k sub x).updJob _ _ _)
    exact ⟨t, ht, ⟨y, (findJob_congr hjobs _ _).trans hy, hyphase.trans hp, hpending⟩,
      ⟨m, (findJob_congr hjobs _ _).trans (findJob_requestMoor_other hfound hother _ _), hphase⟩, hregs, hframe⟩

end Sys2Proof.Machine
end

section
/-! Cast-off and the quantum (R516, R535, R536, R538, R541). -/

namespace Sys2Proof.Machine

theorem onlyJobs_updJob (s : State) (k : Nat) (sub : W32) (f : Job → Job) : OnlyJobs s (updJob s k sub f) := rfl

/-- A job that is not yet done ends with the status and the ERR_SEQ given. -/
theorem findJob_endJob_same {s : State} {k : Nat} {sub : W32} {j : Job} (hj : findJob s k sub = some j) (hopen : j.isDone = false)
    (status : Nat) (detail : Option W32) (q : W32) :
    ∃ x, findJob (endJob s k sub status detail q) k sub = some x ∧ x.phase = .done ∧ x.status = status ∧ x.errSeq = q := by
  have hreleased : findJob (releaseCore s j) k sub = some j := (findJob_congr (releaseCore_jobs s j) k sub).trans hj
  simp only [endJob, hj, hopen, Bool.false_eq_true, if_false]
  refine ⟨_, findJob_resolveMoors_of_done (findJob_updJob_same hreleased ?keys) ?done _, rfl, rfl, rfl⟩
  case keys => exact fun _ => ⟨rfl, rfl⟩
  case done => rfl

/-! ### A moored job goes on (R536) -/

/-- The job runs again. -/
def Job.runsAgain (j : Job) : Job := { j with phase := .running, hostWait := none }

/-- The job is done again, and its poison list is to be tried anew (R514). -/
def Job.listUntried (j : Job) : Job := { j with phase := .done, poisonList := none, hostWait := none }

section
variable {s : State} {k : Nat} {sub : W32} {j : Job} {why : MoorWhy} (hphase : j.phase = .moored why)
include hphase

theorem listMoored_of_moored : j.listMoored = j.poisonList.isSome := by
  simp only [Job.listMoored, Job.isMoored, hphase, Bool.true_and]

theorem not_done_of_moored : j.isDone = false := by
  rw [Job.isDone, hphase]
  rfl

variable (hj : findJob s k sub = some j)
include hj

/-- A moored job that holds no core, and has started, runs again. -/
theorem resumeJob_of_started (hlist : j.poisonList = none) (hrun : j.run = none) (hunit : j.unit ≠ 0xFF) :
    resumeJob s j = updJob s k sub Job.runsAgain := by
  obtain ⟨rfl, rfl⟩ := key_of_findJob hj
  have hplain : j.listMoored = false := by rw [listMoored_of_moored hphase, hlist, Option.isSome_none]
  simp only [resumeJob, hplain, hphase, hrun, hunit, ne_eq, not_false_eq_true, decide_true, Bool.false_eq_true, if_true, if_false]
  rfl

/-- A done job that was moored while its poison list was written is done again. -/
theorem resumeJob_of_list (hlist : j.poisonList.isSome = true) : resumeJob s j = updJob s k sub Job.listUntried := by
  obtain ⟨rfl, rfl⟩ := key_of_findJob hj
  simp only [resumeJob, listMoored_of_moored hphase, hlist, if_true]
  rfl

end

/-! ### The write of MMU_CAST_CMD (R535) -/

/-- The state in which a cast-off is judged: MMU_CAST_CMD names its context. -/
def castNamed (s : State) (k : Nat) : State := setF (newCycle s) MMU_CAST_CMD_CONTEXT k

/-- The job that a write of MMU_CAST_CMD names. -/
def castSub (s : State) : W32 := BitVec.ofNat 32 (getF s MMU_CAST_SUBSEQ_SUBSEQ)

theorem castSub_castNamed (s : State) (k : Nat) : castSub (castNamed s k) = castSub s := by
  rw [castSub, castNamed, getF_setF_other _ _ _ _ (.inl (by decide))]
  rfl

/-- MMU_CAST_CMD stands in HOST, whose clock never stops. -/
theorem castWrite_of_no_wait {s : State} (hq : s.accessQ = []) (k : Nat) (abort : Bool) :
    castWrite k abort (newCycle s) = castCmd (castNamed s k) k abort := by
  have hslot : (plainWrite MMU_CAST_CMD_CONTEXT.key (k + if abort then 0x20 else 0x10)).slot = 2 := rfl
  have hpath : PathFree (newCycle s) 2 := ⟨hq, rfl, fun h => absurd rfl h⟩
  rw [castWrite, arrive_of_pathFree (hslot ▸ hpath)]
  rfl

theorem exec_castRetry {s : State} (hs : s.phase = .ready) (hq : s.accessQ = []) (k : Fin 8) :
    exec (.castRetry k) s = commit s (castCmd (castNamed s k) k false) :=
  (whenReadyMem_of (castWrite k false) hs).trans (congrArg (commit s) (castWrite_of_no_wait hq k false))

theorem exec_castAbort {s : State} (hs : s.phase = .ready) (hq : s.accessQ = []) (k : Fin 8) :
    exec (.castAbort k) s = commit s (castCmd (castNamed s k) k true) :=
  (whenReadyMem_of (castWrite k true) hs).trans (congrArg (commit s) (castWrite_of_no_wait hq k true))

theorem castCmd_of_none {s : State} {k : Nat} (h : findJob s k (castSub s) = none) (abort : Bool) :
    castCmd s k abort = setEvent s MMU_EVENT_CAST_BAD := by
  rw [castSub] at h
  simp only [castCmd, h]

/-- A job moored by a fault, with no record of it waiting, is cast off at once. -/
theorem castCmd_of_faulted {s : State} {k : Nat} {j : Job} (hj : findJob s k (castSub s) = some j)
    (hphase : j.phase = .moored .fault) (hrec : ∀ f ∈ (getCtx s k).faultWait, f.job ≠ some (castSub s)) (abort : Bool) :
    castCmd s k abort = castJob s j abort := by
  have hnone : (getCtx s k).faultWait.any (fun f => decide (f.job = some (castSub s))) = false :=
    List.any_eq_false.2 fun f hf => by simpa using hrec f hf
  have hdriver : j.byDriver = true := by rw [Job.byDriver, hphase]; rfl
  rw [castSub] at hj hnone
  simp only [castCmd, hj, hdriver, hnone, Bool.not_true, Bool.false_eq_true, if_false]

theorem castJob_abort (s : State) (j : Job) : castJob s j true = endJob s j.ctx j.sub 6 none j.faultSeq := rfl

theorem castJob_retry {s : State} {j : Job} (h : j.listMoored = true ∨ unitFree s j = true) :
    castJob s j false = resumeJob s j := by
  simp only [castJob, Bool.or_eq_true, h, Bool.false_eq_true, if_true, if_false]

/-- A cast-off that changes jobs and cores alone leaves every register but MMU_CAST_CMD, and every byte. -/
theorem commit_castNamed {s u : State} {k : Nat} (h : OnlyJobs (castNamed s k) u) :
    ∃ t, commit s u = .next t ∧ t.jobs = u.jobs ∧ RegsBut [MMU_CAST_CMD_CONTEXT.key] s t ∧ SameBytes s t := by
  obtain ⟨t, ht, hjobs, -, hregs, -, -, hbytes⟩ := commit_writes s u
  unfold OnlyJobs at h
  have hnamed : RegsBut [MMU_CAST_CMD_CONTEXT.key] s (castNamed s k) := regsBut_setF (newCycle s) MMU_CAST_CMD_CONTEXT k
  refine ⟨t, ht, hjobs, hnamed.trans (regsBut_congr _ (hregs.trans (by rw [h]))), SameBytes.trans (sameBytes_of ?_ ?_) hbytes⟩
  · rw [h]
    rfl
  · rw [h]
    rfl

/-- A write that names no job raises CAST_BAD. -/
theorem commit_castBad (s : State) (k : Nat) :
    ∃ t, commit s (setEvent (castNamed s k) MMU_EVENT_CAST_BAD) = .next t ∧
      Raised MMU_EVENT_CAST_BAD s t ∧ t.jobs = s.jobs := by
  obtain ⟨t, ht, hjobs, -, hregs, -⟩ := commit_writes s (setEvent (castNamed s k) MMU_EVENT_CAST_BAD)
  have hraised : Raised MMU_EVENT_CAST_BAD s (setEvent (castNamed s k) MMU_EVENT_CAST_BAD) :=
    raised_from (raised_setEvent _ _ (by decide) List.not_mem_nil) (getReg_setF_other (newCycle s) _ _ (by decide))
  exact ⟨t, ht, raised_congr hraised (getReg_congr hregs _), hjobs.trans (setEvent_jobs _ _)⟩

/-! ### Cast-off of a slice and the quantum (R538, R541) -/

theorem moored_of_bySlice {j : Job} (h : j.bySlice = true) : ∃ why, j.phase = .moored why := by
  simp only [Job.bySlice, Bool.or_eq_true, decide_eq_true_eq, or_assoc] at h
  obtain h | h | h := h
  · exact ⟨_, h⟩
  · exact ⟨_, h⟩
  · exact ⟨_, h⟩

/-- A job sliced off that holds no core goes on when its unit is free to it. -/
theorem castOffAuto_of_free {s : State} {k : Nat} {sub : W32} {j : Job} (hj : findJob s k sub = some j) (hslice : j.bySlice = true)
    (hrun : j.run = none) (hfree : unitFree s j = true) : castOffAuto s k sub = resumeJob s j := by
  simp only [castOffAuto, hj, hrun, hslice, hfree, Bool.and_self, if_true]

/-- A quantum of 0 µs acts as 1 (R541). -/
theorem quantum_eq_max (q : Nat) : (if q = 0 then 1 else q) = max 1 q := by
  split
  · omega
  · omega

theorem quantumExpiry_of_elapsed {s : State} {c k : Nat} {sub : W32} {j : Job} {r : RunState}
    (hcore : (getCore s c).running = some (k, sub)) (hj : findJob s k sub = some j) (hrun : j.run = some r)
    (hadmit : flag s (HIF_CTX_CTL_ADMIT k) = true) (hwait : (getCore s c).resident.any (waitsTurn s c) = true)
    (hnow : s.now ≥ r.ranSince + 100 * max 1 (getF s (HIF_CTX_QUANTUM_US k))) :
    quantumExpiry s c = requestMoor s k sub .quantum false := by
  simp only [quantumExpiry, hcore, hj, hrun, quantum_eq_max, hadmit, hwait, hnow, decide_true, Bool.and_self, if_true]

/-- Settles O40: a cast-off ends the job or lets it go on, in the state in which MMU_CAST_CMD names its context; a slice's job
goes on by itself; a quantum that has run asks for a mooring. -/
theorem mooredJobsCastOff : Obligations.MooredJobsCastOff := by
  unfold Obligations.MooredJobsCastOff
  refine ⟨fun s k hs hq => ⟨fun j hj hphase hrec => ?cast, fun hnone => ?bad⟩,
    fun s hs => ⟨fun k sub j hj hslice hlist hrun hfree hunit => ?slice,
      fun c k sub j r hcore hj hrun hadmit hwait hnow => ?quantum⟩⟩
  case cast =>
    have hnamed : findJob (castNamed s k) k (castSub (castNamed s k)) = some j := by
      rw [castSub_castNamed]
      exact hj
    have hcast (abort : Bool) : castCmd (castNamed s k) k abort = castJob (castNamed s k) j abort := by
      refine castCmd_of_faulted hnamed hphase ?_ abort
      rw [castSub_castNamed]
      exact hrec
    rw [exec_castAbort hs hq, exec_castRetry hs hq, hcast, hcast, castJob_abort]
    rw [castSub_castNamed] at hnamed
    refine ⟨?abort, fun hlist hrun hfree hunit => ?runs, fun hlist => ?list⟩
    case abort =>
      obtain ⟨hctx, hsub⟩ := key_of_findJob hj
      rw [hctx, hsub]
      obtain ⟨x, hx, hdone⟩ := findJob_endJob_same hnamed (not_done_of_moored hphase) 6 none j.faultSeq
      obtain ⟨t, ht, hjobs, hframe⟩ := commit_castNamed (onlyJobs_endJob (castNamed s k) k (castSub s) 6 none j.faultSeq)
      obtain ⟨hp, hstatus, hseq⟩ := hdone
      exact ⟨t, x, ht, (findJob_congr hjobs _ _).trans hx, hp, hstatus, hseq, hframe⟩
    case runs =>
      rw [castJob_retry (s := castNamed s k) (.inr hfree), resumeJob_of_started hphase hnamed hlist hrun hunit]
      obtain ⟨t, ht, hjobs, hframe⟩ := commit_castNamed (onlyJobs_updJob (castNamed s k) k (castSub s) Job.runsAgain)
      exact ⟨t, _, ht, (findJob_congr hjobs _ _).trans (findJob_updJob_same hnamed fun _ => ⟨rfl, rfl⟩), rfl, hframe⟩
    case list =>
      have hsome := Option.isSome_iff_ne_none.2 hlist
      rw [castJob_retry (.inl ((listMoored_of_moored hphase).trans hsome)), resumeJob_of_list hphase hnamed hsome]
      obtain ⟨t, ht, hjobs, hframe⟩ := commit_castNamed (onlyJobs_updJob (castNamed s k) k (castSub s) Job.listUntried)
      exact ⟨t, _, ht, (findJob_congr hjobs _ _).trans (findJob_updJob_same hnamed fun _ => ⟨rfl, rfl⟩),
        rfl, rfl, rfl, hframe⟩
  case bad =>
    have hcast (abort : Bool) : castCmd (castNamed s k) k abort = setEvent (castNamed s k) MMU_EVENT_CAST_BAD := by
      refine castCmd_of_none ?_ abort
      rw [castSub_castNamed]
      exact hnone
    intro i hi
    simp only [List.mem_cons, List.not_mem_nil, or_false] at hi
    obtain rfl | rfl := hi
    · rw [exec_castRetry hs hq, hcast]
      exact commit_castBad s k
    · rw [exec_castAbort hs hq, hcast]
      exact commit_castBad s k
  case slice =>
    obtain ⟨why, hphase⟩ := moored_of_bySlice hslice
    have hexec : exec (.castOffAuto k sub) s = commit s (updJob (newCycle s) k sub Job.runsAgain) := by
      refine (whenReadyMem_of (fun s => castOffAuto s k sub) hs).trans ?_
      rw [castOffAuto_of_free (s := newCycle s) hj hslice hrun hfree,
        resumeJob_of_started (s := newCycle s) hphase hj hlist hrun hunit]
    obtain ⟨t, ht, hjobs, -, hregs, -, -, hbytes⟩ := commit_writes s (updJob (newCycle s) k sub Job.runsAgain)
    exact ⟨t, _, hexec.trans ht,
      (findJob_congr hjobs _ _).trans (findJob_updJob_same (s := newCycle s) hj fun _ => ⟨rfl, rfl⟩), rfl, hregs, hbytes⟩
  case quantum =>
    obtain ⟨x, hx, hp, hpending⟩ := findJob_requestMoor_same (s := newCycle s) hj .quantum false
    have hexec : exec (.quantumExpiry c) s = keep s (requestMoor (newCycle s) k sub .quantum false) := by
      refine (whenReady_of (fun s => quantumExpiry s c) hs).trans ?_
      rw [quantumExpiry_of_elapsed (s := newCycle s) hcore hj hrun hadmit hwait hnow]
    obtain ⟨t, ht, hjobs, hregs, hframe⟩ := JobsMoved.keep (s := s) (u := requestMoor (newCycle s) k sub .quantum false)
      ⟨s.served, _, rfl⟩
    exact ⟨t, x, hexec.trans ht, (findJob_congr hjobs _ _).trans hx, hpending, hp, hregs, hframe⟩

end Sys2Proof.Machine
end

section
/-! Self-tests that run (R543, R574 to R579). -/

namespace Sys2Proof.Machine

/-! ### What a destructive test leaves (R577) -/

/-- A zeroed range reads 0, and every other byte is as it was. -/
theorem memByte_zeroMemory (s : State) (a n b : Nat) :
    memByte (zeroMemory s a n) b = if a ≤ b ∧ b < a + n then 0 else memByte s b := by
  refine (smGet_filter 0 s.mem (fun x => decide (x < a) || decide (a + n ≤ x)) b).trans ?_
  simp only [Bool.or_eq_true, decide_eq_true_eq]
  by_cases h : a ≤ b ∧ b < a + n
  · rw [if_pos h, if_neg (by omega)]
  · rw [if_neg h, if_pos (by omega), memByte]

/-- Chains that are replaced leave all else. -/
theorem foldl_putChain_eq (f : State → Nat → Chain) (l : List Nat) (s : State) :
    ∃ chains : SMap Chain, l.foldl (fun s c => putChain s c (f s c)) s = { s with chains := chains } := by
  refine List.foldlRecOn (motive := fun t => ∃ chains : SMap Chain, t = { s with chains := chains }) l _ ⟨s.chains, rfl⟩
    fun t ht c _ => ?_
  obtain ⟨_, rfl⟩ := ht
  exact ⟨_, rfl⟩

/-- The planner store's test empties its memory, and what PLAN and the world held there. -/
theorem testDestroys_store (s : State) (unit base len : Nat) : ∃ chains world,
    testDestroys s 2 unit base len = { zeroMemory s storeBase storeSize with chains := chains, world := world } := by
  obtain ⟨chains, h⟩ := foldl_putChain_eq
    (fun s c => { (getChain s c).dropLive with queue := [], roadNodes := [], roadEdges := [] }) (List.range 4)
    (zeroMemory s storeBase storeSize)
  exact ⟨chains, { s.world with slots := [] }, by simp only [testDestroys, h]; rfl⟩

@[simp] theorem testDestroys_jobs (s : State) (n unit base len : Nat) : (testDestroys s n unit base len).jobs = s.jobs := by
  match n with
  | 0 => rfl
  | 1 => rfl
  | 2 =>
    obtain ⟨_, _, h⟩ := testDestroys_store s unit base len
    rw [h]
    rfl
  | n + 3 => rfl

theorem memByte_testDestroys_store (s : State) (unit base len b : Nat) : memByte (testDestroys s 2 unit base len) b =
    if storeBase ≤ b ∧ b < storeBase + storeSize then 0 else memByte s b := by
  obtain ⟨_, _, h⟩ := testDestroys_store s unit base len
  rw [h]
  exact memByte_zeroMemory s storeBase storeSize b

/-! ### The end of a test (R578, R579) -/

/-- The error a failed test reports. -/
def testError (failure off n unit : Nat) (who : Nat × W32) : ErrInfo :=
  ⟨12, 1, unit, n + 256 * failure, if n = 3 ∨ n = 4 ∨ n = 5 then none else some off, some who⟩

/-- A test that has run ends its job: OK, or TEST_FAIL with the failure code under the number of its error. -/
def testEnded (s : State) (k : Nat) (sub : W32) (failure off n unit : Nat) : State :=
  if failure = 0 then endJob s k sub 0 (some 0) 0
  else
    let (q, u) := reportPlain s (testError failure off n unit (k, sub)) 1
    endJob u k sub 11 (some (BitVec.ofNat 32 failure)) q

theorem testEnded_passed (s : State) (k : Nat) (sub : W32) (off n unit : Nat) :
    testEnded s k sub 0 off n unit = endJob s k sub 0 (some 0) 0 := rfl

theorem testEnded_failed (s : State) (k : Nat) (sub : W32) {failure : Nat} (h : failure ≠ 0) (off n unit : Nat) :
    ∃ u q, OnlyBooks s u ∧ testEnded s k sub failure off n unit = endJob u k sub 11 (some (BitVec.ofNat 32 failure)) q :=
  ⟨_, _, (reported_reportPlain s (testError failure off n unit (k, sub)) (cls := 1) (by decide)).books, if_neg h⟩

theorem OnlyBooks.mem {s t : State} (h : OnlyBooks s t) : t.mem = s.mem := by
  unfold OnlyBooks at h; rw [h]

/-- The end of a test writes no memory. -/
theorem testEnded_mem (s : State) (k : Nat) (sub : W32) (failure off n unit : Nat) :
    (testEnded s k sub failure off n unit).mem = s.mem := by
  have hend (u : State) (status : Nat) (d : Option W32) (q : W32) : (endJob u k sub status d q).mem = u.mem := by
    rw [onlyJobs_endJob u k sub status d q]
  by_cases h : failure = 0
  · rw [h, testEnded_passed, hend]
  · obtain ⟨u, q, hbooks, heq⟩ := testEnded_failed s k sub h off n unit
    rw [heq, hend, hbooks.mem]

/-- A test with no job to moor, no window to defer it and a free range runs. -/
theorem testWork_of_free {s : State} {j : Job} {n unit base len : Nat} (hbody : j.desc.body = .test n unit base len)
    (hholds : testHolds s unit = []) (hallowed : testAllowed s = true) (hfree : testRangeFree s n unit base len = true)
    (failure off : Nat) :
    testWork failure off s j = testEnded (testDestroys s n unit base len) j.ctx j.sub failure off n unit := by
  simp only [testWork, hbody, hholds, List.foldl_nil, List.isEmpty_nil, hallowed, hfree, Bool.not_true, Bool.or_self,
    Bool.false_eq_true, if_false]
  rfl

/-! ### The commands -/

/-- An answer to the command of test `n`, whose work is `u`: only the tests below 3 may write memory. -/
def AnswersTest (n : Nat) (s u : State) (a : Answer) : Prop :=
  ∃ t, a = .next t ∧ t.jobs = u.jobs ∧ (n < 3 → SameBytes u t) ∧ (n ≥ 3 → SameBytes s t)

theorem answersTest_commit {n : Nat} (h : n < 3) (s u : State) : AnswersTest n s u (commit s u) := by
  obtain ⟨t, ht, hjobs, -, hbytes⟩ := commit_next s u
  exact ⟨t, ht, hjobs, fun _ => hbytes, fun h' => absurd h (Nat.not_lt.2 h')⟩

theorem answersTest_keep {n : Nat} (h : n ≥ 3) (s u : State) : AnswersTest n s u (keep s u) :=
  ⟨_, rfl, rfl, fun h' => absurd h' (Nat.not_lt.2 h), fun _ => sameBytes_of rfl rfl⟩

/-- The command of each test does the TEST jobs of its number. -/
theorem exec_test {s : State} (hs : s.phase = .ready) (hr : s.raised = []) (k : Fin 8) (sub : W32) (failure : BitVec 8) (off : W32) :
    ∀ p ∈ [(Instr.testPoolMbist k sub failure off, 0), (.testBasinMbist k sub failure off, 1),
      (.testStoreMbist k sub failure off, 2), (.testArrayBist k sub failure off, 3), (.testGeyserBist k sub failure off, 4),
      (.testCollisionBist k sub failure off, 5), (.testReadCheck k sub failure off, 6)],
      AnswersTest p.2 s (testJob s k sub p.2 failure off) (exec p.1 s) := by
  have hcycle : newCycle s = s := by rw [newCycle, ← hr]
  have hwrites (n : Nat) (hn : n < 3) : AnswersTest n s (testJob s k sub n failure off)
      (whenReadyMem s (fun s => testJob s k sub n failure off)) := by
    rw [whenReadyMem_of _ hs, hcycle]
    exact answersTest_commit hn s _
  have hkeeps (n : Nat) (hn : n ≥ 3) : AnswersTest n s (testJob s k sub n failure off)
      (whenReady s (fun s => testJob s k sub n failure off)) := by
    rw [whenReady_of _ hs, hcycle]
    exact answersTest_keep hn s _
  intro p hp
  simp only [List.mem_cons, List.not_mem_nil, or_false] at hp
  obtain rfl | rfl | rfl | rfl | rfl | rfl | rfl := hp
  · exact hwrites 0 (by decide)
  · exact hwrites 1 (by decide)
  · exact hwrites 2 (by decide)
  · exact hkeeps 3 (by decide)
  · exact hkeeps 4 (by decide)
  · exact hkeeps 5 (by decide)
  · exact hkeeps 6 (by decide)

/-- Settles O30: the ready job goes to work, destroys what its test destroys, and ends as its failure code says; the report of a
failure leaves the job open and memory as it is. -/
theorem selfTestsRunAndComplete : Obligations.SelfTestsRunAndComplete := by
  unfold Obligations.SelfTestsRunAndComplete
  intro s k sub failure off j n unit base len hs hr hj hbody hready hholds hallowed hfree p hp hn
  obtain ⟨t, ht, hjobs, hwrites, hkeeps⟩ := exec_test hs hr k sub failure off p hp
  rw [← hn] at hjobs hwrites hkeeps
  have hfound := findJob_working hj
  obtain ⟨hctx, hsub⟩ := key_of_findJob hfound
  have hwork : testJob s k sub n failure off =
      testEnded (testDestroys (working s j) n unit base len) k sub failure.toNat off.toNat n unit := by
    rw [testJob, performJob_of_jobReady (free := true) _ hj (by rw [hbody]; exact decide_eq_true rfl) hready hfound,
      testWork_of_free (by rw [atWork_desc, hbody]) hholds hallowed hfree, hctx, hsub]
  have hopen : (findJob (testDestroys (working s j) n unit base len) k sub).map Job.isDone = some false := by
    rw [findJob_congr (testDestroys_jobs _ _ _ _ _)]
    exact open_working hj
  have hstands (b : Nat) : memByte (working s j) b = memByte s b := by
    obtain ⟨_, _, h⟩ := working_eq s j
    rw [h]
    rfl
  have hmem (hlt : n < 3) (b : Nat) : memByte t b = memByte (testDestroys (working s j) n unit base len) b := by
    rw [(hwrites hlt).1 b, hwork, memByte, testEnded_mem, memByte]
  rw [hwork] at hjobs
  refine ⟨t, ht, fun hpass => ?passed, fun hfail => ?failed, fun h0 b => ?pool, fun h1 b => ?basin, fun h2 b => ?store, hkeeps⟩
  case passed =>
    rw [hpass, show (0 : BitVec 8).toNat = 0 from rfl, testEnded_passed] at hjobs
    exact doneDetail_congr hjobs (doneDetail_endJob hopen 0 0 0)
  case failed =>
    obtain ⟨u, q, hbooks, heq⟩ := testEnded_failed (testDestroys (working s j) n unit base len) k sub (failure := failure.toNat)
      (fun h => hfail (BitVec.eq_of_toNat_eq h)) off.toNat n unit
    rw [heq] at hjobs
    rw [← findJob_congr hbooks.jobs] at hopen
    exact doneDetail_congr hjobs (doneDetail_endJob hopen 11 _ q)
  case pool =>
    subst h0
    rw [hmem (by decide), ← hstands]
    exact memByte_zeroMemory _ _ _ b
  case basin =>
    subst h1
    rw [hmem (by decide), ← hstands]
    exact memByte_zeroMemory _ _ _ b
  case store =>
    subst h2
    rw [hmem (by decide), ← hstands]
    exact memByte_testDestroys_store _ _ _ _ b

end Sys2Proof.Machine
end

section
/-! SUPPORT. Whole granules written into device memory (R273): which bytes differ, and that no error is met on the way. -/

namespace Sys2Proof.Machine

/-- The bytes from `a` are those of `l`, and of the rest of the state only the books of granules and the cached images differ. -/
structure BytesWritten (a : Nat) (l : List Byte) (s t : State) : Prop where
  frame : t = { s with mem := t.mem, poison := t.poison, latent := t.latent, injectAt := t.injectAt, images := t.images }
  bytes : ∀ b, memByte t b = if a ≤ b ∧ b < a + l.length then l.getD (b - a) 0 else memByte s b

theorem bytesWritten_nil (a : Nat) (s : State) : BytesWritten a [] s s :=
  ⟨rfl, fun b => by rw [List.length_nil, if_neg (by omega)]⟩

/-- A byte of two runs joined, in the first. -/
theorem getD_append_of_lt {l r : List Byte} {i : Nat} (h : i < l.length) : (l ++ r).getD i 0 = l.getD i 0 := by
  rw [List.getD_eq_getElem?_getD, List.getElem?_append_left h, ← List.getD_eq_getElem?_getD]

/-- A byte of two runs joined, in the second. -/
theorem getD_append_of_le {l r : List Byte} {i : Nat} (h : l.length ≤ i) :
    (l ++ r).getD i 0 = r.getD (i - l.length) 0 := by
  rw [List.getD_eq_getElem?_getD, List.getElem?_append_right h, ← List.getD_eq_getElem?_getD]

/-- A run of bytes and the run right behind it. -/
theorem BytesWritten.append {a : Nat} {l r : List Byte} {s t u : State} (h : BytesWritten a l s t)
    (h' : BytesWritten (a + l.length) r t u) : BytesWritten a (l ++ r) s u := by
  obtain ⟨hframe, hbytes⟩ := h
  obtain ⟨hframe', hbytes'⟩ := h'
  refine ⟨?frame, fun b => ?bytes⟩
  case frame => rw [hframe', hframe]
  case bytes =>
    rw [hbytes', hbytes, List.length_append]
    by_cases hl : a ≤ b ∧ b < a + l.length
    · rw [if_neg (by omega), if_pos hl, if_pos (by omega), getD_append_of_lt (by omega)]
    · rw [if_neg hl]
      by_cases hr : a + l.length ≤ b ∧ b < a + l.length + r.length
      · rw [if_pos hr, if_pos (by omega), getD_append_of_le (by omega), Nat.sub_add_eq]
      · rw [if_neg hr, if_neg (by omega)]

/-- What the write of a granule does: it stops where the granule's error stops the job. -/
def granuleOp (who : Option (Nat × W32)) (p : Nat × List Byte) : Op Unit := do
  let s ← get
  set (granuleWrite s who p.1 p.2).2
  match (granuleWrite s who p.1 p.2).1 with
  | some q => failWith 9 none q
  | none => pure ()

theorem runOp_granuleOp_whole (who : Option (Nat × W32)) (a : Nat) {l : List Byte} (h : l.length = 8) (s : State) :
    ∃ t, runOp (granuleOp who (a, l)) s = (.ok (), t) ∧ BytesWritten a l s t := by
  obtain ⟨_, _, _, hwhole⟩ := granuleWrite_whole s who a h
  have hnone : (granuleWrite s who a l).1 = none := by simp only [granuleWrite, h, if_true]
  refine ⟨(granuleWrite s who a l).2, ?ok, ?frame, fun b => ?bytes⟩
  case ok =>
    change runOp (match (granuleWrite s who a l).1 with | some q => failWith 9 none q | none => pure ()) _ = _
    rw [hnone]
    rfl
  case frame =>
    rw [hwhole]
    rfl
  case bytes =>
    rw [hwhole]
    exact smGet_smWrite 0 s.mem a l b

/-- An aligned run is divided into granules. -/
theorem pieces_granule {a : Nat} (ha : a % 8 = 0) {g : List Byte} (hg : g.length = 8) (f : Nat) (l : List Byte) :
    pieces 8 (f + 1) a (g ++ l) = (a, g) :: pieces 8 f (a + 8) l := by
  cases g with
  | nil => cases hg
  | cons x g =>
    rw [List.cons_append, pieces, ha, ← List.cons_append, List.take_left' hg, List.drop_left' hg]
    exact List.cons_ne_nil _ _

/-- An aligned run of whole granules is written granule by granule. -/
theorem runOp_eachOp_granules (who : Option (Nat × W32)) (f : Nat) : ∀ (a : Nat) (l : List Byte) (s : State), a % 8 = 0 →
    l.length % 8 = 0 → l.length ≤ 8 * f →
    ∃ t, runOp (eachOp (granuleOp who) (pieces 8 f a l)) s = (.ok (), t) ∧ BytesWritten a l s t := by
  induction f with
  | zero =>
    intro a l s _ _ hlen
    rw [List.eq_nil_of_length_eq_zero (Nat.le_zero.1 hlen)]
    exact ⟨s, rfl, bytesWritten_nil a s⟩
  | succ f ih =>
    intro a l s ha hl hlen
    by_cases hnil : l = []
    · rw [hnil]
      exact ⟨s, rfl, bytesWritten_nil a s⟩
    · have hpos := List.length_pos_iff.2 hnil
      have hg : (l.take 8).length = 8 := by
        rw [List.length_take]
        omega
      have hrest : (l.drop 8).length = l.length - 8 := List.length_drop
      obtain ⟨t, ht, hfirst⟩ := runOp_granuleOp_whole who a hg s
      obtain ⟨u, hu, hothers⟩ := ih (a + 8) (l.drop 8) t (by omega) (by omega) (by omega)
      rw [← List.take_append_drop 8 l, pieces_granule ha hg, eachOp, runOp_bind_of_ok ht]
      exact ⟨u, hu, hfirst.append (hg.symm ▸ hothers)⟩

theorem memKind_ne_hbm {a : Nat} (h : 0x800000000 ≤ a) : memKind a ≠ some .hbm := by
  unfold memKind
  rw [if_neg (by omega)]
  split
  · simp
  · split
    · simp
    · split
      · simp
      · simp

/-- An aligned run of whole granules outside HBM is written whole, whatever BSN_CTL holds (R64). -/
theorem runOp_writeDev_granules (who : Option (Nat × W32)) {a : Nat} {l : List Byte} (ha : a % 8 = 0) (hl : l.length % 8 = 0)
    (hbm : 0x800000000 ≤ a) (s : State) : ∃ t, runOp (writeDev who a l) s = (.ok (), t) ∧ BytesWritten a l s t := by
  have hgate : runOp (hbmGate a) s = (.ok (), s) := by
    change runOp (if memKind a = some .hbm && !(flag s BSN_CTL_HBM_EN) then failWith 1 none 0 else pure ()) s = _
    rw [decide_eq_false (memKind_ne_hbm hbm), Bool.false_and, if_neg Bool.false_ne_true]
    rfl
  obtain ⟨t, ht, hframe, hbytes⟩ := runOp_eachOp_granules who (l.length + 1) a l (dropImages s a l.length) ha hl (by omega)
  refine ⟨t, ?_, ?_, hbytes⟩
  · unfold writeDev
    rw [runOp_bind_of_ok hgate]
    exact ht
  · rw [hframe]
    rfl

end Sys2Proof.Machine
end

section
/-! Fault records and error records on their way to their rings (R515, R516, R551, R552, R554). -/

namespace Sys2Proof.Machine

/-! ### Answers -/

/-- From canonical memories, a command that writes none answers as one that leaves memory alone. -/
theorem commit_eq_keep {s u : State} (hc : Canonical s) (hm : u.mem = s.mem) (hh : u.host = s.host) : commit s u = keep s u := by
  obtain ⟨hcm, hch⟩ := hc
  rw [commit, hm, hh, smNorm_of_wf 0 s.mem hcm, smNorm_of_wf 0 s.host hch, keep]

/-- From canonical memories, a command that finds nothing to do answers with the state as it was. -/
theorem commit_newCycle {s : State} (hc : Canonical s) : commit s (newCycle s) = .next s := by
  rw [commit_eq_keep (u := newCycle s) hc rfl rfl, keep_newCycle]

theorem OnlyAnnounces.jobs {s t : State} (h : OnlyAnnounces s t) : t.jobs = s.jobs := by
  unfold OnlyAnnounces at h; rw [h]
theorem OnlyAnnounces.ctxs {s t : State} (h : OnlyAnnounces s t) : t.ctxs = s.ctxs := by
  unfold OnlyAnnounces at h; rw [h]
theorem OnlyAnnounces.sameBytes {s t : State} (h : OnlyAnnounces s t) : SameBytes s t := by
  unfold OnlyAnnounces at h
  exact sameBytes_of (by rw [h]) (by rw [h])

theorem sendMsix_regs (s : State) (v : Nat) : (sendMsix s v).regs = s.regs := by
  obtain ⟨_, _, h⟩ := sendMsix_eq s v; rw [h]

/-! ### The fault ring (R514 to R516) -/

/-- The fault record has gone from those that wait to the tail of its ring, whose phase turns with each round. -/
def recordTaken (s : State) (k : Nat) (c : Ctx) (rest : List FaultRec) : State :=
  putCtx s k { getCtx s k with
    faultWait := rest, frTail := (c.frTail + 1) % 64
    frPhase := if (c.frTail + 1) % 64 = 0 then !c.frPhase else c.frPhase }

/-- The record counts, raises MMU_EVENT.FAULT and sends the vector of its context. -/
def faultAnnounced (s : State) (k : Nat) : State := sendMsix (setEvent (incF s MMU_FAULTS_COUNT) MMU_EVENT_FAULT) (8 + k)

theorem onlyAnnounces_faultAnnounced (s : State) (k : Nat) : OnlyAnnounces s (faultAnnounced s k) :=
  ((onlyAnnounces_incF s _).trans (onlyAnnounces_setEvent _ _)).trans (onlyAnnounces_sendMsix _ _)

theorem counted_faultAnnounced (s : State) (k : Nat) : Counted MMU_FAULTS_COUNT 1 s (faultAnnounced s k) := by
  refine counted_congr (counted_incF s MMU_FAULTS_COUNT (by decide) (by decide) rfl) ?_
  rw [faultAnnounced, getReg_congr (sendMsix_regs _ _), getReg_setEvent_other _ _ (by decide)]

theorem raised_faultAnnounced {s : State} (k : Nat) (h : MMU_EVENT_FAULT.key ∉ s.raised) :
    Raised MMU_EVENT_FAULT s (faultAnnounced s k) := by
  have hraised := raised_setEvent (incF s MMU_FAULTS_COUNT) MMU_EVENT_FAULT (by decide) (by rw [incF_raised]; exact h)
  exact raised_congr (raised_from hraised (getReg_addF_other s MMU_FAULTS_COUNT 1 (by decide))) (getReg_congr (sendMsix_regs _ _) _)

section
variable {s : State} {k : Nat} {f : FaultRec} {rest : List FaultRec} (hwait : (getCtx s k).faultWait = f :: rest)
include hwait

theorem faultRecordWrite_of_full (h : frFree s k = 0) : faultRecordWrite s k = s := by
  simp only [faultRecordWrite, hwait, h, if_true]

/-- A record that is written, with no cast-off waiting for it, is taken and announced. -/
theorem faultRecordWrite_of_written {u : State} (h : frFree s k ≠ 0)
    (hwrite : runOp (writeVa none k (frVa s k + 32 * (getCtx s k).frTail)
      (withPhase f.bytes 1 (getCtx s k).frPhase) true false (0, 0))
      s = (.ok (), u)) (hcast : ∀ sub j, f.job = some sub → findJob u k sub = some j → j.castWait = none) :
    faultRecordWrite s k = faultAnnounced (recordTaken u k (getCtx s k) rest) k := by
  have hfound (sub : W32) : findJob (faultAnnounced (recordTaken u k (getCtx s k) rest) k) k sub = findJob u k sub :=
    findJob_congr (onlyAnnounces_faultAnnounced _ k).jobs k sub
  rw [faultAnnounced, recordTaken] at hfound ⊢
  simp only [faultRecordWrite, hwait, h, hwrite, if_false]
  cases hjob : f.job with
  | none => rfl
  | some sub =>
    cases hj : findJob u k sub with
    | none => simp only [hfound, hj]
    | some j => simp only [hfound, hj, hcast sub j hjob hj]

end

theorem exec_faultRecordWrite {s : State} (hs : s.phase = .ready) (hr : s.raised = []) (k : Fin 8) :
    exec (.faultRecordWrite k) s = commit s (faultRecordWrite s k) := by
  have hcycle : newCycle s = s := by rw [newCycle, ← hr]
  refine (whenReadyMem_of (fun s => faultRecordWrite s k) hs).trans ?_
  rw [hcycle]

/-! ### The bytes of an error record (R551) -/

theorem setAt_eq_set {α : Type} (l : List α) (n : Nat) (v : α) : setAt l n v = l.set n v := by
  induction l generalizing n with
  | nil => rfl
  | cons x l ih =>
    cases n with
    | zero => rfl
    | succ n => rw [setAt, ih, List.set_cons_succ]

@[simp] theorem withPhase_length (b : List Byte) (n : Nat) (phase : Bool) : (withPhase b n phase).length = b.length := by
  rw [withPhase, setAt_eq_set, List.length_set]

/-- PHASE lies in one byte of a record. -/
theorem getD_withPhase_other (b : List Byte) {n i : Nat} (phase : Bool) (h : i ≠ n) :
    (withPhase b n phase).getD i 0 = b.getD i 0 := by
  rw [withPhase, setAt_eq_set, List.getD_eq_getElem?_getD, List.getElem?_set_ne h.symm, List.getD_eq_getElem?_getD]

/-! ### The error ring (R552, R555) -/

/-- The ring holds 64 to 4,096 records, which ERR_RING_PTR.TAIL can count. -/
theorem errRingSize_bounds (s : State) : 0 < errRingSize s ∧ errRingSize s ≤ 4096 := by
  unfold errRingSize
  refine ⟨Nat.two_pow_pos _, Nat.pow_le_pow_right (n := 2) (j := 12) (by decide) ?_⟩
  split
  · omega
  · split
    · omega
    · omega

/-- Where the next error record begins. -/
def recordPlace (s : State) : Nat := basinBase + getF s ERR_RING_BASE_OFFSET * 4096 + 32 * getF s ERR_RING_PTR_TAIL

/-- The tail of the error ring stands at `n`, and its phase has turned when that is the start of the ring. -/
def tailMoved (s : State) (n : Nat) : State :=
  let u := setF s ERR_RING_PTR_TAIL n
  if n = 0 then setF u ERR_RING_PTR_PHASE (1 - getF u ERR_RING_PTR_PHASE) else u

theorem onlyRegs_tailMoved (s : State) (n : Nat) : OnlyRegs [ERR_RING_PTR_TAIL.key] s (tailMoved s n) := by
  have htail := onlyRegs_setF s ERR_RING_PTR_TAIL n
  unfold tailMoved
  dsimp only
  split
  · exact htail.trans (onlyRegs_setF _ ERR_RING_PTR_PHASE _)
  · exact htail

theorem getF_tailMoved (s : State) {n : Nat} (h : n < 4096) : getF (tailMoved s n) ERR_RING_PTR_TAIL = n := by
  have htail : getF (setF s ERR_RING_PTR_TAIL n) ERR_RING_PTR_TAIL = n := by
    rw [getF_setF_same _ _ _ (by decide) (by decide)]
    exact Nat.mod_eq_of_lt h
  unfold tailMoved
  dsimp only
  split
  · rw [getF_setF_other _ _ _ _ (.inr (by decide)), htail]
  · exact htail

theorem mirrorRecord_eq (s : State) (pos : Nat) (bytes : List Byte) :
    ∃ host waits, mirrorRecord s pos bytes = { s with host := host, errMirror := waits } := by
  unfold mirrorRecord
  split
  · exact ⟨s.host, s.errMirror, rfl⟩
  · split
    · exact ⟨_, s.errMirror, rfl⟩
    · exact ⟨s.host, _, rfl⟩

/-- The tail moves on past a written record, which is mirrored and announced (R551, R555). -/
def recordPassed (s : State) (n pos : Nat) (bytes : List Byte) : State := sendMsix (mirrorRecord (tailMoved s n) pos bytes) 16

/-- What follows the write of a record leaves device memory and the records that wait, and the tail where it has moved. -/
theorem recordPassed_stands (s : State) {n : Nat} (h : n < 4096) (pos : Nat) (bytes : List Byte) :
    (recordPassed s n pos bytes).mem = s.mem ∧ (recordPassed s n pos bytes).errWait = s.errWait ∧
      getF (recordPassed s n pos bytes) ERR_RING_PTR_TAIL = n := by
  obtain ⟨_, _, hmirror⟩ := mirrorRecord_eq (tailMoved s n) pos bytes
  obtain ⟨_, _, hsend⟩ := sendMsix_eq (mirrorRecord (tailMoved s n) pos bytes) 16
  obtain ⟨hregs, -⟩ := onlyRegs_tailMoved s n
  rw [hmirror] at hsend
  rw [recordPassed, hmirror, hsend]
  exact ⟨by rw [hregs], by rw [hregs], getF_tailMoved s h⟩

/-- The oldest waiting record stands at the tail of the error ring, and the ring has moved on by one. -/
structure RecordWritten (e : ErrRec) (rest : List ErrRec) (s t : State) : Prop where
  waits : t.errWait = rest
  tail : getF t ERR_RING_PTR_TAIL = (getF s ERR_RING_PTR_TAIL + 1) % errRingSize s
  record : ∀ i, i < 32 → i ≠ 3 → memByte t (recordPlace s + i) = e.bytes.getD i 0
  others : ∀ a, a < recordPlace s ∨ recordPlace s + 32 ≤ a → memByte t a = memByte s a

section
variable {s : State} {e : ErrRec} {rest : List ErrRec} (hwait : s.errWait = e :: rest)
include hwait

/-- While the ring is full the record waits, and RING_FULL is set (R554). -/
theorem errorRecordWrite_of_full (h : (getF s ERR_RING_PTR_TAIL + 1) % errRingSize s = getF s ERR_RING_PTR_HEAD % errRingSize s) :
    errorRecordWrite s = if flag s ERR_EVENT_RING_FULL then s else setEvent s ERR_EVENT_RING_FULL := by
  simp only [errorRecordWrite, hwait, h, if_true]

/-- A record that finds room in a ring within the basin is written whole. -/
theorem errorRecordWrite_of_room
    (h : (getF s ERR_RING_PTR_TAIL + 1) % errRingSize s ≠ getF s ERR_RING_PTR_HEAD % errRingSize s) (hlen : e.bytes.length = 32)
    (hfits : getF s ERR_RING_BASE_OFFSET * 4096 + 32 * getF s ERR_RING_PTR_TAIL + 32 ≤ basinSize) :
    ∃ w, BytesWritten (recordPlace s) (withPhase e.bytes 3 (flag s ERR_RING_PTR_PHASE)) { s with errWait := rest } w ∧
      errorRecordWrite s = recordPassed w ((getF s ERR_RING_PTR_TAIL + 1) % errRingSize s) (getF s ERR_RING_PTR_TAIL)
        (withPhase e.bytes 3 (flag s ERR_RING_PTR_PHASE)) := by
  have hbytes : (withPhase e.bytes 3 (flag s ERR_RING_PTR_PHASE)).length = 32 := by rw [withPhase_length, hlen]
  obtain ⟨w, hw, hwritten⟩ := runOp_writeDev_granules none (a := recordPlace s)
    (l := withPhase e.bytes 3 (flag s ERR_RING_PTR_PHASE)) (by simp only [recordPlace, basinBase]; omega) (by omega)
    (by simp only [recordPlace, basinBase]; omega) { s with errWait := rest }
  have hwhole := List.take_of_length_le (l := withPhase e.bytes 3 (flag s ERR_RING_PTR_PHASE))
    (i := basinSize - (getF s ERR_RING_BASE_OFFSET * 4096 + 32 * getF s ERR_RING_PTR_TAIL)) (by omega)
  refine ⟨w, hwritten, ?_⟩
  rw [recordPlace, Nat.add_assoc] at hw
  simp only [errorRecordWrite, hwait, h, hwhole, hw, if_false]
  rfl

theorem recordWritten_of_room
    (h : (getF s ERR_RING_PTR_TAIL + 1) % errRingSize s ≠ getF s ERR_RING_PTR_HEAD % errRingSize s) (hlen : e.bytes.length = 32)
    (hfits : getF s ERR_RING_BASE_OFFSET * 4096 + 32 * getF s ERR_RING_PTR_TAIL + 32 ≤ basinSize) :
    RecordWritten e rest s (errorRecordWrite s) := by
  obtain ⟨w, ⟨hframe, hbytes⟩, hwrite⟩ := errorRecordWrite_of_room hwait h hlen hfits
  obtain ⟨hpos, hmax⟩ := errRingSize_bounds s
  obtain ⟨hmem, hwaits, htail⟩ := recordPassed_stands w (Nat.lt_of_lt_of_le (Nat.mod_lt _ hpos) hmax)
    (getF s ERR_RING_PTR_TAIL) (withPhase e.bytes 3 (flag s ERR_RING_PTR_PHASE))
  rw [← hwrite] at hmem hwaits htail
  have hbyte (b : Nat) : memByte (errorRecordWrite s) b = memByte w b := by rw [memByte, hmem, memByte]
  rw [withPhase_length, hlen] at hbytes
  refine ⟨hwaits.trans (by rw [hframe]), htail, fun i hi hi3 => ?record, fun a ha => ?others⟩
  case record =>
    rw [hbyte, hbytes, if_pos (by omega), Nat.add_sub_cancel_left, getD_withPhase_other _ _ hi3]
  case others =>
    rw [hbyte, hbytes, if_neg (by omega)]
    rfl

end

theorem exec_errorRecordWrite {s : State} (hs : s.phase = .ready) :
    exec .errorRecordWrite s = commit s (errorRecordWrite (newCycle s)) := whenReadyMem_of errorRecordWrite hs

/-- From canonical memories, the event of a command that raises no other and writes no memory. -/
theorem commit_setEvent {s : State} (hc : Canonical s) {ev : RField} (hev : ev.lo < 24) :
    ∃ t, commit s (setEvent (newCycle s) ev) = .next t ∧ Raised ev s t ∧ OnlyEvents [ev.key] s t := by
  rw [commit_eq_keep (u := setEvent (newCycle s) ev) hc (setEvent_mem _ _) (setEvent_host _ _)]
  exact keep_setEvent s hev

/-- Settles O39: a record waits while its ring is full; with room it is written, and what follows the write (the books, the
message, the mirror) leaves its bytes, the tail and the records behind it. -/
theorem recordsWrittenInOrder : Obligations.RecordsWrittenInOrder := by
  unfold Obligations.RecordsWrittenInOrder
  refine ⟨fun s u k f rest hs hr hwait => ⟨fun hfull hc => ?faultWaits, fun hroom hwrite hfirst hcast => ?faultWritten⟩,
    fun s e rest hs hc hwait => ⟨fun hfull => ⟨fun hset => ?errorWaits, fun hclear => ?errorFull⟩,
      fun hroom hlen hfits => ?errorWritten⟩⟩
  case faultWaits =>
    have hcycle : newCycle s = s := by rw [newCycle, ← hr]
    have hsame := commit_newCycle hc
    rw [hcycle] at hsame
    rw [exec_faultRecordWrite hs hr, faultRecordWrite_of_full hwait hfull, hsame]
  case faultWritten =>
    have hwritten := faultRecordWrite_of_written hwait hroom hwrite hcast
    have honly := onlyAnnounces_faultAnnounced (recordTaken u k (getCtx s k) rest) k
    obtain ⟨t, ht, hjobs, hctxs, hregs, -, -, hbytes⟩ := commit_writes s (faultRecordWrite s k)
    rw [hwritten] at hjobs hctxs hregs hbytes
    have hctx : getCtx t k = getCtx (recordTaken u k (getCtx s k) rest) k := getCtx_congr (hctxs.trans honly.ctxs) k
    rw [recordTaken, getCtx_putCtx_same] at hctx
    refine ⟨t, (exec_faultRecordWrite hs hr k).trans ht, by rw [hctx], by rw [hctx], ?counted, ?raised, hjobs.trans honly.jobs,
      honly.sameBytes.trans hbytes⟩
    case counted =>
      have hcounted := counted_faultAnnounced (recordTaken u k (getCtx s k) rest) k
      exact counted_congr (counted_from hcounted rfl) (getReg_congr hregs _)
    case raised =>
      have hraised := raised_faultAnnounced (s := recordTaken u k (getCtx s k) rest) k hfirst
      exact raised_congr (raised_from hraised rfl) (getReg_congr hregs _)
  case errorWaits =>
    have hflag : flag (newCycle s) ERR_EVENT_RING_FULL = true := hset
    rw [exec_errorRecordWrite hs, errorRecordWrite_of_full (s := newCycle s) hwait hfull, hflag, if_pos rfl, commit_newCycle hc]
  case errorFull =>
    have hflag : flag (newCycle s) ERR_EVENT_RING_FULL = false := hclear
    rw [exec_errorRecordWrite hs, errorRecordWrite_of_full (s := newCycle s) hwait hfull, hflag, if_neg Bool.false_ne_true]
    exact commit_setEvent hc (by decide)
  case errorWritten =>
    obtain ⟨hwaits, htail, hrecord, hothers⟩ := recordWritten_of_room (s := newCycle s) hwait hroom hlen hfits
    have hbyte (b : Nat) : smGet 0 (smNorm 0 (errorRecordWrite (newCycle s)).mem) b = memByte (errorRecordWrite (newCycle s)) b :=
      smGet_smNorm 0 _ b
    exact ⟨_, exec_errorRecordWrite hs, hwaits, htail, fun i hi hi3 => (hbyte _).trans (hrecord i hi hi3),
      fun a ha => (hbyte a).trans (hothers a ha)⟩

end Sys2Proof.Machine
end

section
/-! SUPPORT. What an error of class REGION changes, and the end of the region's reinitialisation (R547, R558 to R561). -/

namespace Sys2Proof.Machine

/-! ### Bits of a field -/

/-- A bit of a field reads as it was stored. -/
theorem bitOf_getF_setF (s : State) (f : RField) (v : Nat) {i : Nat} (h : f.hi < 32) (hl : f.lo ≤ f.hi)
    (hi : i < f.hi - f.lo + 1) : bitOf (getF (setF s f v) f) i = bitOf v i := by
  rw [getF_setF_same _ _ _ h hl, bitOf_eq, bitOf_eq, Nat.testBit_mod_two_pow, decide_eq_true hi, Bool.true_and]

theorem bitOf_or_two_pow (x r i : Nat) : bitOf (x ||| 2 ^ r) i = (bitOf x i || decide (i = r)) := by
  rw [bitOf_eq, bitOf_eq, Nat.testBit_or, Nat.testBit_two_pow]
  simp only [eq_comm]

/-- To take away a bit that is set is to store 0 in it. -/
theorem sub_two_pow_eq_setBitsOf {x r : Nat} (h : bitOf x r = true) : x - 2 ^ r = setBitsOf x r r 0 := by
  have hbit : x / 2 ^ r % 2 = 1 := of_decide_eq_true h
  simp only [setBitsOf, bitsOf, Nat.sub_self, Nat.zero_add, Nat.pow_one, hbit, Nat.one_mul, Nat.zero_mod, Nat.zero_mul,
    Nat.add_zero]

theorem bitOf_sub_two_pow {x r : Nat} (h : bitOf x r = true) (i : Nat) : bitOf (x - 2 ^ r) i = (bitOf x i && decide (i ≠ r)) := by
  rw [sub_two_pow_eq_setBitsOf h, bitOf_eq, bitOf_eq, testBit_setBitsOf, Nat.zero_testBit]
  by_cases hir : i = r
  · rw [if_pos (by omega), decide_eq_false (not_not_intro hir), Bool.and_false]
  · rw [if_neg (by omega), decide_eq_true hir, Bool.and_true]

/-! ### What a failed region loses (R558, R560, R561) -/

/-- Nothing but jobs, cores, chains, the timetable and the transfers in flight differs. -/
def OnlyUnits (s t : State) : Prop :=
  t = { s with jobs := t.jobs, cores := t.cores, chains := t.chains, rtio := t.rtio, ferry := t.ferry }

theorem OnlyUnits.trans {s t u : State} (h : OnlyUnits s t) (h' : OnlyUnits t u) : OnlyUnits s u := by
  unfold OnlyUnits at h h'
  rw [h', h]
  rfl

theorem OnlyUnits.regs {s t : State} (h : OnlyUnits s t) : t.regs = s.regs := by
  unfold OnlyUnits at h; rw [h]
theorem OnlyUnits.phase {s t : State} (h : OnlyUnits s t) : t.phase = s.phase := by
  unfold OnlyUnits at h; rw [h]

theorem OnlyJobs.onlyUnits {s t : State} (h : OnlyJobs s t) : OnlyUnits s t := by
  unfold OnlyJobs at h
  rw [h]
  rfl

/-- Work on units, one after another, is work on units. -/
theorem onlyUnits_foldl {α : Type} {f : State → α → State} (hf : ∀ s x, OnlyUnits s (f s x)) (l : List α) (s : State) :
    OnlyUnits s (l.foldl f s) :=
  List.foldlRecOn (motive := OnlyUnits s) l f rfl fun t ht x _ => ht.trans (hf t x)

theorem onlyUnits_failRegionJobs (s : State) (r : Nat) (q : W32) : OnlyUnits s (failRegionJobs s r q) := by
  unfold failRegionJobs
  exact onlyUnits_foldl (fun u j => (onlyJobs_endJob u j.ctx j.sub 5 none q).onlyUnits) (regionJobs s r) s

theorem onlyUnits_flushChain (s : State) (c : Nat) : OnlyUnits s (flushChain s c) :=
  OnlyUnits.trans (t := emptied s c) rfl (onlyJobs_flushChain s c).onlyUnits

theorem onlyUnits_putChain (s : State) (c : Nat) (x : Chain) : OnlyUnits s (putChain s c x) := rfl

theorem onlyUnits_resetPlan (s : State) : OnlyUnits s (resetPlan s) := by
  unfold resetPlan
  exact onlyUnits_foldl (fun u c => (onlyUnits_flushChain u c).trans (onlyUnits_putChain _ c _)) (List.range 4) s

theorem onlyUnits_rtio (s : State) (x : Rtio) : OnlyUnits s { s with rtio := x } := rfl

theorem onlyUnits_stopTrain (s : State) (n : Nat) : OnlyUnits s (stopTrain s n) := rfl

theorem onlyUnits_putMac (s : State) (m : Nat) (x : Mac) : OnlyUnits s (putMac s m x) := rfl

theorem onlyUnits_holdOutputs (s : State) : OnlyUnits s (holdOutputs s) := by
  unfold holdOutputs
  exact (onlyUnits_rtio s _).trans (onlyUnits_foldl onlyUnits_stopTrain (List.range 8) _)

theorem onlyUnits_resetRtio (s : State) : OnlyUnits s (resetRtio s) := by
  unfold resetRtio
  exact ((onlyUnits_holdOutputs s).trans (onlyUnits_foldl (fun u m => onlyUnits_putMac u m { getMac u m with txq := [] })
    (List.range 2) _)).trans (onlyUnits_rtio _ _)

theorem onlyUnits_ferry (s : State) (x : SMap Nat) : OnlyUnits s { s with ferry := x } := rfl

theorem onlyUnits_resetRegion (s : State) (r : Nat) : OnlyUnits s (resetRegion s r) := by
  unfold resetRegion
  dsimp only
  split
  · rfl
  · split
    · exact (onlyUnits_ferry s _).trans (onlyUnits_resetPlan _)
    · split
      · exact (onlyUnits_ferry s _).trans (onlyUnits_resetRtio _)
      · rfl

/-- What an error of class REGION leaves: it is counted, and its region is being reinitialised. -/
structure RegionFailed (r : Nat) (s t : State) : Prop where
  reinit : bitOf (getF t ERR_REGION_STAT_REINIT) r = true
  counted : Counted ERR_REGION_COUNT 1 s t
  phase : t.phase = s.phase

/-- Region `r` is marked in ERR_REGION_STAT. -/
def marked (s : State) (r : Nat) : State := setF s ERR_REGION_STAT_REINIT (getF s ERR_REGION_STAT_REINIT ||| 2 ^ r)

theorem bitOf_marked (s : State) {r : Nat} (hr : r < 9) : bitOf (getF (marked s r) ERR_REGION_STAT_REINIT) r = true := by
  rw [marked, bitOf_getF_setF _ _ _ (by decide) (by decide) hr, bitOf_or_two_pow, decide_eq_true rfl, Bool.or_true]

/-- An error that is not promoted marks its region, is reported, ends the region's jobs and resets its units (R558). -/
theorem regionError_of_not_promoted {s : State} {r : Nat} (h : promote s r 2 = 2) (src detail : Nat) :
    ∃ e q, regionError s src r detail = resetRegion (failRegionJobs (reportPlain (marked s r) e 2).2 r q) r := by
  simp only [regionError, h, if_false, Nat.reduceEqDiff]
  exact ⟨_, _, rfl⟩

theorem regionFailed_regionError {s : State} {r : Nat} (hr : r < 9) (h : promote s r 2 = 2) (src detail : Nat) :
    RegionFailed r s (regionError s src r detail) := by
  obtain ⟨e, q, herror⟩ := regionError_of_not_promoted h src detail
  obtain ⟨hcounted, hbooks, hregs⟩ := reported_reportPlain (marked s r) e (cls := 2) (by decide)
  have hunits := (onlyUnits_failRegionJobs (reportPlain (marked s r) e 2).2 r q).trans (onlyUnits_resetRegion _ r)
  rw [herror]
  refine ⟨?reinit, ?counted, hunits.phase.trans hbooks.phase⟩
  case reinit =>
    rw [getF, getReg_congr hunits.regs, hregs _ (by decide)]
    exact bitOf_marked s hr
  case counted =>
    exact counted_from (counted_congr hcounted (getReg_congr hunits.regs _)) (getReg_setF_other _ _ _ (by decide))

/-- A command that fails a region, in a state `u` of the same registers. -/
theorem keep_regionError {s u : State} {r : Nat} (hregs : u.regs = s.regs) (hphase : u.phase = s.phase) (hr : r < 9)
    (h : promote u r 2 = 2) (src detail : Nat) :
    ∃ t, keep s (regionError u src r detail) = .next t ∧ bitOf (getF t ERR_REGION_STAT_REINIT) r = true ∧
      Counted ERR_REGION_COUNT 1 s t ∧ SameFrame s t := by
  obtain ⟨hreinit, hcounted, hkept⟩ := regionFailed_regionError hr h src detail
  obtain ⟨t, ht, htregs, -, hframe⟩ := keep_frame s (regionError u src r detail) (hkept.trans hphase)
  exact ⟨t, ht, (congrArg (bitOf · r) (getF_congr htregs _)).trans hreinit,
    counted_from (counted_congr hcounted (getReg_congr htregs _)) (getReg_congr hregs _), hframe⟩

/-! ### The end of a reinitialisation (R558, R561) -/

/-- The region is open again, which ERR_REINITS counts. -/
def reopened (s : State) (r : Nat) : State :=
  incF { setF s ERR_REGION_STAT_REINIT (getF s ERR_REGION_STAT_REINIT - 2 ^ r) with
    reinitAt := smPut none s.reinitAt r (some s.now) } ERR_REINITS_COUNT

/-- The end of an RTIO reinitialisation changes the timetable alone. -/
theorem endRtioReinit_eq (s : State) : ∃ rtio, endRtioReinit s = { s with rtio := rtio } := by
  unfold endRtioReinit
  refine List.foldlRecOn (motive := fun t => ∃ rtio : Rtio, t = { s with rtio := rtio }) (List.range 4) _ ⟨_, rfl⟩
    fun t ht c _ => ?_
  obtain ⟨_, rfl⟩ := ht
  exact ⟨_, rfl⟩

theorem reinitDone_of_open {s : State} {r : Nat} (h : bitOf (getF s ERR_REGION_STAT_REINIT) r = false) : reinitDone s r = s := by
  simp only [reinitDone, reinitOn, h, Bool.not_false, if_true]

theorem reinitDone_of_reinit {s : State} {r : Nat} (h : bitOf (getF s ERR_REGION_STAT_REINIT) r = true) :
    ∃ rtio, reinitDone s r = { reopened s r with rtio := rtio } := by
  have hdone : reinitDone s r = if r = 7 then endRtioReinit (reopened s r) else reopened s r := by
    simp only [reinitDone, reinitOn, h, Bool.not_true, Bool.false_eq_true, if_false]
    rfl
  rw [hdone]
  split
  · exact endRtioReinit_eq _
  · exact ⟨_, rfl⟩

theorem bitOf_reopened {s : State} {r : Nat} (h : bitOf (getF s ERR_REGION_STAT_REINIT) r = true) {i : Nat} (hi : i < 9) :
    bitOf (getF (reopened s r) ERR_REGION_STAT_REINIT) i =
      (bitOf (getF s ERR_REGION_STAT_REINIT) i && decide (i ≠ r)) := by
  have hstat : getF (reopened s r) ERR_REGION_STAT_REINIT =
      getF (setF s ERR_REGION_STAT_REINIT (getF s ERR_REGION_STAT_REINIT - 2 ^ r)) ERR_REGION_STAT_REINIT := by
    rw [getF, reopened, incF, getReg_addF_other _ _ _ (by decide)]
    rfl
  rw [hstat, bitOf_getF_setF _ _ _ (by decide) (by decide) hi, bitOf_sub_two_pow h]

theorem reopened_stands (s : State) (r : Nat) :
    smGet none (reopened s r).reinitAt r = some s.now ∧ (reopened s r).jobs = s.jobs ∧ (reopened s r).phase = s.phase := by
  rw [reopened, incF_reinitAt, incF_jobs, incF_phase]
  exact ⟨smGet_smPut_same none s.reinitAt r (some s.now), rfl, rfl⟩

theorem counted_reopened (s : State) (r : Nat) : Counted ERR_REINITS_COUNT 1 s (reopened s r) :=
  counted_from (counted_incF _ _ (by decide) (by decide) rfl)
    ((getReg_congr (t := setF s ERR_REGION_STAT_REINIT _) rfl _).trans (getReg_setF_other _ _ _ (by decide)))

theorem exec_regionReinitDone {s : State} (hs : s.phase = .ready) (r : Fin 9) :
    exec (.regionReinitDone r) s = keep s (reinitDone (newCycle s) r) := whenReady_of (fun s => reinitDone s r) hs

end Sys2Proof.Machine
end

section
/-! Injections of errors and of residues, and the drop of a record's mirror write (R555, R580, R581). -/

namespace Sys2Proof.Machine

/-! ### ERR_INJECT and its act (R581) -/

/-- The registers of the block ERR lie in HOST, where an access that finds none waiting is performed at once. -/
theorem exec_errInject {s : State} (hs : s.phase = .ready) (hq : s.accessQ = []) :
    exec .errInject s = keep s (errInject (newCycle s)) :=
  whenReady_arrive_setBits hs (slot := 9) (by decide) (by decide) ⟨hq, rfl, fun h => absurd rfl h⟩ errInject

theorem errInject_of_pending {s : State} (h : s.inject.isSome = true) : errInject s = s := by
  simp only [errInject, h, if_true]

/-- SOURCE 8 arms a parity injection in any of the nine regions, SOURCE 2 an uncorrectable error in one of the first six. -/
theorem errInject_of_unit {s : State} {src : Nat} (hnone : s.inject = none) (hsrc : getF s ERR_INJECT_SOURCE = src)
    (hunit : src = 8 ∧ getF s ERR_INJECT_UNIT ≤ 8 ∨ src = 2 ∧ getF s ERR_INJECT_UNIT ≤ 5) :
    errInject s = { s with inject := some (src, getF s ERR_INJECT_UNIT), injectAt := none } := by
  simp only [errInject, hnone, Option.isSome_none, Bool.false_eq_true, if_false]
  obtain ⟨rfl, hmax⟩ | ⟨rfl, hmax⟩ := hunit
  · simp only [hsrc]
    rw [if_neg (by omega)]
  · simp only [hsrc]
    rw [if_neg (by omega)]

theorem exec_errInjectAct {s : State} (hs : s.phase = .ready) : exec .errInjectAct s = keep s (errInjectAct (newCycle s)) :=
  whenReady_of errInjectAct hs

theorem errInjectAct_of_held {s : State} (h : testAllowed s = false) : errInjectAct s = s := by
  unfold errInjectAct
  split
  · rfl
  · rw [h, Bool.not_false, if_pos rfl]

theorem errInjectAct_parity {s : State} {u : Nat} (hi : s.inject = some (8, u)) (h : testAllowed s = true) :
    errInjectAct s = { s with inject := none, parityFlip := natInsert u s.parityFlip } := by
  simp only [errInjectAct, hi, h, Bool.not_true, Bool.false_eq_true, if_false, if_true]

theorem errInjectAct_memory {s : State} {src u g : Nat} (hi : s.inject = some (src, u)) (hsrc : src ≠ 8)
    (hg : s.injectAt = some g) (h : testAllowed s = true) :
    errInjectAct s = { s with inject := none, injectAt := none, latent := smPut 0 s.latent g src } := by
  simp only [errInjectAct, hi, h, hg, hsrc, Bool.not_true, Bool.false_eq_true, if_false]

/-! ### RES_INJECT (R580) -/

theorem getCore_putCore_other (s : State) {c i : Nat} (x : Core) (h : i ≠ c) : getCore (putCore s c x) i = getCore s i :=
  smGet_smPut_other _ _ _ h

theorem exec_resInjectArm {s : State} (hs : s.phase = .ready) {c : Fin 4} (hpath : PathFree s (0x10 + c.val)) :
    exec (.resInjectArm c) s = .next (resInjectArm s c) :=
  whenReady_arrive_setBits hs (by omega) (by omega) hpath (fun s => resInjectArm s c)

/-! ### The drop of a record's mirror write (R555) -/

theorem exec_errMirrorDrop {s : State} (hs : s.phase = .ready) : exec .errMirrorDrop s = keep s (errMirrorDrop (newCycle s)) :=
  whenReady_of errMirrorDrop hs

section
variable {s : State} {a since : Nat} {bytes : List Byte} {rest : List (Nat × List Byte × Nat)}
  (hwait : s.errMirror = (a, bytes, since) :: rest)
include hwait

theorem errMirrorDrop_of_early (h : s.now < since + 900) : errMirrorDrop s = s := by
  simp only [errMirrorDrop, hwait, h, if_true]

theorem errMirrorDrop_of_late (h : since + 900 ≤ s.now) : errMirrorDrop s = loseErrMirror { s with errMirror := rest } := by
  simp only [errMirrorDrop, hwait, Nat.not_lt.2 h, if_false]

end

theorem counted_loseErrMirror (s : State) : Counted ERR_MIRROR_DROP_COUNT 1 s (loseErrMirror s) :=
  counted_congr (counted_incF s ERR_MIRROR_DROP_COUNT (by decide) (by decide) rfl) (getReg_setEvent_other _ _ (by decide))

theorem raised_loseErrMirror {s : State} (h : ERR_EVENT_MIRROR_DROP.key ∉ s.raised) :
    Raised ERR_EVENT_MIRROR_DROP s (loseErrMirror s) :=
  raised_from (raised_setEvent _ ERR_EVENT_MIRROR_DROP (by decide) (by rw [incF_raised]; exact h))
    (getReg_addF_other _ _ _ (by decide))

theorem loseErrMirror_stands (s : State) :
    (loseErrMirror s).jobs = s.jobs ∧ (loseErrMirror s).phase = s.phase ∧ (loseErrMirror s).errMirror = s.errMirror := by
  simp only [loseErrMirror, setEvent_jobs, setEvent_phase, setEvent_errMirror, incF_jobs, incF_phase, incF_errMirror, and_self]

/-- A mirror write that is lost leaves the others waiting; it counts, and sets MIRROR_DROP. -/
theorem keep_loseErrMirror (s : State) (rest : List (Nat × List Byte × Nat)) :
    ∃ t, keep s (loseErrMirror { newCycle s with errMirror := rest }) = .next t ∧ t.errMirror = rest ∧
      Counted ERR_MIRROR_DROP_COUNT 1 s t ∧ Raised ERR_EVENT_MIRROR_DROP s t ∧ t.jobs = s.jobs ∧ SameFrame s t := by
  let u : State := { newCycle s with errMirror := rest }
  obtain ⟨hjobs, hphase, hwaits⟩ := loseErrMirror_stands u
  exact ⟨_, rfl, hwaits, counted_from (counted_loseErrMirror u) rfl,
    raised_from (raised_loseErrMirror (s := u) List.not_mem_nil) rfl, hjobs, rfl, rfl, sameBytes_of rfl rfl, hphase, rfl, rfl⟩

/-- Settles O42: an injection is armed where its unit exists and none is pending, and acts as its source says once tests are
allowed; a mirror write waits 900 ticks, and is lost from then on. -/
theorem injectionsArmAndAct : Obligations.InjectionsArmAndAct := by
  unfold Obligations.InjectionsArmAndAct
  intro s hs
  refine ⟨fun hq hnone hsrc hunit => ?armsParity, fun hq hnone hsrc hunit => ?armsMemory, fun hq hpending => ?pending,
    fun u hi hallowed => ?actsParity, fun src u g hi hsrc hg hallowed => ?actsMemory, fun hheld => ?held,
    fun c hpath => ?residue, fun a b since rest hwait => ⟨fun hlate => ?lost, fun hearly => ?waits⟩⟩
  case armsParity =>
    rw [exec_errInject hs hq, errInject_of_unit (s := newCycle s) hnone hsrc (.inl ⟨rfl, hunit⟩)]
    rfl
  case armsMemory =>
    rw [exec_errInject hs hq, errInject_of_unit (s := newCycle s) hnone hsrc (.inr ⟨rfl, hunit⟩)]
    rfl
  case pending => rw [exec_errInject hs hq, errInject_of_pending (s := newCycle s) hpending, keep_newCycle]
  case actsParity =>
    rw [exec_errInjectAct hs, errInjectAct_parity (s := newCycle s) hi hallowed]
    rfl
  case actsMemory =>
    rw [exec_errInjectAct hs, errInjectAct_memory (s := newCycle s) hi hsrc hg hallowed]
    rfl
  case held => rw [exec_errInjectAct hs, errInjectAct_of_held (s := newCycle s) hheld, keep_newCycle]
  case residue =>
    exact ⟨_, exec_resInjectArm hs hpath, rfl, getCore_putCore_same s c _, fun i hi => getCore_putCore_other s _ hi⟩
  case lost =>
    rw [exec_errMirrorDrop hs, errMirrorDrop_of_late (s := newCycle s) hwait hlate]
    exact keep_loseErrMirror s rest
  case waits => rw [exec_errMirrorDrop hs, errMirrorDrop_of_early (s := newCycle s) hwait hearly, keep_newCycle]

end Sys2Proof.Machine
end

section
/-! Ferry crossings, the end of a reinitialisation, the timeout of a host access and a correctable error of the link (R548,
R558, R610, R612, R613, R723). -/

namespace Sys2Proof.Machine

/-! ### Ferry crossings (R610, R612, R613) -/

/-- A transfer whose parity is right leaves its receiver alone, where no flip is armed. -/
theorem deliver_of_good {s : State} {dst : Nat} (hflip : s.parityFlip.contains dst = false) (src : Nat) (act : State → State) :
    deliver s src dst true act = act s := by
  simp only [deliver, hflip, natErase_of_not_contains hflip, Bool.not_true, Bool.xor_false, Bool.false_eq_true, if_false]

/-- A transfer whose parity is wrong is an error in its receiver, where no flip is armed. -/
theorem deliver_of_bad {s : State} {dst : Nat} (hflip : s.parityFlip.contains dst = false) (src : Nat) (act : State → State) :
    deliver s src dst false act = regionError s 8 dst (src + 16 * dst) := by
  simp only [deliver, hflip, natErase_of_not_contains hflip, Bool.not_false, Bool.xor_false, if_true]

/-- The picosecond at which a transfer launched at `t` is delivered: free where a region of its crossing is stretched (log entry
88). -/
def ferryAt (s : State) (src dst t : Nat) : Nat :=
  if (getClk s src).stretched || (getClk s dst).stretched then t + (Config.stretchedFerry src dst t).val
  else ferryDelivery s src dst t

/-- A transfer delivered at the picosecond `at_`. -/
def delivered (s : State) (src dst at_ : Nat) : State := { s with out := { s.out with ferry := some (src, dst, at_) } }

/-- A transfer that waits in a slot of its crossing. -/
def slotTaken (s : State) (src dst : Nat) : State :=
  { s with ferry := smPut 0 s.ferry (src * 16 + dst) (slotsTaken s src dst + 1) }

theorem slotsTaken_slotTaken (s : State) (src dst : Nat) :
    slotsTaken (slotTaken s src dst) src dst = slotsTaken s src dst + 1 := by
  rw [slotsTaken, slotTaken, smGet_smPut_same]

theorem deliverFerry_of_held {s : State} {src dst : Nat} (h : launchHeld s src dst = true) (t : Nat) (ok : Bool) :
    deliverFerry s src dst t ok = s := by
  simp only [deliverFerry, h, or_true, if_true]

/-- A transfer that is launched is delivered, or waits in a slot while its receiver is stopped. -/
theorem deliverFerry_of_launched {s : State} {src dst : Nat} (hne : src ≠ dst) (hlaunch : launchHeld s src dst = false)
    (t : Nat) (ok : Bool) :
    deliverFerry s src dst t ok =
      deliver (if (getClk s dst).stopped then slotTaken (delivered s src dst (ferryAt s src dst t)) src dst
        else delivered s src dst (ferryAt s src dst t)) src dst ok id := by
  simp only [deliverFerry, hne, hlaunch, Bool.false_eq_true, or_self, if_false]
  rfl

section
variable {s : State} {src dst : Nat} (hne : src ≠ dst) (hfree : CrossingFree s src dst)
include hne hfree

/-- A transfer that passes takes the latency of R610, where no region of its crossing is stretched. -/
theorem deliverFerry_good (hsrc : (getClk s src).stretched = false) (hdst : (getClk s dst).stretched = false) (t : Nat) :
    deliverFerry s src dst t true = delivered s src dst (ferryDelivery s src dst t) := by
  obtain ⟨hlaunch, hruns, hflip⟩ := hfree
  have hat : ferryAt s src dst t = ferryDelivery s src dst t := by
    simp only [ferryAt, hsrc, hdst, Bool.or_self, Bool.false_eq_true, if_false]
  rw [deliverFerry_of_launched hne hlaunch, if_neg (ne_true_of_eq_false hruns), hat]
  exact deliver_of_good (s := delivered s src dst _) hflip src id

/-- A transfer that passes with its parity wrong is an error in its receiver. -/
theorem deliverFerry_bad (t : Nat) :
    deliverFerry s src dst t false = regionError (delivered s src dst (ferryAt s src dst t)) 8 dst (src + 16 * dst) := by
  obtain ⟨hlaunch, hruns, hflip⟩ := hfree
  rw [deliverFerry_of_launched hne hlaunch, if_neg (ne_true_of_eq_false hruns)]
  exact deliver_of_bad (s := delivered s src dst _) hflip src id

end

/-- A transfer to a stopped receiver waits in a slot of its crossing. -/
theorem deliverFerry_of_stopped {s : State} {src dst : Nat} (hne : src ≠ dst) (hlaunch : launchHeld s src dst = false)
    (hflip : s.parityFlip.contains dst = false) (hstop : (getClk s dst).stopped = true) (t : Nat) :
    deliverFerry s src dst t true = slotTaken (delivered s src dst (ferryAt s src dst t)) src dst := by
  rw [deliverFerry_of_launched hne hlaunch, if_pos hstop]
  exact deliver_of_good (s := slotTaken (delivered s src dst _) src dst) hflip src id

theorem exec_ferryDelivery {s : State} (hs : s.phase = .ready) (src dst : Fin 9) (ps : Nat) (ok : Bool) :
    exec (.ferryDelivery src dst ps ok) s = keep s (deliverFerry (newCycle s) src dst ps ok) :=
  whenReady_of (fun s => deliverFerry s src dst ps ok) hs

/-! ### Reports and the job they end (R447, R517, R548, R723) -/

/-- The number that follows a record's: 0 is skipped (R517). -/
def nextSeq (q : W32) : W32 := if q + 1 = 0 then 1 else q + 1

theorem fileRecord_fseq (s : State) (r : ErrRec) : (fileRecord s r).fseq = s.fseq := by
  unfold fileRecord
  split
  · rfl
  · split
    · rw [setEvent_fseq, incF_fseq]
    · split
      · rw [setEvent_fseq]
      · rfl

theorem summarise_fseq (s : State) (src cls : Nat) : (summarise s src cls).fseq = s.fseq := by
  unfold summarise
  dsimp only
  split
  · rfl
  · rfl

/-- A report takes one number. -/
theorem reportPlain_fseq (s : State) (e : ErrInfo) {cls : Nat} (h : cls < 3) : (reportPlain s e cls).2.fseq = nextSeq s.fseq := by
  obtain ⟨r, hr⟩ := reportPlain_eq s e (cls := cls) (by omega)
  rw [hr, fileRecord_fseq, countError_eq _ _ h, setEvent_fseq, incF_fseq, summarise_fseq]
  rfl

/-- The error that a host access reports which the link has not taken for 50 ms (R723). -/
def timeoutError (a k : Nat) (sub : W32) : ErrInfo := ⟨6, 1, 6, 0x4000, some a, some (k, sub)⟩

/-- The correctable error of the link, with its AER status (R548). -/
def linkError (status : W32) : ErrInfo := ⟨5, 0, 6, status.toNat, none, none⟩

/-- An access that has waited 50 ms for the link is reported, and its job ends ECC. -/
theorem hostTimeout_of_late {s : State} {k a at_ : Nat} {sub : W32} {j : Job} (hj : findJob s k sub = some j)
    (hwait : j.hostWait = some (a, at_)) (hopen : j.isDone = false) (hlink : flag s HIF_STAT_LINK_UP = false)
    (hlate : s.now ≥ at_ + 5000000) :
    hostTimeout s k sub =
      endJob (reportPlain s (timeoutError a k sub) 1).2 k sub 9 none (reportPlain s (timeoutError a k sub) 1).1 := by
  simp only [hostTimeout, hj, hwait, hopen, hlink, hlate, Bool.not_false, and_self, if_true]
  rfl

/-- The end of a job whose error was reported. -/
theorem keep_reported_endJob {s u : State} {cls k : Nat} {sub : W32} {j : Job} (hu : Reported cls (newCycle s) u)
    (hj : findJob s k sub = some j) (hopen : j.isDone = false) (status : Nat) (q : W32) :
    ∃ t, keep s (endJob u k sub status none q) = .next t ∧ DoneWith t k sub status ∧ Counted (classCount cls) 1 s t ∧
      SameFrame s t := by
  obtain ⟨hcounted, hbooks, -⟩ := hu
  have hunits := (onlyJobs_endJob u k sub status none q).onlyUnits
  have hdone := doneWith_endJob ((findJob_congr hbooks.jobs k sub).trans hj) hopen status none q
  exact ⟨_, rfl, doneWith_congr rfl hdone, counted_from (counted_congr hcounted (getReg_congr hunits.regs _)) rfl, rfl, rfl,
    sameBytes_of rfl rfl, hunits.phase.trans hbooks.phase, rfl, rfl⟩

/-- Settles O43: a transfer by what holds its launch, by its receiver's clock and by its parity; the end of a reinitialisation
by the region's bit; then the job of the late access, and the correctable error of the link. -/
theorem crossingsReinitAndLinkErrors : Obligations.CrossingsReinitAndLinkErrors := by
  unfold Obligations.CrossingsReinitAndLinkErrors
  refine ⟨fun s src dst ps hs hne hfree hsrc hdst => ⟨?good, fun hclass => ?bad⟩,
    fun s src dst ps hs hne hflip => ⟨fun hheld ok => ?launchHeld, fun hlaunch hstop => ?slot⟩,
    fun s hs => ⟨fun r hr => ?reopens, fun r hr => ?alreadyOpen,
      fun k sub j a at_ hj hwait hopen hlink hlate => ?timeout, fun status => ?correctable⟩⟩
  case good =>
    rw [exec_ferryDelivery hs, deliverFerry_good (s := newCycle s) (Fin.val_ne_of_ne hne) hfree hsrc hdst]
    exact ⟨_, rfl, rfl, rfl, rfl, rfl, rfl, sameBytes_of rfl rfl, rfl, rfl, rfl⟩
  case bad =>
    rw [exec_ferryDelivery hs, deliverFerry_bad (s := newCycle s) (Fin.val_ne_of_ne hne) hfree]
    obtain ⟨t, ht, hreinit, hcounted, -, -, hbytes, -⟩ := keep_regionError (s := s)
      (u := delivered (newCycle s) src dst (ferryAt (newCycle s) src dst ps)) rfl rfl dst.isLt hclass 8 (src + 16 * dst)
    exact ⟨t, ht, hreinit, hcounted, hbytes⟩
  case launchHeld => rw [exec_ferryDelivery hs, deliverFerry_of_held (s := newCycle s) hheld, keep_newCycle]
  case slot =>
    rw [exec_ferryDelivery hs, deliverFerry_of_stopped (s := newCycle s) (Fin.val_ne_of_ne hne) hlaunch hflip hstop]
    exact ⟨_, rfl, slotsTaken_slotTaken (newCycle s) src dst, rfl, rfl, rfl, rfl, sameBytes_of rfl rfl, rfl, rfl, rfl⟩
  case reopens =>
    obtain ⟨rtio, hdone⟩ := reinitDone_of_reinit (s := newCycle s) hr
    obtain ⟨hat, hjobs, hphase⟩ := reopened_stands (newCycle s) r
    rw [exec_regionReinitDone hs, hdone]
    exact ⟨_, rfl, fun i hi => bitOf_reopened (s := newCycle s) hr hi, counted_from (counted_reopened (newCycle s) r) rfl,
      hat, hjobs, rfl, rfl, sameBytes_of rfl rfl, hphase, rfl, rfl⟩
  case alreadyOpen =>
    rw [exec_regionReinitDone hs, reinitDone_of_open (s := newCycle s) hr, keep_newCycle]
  case timeout =>
    have hexec : exec (.hostAccessTimeout k sub) s = keep s (hostTimeout (newCycle s) k sub) :=
      whenReady_of (fun s => hostTimeout s k sub) hs
    rw [hexec, hostTimeout_of_late (s := newCycle s) hj hwait hopen hlink hlate]
    exact keep_reported_endJob (reported_reportPlain (newCycle s) _ (by decide)) hj hopen 9 _
  case correctable =>
    have hexec : exec (.pcieCe status) s = keep s (reportPlain (newCycle s) (linkError status) 0).2 :=
      whenReady_of (fun s => (reportPlain s (linkError status) 0).2) hs
    obtain ⟨hcounted, hbooks, -⟩ := reported_reportPlain (newCycle s) (linkError status) (cls := 0) (by decide)
    exact ⟨_, hexec, counted_from hcounted rfl, hbooks.jobs, reportPlain_fseq (newCycle s) _ (by decide), rfl, rfl,
      sameBytes_of rfl rfl, hbooks.phase, rfl, rfl⟩

end Sys2Proof.Machine
end
